-- ==== Sys2Proof/Word.lean ====
section
/-! DEFINITION. The word types of the ring block (00_scope.md R14, R21): bytes, 32-bit words, the
128-bit values of the cipher stream and the 64-bit OWNER image. -/

namespace Sys2Proof

/-- A `u8` (00_scope.md R14). -/
abbrev Byte := BitVec 8

/-- A `u32`: a control register, a descriptor word or a DMA address (00_scope.md R14, 30_encoding.md R119). -/
abbrev Word := BitVec 32

/-- Sixteen bytes as their little-endian number (`LE128`, 00_scope.md R15): an IV, a counter, an AES block. -/
abbrev Block := BitVec 128

/-- The 64-bit image of an execution context in a descriptor's OWNER field (30_encoding.md R126). -/
abbrev Handle := BitVec 64

end Sys2Proof
end

