-- ==== Sys2Proof/Config.lean ====
section
/-! DEFINITION. What an implementation of the ring block fixes: the algorithms and their sizes
(00_scope.md R12, R13, R19), the parameters (R11) and the configuration functions (R22), which are
uninterpreted: nothing can be proved of their values. -/

namespace Sys2Proof

/-- The two engines in scope, and the two rings they consume (00_scope.md R9). -/
inductive EngineId where
  | aes
  | hash
  deriving DecidableEq, Repr, Inhabited

/-- The cipher algorithms (00_scope.md R19). -/
inductive CipherAlg where
  | ecb
  | cbc
  | ctr
  | chacha20
  deriving DecidableEq, Repr, Inhabited

/-- The hash algorithms (00_scope.md R19). -/
inductive HashAlg where
  | md5
  | sha3_224
  | sha3_256
  | sha3_384
  | sha3_512
  | ghash
  deriving DecidableEq, Repr, Inhabited

/-- An algorithm of the mode word (00_scope.md R4, 30_encoding.md R121). -/
inductive Alg where
  | cipher (a : CipherAlg)
  | hash (a : HashAlg)
  deriving DecidableEq, Repr, Inhabited

/-- `BS(alg)` for the ciphers (00_scope.md R12). -/
def CipherAlg.blockSize : CipherAlg → Nat
  | .ecb => 16
  | .cbc => 16
  | .ctr => 16
  | .chacha20 => 64

/-- `usesIV(alg)` (00_scope.md R19). -/
def CipherAlg.usesIV : CipherAlg → Bool
  | .ecb => false
  | .cbc => true
  | .ctr => true
  | .chacha20 => true

/-- `BS(alg)` for the hashes (00_scope.md R12). -/
def HashAlg.blockSize : HashAlg → Nat
  | .md5 => 64
  | .sha3_224 => 144
  | .sha3_256 => 136
  | .sha3_384 => 104
  | .sha3_512 => 72
  | .ghash => 16

/-- `STATE_LEN(alg)` (00_scope.md R12). -/
def HashAlg.stateLen : HashAlg → Nat
  | .md5 => 16
  | .sha3_224 => 200
  | .sha3_256 => 200
  | .sha3_384 => 200
  | .sha3_512 => 200
  | .ghash => 16

/-- `DIGEST_LEN(alg)` (00_scope.md R12). -/
def HashAlg.digestLen : HashAlg → Nat
  | .md5 => 16
  | .sha3_224 => 28
  | .sha3_256 => 32
  | .sha3_384 => 48
  | .sha3_512 => 64
  | .ghash => 16

/-- `BS(alg)` (00_scope.md R12). -/
def Alg.blockSize : Alg → Nat
  | .cipher a => a.blockSize
  | .hash a => a.blockSize

/-- The ring that carries an algorithm (30_encoding.md R121). -/
def Alg.engine : Alg → EngineId
  | .cipher _ => .aes
  | .hash _ => .hash

/-- `usesIV(alg)` (00_scope.md R19); no hash uses one. -/
def Alg.usesIV : Alg → Bool
  | .cipher a => a.usesIV
  | .hash _ => false

/-- The byte order of the CTR counter, `CTR_ENDIAN` (00_scope.md R11, 41_descriptor_commands.md R207). -/
inductive Endian where
  | little
  | big
  deriving DecidableEq, Repr, Inhabited

/-- `ENGINE_KEYSZ`: which of the codes 0, 1 and 2 the AES engine accepts (00_scope.md R11). -/
structure KeyszSet where
  k128 : Bool
  k192 : Bool
  k256 : Bool
  deriving DecidableEq, Repr, Inhabited

/-- `ERRNO`: the numeric codes of the error results (60_exceptions.md R352). -/
structure Errno where
  interrupted : Int
  timeout : Int
  invalidParameter : Int
  badKeyLength : Int
  deriving DecidableEq, Repr, Inhabited

/-- `MODE_CODEC` (00_scope.md R11, 30_encoding.md R120, R121): the default layout, or a rearrangement of it
in which `bits` gives the place of each of the 32 bits of the default mode word and `codes` the code of each
`ALG` number. DESIGN CHOICE of the codecs covered (notes/assumptions/4.md). -/
inductive ModeCodec where
  | default
  | rearranged (bits : List Nat) (codes : List (BitVec 4))
  deriving DecidableEq, Repr, Inhabited

/-- Every bit has a place of its own in the word and every `ALG` number a code of its own. -/
def ModeCodec.wf : ModeCodec → Bool
  | .default => true
  | .rearranged bits codes =>
    bits.length == 32 && decide bits.Nodup && (bits.all fun i => decide (i < 32)) &&
      codes.length == 16 && decide codes.Nodup

/-- The open parameters of 00_scope.md R11. They are fixed by the implementation: no step writes them
(notes/assumptions/3.md). `dmaRegions` gives the predicate `DMA_OK` of 20_memory.md R84 as the backed
ranges, each a base and a length (notes/assumptions/5.md). -/
structure Params where
  nAes : Nat
  nHash : Nat
  regBase : Word
  dmaRegions : List (Nat × Nat)
  engineKeysz : KeyszSet
  ctrEndian : Endian
  errno : Errno
  codec : ModeCodec
  deriving DecidableEq, Repr, Inhabited

/-- The parameters of `State.reset`: the defaults of 00_scope.md R11 and 60_exceptions.md R352 where they
give one, else a DESIGN CHOICE (notes/assumptions/3.md: N_AES = N_HASH = 4, REG_BASE = 0, all of the DMA
space backed; unsafe for statements about `State.reset` only). -/
def Params.default : Params where
  nAes := 4
  nHash := 4
  regBase := 0
  dmaRegions := [(0, 0x100000000)]
  engineKeysz := ⟨true, true, true⟩
  ctrEndian := .little
  errno := ⟨-4, -110, -22, -22⟩
  codec := ModeCodec.default

/-- What 00_scope.md R11 asks of the parameters: at least three slots in each ring, and a mode codec that is
a pair of inverse functions (30_encoding.md R125). -/
def Params.wf (p : Params) : Bool := decide (3 ≤ p.nAes) && decide (3 ≤ p.nHash) && p.codec.wf

/-- `N_r`, the number of slots of a ring, link slot included (00_scope.md R11). -/
def Params.slots (p : Params) : EngineId → Nat
  | .aes => p.nAes
  | .hash => p.nHash

namespace Config

/-- The largest payload of a descriptor, `SIZE_MAX` (00_scope.md R11). -/
def sizeMax : Nat := 65535

/-- `TRB_BYTES` (00_scope.md R11). -/
def trbBytes : Nat := 32

/-- `MAXRUN(bs)` (00_scope.md R13). -/
def maxRun (bs : Nat) : Nat := sizeMax - sizeMax % bs

/-- `GHASH_TAG_SIZE` (00_scope.md R11). -/
def ghashTagSize : Nat := 16

/-- One past the last DMA address (20_memory.md R83). -/
def dmaEnd : Nat := 0x100000000

/-- An AES key of 16, 24 or 32 bytes, as its little-endian number (00_scope.md R22). -/
inductive AesKey where
  | k128 (k : BitVec 128)
  | k192 (k : BitVec 192)
  | k256 (k : BitVec 256)
  deriving DecidableEq, Repr

/-- `AES_Enc(key, blk16)` (00_scope.md R22): uninterpreted (notes/assumptions/21.md). -/
opaque aesEnc : AesKey → Block → Block

/-- `AES_Dec(key, blk16)` (00_scope.md R22): uninterpreted (notes/assumptions/21.md). -/
opaque aesDec : AesKey → Block → Block

/-- `ChaCha20_Block(key32, ctrnonce16)` (00_scope.md R22): uninterpreted (notes/assumptions/21.md). -/
opaque chacha20Block : BitVec 256 → Block → BitVec 512

/-- `MD5_Compress(state16, blk64)` (00_scope.md R22): uninterpreted (notes/assumptions/21.md). -/
opaque md5Compress : Block → BitVec 512 → Block

/-- `Keccak_F1600(state200)` (00_scope.md R22): uninterpreted (notes/assumptions/21.md). -/
opaque keccakF1600 : BitVec 1600 → BitVec 1600

/-- `GF128_Mul(x16, h16)` (00_scope.md R22): uninterpreted (notes/assumptions/21.md). -/
opaque gf128Mul : Block → Block → Block

/-- FREE VALUE: what CHAIN holds after a hardware reset, which no source gives (10_state.md R44, R64;
notes/assumptions/8.md). -/
opaque chainAfterReset : Nat → Block

end Config

end Sys2Proof
end

