-- ==== Sys2Proof/Syntax.lean ====
section
/-! DEFINITION. The commands of opcode_table.json, one constructor a row, over the fields of the
descriptor (30_encoding.md R111, R112, R120). -/

namespace Sys2Proof

/-- The mode value of 30_encoding.md R125. -/
structure Mode where
  alg : Alg
  dir : Bool
  keysz : BitVec 2
  final : Bool
  deriving DecidableEq, Repr, Inhabited

/-- The fields of a normal descriptor but TYPE, ALG and DIR, which the command gives, and the reserved
bits, which have no meaning (30_encoding.md R111, R112, R120, R131; notes/assumptions/18.md). -/
structure Trb where
  c : Bool
  cc : BitVec 7
  tc : Bool
  ioc : Bool
  size : BitVec 16
  sptr : Word
  dptr : Word
  keysz : BitVec 2
  final : Bool
  iptr : Word
  kptr : Word
  owner : Handle
  deriving DecidableEq, Repr, Inhabited

/-- The commands of 30_encoding.md R132. ECB and CBC have one command for each direction; the others
carry DIR as a field they ignore (R122). -/
inductive Instr where
  | link (c tc : Bool) (dptr : Word)
  | aesEcbEnc (d : Trb)
  | aesEcbDec (d : Trb)
  | aesCbcEnc (d : Trb)
  | aesCbcDec (d : Trb)
  | aesCtr (dir : Bool) (d : Trb)
  | chacha20 (dir : Bool) (d : Trb)
  | md5 (dir : Bool) (d : Trb)
  | sha3_224 (dir : Bool) (d : Trb)
  | sha3_256 (dir : Bool) (d : Trb)
  | sha3_384 (dir : Bool) (d : Trb)
  | sha3_512 (dir : Bool) (d : Trb)
  | ghash (dir : Bool) (d : Trb)
  deriving DecidableEq, Repr, Inhabited

end Sys2Proof
end

