-- ==== Sys2Proof/WellFormed.lean ====
section
/-! DEFINITION. The descriptors the spec's controller writes (30_encoding.md R113 to R127). The decoder
and the engine also take the others; each check cites the rule that says what the controller writes. -/

namespace Sys2Proof

/-- The checks every normal descriptor shares: CC and TC written 0 (30_encoding.md R114, R115), SIZE
positive and a block multiple (R118). -/
def Trb.wf (bs : Nat) (d : Trb) : Bool :=
  d.cc == 0 && !d.tc && d.size != 0 && d.size.toNat % bs == 0

/-- FINAL is written 0 for ciphers (30_encoding.md R124), KEYSZ is one of the three AES codes (R123). -/
def Trb.wfAes (d : Trb) : Bool :=
  d.wf 16 && !d.final && d.keysz != 3

/-- DIR and KEYSZ are written 0 for MD5 and SHA3 (30_encoding.md R122, R123). -/
def Trb.wfHash (bs : Nat) (dir : Bool) (d : Trb) : Bool :=
  d.wf bs && !dir && d.keysz == 0

/-- Whether the controller of the spec writes this descriptor. -/
def Instr.wf : Instr → Bool
  -- the ring's own base is a multiple of 32 (30_encoding.md R127, 20_memory.md R85)
  | .link _ _ dptr => dptr.toNat % 32 == 0
  | .aesEcbEnc d => d.wfAes
  | .aesEcbDec d => d.wfAes
  | .aesCbcEnc d => d.wfAes
  | .aesCbcDec d => d.wfAes
  | .aesCtr _ d => d.wfAes
  -- only code 2 is valid for CHACHA20 (30_encoding.md R123)
  | .chacha20 _ d => d.wf 64 && !d.final && d.keysz == 2
  | .md5 dir d => d.wfHash 64 dir
  | .sha3_224 dir d => d.wfHash 144 dir
  | .sha3_256 dir d => d.wfHash 136 dir
  | .sha3_384 dir d => d.wfHash 104 dir
  | .sha3_512 dir d => d.wfHash 72 dir
  -- only code 0 is valid for GHASH (30_encoding.md R123)
  | .ghash dir d => d.wfHash 16 dir

end Sys2Proof
end

