-- ==== Sys2Proof/Decode.lean ====
section
/-! DEFINITION. Bytes to commands and back: the little-endian helpers (20_memory.md R80), the descriptor
codec (30_encoding.md R111, R112, R129, R130), the mode codec (R120 to R125, 00_scope.md R11) and the
opcode table. -/

namespace Sys2Proof

/-- `LE<n>(b)`: a byte string as an unsigned number, the first byte least significant (00_scope.md R15). -/
def leNat : List Byte → Nat
  | [] => 0
  | b :: bs => b.toNat + 256 * leNat bs

/-- `toLE<8n>(x)`: the `n` bytes of a number, least significant first (00_scope.md R15). -/
def leBytes : Nat → Nat → List Byte
  | 0, _ => []
  | n + 1, x => BitVec.ofNat 8 x :: leBytes n (x / 256)

/-- `LE32` of four bytes (00_scope.md R15). -/
def le32 (b : List Byte) : Word := BitVec.ofNat 32 (leNat b)

/-- `toLE32` (00_scope.md R15). -/
def toLe32 (w : Word) : List Byte := leBytes 4 w.toNat

/-- The eight words of a descriptor (30_encoding.md R111). -/
structure Descriptor where
  w0 : Word
  w1 : Word
  w2 : Word
  w3 : Word
  w4 : Word
  w5 : Word
  w6 : Word
  w7 : Word
  deriving DecidableEq, Repr, Inhabited

/-- The 32 bytes of a descriptor, each word little-endian, word 0 first (30_encoding.md R111). -/
def Descriptor.bytes (d : Descriptor) : List Byte :=
  toLe32 d.w0 ++ toLe32 d.w1 ++ toLe32 d.w2 ++ toLe32 d.w3 ++
    toLe32 d.w4 ++ toLe32 d.w5 ++ toLe32 d.w6 ++ toLe32 d.w7

/-- The words of 32 bytes (30_encoding.md R111). -/
def Descriptor.ofBytes (b : List Byte) : Descriptor where
  w0 := le32 (b.take 4)
  w1 := le32 ((b.drop 4).take 4)
  w2 := le32 ((b.drop 8).take 4)
  w3 := le32 ((b.drop 12).take 4)
  w4 := le32 ((b.drop 16).take 4)
  w5 := le32 ((b.drop 20).take 4)
  w6 := le32 ((b.drop 24).take 4)
  w7 := le32 ((b.drop 28).take 4)

/-- `C`, bit 0 of word 0 (30_encoding.md R112). -/
def Descriptor.cycle (d : Descriptor) : Bool := d.w0.getLsbD 0

/-- `CC`, bits 7:1 of word 0 (30_encoding.md R112). -/
def Descriptor.cc (d : Descriptor) : BitVec 7 := d.w0.extractLsb' 1 7

/-- `TC`, bit 8 of word 0 (30_encoding.md R112). -/
def Descriptor.tc (d : Descriptor) : Bool := d.w0.getLsbD 8

/-- `IOC`, bit 9 of word 0 (30_encoding.md R112). -/
def Descriptor.ioc (d : Descriptor) : Bool := d.w0.getLsbD 9

/-- `TYPE`, bits 11:10 of word 0 (30_encoding.md R112). -/
def Descriptor.type (d : Descriptor) : BitVec 2 := d.w0.extractLsb' 10 2

/-- `SIZE`, bits 31:16 of word 0 (30_encoding.md R112). -/
def Descriptor.size (d : Descriptor) : BitVec 16 := d.w0.extractLsb' 16 16

/-- `ALG`, bits 3:0 of word 3 (30_encoding.md R120). -/
def Descriptor.alg (d : Descriptor) : BitVec 4 := d.w3.extractLsb' 0 4

/-- `DIR`, bit 4 of word 3 (30_encoding.md R120). -/
def Descriptor.dir (d : Descriptor) : Bool := d.w3.getLsbD 4

/-- `KEYSZ`, bits 6:5 of word 3 (30_encoding.md R120). -/
def Descriptor.keysz (d : Descriptor) : BitVec 2 := d.w3.extractLsb' 5 2

/-- `FINAL`, bit 7 of word 3 (30_encoding.md R120). -/
def Descriptor.final (d : Descriptor) : Bool := d.w3.getLsbD 7

/-- `OWNER`, words 6 and 7 (30_encoding.md R111). -/
def Descriptor.owner (d : Descriptor) : Handle := d.w7 ++ d.w6

/-- The operand fields of a normal descriptor. -/
def Descriptor.trb (d : Descriptor) : Trb where
  c := d.cycle
  cc := d.cc
  tc := d.tc
  ioc := d.ioc
  size := d.size
  sptr := d.w1
  dptr := d.w2
  keysz := d.keysz
  final := d.final
  iptr := d.w4
  kptr := d.w5
  owner := d.owner

/-- Why the decoder refuses a descriptor (30_encoding.md R130). -/
inductive DecodeError where
  /-- fewer than 32 bytes: no descriptor at all (30_encoding.md R110) -/
  | short
  /-- `TYPE` 2 or 3 -/
  | reservedType
  /-- `ALG` 10 to 15 -/
  | reservedAlg
  deriving DecidableEq, Repr, Inhabited

/-- The command of an `ALG` code (30_encoding.md R121, R130); `none` for the reserved codes. -/
def decodeAlg (d : Descriptor) : Option Instr :=
  match d.alg.toNat with
  | 0 => some (if d.dir then .aesEcbDec d.trb else .aesEcbEnc d.trb)
  | 1 => some (if d.dir then .aesCbcDec d.trb else .aesCbcEnc d.trb)
  | 2 => some (.aesCtr d.dir d.trb)
  | 3 => some (.chacha20 d.dir d.trb)
  | 4 => some (.md5 d.dir d.trb)
  | 5 => some (.sha3_224 d.dir d.trb)
  | 6 => some (.sha3_256 d.dir d.trb)
  | 7 => some (.sha3_384 d.dir d.trb)
  | 8 => some (.sha3_512 d.dir d.trb)
  | 9 => some (.ghash d.dir d.trb)
  | _ => none

/-- The decoding of 30_encoding.md R130, less the ring check, which needs the engine and stands in each
command's meaning (41_descriptor_commands.md R200, first check). Reserved bits are ignored (R131). -/
def decodeDescriptor (d : Descriptor) : Except DecodeError Instr :=
  if d.type = 1 then .ok (.link d.cycle d.tc d.w2)
  else if d.type = 0 then
    match decodeAlg d with
    | some i => .ok i
    | none => .error .reservedAlg
  else .error .reservedType

/-- Decoding of any bytes; the first 32 are the descriptor (30_encoding.md R110). -/
def decode (b : List Byte) : Except DecodeError Instr :=
  if b.length < Config.trbBytes then .error .short
  else decodeDescriptor (Descriptor.ofBytes b)

/-- Word 0 from its fields, reserved bits 0 (30_encoding.md R112). -/
def ctrlWord (c : Bool) (cc : BitVec 7) (tc ioc : Bool) (type : BitVec 2) (size : BitVec 16) : Word :=
  size ++ ((0 : BitVec 4) ++ (type ++ (BitVec.ofBool ioc ++ (BitVec.ofBool tc ++ (cc ++ BitVec.ofBool c)))))

/-- Word 3 from its fields, reserved bits 0 (30_encoding.md R120). -/
def modeWord (alg : BitVec 4) (dir : Bool) (keysz : BitVec 2) (final : Bool) : Word :=
  (0 : BitVec 24) ++ (BitVec.ofBool final ++ (keysz ++ (BitVec.ofBool dir ++ alg)))

/-- The words of a normal descriptor (30_encoding.md R111). -/
def encodeTrb (alg : BitVec 4) (dir : Bool) (d : Trb) : Descriptor where
  w0 := ctrlWord d.c d.cc d.tc d.ioc 0 d.size
  w1 := d.sptr
  w2 := d.dptr
  w3 := modeWord alg dir d.keysz d.final
  w4 := d.iptr
  w5 := d.kptr
  w6 := d.owner.extractLsb' 0 32
  w7 := d.owner.extractLsb' 32 32

/-- The words of a command (30_encoding.md R111, R121, R127). -/
def encodeDescriptor : Instr → Descriptor
  | .link c tc dptr => ⟨ctrlWord c 0 tc false 1 0, 0, dptr, 0, 0, 0, 0, 0⟩
  | .aesEcbEnc d => encodeTrb 0 false d
  | .aesEcbDec d => encodeTrb 0 true d
  | .aesCbcEnc d => encodeTrb 1 false d
  | .aesCbcDec d => encodeTrb 1 true d
  | .aesCtr dir d => encodeTrb 2 dir d
  | .chacha20 dir d => encodeTrb 3 dir d
  | .md5 dir d => encodeTrb 4 dir d
  | .sha3_224 dir d => encodeTrb 5 dir d
  | .sha3_256 dir d => encodeTrb 6 dir d
  | .sha3_384 dir d => encodeTrb 7 dir d
  | .sha3_512 dir d => encodeTrb 8 dir d
  | .ghash dir d => encodeTrb 9 dir d

/-- The 32 bytes of a command as they stand in memory. -/
def encode (i : Instr) : List Byte := (encodeDescriptor i).bytes

/-- The `ALG` code of an algorithm (30_encoding.md R121). -/
def Alg.code : Alg → BitVec 4
  | .cipher .ecb => 0
  | .cipher .cbc => 1
  | .cipher .ctr => 2
  | .cipher .chacha20 => 3
  | .hash .md5 => 4
  | .hash .sha3_224 => 5
  | .hash .sha3_256 => 6
  | .hash .sha3_384 => 7
  | .hash .sha3_512 => 8
  | .hash .ghash => 9

/-- The algorithm of an `ALG` code (30_encoding.md R121); `none` for the reserved codes 10 to 15. -/
def Alg.ofCode (c : BitVec 4) : Option Alg :=
  match c.toNat with
  | 0 => some (.cipher .ecb)
  | 1 => some (.cipher .cbc)
  | 2 => some (.cipher .ctr)
  | 3 => some (.cipher .chacha20)
  | 4 => some (.hash .md5)
  | 5 => some (.hash .sha3_224)
  | 6 => some (.hash .sha3_256)
  | 7 => some (.hash .sha3_384)
  | 8 => some (.hash .sha3_512)
  | 9 => some (.hash .ghash)
  | _ => none

/-- `encodeMode` (30_encoding.md R125). -/
def encodeMode (m : Mode) : Word := modeWord m.alg.code m.dir m.keysz m.final

/-- `decodeMode` (30_encoding.md R125). -/
def decodeMode (w : Word) : Option Mode :=
  (Alg.ofCode (w.extractLsb' 0 4)).map fun a =>
    ⟨a, w.getLsbD 4, w.extractLsb' 5 2, w.getLsbD 7⟩

/-- The mode word of an implementation in the default layout: its bits put back in their places, its `ALG`
code turned into the number of 30_encoding.md R121. -/
def ModeCodec.read (c : ModeCodec) (w : Word) : Word :=
  match c with
  | .default => w
  | .rearranged bits codes =>
    let x : Word := BitVec.ofFnLE fun i => w.getLsbD (bits.getD i 0)
    x.extractLsb' 4 28 ++ BitVec.ofNat 4 (codes.idxOf (x.extractLsb' 0 4))

/-- A mode word of the default layout as the implementation's, the inverse of `ModeCodec.read`. -/
def ModeCodec.write (c : ModeCodec) (w : Word) : Word :=
  match c with
  | .default => w
  | .rearranged bits codes =>
    let x : Word := w.extractLsb' 4 28 ++ codes.getD (w.extractLsb' 0 4).toNat 0
    BitVec.ofFnLE fun i => x.getLsbD (bits.idxOf i.val)

/-- A descriptor of an implementation in the default layout. The codec is about word 3 of a normal descriptor;
a link has no mode word (30_encoding.md R127). -/
def Descriptor.normal (c : ModeCodec) (d : Descriptor) : Descriptor :=
  if d.type = 0 then { d with w3 := c.read d.w3 } else d

/-- A descriptor of the default layout as an implementation's. -/
def Descriptor.inLayout (c : ModeCodec) (d : Descriptor) : Descriptor :=
  if d.type = 0 then { d with w3 := c.write d.w3 } else d

/-- `encodeMode` of the codec (30_encoding.md R125). -/
def ModeCodec.encodeMode (c : ModeCodec) (m : Mode) : Word := c.write (Sys2Proof.encodeMode m)

/-- `decodeMode` of the codec (30_encoding.md R125). -/
def ModeCodec.decodeMode (c : ModeCodec) (w : Word) : Option Mode := Sys2Proof.decodeMode (c.read w)

/-- Decoding of any bytes under a mode codec; `decode` is the default's. -/
def decodeIn (c : ModeCodec) (b : List Byte) : Except DecodeError Instr :=
  if b.length < Config.trbBytes then .error .short
  else decodeDescriptor ((Descriptor.ofBytes b).normal c)

/-- The 32 bytes of a command under a mode codec; `encode` is the default's. -/
def encodeIn (c : ModeCodec) (i : Instr) : List Byte := ((encodeDescriptor i).inLayout c).bytes

/-- A row of opcode_table.json: the command is selected when `K and mask = match` (30_encoding.md R129). -/
structure OpcodeRow where
  mnemonic : String
  pattern : BitVec 64
  mask : BitVec 64
  deriving DecidableEq, Repr

/-- The rows of opcode_table.json, in its order. -/
def opcodeTable : List OpcodeRow :=
  [⟨"LINK", 0x0000000400, 0x0000000C00⟩,
   ⟨"AES_ECB_ENC", 0x0000000000, 0x1F00000C00⟩,
   ⟨"AES_ECB_DEC", 0x1000000000, 0x1F00000C00⟩,
   ⟨"AES_CBC_ENC", 0x0100000000, 0x1F00000C00⟩,
   ⟨"AES_CBC_DEC", 0x1100000000, 0x1F00000C00⟩,
   ⟨"AES_CTR", 0x0200000000, 0x0F00000C00⟩,
   ⟨"CHACHA20", 0x0300000000, 0x0F00000C00⟩,
   ⟨"MD5", 0x0400000000, 0x0F00000C00⟩,
   ⟨"SHA3_224", 0x0500000000, 0x0F00000C00⟩,
   ⟨"SHA3_256", 0x0600000000, 0x0F00000C00⟩,
   ⟨"SHA3_384", 0x0700000000, 0x0F00000C00⟩,
   ⟨"SHA3_512", 0x0800000000, 0x0F00000C00⟩,
   ⟨"GHASH", 0x0900000000, 0x0F00000C00⟩]

/-- The table's name of a command. -/
def Instr.mnemonic : Instr → String
  | .link .. => "LINK"
  | .aesEcbEnc _ => "AES_ECB_ENC"
  | .aesEcbDec _ => "AES_ECB_DEC"
  | .aesCbcEnc _ => "AES_CBC_ENC"
  | .aesCbcDec _ => "AES_CBC_DEC"
  | .aesCtr .. => "AES_CTR"
  | .chacha20 .. => "CHACHA20"
  | .md5 .. => "MD5"
  | .sha3_224 .. => "SHA3_224"
  | .sha3_256 .. => "SHA3_256"
  | .sha3_384 .. => "SHA3_384"
  | .sha3_512 .. => "SHA3_512"
  | .ghash .. => "GHASH"

/-- The decode key `K = word3 << 32 | word0` (30_encoding.md R129). -/
def Descriptor.key (d : Descriptor) : BitVec 64 := d.w3 ++ d.w0

/-- Whether a row of the table selects a descriptor (30_encoding.md R129). -/
def OpcodeRow.selects (r : OpcodeRow) (d : Descriptor) : Bool := (d.key &&& r.mask) == r.pattern

/-- The descriptor whose decode key has the low `nbits` bits of `w` and zeros above, every other word 0:
the table numbers bits over K, so bits 31:0 are word 0 and bits 63:32 are word 3 (30_encoding.md R129;
notes/assumptions/12.md). -/
def tableDescriptor (nbits w : Nat) : Descriptor :=
  let k := w % 2 ^ nbits
  ⟨BitVec.ofNat 32 k, 0, 0, BitVec.ofNat 32 (k / 2 ^ 32), 0, 0, 0, 0⟩

/-- The command the decoder reads from a word of the opcode table. -/
def decodeTableWord (nbits w : Nat) : Option Instr :=
  match decode (tableDescriptor nbits w).bytes with
  | .ok i => some i
  | .error _ => none

end Sys2Proof
end

