-- ==== Sys2Proof/Machine/State.lean ====
section
/-! DEFINITION. Everything the spec gives the ring block (10_state.md) as plain data: memory, control
registers, engines, ring controllers, dispatcher, contexts, sessions, host threads with the position of
each operation in its pseudocode, and the events of the environment still to come. -/

namespace Sys2Proof.Machine

/-- The DMA memory (10_state.md R62): pairs of address and byte, addresses strictly rising, no pair with
the value an unlisted address reads as (`Memory.wf` in Ops.lean). -/
abbrev Memory := List Host.Cell

/-- Why the machine stops with a fault (60_exceptions.md R362). All four are the spec's: safe. -/
inductive Fault where
  /-- a CBC, CTR or CHACHA20 descriptor with IPTR = 0 while CHAIN_VALID = 0, raised by the command
  (41_descriptor_commands.md R206): safe -/
  | chainUnset
  /-- QUEUE with an interrupting descriptor on a context whose `done` is false (40_ring.md R156): safe -/
  | secondOutstandingIoc
  /-- EXECUTE on a context whose recorded status is neither 1 nor 2 (40_ring.md R160): safe -/
  | reservedCompletionCode
  /-- RING_RESET while the ring is not quiescent (40_ring.md R150, 70_reset_and_hazards.md R403): safe -/
  | resetDuringTraffic
  deriving DecidableEq, Repr, Inhabited

/-- What has no meaning (00_scope.md R16, 60_exceptions.md R360); the last five are the model's own
(notes/assumptions/24.md). A refusal proves nothing about the hardware: safe. -/
inductive Refusal where
  /-- the engine: TYPE 2 or 3 (30_encoding.md R130): safe -/
  | reservedType
  /-- the engine: ALG 10 to 15 (30_encoding.md R130): safe -/
  | reservedAlg
  /-- a command on the other engine's ring (30_encoding.md R130): safe -/
  | wrongRing
  /-- a command whose SIZE is 0 or no block multiple (41_descriptor_commands.md R200): safe -/
  | badSize
  /-- an access past the last DMA address, by any agent (20_memory.md R83): safe -/
  | dmaWrap
  /-- a host write of RING_BASE while BUSY = 1 (10_state.md R32): safe -/
  | baseWriteWhileBusy
  /-- a host access to the RSA registers or a write of 1 to their bits (10_state.md R36): safe -/
  | rsaOutOfScope
  /-- a host access at register offset 0x20 or above (10_state.md R36): safe -/
  | unmappedRegister
  /-- a host register access that is not 32 bits wide and aligned (10_state.md R37): safe -/
  | registerAccessWidth
  /-- QUEUE of more than SIZE_MAX bytes (40_ring.md R153): safe -/
  | sizeTooLarge
  /-- HASH_UPDATE, HASH_FINAL, HASH_EXPORT outside Ready and Updating (42_hash_fsm.md R265): safe -/
  | hashNotReady
  /-- GHASH update or final before setkey (42_hash_fsm.md R253, R257): safe -/
  | ghashKeyUnset
  /-- HASH_SETKEY on MD5 or SHA3 (42_hash_fsm.md R262): safe -/
  | noSetkey
  /-- HASH_IMPORT of a snapshot no export produces (42_hash_fsm.md R264): safe -/
  | badSnapshot
  /-- HASH_INIT, HASH_IMPORT and CRYPT of a session with descriptors unreleased, and a destroy then or during an
  operation of the session (42_hash_fsm.md R251, R264, R268, 43_sg_walker.md R305, R325, R360's table): safe -/
  | staleDescriptors
  /-- CRYPT before CIPHER_SETKEY (43_sg_walker.md R305): safe -/
  | keyUnset
  /-- QUEUE, EXECUTE or a trigger before the first RING_RESET (70_reset_and_hazards.md R402): safe -/
  | ringNotReset
  /-- a host operation on a session that does not exist (log 24): safe -/
  | noSession
  /-- a session created with an identity that is in use (log 11, log 24): safe -/
  | handleInUse
  /-- a ring base or session buffer that is not 32-byte aligned (20_memory.md R85, log 24): safe -/
  | unalignedBuffer
  /-- RELEASE of a descriptor whose OWNER names no context (log 11, log 24): safe -/
  | unknownOwner
  /-- an instruction without a meaning in this model, by its mnemonic: safe -/
  | notModelled (mnemonic : String)
  deriving DecidableEq, Repr, Inhabited

/-- A host thread (00_scope.md R9). -/
abbrev ThreadId := Nat

/-- The state of one engine (10_state.md R32, R33, R39 to R42, R45, R63). `stuck` is the hold nothing
lifts of 20_memory.md R84 (notes/assumptions/6.md). -/
structure Engine where
  ringBase : Word
  rcs : Bool
  dq : Word
  ccs : Bool
  busy : Bool
  stopReq : Bool
  stuck : Bool
  latch : Descriptor
  deriving DecidableEq, Repr, Inhabited

/-- The ring controller's state (10_state.md R46 to R52). `live` says whether the ring has had its
RING_RESET (70_reset_and_hazards.md R402, notes/assumptions/10.md). -/
structure Ring where
  live : Bool
  base : Word
  head : Nat
  tail : Nat
  pcs : Bool
  sem : Nat
  mutex : Option ThreadId
  triggerCount : Word
  irqCount : Word
  deriving DecidableEq, Repr, Inhabited

/-- The completion dispatcher (40_ring.md R180 to R183): inside a dispatch or not, and the rings it has
still to drain. -/
structure Dispatcher where
  active : Bool
  drainAes : Bool
  drainHash : Bool
  stuck : Bool
  deriving DecidableEq, Repr, Inhabited

/-- An execution context (10_state.md R55). -/
structure Ctx where
  ring : EngineId
  mode : Option Mode
  done : Bool
  status : BitVec 7
  last : Option Nat
  pendingNonIoc : Bool
  outstanding : Nat
  waiter : Option ThreadId
  deriving DecidableEq, Repr, Inhabited

/-- The states of a hash session (10_state.md R58). -/
inductive Fsm where
  | uninitialized
  | ready
  | updating
  | done
  | failed
  deriving DecidableEq, Repr, Inhabited

/-- A hash session (10_state.md R56); `handle` identifies it and its context (30_encoding.md R126). -/
structure HashSession where
  handle : Handle
  alg : HashAlg
  digestLen : Nat
  fsm : Fsm
  left : Nat
  total : BitVec 64
  keySet : Bool
  lock : Option ThreadId
  scratch : Word
  ctx : Ctx
  deriving DecidableEq, Repr, Inhabited

/-- A cipher session (10_state.md R59). -/
structure CipherSession where
  handle : Handle
  alg : CipherAlg
  keyLen : Option Nat
  ivLoaded : Bool
  lock : Option ThreadId
  workbuf : Word
  ctx : Ctx
  deriving DecidableEq, Repr, Inhabited

/-- A snapshot of a hash message (42_hash_fsm.md R263). -/
structure Snapshot where
  alg : HashAlg
  fsm : Fsm
  left : Nat
  total : BitVec 64
  state : List Byte
  buf : List Byte
  deriving DecidableEq, Repr, Inhabited

/-- A segment of a scatter-gather list (43_sg_walker.md R302). -/
structure Seg where
  addr : Word
  len : Nat
  deriving DecidableEq, Repr, Inhabited

/-- A cipher request (43_sg_walker.md R302); `decrypt` is its direction. -/
structure Request where
  decrypt : Bool
  src : List Seg
  dst : List Seg
  nbytes : Nat
  iv : Word
  deriving DecidableEq, Repr, Inhabited

/-- The operands of QUEUE (40_ring.md R153). -/
structure QueueCall where
  ctx : Handle
  src : Word
  dst : Word
  iv : Word
  key : Word
  len : Nat
  mode : Mode
  ioc : Bool
  deriving DecidableEq, Repr, Inhabited

/-- The operations of a host thread (40_ring.md, 42_hash_fsm.md, 43_sg_walker.md), and its plain register
and memory accesses (10_state.md R62). `hashInit` with no length is the capability query; `queue` with
length 0 is the zero-length queue; `hashSave` and `hashRestore` are HASH_EXPORT and HASH_IMPORT. -/
inductive HostOp where
  | ringReset (r : EngineId) (base : Word)
  | queue (q : QueueCall)
  | execute (h : Handle)
  | hashCreate (h : Handle) (alg : HashAlg) (hs : Word)
  | hashInit (h : Handle) (dl : Option Nat)
  | hashUpdate (h : Handle) (p : Word) (n : Nat)
  | hashFinal (h : Handle)
  | hashSetkey (h : Handle) (p : Word) (len : Nat)
  | hashSave (h : Handle)
  | hashRestore (h : Handle) (snap : Snapshot)
  | hashDestroy (h : Handle)
  | cipherCreate (h : Handle) (alg : CipherAlg) (wb : Word)
  | cipherSetkey (h : Handle) (p : Word) (len : Nat)
  | crypt (h : Handle) (req : Request)
  | cipherDestroy (h : Handle)
  | regRead (addr : Word) (width : Nat)
  | regWrite (addr : Word) (width : Nat) (v : Word)
  | load (addr : Word) (n : Nat)
  | store (addr : Word) (v : List Byte)
  | barrier
  deriving DecidableEq, Repr, Inhabited

/-- The errors of host operations (60_exceptions.md R352). -/
inductive Err where
  | interrupted
  | timeout
  | invalidParameter
  | badKeyLength
  deriving DecidableEq, Repr, Inhabited

/-- What a host operation returns (00_scope.md R17). -/
inductive Result where
  | ok
  | okLen (n : Nat)
  | okSlot (slot : Nat) (iocEff : Bool)
  | okBytes (b : List Byte)
  | okWord (w : Word)
  | okSnapshot (snap : Snapshot)
  | err (e : Err)
  deriving DecidableEq, Repr, Inhabited

/-- The position inside QUEUE (40_ring.md R153, R155, R158). `held` remembers whether the thread held the
ring mutex on entry; `publish` counts the writes of PUBLISH; `zeroFlags` remembers the pending slot, which the
zero-length queue looks up once. -/
inductive QueuePhase where
  | enter
  | down
  | lock
  | take (held : Bool)
  | publish (held : Bool) (slot : Nat) (cyc : Bool) (iocEff : Bool) (k : Nat)
  | zeroLock
  | zeroMode (held : Bool)
  | zeroFlags (held : Bool) (slot : Nat)
  deriving DecidableEq, Repr, Inhabited

/-- The position inside EXECUTE (40_ring.md R160): before the trigger, or in WAIT. -/
inductive ExecPhase where
  | trigger
  | wait
  deriving DecidableEq, Repr, Inhabited

/-- An operation in progress inside another one. -/
inductive Sub where
  | queue (q : QueueCall) (ph : QueuePhase)
  | exec (h : Handle) (ph : ExecPhase)
  deriving DecidableEq, Repr, Inhabited

/-- What an inner operation returned to the operation that called it. -/
inductive SubRet where
  | queued (slot : Nat) (iocEff : Bool)
  | updated
  | executed
  | failed (e : Err)
  deriving DecidableEq, Repr, Inhabited

/-- A run of bytes for one hash descriptor (42_hash_fsm.md R253, R256). -/
structure Run where
  addr : Nat
  len : Nat
  deriving DecidableEq, Repr, Inhabited

/-- The position of an operation that takes the session lock, does its work and returns. -/
inductive LockPc where
  | check
  | lock
  | body
  deriving DecidableEq, Repr, Inhabited

/-- The position inside HASH_UPDATE (42_hash_fsm.md R253); the lists hold the runs still to queue. -/
inductive UpdatePc where
  | check
  | lock
  | body
  | send (rest : List Run)
  | sent (rest : List Run)
  | waited (rest : List Run)
  | remainder
  deriving DecidableEq, Repr, Inhabited

/-- The position inside HASH_FINAL (42_hash_fsm.md R257). -/
inductive FinalPc where
  | check
  | lock
  | pad
  | queued
  | waited
  deriving DecidableEq, Repr, Inhabited

/-- The cursor states of the walker (43_sg_walker.md R312). -/
inductive Cursor where
  | bothExhausted
  | srcExhausted
  | dstExhausted
  | noneExhausted
  deriving DecidableEq, Repr, Inhabited

/-- The local variables of CRYPT and WALK (43_sg_walker.md R305, R310). -/
structure Walk where
  si : Nat
  sOff : Nat
  di : Nat
  dOff : Nat
  left : Nat
  ip : Word
  cursor : Cursor
  c0 : Block
  nextIv : Block
  deriving DecidableEq, Repr, Inhabited

/-- What one step of the walker sends: a staged block with `g` useful bytes, or a run of `t` bytes
(43_sg_walker.md R310, R313). -/
inductive Piece where
  | staged (g : Nat)
  | direct (t : Nat)
  deriving DecidableEq, Repr, Inhabited

/-- The position inside CRYPT and WALK (43_sg_walker.md R305, R310). -/
inductive CryptPc where
  | lock
  | body
  | walkLock (w : Walk)
  | loop (w : Walk)
  | queued (w : Walk) (p : Piece)
  | waited (w : Walk) (p : Piece)
  | leave (w : Walk) (e : Option Err)
  | finish (w : Walk) (e : Option Err)
  deriving DecidableEq, Repr, Inhabited

/-- An operation in progress, with its operands and its position. -/
inductive Job where
  | ringReset (r : EngineId) (base : Word)
  | queue (q : QueueCall)
  | execute (h : Handle)
  | hashCreate (h : Handle) (alg : HashAlg) (hs : Word)
  | hashInit (h : Handle) (dl : Option Nat) (pc : LockPc)
  | hashUpdate (h : Handle) (p : Word) (n : Nat) (pc : UpdatePc)
  | hashFinal (h : Handle) (pc : FinalPc)
  | hashSetkey (h : Handle) (p : Word) (len : Nat) (pc : LockPc)
  | hashSave (h : Handle) (pc : LockPc)
  | hashRestore (h : Handle) (snap : Snapshot) (pc : LockPc)
  | hashDestroy (h : Handle)
  | cipherCreate (h : Handle) (alg : CipherAlg) (wb : Word)
  | cipherSetkey (h : Handle) (p : Word) (len : Nat) (pc : LockPc)
  | crypt (h : Handle) (req : Request) (pc : CryptPc)
  | cipherDestroy (h : Handle)
  | regRead (addr : Word) (width : Nat)
  | regWrite (addr : Word) (width : Nat) (v : Word)
  | load (addr : Word) (n : Nat)
  | store (addr : Word) (v : List Byte)
  | barrier
  deriving DecidableEq, Repr, Inhabited

/-- What a host thread is doing: its operation, the inner operation it is in, and what the last inner
operation returned. -/
structure Task where
  job : Job
  sub : Option Sub
  ret : Option SubRet
  deriving DecidableEq, Repr, Inhabited

/-- A host thread (00_scope.md R9): the operation in progress, what the last one returned, and the hold
nothing lifts of 20_memory.md R84. -/
structure Thread where
  id : ThreadId
  task : Option Task
  result : Option Result
  stuck : Bool
  deriving DecidableEq, Repr, Inhabited

/-- One choice of the environment: which agent takes its next step (00_scope.md R10), or what reaches the
block from outside (60_exceptions.md R355 to R357, 70_reset_and_hazards.md R400; notes/assumptions/1.md). -/
inductive Event where
  /-- the engine takes its next step -/
  | engine (e : EngineId)
  /-- the dispatcher takes its next step -/
  | dispatcher
  /-- the host thread takes its next step -/
  | host (t : ThreadId)
  /-- the host thread begins an operation -/
  | call (t : ThreadId) (op : HostOp)
  /-- a signal reaches the host thread (60_exceptions.md R355) -/
  | signal (t : ThreadId)
  /-- the 60-second cipher timeout of the host thread expires (60_exceptions.md R356) -/
  | timeout (t : ThreadId)
  /-- the event-ring-full flag of the engine is set (60_exceptions.md R357) -/
  | eventRingFull (e : EngineId)
  /-- the block is reset (70_reset_and_hazards.md R400) -/
  | hardwareReset
  deriving DecidableEq, Repr, Inhabited

/-- The machine. `cur` is the engine whose step is being taken, `inputs` the events still to come and
`draws` the number of free values drawn: the model's own fields (notes/assumptions/1.md, 18.md, 27.md). -/
structure State where
  params : Params
  mem : Memory
  aes : Engine
  hash : Engine
  chain : Block
  chainValid : Bool
  intEn : Word
  intFlag : Word
  aesRing : Ring
  hashRing : Ring
  dispatcher : Dispatcher
  hashSessions : List HashSession
  cipherSessions : List CipherSession
  threads : List Thread
  cur : EngineId
  inputs : List Event
  draws : Nat
  deriving DecidableEq, Repr, Inhabited

/-- FREE VALUE: the next choice of the environment when none is listed in `State.inputs`: nothing
constrains it (00_scope.md R10, R15; notes/assumptions/1.md). -/
opaque Config.nextEvent : Nat → Event

/-- An engine after hardware reset (10_state.md R64); `latch` is a DESIGN CHOICE, unsafe
(notes/assumptions/9.md). -/
def Engine.reset : Engine where
  ringBase := 0
  rcs := true
  dq := 0
  ccs := true
  busy := false
  stopReq := false
  stuck := false
  latch := ⟨0, 0, 0, 0, 0, 0, 0, 0⟩

/-- A ring controller before its first ring reset: the values of 10_state.md R65 with base 0; DESIGN
CHOICE, unsafe (notes/assumptions/10.md). -/
def Ring.reset (n : Nat) : Ring where
  live := false
  base := 0
  head := 0
  tail := 0
  pcs := true
  sem := n - 2
  mutex := none
  triggerCount := 0
  irqCount := 0

/-- The dispatcher outside a dispatch (70_reset_and_hazards.md R400). -/
def Dispatcher.idle : Dispatcher := ⟨false, false, false, false⟩

/-- The machine after hardware reset (10_state.md R64) with the given parameters: no session and no
thread exists, no event is listed, memory lists nothing. `chain`, memory and the ring controllers have no
reset value in the spec: DESIGN CHOICE, unsafe (notes/assumptions/7.md, 8.md, 10.md). -/
def State.resetWith (p : Params) : State where
  params := p
  mem := []
  aes := Engine.reset
  hash := Engine.reset
  chain := 0
  chainValid := false
  intEn := 0
  intFlag := 0
  aesRing := Ring.reset p.nAes
  hashRing := Ring.reset p.nHash
  dispatcher := Dispatcher.idle
  hashSessions := []
  cipherSessions := []
  threads := []
  cur := .aes
  inputs := []
  draws := 0

/-- The machine after hardware reset (10_state.md R64), with the default parameters
(notes/assumptions/3.md). -/
def State.reset : State := State.resetWith Params.default

end Sys2Proof.Machine
end

