-- ==== Sys2Proof/Machine/Flags.lean ====
section
/-! DEFINITION. Every flag of the ring block (10_state.md R33 to R35, R38, R61): the bits of INT_EN,
INT_FLAG and RING_CTRL, the interrupt output and the completion codes. -/

namespace Sys2Proof.Machine

/-- `DONE[e]` in INT_FLAG and its enable in INT_EN: bit 0 AES, bit 1 hash (10_state.md R34, R35). -/
def doneBit : EngineId → Word
  | .aes => 0x1
  | .hash => 0x2

/-- `ERF[e]` in INT_FLAG and its enable in INT_EN: bit 8 AES, bit 9 hash (10_state.md R34, R35). -/
def erfBit : EngineId → Word
  | .aes => 0x100
  | .hash => 0x200

/-- The bits of INT_EN and INT_FLAG in scope (10_state.md R34, R35). -/
def intScope : Word := 0x303

/-- The reserved RSA bits 2 and 10 of INT_EN and INT_FLAG (10_state.md R36). -/
def rsaBits : Word := 0x404

/-- `IRQ = ((INT_FLAG and INT_EN) != 0)` over the bits in scope (10_state.md R38). -/
def irq (intFlag intEn : Word) : Bool := intFlag &&& intEn &&& intScope != 0

/-- A write of INT_FLAG clears the bits written 1 (10_state.md R35). -/
def clearFlags (intFlag v : Word) : Word := intFlag &&& ~~~v

/-- What a write of INT_EN stores: the bits in scope (10_state.md R34). -/
def maskEnable (v : Word) : Word := v &&& intScope

/-- The value RING_CTRL reads: RUN is BUSY, STOP is STOPREQ, RCS is stored (10_state.md R33). -/
def ringCtrlValue (e : Engine) : Word :=
  (0 : BitVec 29) ++ (BitVec.ofBool e.rcs ++ (BitVec.ofBool e.stopReq ++ BitVec.ofBool e.busy))

/-- A write of RING_CTRL: STOP first, with no effect on an idle engine, then RUN, then RCS is stored
(10_state.md R33, 40_ring.md R171, R175). -/
def writeRingCtrl (v : Word) (e : Engine) : Engine :=
  { e with
    stopReq := e.stopReq || (v.getLsbD 1 && e.busy)
    busy := e.busy || v.getLsbD 0
    rcs := v.getLsbD 2 }

/-- What RING_BASE stores: bits 4:0 are zero (10_state.md R32). -/
def alignBase (v : Word) : Word := v &&& 0xFFFFFFE0

/-- A write of RING_BASE while idle loads DQ and CCS (10_state.md R32). -/
def writeRingBase (v : Word) (e : Engine) : Engine :=
  { e with ringBase := alignBase v, dq := alignBase v, ccs := e.rcs }

/-- `CC_NONE` (30_encoding.md R128). -/
def ccNone : BitVec 7 := 0

/-- `CC_SUCCESS` (30_encoding.md R128). -/
def ccSuccess : BitVec 7 := 1

/-- `CC_BAD_KEY_LENGTH` (30_encoding.md R128). -/
def ccBadKeyLength : BitVec 7 := 2

/-- Byte 0 of a descriptor: CC in bits 7:1, C in bit 0 (20_memory.md R82, 40_ring.md R173). -/
def statusByte (cc : BitVec 7) (c : Bool) : Byte := cc ++ BitVec.ofBool c

/-- The IOC bit replaced in byte 1 of a descriptor (20_memory.md R82, 40_ring.md R158). -/
def withIoc (b : Byte) (ioc : Bool) : Byte := (b &&& 0xFD) ||| (if ioc then 0x02 else 0x00)

end Sys2Proof.Machine
end

