-- ==== Sys2Proof/Machine/Ops.lean ====
section
/-! DEFINITION. The named operations every meaning goes through: DMA memory (20_memory.md R83, R84), the
state's accessors, descriptor fetch and completion (40_ring.md R170, R173), and the block's one trap-like
transfer, dispatch entry and exit (40_ring.md R180 to R183, 60_exceptions.md R370, R371). -/

namespace Sys2Proof.Machine

/-- The outcome of a step of this machine. -/
abbrev Step := Host.Outcome State Fault Refusal

/-- What a byte of memory that nothing has written reads as: DESIGN CHOICE, unsafe (10_state.md R64
leaves it unspecified; notes/assumptions/7.md). -/
def memDefault : Byte := 0

/-- The byte at an address. -/
def Memory.byte : Memory → Nat → Byte
  | [], _ => memDefault
  | (k, v) :: m, a => if k = a then v else Memory.byte m a

/-- Memory with one byte written, in canonical form: a byte equal to `memDefault` is not listed. -/
def Memory.set : Memory → Nat → Byte → Memory
  | [], a, b => if b = memDefault then [] else [(a, b)]
  | (k, v) :: m, a, b =>
    if a < k then if b = memDefault then (k, v) :: m else (a, b) :: (k, v) :: m
    else if a = k then if b = memDefault then m else (a, b) :: m
    else (k, v) :: Memory.set m a b

/-- The `n` bytes from an address up. -/
def Memory.readBytes (m : Memory) (a : Nat) : Nat → List Byte
  | 0 => []
  | n + 1 => Memory.byte m a :: Memory.readBytes m (a + 1) n

/-- Memory with a byte string written from an address up. -/
def Memory.writeBytes (m : Memory) (a : Nat) : List Byte → Memory
  | [] => m
  | b :: bs => Memory.writeBytes (Memory.set m a b) (a + 1) bs

/-- Addresses from `lo` up, strictly rising, inside the DMA space, no byte that is `memDefault`. -/
def Memory.wfFrom : Nat → Memory → Bool
  | _, [] => true
  | lo, (a, b) :: m =>
    decide (lo ≤ a) && decide (a < Config.dmaEnd) && b != memDefault && Memory.wfFrom (a + 1) m

/-- The canonical form of memory: equal memories are equal lists. -/
def Memory.wf (m : Memory) : Bool := Memory.wfFrom 0 m

/-- The outcome of a DMA access: done, past the end of the space (20_memory.md R83), or outside the backed
ranges (R84). -/
inductive Acc (α : Type) where
  | ok (a : α)
  | wrap
  | unbacked
  deriving DecidableEq, Repr

/-- Go on with an access that was done. -/
def Acc.bind {α β : Type} (x : Acc α) (f : α → Acc β) : Acc β :=
  match x with
  | .ok a => f a
  | .wrap => .wrap
  | .unbacked => .unbacked

/-- `DMA_OK(a, n)` (20_memory.md R84): the range lies in one of the backed ranges; an empty range is
always backed (notes/assumptions/5.md). -/
def dmaOk (p : Params) (a n : Nat) : Bool :=
  n == 0 || p.dmaRegions.any fun r => decide (r.1 ≤ a) && decide (a + n ≤ r.1 + r.2)

/-- `MemRead(a, n)` (20_memory.md R83, R84). -/
def memRead (p : Params) (m : Memory) (a n : Nat) : Acc (List Byte) :=
  if Config.dmaEnd < a + n then .wrap
  else if dmaOk p a n then .ok (Memory.readBytes m a n) else .unbacked

/-- `MemWrite(a, n, v)` (20_memory.md R83, R84); `n` is the length of `v`. -/
def memWrite (p : Params) (m : Memory) (a : Nat) (v : List Byte) : Acc Memory :=
  if Config.dmaEnd < a + v.length then .wrap
  else if dmaOk p a v.length then .ok (Memory.writeBytes m a v) else .unbacked

/-- The engine of an identifier. -/
def State.engine (s : State) : EngineId → Engine
  | .aes => s.aes
  | .hash => s.hash

/-- The state with one engine replaced. -/
def State.setEngine (s : State) (e : EngineId) (x : Engine) : State :=
  match e with
  | .aes => { s with aes := x }
  | .hash => { s with hash := x }

/-- The ring controller of an engine's ring. -/
def State.ring (s : State) : EngineId → Ring
  | .aes => s.aesRing
  | .hash => s.hashRing

/-- The state with one ring controller replaced. -/
def State.setRing (s : State) (r : EngineId) (x : Ring) : State :=
  match r with
  | .aes => { s with aesRing := x }
  | .hash => { s with hashRing := x }

/-- The state with its memory replaced. -/
def State.setMem (s : State) (m : Memory) : State := { s with mem := m }

/-- The engine has no further step (20_memory.md R84, notes/assumptions/6.md). -/
def State.stickEngine (s : State) (e : EngineId) : State :=
  s.setEngine e { s.engine e with stuck := true }

/-- The number of slots of a ring. -/
def State.slots (s : State) (r : EngineId) : Nat := s.params.slots r

/-- `slotAddr(r, i) = base_r + 32 * i` (10_state.md R46). -/
def slotAddr (x : Ring) (i : Nat) : Nat := x.base.toNat + 32 * i

/-- `next_r(i)` for a ring of `n` slots (10_state.md R53). -/
def nextSlot (n i : Nat) : Nat := if i < n - 2 then i + 1 else 0

/-- The 32 bytes at DQ, read in one step (40_ring.md R170, 20_memory.md R87, R98). -/
def fetch (s : State) (e : EngineId) : Acc Descriptor :=
  (memRead s.params s.mem (s.engine e).dq.toNat Config.trbBytes).bind fun b => .ok (Descriptor.ofBytes b)

/-- Normal completion (40_ring.md R173): byte 0 gets the completion code with C unchanged, IOC sets the
DONE flag, DQ advances by 32 modulo 2^32. -/
def complete (d : Trb) (cc : BitVec 7) (s : State) : Acc State :=
  let e := s.cur
  (memWrite s.params s.mem (s.engine e).dq.toNat [statusByte cc d.c]).bind fun m =>
    .ok ({ s with
      mem := m
      intFlag := if d.ioc then s.intFlag ||| doneBit e else s.intFlag }.setEngine e
        { s.engine e with dq := (s.engine e).dq + 32 })

/-- The end of an engine's access: a step past the end of the space is refused (20_memory.md R83); a step
outside the backed ranges is not taken and the engine is stuck (R84). -/
def engineOutcome (s : State) : Acc State → Step
  | .ok s' => .next s'
  | .wrap => .refused .dmaWrap
  | .unbacked => .next (s.stickEngine s.cur)

/-- The state of a host thread; one that has done nothing is idle. -/
def State.thread (s : State) (t : ThreadId) : Thread :=
  (s.threads.find? fun x => x.id == t).getD ⟨t, none, none, false⟩

/-- A thread put in its place of the list. -/
def putThread : List Thread → Thread → List Thread
  | [], x => [x]
  | y :: ys, x => if y.id = x.id then x :: ys else y :: putThread ys x

/-- The state with one host thread replaced. -/
def State.setThread (s : State) (x : Thread) : State :=
  { s with threads := putThread s.threads x }

/-- The thread goes on with a task. -/
def State.setTask (s : State) (t : ThreadId) (k : Task) : State :=
  s.setThread { s.thread t with task := some k }

/-- The thread's operation returns (00_scope.md R17). -/
def State.finish (s : State) (t : ThreadId) (r : Result) : State :=
  s.setThread { s.thread t with task := none, result := some r }

/-- The thread has no further step (20_memory.md R84, notes/assumptions/6.md). -/
def State.stickThread (s : State) (t : ThreadId) : State :=
  s.setThread { s.thread t with stuck := true }

/-- Go on with a host thread's access: past the end it is refused, outside the backed ranges the thread
takes no further step (20_memory.md R83, R84). -/
def hostAccess {α : Type} (s : State) (t : ThreadId) (x : Acc α) (f : α → Step) : Step :=
  match x with
  | .ok a => f a
  | .wrap => .refused .dmaWrap
  | .unbacked => .next (s.stickThread t)

/-- The hash session of an identity. -/
def State.hashSession (s : State) (h : Handle) : Option HashSession :=
  s.hashSessions.find? fun x => x.handle == h

/-- The cipher session of an identity. -/
def State.cipherSession (s : State) (h : Handle) : Option CipherSession :=
  s.cipherSessions.find? fun x => x.handle == h

/-- The state with a hash session changed. -/
def State.updHash (s : State) (h : Handle) (f : HashSession → HashSession) : State :=
  { s with hashSessions := s.hashSessions.map fun x => if x.handle = h then f x else x }

/-- The state with a cipher session changed. -/
def State.updCipher (s : State) (h : Handle) (f : CipherSession → CipherSession) : State :=
  { s with cipherSessions := s.cipherSessions.map fun x => if x.handle = h then f x else x }

/-- The execution context an OWNER image names (30_encoding.md R126). -/
def State.ctx (s : State) (h : Handle) : Option Ctx :=
  match s.hashSession h with
  | some x => some x.ctx
  | none => (s.cipherSession h).map fun x => x.ctx

/-- The state with an execution context changed. -/
def State.updCtx (s : State) (h : Handle) (f : Ctx → Ctx) : State :=
  (s.updHash h fun x => { x with ctx := f x.ctx }).updCipher h fun x => { x with ctx := f x.ctx }

/-- Every context of a ring changed. -/
def State.updRingCtxs (s : State) (r : EngineId) (f : Ctx → Ctx) : State :=
  { s with
    hashSessions := s.hashSessions.map fun x => if x.ctx.ring = r then { x with ctx := f x.ctx } else x
    cipherSessions := s.cipherSessions.map fun x => if x.ctx.ring = r then { x with ctx := f x.ctx } else x }

/-- The interrupt output (10_state.md R38). -/
def State.irq (s : State) : Bool := Machine.irq s.intFlag s.intEn

/-- `DISPATCH_ENTRY` (40_ring.md R181), the one trap-like transfer (60_exceptions.md R370): it saves
nothing; it acknowledges the pending enabled flags, counts, and marks the rings to drain. -/
def dispatchEntry (s : State) : State :=
  let pend := s.intFlag &&& s.intEn &&& intScope
  let aes := pend &&& doneBit .aes != 0
  let hash := pend &&& doneBit .hash != 0
  { s with
    intFlag := clearFlags s.intFlag pend
    dispatcher := { s.dispatcher with active := true, drainAes := aes, drainHash := hash }
    aesRing := if aes then { s.aesRing with irqCount := s.aesRing.irqCount + 1 } else s.aesRing
    hashRing := if hash then { s.hashRing with irqCount := s.hashRing.irqCount + 1 } else s.hashRing }

/-- `DISPATCH_EXIT` (40_ring.md R183): nothing is restored (60_exceptions.md R371). -/
def dispatchExit (s : State) : State :=
  { s with dispatcher := { s.dispatcher with active := false, drainAes := false, drainHash := false } }

end Sys2Proof.Machine
end

