-- ==== Sys2Proof/Machine/Operands.lean ====
section
/-! DEFINITION. The operand forms of the commands (41_descriptor_commands.md): key-size codes, byte
strings as bit vectors, the counter arithmetic, the chaining value, and the two common procedures, R201 for
ciphers and R220 for hashes, under the checks of R200. -/

namespace Sys2Proof.Machine

/-- A byte string as the bit vector of its little-endian number (00_scope.md R15, 20_memory.md R80). -/
def bitsOf (w : Nat) (b : List Byte) : BitVec w := BitVec.ofNat w (leNat b)

/-- The `n` bytes of a bit vector, least significant first (00_scope.md R15). -/
def bytesOf {w : Nat} (n : Nat) (x : BitVec w) : List Byte := leBytes n x.toNat

/-- `a xor b` on byte strings (00_scope.md R14). -/
def xorBytes (a b : List Byte) : List Byte := List.zipWith (fun x y => x ^^^ y) a b

/-- `keyBytes(k)` (41_descriptor_commands.md R203). -/
def keyBytes (k : BitVec 2) : Nat := if k = 0 then 16 else if k = 1 then 24 else 32

/-- `k in ENGINE_KEYSZ`; 3 is never in it (41_descriptor_commands.md R203). -/
def engineAccepts (z : KeyszSet) (k : BitVec 2) : Bool :=
  (k == 0 && z.k128) || (k == 1 && z.k192) || (k == 2 && z.k256)

/-- `validKeysz(alg, k)` (41_descriptor_commands.md R203). -/
def validKeysz (p : Params) (a : Alg) (k : BitVec 2) : Bool :=
  match a with
  | .cipher .chacha20 => k == 2
  | .cipher _ => engineAccepts p.engineKeysz k
  | .hash .ghash => k == 0
  | .hash _ => true

/-- The AES key in `keyBytes(k)` bytes (00_scope.md R22). -/
def aesKey (b : List Byte) : Config.AesKey :=
  if b.length = 16 then .k128 (bitsOf 128 b)
  else if b.length = 24 then .k192 (bitsOf 192 b)
  else .k256 (bitsOf 256 b)

/-- A 16-byte value with its bytes in the other order: `BE128` in place of `LE128`. -/
def swap128 (x : Block) : Block := bitsOf 128 (bytesOf 16 x).reverse

/-- `add128(x, n)` under CTR_ENDIAN (41_descriptor_commands.md R207). -/
def add128 (e : Endian) (x : Block) (n : Nat) : Block :=
  match e with
  | .little => x + BitVec.ofNat 128 n
  | .big => swap128 (swap128 x + BitVec.ofNat 128 n)

/-- `inc128(x)` (41_descriptor_commands.md R207). -/
def inc128 (e : Endian) (x : Block) : Block := add128 e x 1

/-- A cipher command's block function: CHAIN and the input block to the output block and the new CHAIN
(41_descriptor_commands.md R201). -/
abbrev BlockFn := Block → List Byte → List Byte × Block

/-- The block loop of 41_descriptor_commands.md R201: block `i` is read, then written, before block
`i + 1` is read (20_memory.md R100). -/
def cipherBlocks (p : Params) (bs : Nat) (blk : BlockFn) : Nat → Nat → Nat → Memory → Block → Acc (Memory × Block)
  | 0, _, _, m, ch => .ok (m, ch)
  | n + 1, src, dst, m, ch =>
    (memRead p m src bs).bind fun x =>
      (memWrite p m dst (blk ch x).1).bind fun m' =>
        cipherBlocks p bs blk n (src + bs) (dst + bs) m' (blk ch x).2

/-- CHAIN and CHAIN_VALID as the block loop starts: loaded from IPTR when the mode uses an IV and IPTR is
not 0, else continued (41_descriptor_commands.md R205). -/
def loadChain (a : CipherAlg) (d : Trb) (s : State) : Acc (Block × Bool) :=
  if a.usesIV && d.iptr != 0 then
    (memRead s.params s.mem d.iptr.toNat 16).bind fun b => .ok (bitsOf 128 b, true)
  else .ok (s.chain, s.chainValid)

/-- The data operation of every cipher command (41_descriptor_commands.md R201). -/
def cipherData (a : CipherAlg) (d : Trb) (blk : List Byte → BlockFn) (s : State) : Acc State :=
  (memRead s.params s.mem d.kptr.toNat (keyBytes d.keysz)).bind fun key =>
    (loadChain a d s).bind fun cv =>
      (cipherBlocks s.params a.blockSize (blk key) (d.size.toNat / a.blockSize)
          d.sptr.toNat d.dptr.toNat s.mem cv.1).bind fun mc =>
        .ok { s with mem := mc.1, chain := mc.2, chainValid := cv.2 }

/-- A hash command's block function: state, data block and sub-key to the new state
(41_descriptor_commands.md R220). -/
abbrev CompressFn := List Byte → List Byte → List Byte → List Byte

/-- The block loop of 41_descriptor_commands.md R220. -/
def hashBlocks (p : Params) (m : Memory) (bs : Nat) (f : List Byte → List Byte → List Byte) :
    Nat → Nat → List Byte → Acc (List Byte)
  | 0, _, st => .ok st
  | n + 1, src, st =>
    (memRead p m src bs).bind fun x => hashBlocks p m bs f n (src + bs) (f st x)

/-- GHASH reads its sub-key (41_descriptor_commands.md R220); no other hash has one. -/
def loadSubKey (a : HashAlg) (d : Trb) (s : State) : Acc (List Byte) :=
  if a = .ghash then memRead s.params s.mem d.kptr.toNat 16 else .ok []

/-- The data operation of every hash command (41_descriptor_commands.md R220, 20_memory.md R101). -/
def hashData (a : HashAlg) (d : Trb) (f : CompressFn) (s : State) : Acc State :=
  (memRead s.params s.mem d.iptr.toNat a.stateLen).bind fun st =>
    (loadSubKey a d s).bind fun h =>
      (hashBlocks s.params s.mem a.blockSize (fun st x => f st x h) (d.size.toNat / a.blockSize)
          d.sptr.toNat st).bind fun st' =>
        (memWrite s.params s.mem d.dptr.toNat st').bind fun m =>
          .ok (s.setMem m)

/-- Whether SIZE is positive and a block multiple (41_descriptor_commands.md R200, check 3). -/
def sizeOk (a : Alg) (d : Trb) : Bool := d.size != 0 && d.size.toNat % a.blockSize == 0

/-- Whether the command would continue a CHAIN that was never loaded (41_descriptor_commands.md R200,
check 4, R206). -/
def chainUnset (a : Alg) (d : Trb) (s : State) : Bool := a.usesIV && d.iptr == 0 && !s.chainValid

/-- Every normal descriptor: the checks of 41_descriptor_commands.md R200 in their order, the data
operation, then the completion of 40_ring.md R173. -/
def runCommand (a : Alg) (d : Trb) (data : State → Acc State) (s : State) : Step :=
  if s.cur ≠ a.engine then .refused .wrongRing
  else if validKeysz s.params a d.keysz = false then engineOutcome s (complete d ccBadKeyLength s)
  else if sizeOk a d = false then .refused .badSize
  else if chainUnset a d s = true then .fault .chainUnset
  else engineOutcome s ((data s).bind (complete d ccSuccess))

/-- A cipher command with its block function. -/
def runCipher (a : CipherAlg) (d : Trb) (blk : List Byte → BlockFn) (s : State) : Step :=
  runCommand (.cipher a) d (cipherData a d blk) s

/-- A hash command with its block function. -/
def runHash (a : HashAlg) (d : Trb) (f : CompressFn) (s : State) : Step :=
  runCommand (.hash a) d (hashData a d f) s

end Sys2Proof.Machine
end

