-- ==== Sys2Proof/Machine/Cipher.lean ====
section
/-! DEFINITION. The commands of the AES engine (41_descriptor_commands.md R210 to R215): each gives its
block function to the common procedure of R201. -/

namespace Sys2Proof.Machine

/-- `BLOCK(in) = AES_Enc(key, in)` (41_descriptor_commands.md R210). -/
def ecbEncBlock (key : List Byte) : BlockFn := fun ch x =>
  (bytesOf 16 (Config.aesEnc (aesKey key) (bitsOf 128 x)), ch)

/-- `BLOCK(in) = AES_Dec(key, in)` (41_descriptor_commands.md R211). -/
def ecbDecBlock (key : List Byte) : BlockFn := fun ch x =>
  (bytesOf 16 (Config.aesDec (aesKey key) (bitsOf 128 x)), ch)

/-- `out = AES_Enc(key, in xor CHAIN); CHAIN = out` (41_descriptor_commands.md R212). -/
def cbcEncBlock (key : List Byte) : BlockFn := fun ch x =>
  let out := Config.aesEnc (aesKey key) (bitsOf 128 x ^^^ ch)
  (bytesOf 16 out, out)

/-- `out = AES_Dec(key, in) xor CHAIN; CHAIN = in` (41_descriptor_commands.md R213). -/
def cbcDecBlock (key : List Byte) : BlockFn := fun ch x =>
  (bytesOf 16 (Config.aesDec (aesKey key) (bitsOf 128 x) ^^^ ch), bitsOf 128 x)

/-- `out = in xor AES_Enc(key, CHAIN); CHAIN = inc128(CHAIN)` (41_descriptor_commands.md R214). -/
def ctrBlock (e : Endian) (key : List Byte) : BlockFn := fun ch x =>
  (bytesOf 16 (bitsOf 128 x ^^^ Config.aesEnc (aesKey key) ch), inc128 e ch)

/-- `out = in xor ChaCha20_Block(key, CHAIN); CHAIN = inc128(CHAIN)` (41_descriptor_commands.md R215). -/
def chacha20BlockFn (e : Endian) (key : List Byte) : BlockFn := fun ch x =>
  (bytesOf 64 (bitsOf 512 x ^^^ Config.chacha20Block (bitsOf 256 key) ch), inc128 e ch)

/-- `AES_ECB_ENC` (41_descriptor_commands.md R210). -/
def execAesEcbEnc (d : Trb) (s : State) : Step := runCipher .ecb d ecbEncBlock s

/-- `AES_ECB_DEC` (41_descriptor_commands.md R211). -/
def execAesEcbDec (d : Trb) (s : State) : Step := runCipher .ecb d ecbDecBlock s

/-- `AES_CBC_ENC` (41_descriptor_commands.md R212). -/
def execAesCbcEnc (d : Trb) (s : State) : Step := runCipher .cbc d cbcEncBlock s

/-- `AES_CBC_DEC` (41_descriptor_commands.md R213). -/
def execAesCbcDec (d : Trb) (s : State) : Step := runCipher .cbc d cbcDecBlock s

/-- `AES_CTR` (41_descriptor_commands.md R214); DIR is ignored (30_encoding.md R122). -/
def execAesCtr (d : Trb) (s : State) : Step := runCipher .ctr d (ctrBlock s.params.ctrEndian) s

/-- `CHACHA20` (41_descriptor_commands.md R215); DIR is ignored (30_encoding.md R122). -/
def execChacha20 (d : Trb) (s : State) : Step :=
  runCipher .chacha20 d (chacha20BlockFn s.params.ctrEndian) s

end Sys2Proof.Machine
end

