-- ==== Sys2Proof/Machine/Hash.lean ====
section
/-! DEFINITION. The commands of the hash engine (41_descriptor_commands.md R223 to R228): each gives its
compression function to the common procedure of R220. FINAL changes none of them (R221). -/

namespace Sys2Proof.Machine

/-- `COMPRESS(S, X) = MD5_Compress(S, X)` (41_descriptor_commands.md R223). -/
def md5Block : CompressFn := fun st x _ =>
  bytesOf 16 (Config.md5Compress (bitsOf 128 st) (bitsOf 512 x))

/-- `COMPRESS(S, X) = Keccak_F1600((S[0:r) xor X) ++ S[r:200))` (41_descriptor_commands.md R224 to R227). -/
def keccakBlock (r : Nat) : CompressFn := fun st x _ =>
  bytesOf 200 (Config.keccakF1600 (bitsOf 1600 (xorBytes (st.take r) x ++ st.drop r)))

/-- `COMPRESS(S, X, H) = GF128_Mul(S xor X, H)` (41_descriptor_commands.md R228). -/
def ghashBlock : CompressFn := fun st x h =>
  bytesOf 16 (Config.gf128Mul (bitsOf 128 st ^^^ bitsOf 128 x) (bitsOf 128 h))

/-- `MD5` (41_descriptor_commands.md R223). -/
def execMd5 (d : Trb) (s : State) : Step := runHash .md5 d md5Block s

/-- `SHA3_224` (41_descriptor_commands.md R224). -/
def execSha3_224 (d : Trb) (s : State) : Step := runHash .sha3_224 d (keccakBlock 144) s

/-- `SHA3_256` (41_descriptor_commands.md R225). -/
def execSha3_256 (d : Trb) (s : State) : Step := runHash .sha3_256 d (keccakBlock 136) s

/-- `SHA3_384` (41_descriptor_commands.md R226). -/
def execSha3_384 (d : Trb) (s : State) : Step := runHash .sha3_384 d (keccakBlock 104) s

/-- `SHA3_512` (41_descriptor_commands.md R227). -/
def execSha3_512 (d : Trb) (s : State) : Step := runHash .sha3_512 d (keccakBlock 72) s

/-- `GHASH` (41_descriptor_commands.md R228). -/
def execGhash (d : Trb) (s : State) : Step := runHash .ghash d ghashBlock s

end Sys2Proof.Machine
end

