-- ==== Sys2Proof/Machine/Link.lean ====
section
/-! DEFINITION. The LINK descriptor (40_ring.md R172). -/

namespace Sys2Proof.Machine

/-- `LINK` (40_ring.md R172): DQ becomes DPTR with its low five bits cleared, TC inverts CCS; no memory
write, no completion code, no interrupt. -/
def execLink (tc : Bool) (dptr : Word) (s : State) : Step :=
  let x := s.engine s.cur
  .next (s.setEngine s.cur { x with dq := alignBase dptr, ccs := if tc then !x.ccs else x.ccs })

end Sys2Proof.Machine
end

