-- ==== Sys2Proof/Machine/Dispatch.lean ====
section
/-! DEFINITION. One arm per command of opcode_table.json. -/

namespace Sys2Proof.Machine

def exec (i : Instr) (s : State) : Host.Outcome State Fault Refusal :=
  match i with
  | .link _ tc dptr => Sys2Proof.Machine.execLink tc dptr s
  | .aesEcbEnc d => Sys2Proof.Machine.execAesEcbEnc d s
  | .aesEcbDec d => Sys2Proof.Machine.execAesEcbDec d s
  | .aesCbcEnc d => Sys2Proof.Machine.execAesCbcEnc d s
  | .aesCbcDec d => Sys2Proof.Machine.execAesCbcDec d s
  | .aesCtr _ d => Sys2Proof.Machine.execAesCtr d s
  | .chacha20 _ d => Sys2Proof.Machine.execChacha20 d s
  | .md5 _ d => Sys2Proof.Machine.execMd5 d s
  | .sha3_224 _ d => Sys2Proof.Machine.execSha3_224 d s
  | .sha3_256 _ d => Sys2Proof.Machine.execSha3_256 d s
  | .sha3_384 _ d => Sys2Proof.Machine.execSha3_384 d s
  | .sha3_512 _ d => Sys2Proof.Machine.execSha3_512 d s
  | .ghash _ d => Sys2Proof.Machine.execGhash d s

end Sys2Proof.Machine
end

