-- ==== Sys2Proof/Machine/Dispatcher.lean ====
section
/-! DEFINITION. The completion dispatcher (40_ring.md R180 to R183): one entry, release or exit a step. -/

namespace Sys2Proof.Machine

/-- The drain of a ring ends (40_ring.md R182). -/
def endDrain (s : State) (r : EngineId) : State :=
  match r with
  | .aes => { s with dispatcher := { s.dispatcher with drainAes := false } }
  | .hash => { s with dispatcher := { s.dispatcher with drainHash := false } }

/-- The context after one of its descriptors is released (40_ring.md R182). That `outstanding - 1` is 0 when
`outstanding` is 0 is a DESIGN CHOICE (notes/assumptions/34.md). -/
def Ctx.afterRelease (c : Ctx) (d : Descriptor) : Ctx :=
  { c with
    status := if d.cc = ccSuccess then c.status else d.cc
    outstanding := c.outstanding - 1
    done := if d.ioc then true else c.done
    waiter := if d.ioc then none else c.waiter }

/-- The ring after a release (40_ring.md R182). That the semaphore may pass `N - 2` when a descriptor that no
QUEUE counted is released is a DESIGN CHOICE (notes/assumptions/34.md). -/
def Ring.afterRelease (n : Nat) (x : Ring) : Ring :=
  { x with head := nextSlot n x.head, sem := x.sem + 1 }

/-- `RELEASE(r)` (40_ring.md R182). An access outside the backed ranges leaves the dispatcher without a
step (20_memory.md R84); an OWNER that names no context has no meaning (notes/assumptions/24.md). -/
def release (r : EngineId) (s : State) : Step :=
  let a := slotAddr (s.ring r) (s.ring r).head
  match memRead s.params s.mem a 32 with
  | .wrap => .refused .dmaWrap
  | .unbacked => .next { s with dispatcher := { s.dispatcher with stuck := true } }
  | .ok b =>
    let d := Descriptor.ofBytes b
    if d.cc = ccNone then .next (endDrain s r)
    else match s.ctx d.owner with
      | none => .refused .unknownOwner
      | some _ =>
        match memWrite s.params s.mem a [statusByte ccNone d.cycle] with
        | .wrap => .refused .dmaWrap
        | .unbacked => .next { s with dispatcher := { s.dispatcher with stuck := true } }
        | .ok m =>
          .next (((s.setMem m).setRing r ((s.ring r).afterRelease (s.slots r))).updCtx d.owner
            fun c => c.afterRelease d)

/-- One step of the dispatcher (40_ring.md R180): entry while IRQ = 1, the AES ring before the hash ring,
then the exit. It does not nest (R183) and never holds (60_exceptions.md R371). -/
def dispatcherStep (s : State) : Step :=
  if s.dispatcher.stuck then .next s
  else if s.dispatcher.active then
    if s.dispatcher.drainAes then release .aes s
    else if s.dispatcher.drainHash then release .hash s
    else .next (dispatchExit s)
  else if s.irq then .next (dispatchEntry s)
  else .next s

end Sys2Proof.Machine
end

