-- ==== Sys2Proof/Machine/Registers.lean ====
section
/-! DEFINITION. Host accesses to the control registers (10_state.md R31 to R37, 40_ring.md R171, R175). -/

namespace Sys2Proof.Machine

/-- The offset of a register address from REG_BASE (10_state.md R31). That register addresses are 32 bits
wide and their difference is taken modulo 2^32 is a DESIGN CHOICE: 00_scope.md R11 gives REG_BASE no width
(notes/assumptions/33.md). -/
def regOffset (p : Params) (addr : Word) : Nat := (addr - p.regBase).toNat

/-- A register read by offset (10_state.md R31 to R37): no side effect. The refusals are checked in the
order width, offset, RSA (notes/assumptions/16.md). -/
def readReg (s : State) (off width : Nat) : Except Refusal Word :=
  if width ≠ 4 ∨ off % 4 ≠ 0 then .error .registerAccessWidth
  else match off with
    | 0x00 => .ok s.aes.ringBase
    | 0x04 => .ok (ringCtrlValue s.aes)
    | 0x08 => .ok s.hash.ringBase
    | 0x0C => .ok (ringCtrlValue s.hash)
    | 0x10 => .error .rsaOutOfScope
    | 0x14 => .error .rsaOutOfScope
    | 0x18 => .ok s.intEn
    | 0x1C => .ok s.intFlag
    | _ => .error .unmappedRegister

/-- A write of `RING_BASE[e]` (10_state.md R32). -/
def writeBaseReg (s : State) (e : EngineId) (v : Word) : Except Refusal State :=
  if (s.engine e).busy then .error .baseWriteWhileBusy
  else .ok (s.setEngine e (writeRingBase v (s.engine e)))

/-- A write of `RING_CTRL[e]` (10_state.md R33); a trigger before the ring's first reset is refused
(70_reset_and_hazards.md R402, notes/assumptions/17.md). -/
def writeCtrlReg (s : State) (e : EngineId) (v : Word) : Except Refusal State :=
  if v.getLsbD 0 && !(s.ring e).live then .error .ringNotReset
  else .ok (s.setEngine e (writeRingCtrl v (s.engine e)))

/-- A register write by offset (10_state.md R31 to R37). A write of 0 to a reserved RSA register neither
writes a 1 nor depends on its value and has no effect (notes/assumptions/16.md). -/
def writeReg (s : State) (off width : Nat) (v : Word) : Except Refusal State :=
  if width ≠ 4 ∨ off % 4 ≠ 0 then .error .registerAccessWidth
  else match off with
    | 0x00 => writeBaseReg s .aes v
    | 0x04 => writeCtrlReg s .aes v
    | 0x08 => writeBaseReg s .hash v
    | 0x0C => writeCtrlReg s .hash v
    | 0x10 => if v = 0 then .ok s else .error .rsaOutOfScope
    | 0x14 => if v = 0 then .ok s else .error .rsaOutOfScope
    | 0x18 => if v &&& rsaBits = 0 then .ok { s with intEn := maskEnable v } else .error .rsaOutOfScope
    | 0x1C => if v &&& rsaBits = 0 then .ok { s with intFlag := clearFlags s.intFlag v }
              else .error .rsaOutOfScope
    | _ => .error .unmappedRegister

end Sys2Proof.Machine
end

