-- ==== Sys2Proof/Machine/Ring.lean ====
section
/-! DEFINITION. The enqueue side (40_ring.md R150 to R166): RING_RESET, ACQUIRE, QUEUE with PUBLISH, the
zero-length QUEUE, EXECUTE with WAIT. Each definition is one atomic step of a host thread or a part of one
(notes/assumptions/13.md). -/

namespace Sys2Proof.Machine

/-- The thread's inner operation goes on at another position. -/
def State.goSub (s : State) (t : ThreadId) (k : Task) (sub : Sub) : State :=
  s.setTask t { k with sub := some sub, ret := none }

/-- The thread's inner operation returns to the operation that called it. -/
def State.retSub (s : State) (t : ThreadId) (k : Task) (r : SubRet) : State :=
  s.setTask t { k with sub := none, ret := some r }

/-- Whether an identity names a context of the ring. -/
def State.onRing (s : State) (r : EngineId) (h : Handle) : Bool :=
  match s.ctx h with
  | some c => c.ring == r
  | none => false

/-- Whether a task is in QUEUE or EXECUTE on the ring (40_ring.md R150). -/
def Task.queuesOn (s : State) (r : EngineId) (k : Task) : Bool :=
  match k.sub with
  | some (.queue q _) => s.onRing r q.ctx
  | some (.exec h _) => s.onRing r h
  | none => false

/-- Whether a task is any operation on the ring (70_reset_and_hazards.md R403). -/
def Task.usesRing (s : State) (r : EngineId) (k : Task) : Bool :=
  match k.job with
  | .ringReset r' _ => r' == r
  | .queue q => s.onRing r q.ctx
  | .execute h => s.onRing r h
  | .hashUpdate _ _ _ _ => r == .hash
  | .hashFinal _ _ => r == .hash
  | .crypt _ _ _ => r == .aes
  | _ => false

/-- Whether some other thread's task satisfies a condition. -/
def State.otherTask (s : State) (t : ThreadId) (f : Task → Bool) : Bool :=
  s.threads.any fun x => x.id != t && (x.task.map f).getD false

/-- The precondition of RING_RESET (40_ring.md R150), and for a later one that the ring is quiescent
(70_reset_and_hazards.md R403; notes/assumptions/14.md). -/
def State.ringQuiet (s : State) (t : ThreadId) (r : EngineId) : Bool :=
  !(s.engine r).busy && !s.otherTask t (Task.queuesOn s r) &&
    (!(s.ring r).live || ((s.ring r).sem == s.slots r - 2 && !s.otherTask t (Task.usesRing s r)))

/-- The usable slots zeroed (40_ring.md R150), one MemWrite a slot. -/
def zeroSlots (p : Params) : Nat → Nat → Memory → Acc Memory
  | 0, _, m => .ok m
  | n + 1, a, m => (memWrite p m a (List.replicate 32 0)).bind fun m' => zeroSlots p n (a + 32) m'

/-- The ring memory RING_RESET leaves (40_ring.md R150): zero slots, then the link slot. -/
def ringMemory (p : Params) (n : Nat) (base : Word) (m : Memory) : Acc Memory :=
  (zeroSlots p (n - 1) base.toNat m).bind fun m' =>
    memWrite p m' (base.toNat + 32 * (n - 1)) (encode (.link false true base))

/-- The ring controller after RING_RESET (10_state.md R65). -/
def freshRing (n : Nat) (base : Word) : Ring where
  live := true
  base := base
  head := 0
  tail := 0
  pcs := true
  sem := n - 2
  mutex := none
  triggerCount := 0
  irqCount := 0

/-- `RING_RESET(r)` (40_ring.md R150) as one step. That traffic is tested before the alignment of the base,
so that both together are the fault, is a DESIGN CHOICE (notes/assumptions/14.md). -/
def ringReset (t : ThreadId) (r : EngineId) (base : Word) (s : State) : Step :=
  if s.ringQuiet t r = false then .fault .resetDuringTraffic
  else if base &&& 0x1F ≠ 0 then .refused .unalignedBuffer
  else hostAccess s t (ringMemory s.params (s.slots r) base s.mem) fun m =>
    .next (((((s.setMem m).setRing r (freshRing (s.slots r) base)).setEngine r
        (writeRingBase base (writeRingCtrl 0x4 (s.engine r)))).updRingCtxs r
          fun c => { c with outstanding := 0 }).finish t .ok)

/-- The ring after ACQUIRE step 2 (40_ring.md R151): the tail advances, PCS inverts at a wrap. -/
def Ring.advanceTail (n : Nat) (x : Ring) : Ring :=
  { x with tail := nextSlot n x.tail, pcs := if x.tail = n - 2 then !x.pcs else x.pcs }

/-- The memory after ACQUIRE step 2 (40_ring.md R151): at a wrap the link's byte 0 gets C = PCS. -/
def linkMemory (p : Params) (n : Nat) (x : Ring) (m : Memory) : Acc Memory :=
  if x.tail = n - 2 then memWrite p m (slotAddr x (n - 1)) [statusByte ccNone x.pcs] else .ok m

/-- ACQUIRE step 2 (40_ring.md R151); the slot and its cycle value are the ring's `tail` and `pcs` before. -/
def takeSlot (s : State) (r : EngineId) : Acc State :=
  (linkMemory s.params (s.slots r) (s.ring r) s.mem).bind fun m =>
    .ok ((s.setMem m).setRing r ((s.ring r).advanceTail (s.slots r)))

/-- The ring mutex given up unless it was held on entry (40_ring.md R153). -/
def State.unlockRing (s : State) (r : EngineId) (held : Bool) : State :=
  if held then s else s.setRing r { s.ring r with mutex := none }

/-- The writes of PUBLISH in their order (40_ring.md R155): the fields, word 0 not yet owned, the barrier
(7, which writes nothing, 20_memory.md R96), and last word 0 with the ownership. -/
def publishWrite (mc : ModeCodec) (q : QueueCall) (a : Nat) (cyc ioc : Bool) (k : Nat) : Option (Nat × List Byte) :=
  match k with
  | 0 => some (a + 4, toLe32 q.src)
  | 1 => some (a + 8, toLe32 q.dst)
  | 2 => some (a + 12, toLe32 (mc.encodeMode q.mode))
  | 3 => some (a + 16, toLe32 q.iv)
  | 4 => some (a + 20, toLe32 q.key)
  | 5 => some (a + 24, leBytes 8 q.ctx.toNat)
  | 6 => some (a, toLe32 (ctrlWord (!cyc) ccNone false ioc 0 (BitVec.ofNat 16 q.len)))
  | 7 => none
  | _ => some (a, toLe32 (ctrlWord cyc ccNone false ioc 0 (BitVec.ofNat 16 q.len)))

/-- The context after QUEUE (40_ring.md R153). -/
def Ctx.afterQueue (c : Ctx) (slot : Nat) (iocEff : Bool) (mode : Mode) : Ctx :=
  { c with
    last := some slot
    pendingNonIoc := !iocEff
    mode := some mode
    outstanding := c.outstanding + 1
    done := if iocEff then false else c.done }

/-- One step of PUBLISH (40_ring.md R155); the last write and the context's update of R153 are one step
(notes/assumptions/13.md). -/
def publishStep (t : ThreadId) (k : Task) (q : QueueCall) (r : EngineId) (held : Bool) (slot : Nat)
    (cyc iocEff : Bool) (n : Nat) (s : State) : Step :=
  match publishWrite s.params.codec q (slotAddr (s.ring r) slot) cyc iocEff n with
  | none => .next (s.goSub t k (.queue q (.publish held slot cyc iocEff (n + 1))))
  | some w =>
    hostAccess s t (memWrite s.params s.mem w.1 w.2) fun m =>
      if n < 8 then .next ((s.setMem m).goSub t k (.queue q (.publish held slot cyc iocEff (n + 1))))
      else .next (((((s.setMem m).updCtx q.ctx fun c => c.afterQueue slot iocEff q.mode).unlockRing r held)).retSub
        t k (.queued slot iocEff))

/-- Lock the ring mutex unless this thread holds it (40_ring.md R153, R158); `none` while another holds
it. -/
def State.lockRing (s : State) (t : ThreadId) (r : EngineId) : Option (State × Bool) :=
  match (s.ring r).mutex with
  | none => some (s.setRing r { s.ring r with mutex := some t }, false)
  | some u => if u = t then some (s, true) else none

/-- Whether the zero-length queue has a pending descriptor to change (40_ring.md R158). -/
def Ctx.pendingSlot (c : Ctx) : Option Nat := if c.pendingNonIoc then c.last else none

/-- The context after the zero-length queue changed its pending descriptor (40_ring.md R158). -/
def Ctx.afterZeroQueue (c : Ctx) (mode : Mode) (ioc : Bool) : Ctx :=
  { c with
    mode := some mode
    pendingNonIoc := if ioc then false else c.pendingNonIoc
    done := if ioc then false else c.done }

/-- One step of QUEUE (40_ring.md R151, R153 to R156, R158) on the context's ring `r`. The zero-length queue
tests its condition once, takes its two writes as two steps (DESIGN CHOICE, notes/assumptions/13.md) and updates
the context with the second, whatever became of the context in between. That the ring has had its ring reset
(70_reset_and_hazards.md R402) is tested at the first step alone, so a QUEUE already inside when a hardware reset
comes goes on and publishes (DESIGN CHOICE, notes/assumptions/10.md). -/
def queuePhase (t : ThreadId) (k : Task) (q : QueueCall) (c : Ctx) (r : EngineId) (s : State) : QueuePhase → Step
  | .enter =>
    if (s.ring r).live = false then .refused .ringNotReset
    else if Config.sizeMax < q.len then .refused .sizeTooLarge
    else .next (s.goSub t k (.queue q (if q.len = 0 then .zeroLock else .down)))
  | .down =>
    if (s.ring r).sem = 0 then .next s
    else .next ((s.setRing r { s.ring r with sem := (s.ring r).sem - 1 }).goSub t k (.queue q .lock))
  | .lock =>
    match s.lockRing t r with
    | none => .next s
    | some (s', held) => .next (s'.goSub t k (.queue q (.take held)))
  | .take held =>
    let iocEff := q.ioc || (s.ring r).sem == 0
    if iocEff && !c.done then .fault .secondOutstandingIoc
    else hostAccess s t (takeSlot s r) fun s' =>
      .next (s'.goSub t k (.queue q (.publish held (s.ring r).tail (s.ring r).pcs iocEff 0)))
  | .publish held slot cyc iocEff n => publishStep t k q r held slot cyc iocEff n s
  | .zeroLock =>
    match s.lockRing t r with
    | none => .next s
    | some (s', held) => .next (s'.goSub t k (.queue q (.zeroMode held)))
  | .zeroMode held =>
    match c.pendingSlot with
    | none => .next ((s.unlockRing r held).retSub t k .updated)
    | some slot =>
      hostAccess s t (memWrite s.params s.mem (slotAddr (s.ring r) slot + 12)
          (toLe32 (s.params.codec.encodeMode q.mode))) fun m =>
        .next ((s.setMem m).goSub t k (.queue q (.zeroFlags held slot)))
  | .zeroFlags held slot =>
    hostAccess s t ((memRead s.params s.mem (slotAddr (s.ring r) slot + 1) 1).bind fun b =>
        memWrite s.params s.mem (slotAddr (s.ring r) slot + 1) (b.map fun x => withIoc x q.ioc)) fun m =>
      .next ((((s.setMem m).updCtx q.ctx fun c => c.afterZeroQueue q.mode q.ioc).unlockRing r held).retSub t k .updated)

/-- One step of QUEUE (40_ring.md R153, R158). -/
def queueStep (t : ThreadId) (k : Task) (q : QueueCall) (ph : QueuePhase) (s : State) : Step :=
  match s.ctx q.ctx with
  | none => .refused .noSession
  | some c => queuePhase t k q c c.ring s ph

/-- `finish(ctx)` of EXECUTE (40_ring.md R160): the recorded status is reported and reset. -/
def finishExecute (t : ThreadId) (k : Task) (h : Handle) (c : Ctx) (s : State) : Step :=
  let s' := s.updCtx h fun c => { c with status := ccSuccess, waiter := none }
  if c.status = ccBadKeyLength then .next (s'.retSub t k (.failed .badKeyLength))
  else if c.status = ccSuccess then .next (s'.retSub t k .executed)
  else .fault .reservedCompletionCode

/-- The trigger's value: RUN, with RCS as it reads (40_ring.md R160). -/
def triggerValue (e : Engine) : Word := if e.rcs then 0x5 else 0x1

/-- One step of EXECUTE (40_ring.md R160, R163 to R166). The ring reset of 70_reset_and_hazards.md R402 is tested at
the trigger alone, so a wait goes on over a hardware reset (DESIGN CHOICE, notes/assumptions/10.md). -/
def execStep (t : ThreadId) (k : Task) (h : Handle) (ph : ExecPhase) (s : State) : Step :=
  match s.ctx h with
  | none => .refused .noSession
  | some c =>
    match ph with
    | .trigger =>
      if (s.ring c.ring).live = false then .refused .ringNotReset
      else if c.done then finishExecute t k h c s
      else .next ((((s.setRing c.ring { s.ring c.ring with triggerCount := (s.ring c.ring).triggerCount + 1 }).setEngine
          c.ring (writeRingCtrl (triggerValue (s.engine c.ring)) (s.engine c.ring))).updCtx h
            fun c => { c with waiter := some t }).goSub t k (.exec h .wait))
    | .wait => if c.done then finishExecute t k h c s else .next s

/-- A hold of the thread ended by a signal (60_exceptions.md R355; notes/assumptions/15.md): on the
semaphore while it is 0, or in the sleeping wait of a cipher. Elsewhere it has no effect. -/
def signalThread (t : ThreadId) (k : Task) (s : State) : State :=
  match k.sub with
  | some (.queue q .down) =>
    match s.ctx q.ctx with
    | some c => if (s.ring c.ring).sem = 0 then s.retSub t k (.failed .interrupted) else s
    | none => s
  | some (.exec h .wait) =>
    match s.ctx h with
    | some c =>
      if c.ring = .aes then
        (s.updCtx h fun c => { c with waiter := none }).retSub t k (.failed .interrupted)
      else s
    | none => s
  | _ => s

/-- The sleeping wait of a cipher ended by its timeout (40_ring.md R166, 60_exceptions.md R356). -/
def timeoutThread (t : ThreadId) (k : Task) (s : State) : State :=
  match k.sub with
  | some (.exec h .wait) =>
    match s.ctx h with
    | some c =>
      if c.ring = .aes then
        (s.updCtx h fun c => { c with waiter := none }).retSub t k (.failed .timeout)
      else s
    | none => s
  | _ => s

end Sys2Proof.Machine
end

