-- ==== Sys2Proof/Machine/HashSession.lean ====
section
/-! DEFINITION. The hash session's operations (42_hash_fsm.md): create, init, update, final, setkey,
export, import, destroy, each as the steps of a host thread, with the padding of R258 to R260. -/

namespace Sys2Proof.Machine

/-- `STATE_ADDR` (10_state.md R57). -/
def HashSession.stateAddr (x : HashSession) : Nat := x.scratch.toNat

/-- `BUF_ADDR` (10_state.md R57). -/
def HashSession.bufAddr (x : HashSession) : Nat := x.scratch.toNat + 224

/-- `HKEY_ADDR` (10_state.md R57). -/
def HashSession.hkeyAddr (x : HashSession) : Nat := x.scratch.toNat + 384

/-- `hmode(alg, f)` (42_hash_fsm.md R252). -/
def hashMode (a : HashAlg) (final : Bool) : Mode := ⟨.hash a, false, 0, final⟩

/-- Whether an identity is in use. -/
def State.handleUsed (s : State) (h : Handle) : Bool := (s.ctx h).isSome

/-- A new execution context (10_state.md R55). -/
def freshCtx (r : EngineId) (mode : Option Mode) : Ctx where
  ring := r
  mode := mode
  done := true
  status := ccSuccess
  last := none
  pendingNonIoc := false
  outstanding := 0
  waiter := none

/-- A new hash session (42_hash_fsm.md R250). -/
def freshHash (h : Handle) (a : HashAlg) (hs : Word) : HashSession where
  handle := h
  alg := a
  digestLen := a.digestLen
  fsm := .uninitialized
  left := 0
  total := 0
  keySet := false
  lock := none
  scratch := hs
  ctx := freshCtx .hash (some (hashMode a false))

/-- `HASH_CREATE(alg, hs)` (42_hash_fsm.md R250). The identity is the caller's choice and must be new
(30_encoding.md R126, notes/assumptions/11.md). -/
def hashCreate (t : ThreadId) (h : Handle) (a : HashAlg) (hs : Word) (s : State) : Step :=
  if s.handleUsed h then .refused .handleInUse
  else if hs &&& 0x1F ≠ 0 then .refused .unalignedBuffer
  else .next ({ s with hashSessions := s.hashSessions ++ [freshHash h a hs] }.finish t .ok)

/-- The session lock taken when it is free (20_memory.md R97), the operation then at its next position;
else the thread holds. -/
def lockHash (t : ThreadId) (x : HashSession) (k : Task) (s : State) : Step :=
  match x.lock with
  | none => .next ((s.updHash x.handle fun y => { y with lock := some t }).setTask t k)
  | some _ => .next s

/-- The operation returns and gives up the session lock (42_hash_fsm.md R269). -/
def leaveHash (t : ThreadId) (h : Handle) (r : Result) (s : State) : State :=
  (s.updHash h fun y => { y with lock := none }).finish t r

/-- The operation fails after it may have queued descriptors (42_hash_fsm.md R267). -/
def failHash (t : ThreadId) (h : Handle) (e : Err) (s : State) : State :=
  leaveHash t h (.err e) (s.updHash h fun y => { y with fsm := .failed })

/-- The seed of STATE (42_hash_fsm.md R251): the four little-endian MD5 words, or zeros. -/
def hashSeed : HashAlg → List Byte
  | .md5 => toLe32 0x67452301 ++ toLe32 0xefcdab89 ++ toLe32 0x98badcfe ++ toLe32 0x10325476
  | .ghash => List.replicate 16 0
  | _ => List.replicate 200 0

/-- The context's bookkeeping cleared by init and import (42_hash_fsm.md R251, R264). -/
def Ctx.cleared (c : Ctx) : Ctx := { c with last := none, pendingNonIoc := false, status := ccSuccess }

/-- The body of `HASH_INIT(s, dl)` (42_hash_fsm.md R251), under the session lock. -/
def hashInitBody (t : ThreadId) (dl : Option Nat) (x : HashSession) (s : State) : Step :=
  match dl with
  | none => .next (leaveHash t x.handle (.okLen x.digestLen) s)
  | some n =>
    if n ≠ x.digestLen then .next (leaveHash t x.handle (.err .invalidParameter) s)
    else if 0 < x.ctx.outstanding then .refused .staleDescriptors
    else hostAccess s t (memWrite s.params s.mem x.stateAddr (hashSeed x.alg)) fun m =>
      .next (leaveHash t x.handle .ok ((s.setMem m).updHash x.handle fun y =>
        { y with left := 0, total := 0, fsm := .ready, ctx := y.ctx.cleared }))

/-- The checks before the lock of update, final and export (42_hash_fsm.md R253, R257, R263);
`needKey` for the two that need the GHASH sub-key. -/
def hashReadyCheck (x : HashSession) (needKey : Bool) : Option Refusal :=
  if x.fsm ≠ .ready ∧ x.fsm ≠ .updating then some .hashNotReady
  else if needKey && x.alg == .ghash && !x.keySet then some .ghashKeyUnset
  else none

/-- `split(a, len, m)` (42_hash_fsm.md R256); the first argument bounds the number of runs. -/
def splitRuns (m : Nat) : Nat → Nat → Nat → List Run
  | 0, _, _ => []
  | k + 1, a, len =>
    if len = 0 then []
    else if len ≤ m then [⟨a, len⟩]
    else ⟨a, m⟩ :: splitRuns m k (a + m) (len - m)

/-- The whole blocks an update of `n` bytes sends from the caller's data (42_hash_fsm.md R253). -/
def directLen (bs left n : Nat) : Nat :=
  let q := n - (bs - left)
  q - q % bs

/-- The runs of an update (42_hash_fsm.md R253): the buffer block, then the whole blocks in place. -/
def updateRuns (x : HashSession) (p n : Nat) : List Run :=
  let bs := x.alg.blockSize
  let d := directLen bs x.left n
  ⟨x.bufAddr, bs⟩ :: splitRuns (Config.maxRun bs) (d / Config.maxRun bs + 1) (p + (bs - x.left)) d

/-- The QUEUE a hash session makes (42_hash_fsm.md R252); `none` when an address the descriptor holds does not fit
in 32 bits, `HKEY` for GHASH only (DESIGN CHOICE, notes/assumptions/19.md). -/
def hashQueue (x : HashSession) (src len : Nat) (final ioc : Bool) : Option QueueCall :=
  if Config.dmaEnd ≤ src ∨ (x.alg = .ghash ∧ Config.dmaEnd ≤ x.hkeyAddr) then none
  else some
    { ctx := x.handle
      src := BitVec.ofNat 32 src
      dst := x.scratch
      iv := x.scratch
      key := if x.alg = .ghash then BitVec.ofNat 32 x.hkeyAddr else 0
      len := len
      mode := hashMode x.alg final
      ioc := ioc }

/-- The update after the runs `rest` remain (42_hash_fsm.md R253). -/
def nextRun (rest : List Run) : UpdatePc := if rest.isEmpty then .remainder else .send rest

/-- One step of `HASH_UPDATE(s, p, n)` (42_hash_fsm.md R253 to R256). -/
def hashUpdateStep (t : ThreadId) (k : Task) (x : HashSession) (p : Word) (n : Nat) (s : State) : UpdatePc → Step
  | .check =>
    match hashReadyCheck x true with
    | some r => .refused r
    | none => .next (s.setTask t { k with job := .hashUpdate x.handle p n .lock })
  | .lock => lockHash t x { k with job := .hashUpdate x.handle p n .body } s
  | .body =>
    let avail := x.alg.blockSize - x.left
    if n < avail then
      hostAccess s t ((memRead s.params s.mem p.toNat n).bind fun b =>
          memWrite s.params s.mem (x.bufAddr + x.left) b) fun m =>
        .next (leaveHash t x.handle .ok ((s.setMem m).updHash x.handle fun y =>
          { y with left := y.left + n, total := y.total + BitVec.ofNat 64 n, fsm := .updating }))
    else
      hostAccess s t ((memRead s.params s.mem p.toNat avail).bind fun b =>
          memWrite s.params s.mem (x.bufAddr + x.left) b) fun m =>
        .next ((s.setMem m).setTask t
          { k with job := .hashUpdate x.handle p n (.send (updateRuns x p.toNat n)) })
  | .send [] => .next (s.setTask t { k with job := .hashUpdate x.handle p n .remainder })
  | .send (run :: rest) =>
    match hashQueue x run.addr run.len false rest.isEmpty with
    | none => .refused .dmaWrap
    | some q => .next (s.setTask t
        { job := .hashUpdate x.handle p n (.sent rest), sub := some (.queue q .enter), ret := none })
  | .sent rest =>
    match k.ret with
    | some (.queued _ iocEff) =>
      if iocEff then .next (s.setTask t
        { job := .hashUpdate x.handle p n (.waited rest), sub := some (.exec x.handle .trigger), ret := none })
      else .next (s.setTask t { k with job := .hashUpdate x.handle p n (nextRun rest), ret := none })
    | some (.failed e) => .next (failHash t x.handle e s)
    | _ => .next s
  | .waited rest =>
    match k.ret with
    | some .executed => .next (s.setTask t { k with job := .hashUpdate x.handle p n (nextRun rest), ret := none })
    | some (.failed e) => .next (failHash t x.handle e s)
    | _ => .next s
  | .remainder =>
    let bs := x.alg.blockSize
    let avail := bs - x.left
    let rem := (n - avail) % bs
    hostAccess s t ((memRead s.params s.mem (p.toNat + avail + directLen bs x.left n) rem).bind fun b =>
        memWrite s.params s.mem x.bufAddr b) fun m =>
      .next (leaveHash t x.handle .ok ((s.setMem m).updHash x.handle fun y =>
        { y with left := rem, total := y.total + BitVec.ofNat 64 n, fsm := .updating }))

/-- The offset of the MD5 length field (42_hash_fsm.md R258). -/
def md5LengthAt (left : Nat) : Nat := if left ≤ 55 then 56 else 120

/-- The bytes `PAD` writes from `BUF + left` on (42_hash_fsm.md R258 to R260). -/
def padBytes (a : HashAlg) (left : Nat) (total : BitVec 64) : List Byte :=
  match a with
  | .md5 =>
    0x80 :: (List.replicate (md5LengthAt left - left - 1) 0 ++ leBytes 8 (8 * total).toNat)
  | .ghash => if left = 0 then [] else List.replicate (16 - left) 0
  | a =>
    let r := a.blockSize
    if left = r - 1 then [0x06 ||| 0x80]
    else 0x06 :: (List.replicate (r - left - 2) 0 ++ [0x80])

/-- What `PAD` returns: the size of the final descriptor, 0 for none (42_hash_fsm.md R258 to R260). -/
def padLen (a : HashAlg) (left : Nat) : Nat :=
  match a with
  | .md5 => md5LengthAt left + 8
  | .ghash => if left = 0 then 0 else 16
  | a => a.blockSize

/-- The zero-length QUEUE of a GHASH final (42_hash_fsm.md R257). -/
def hashZeroQueue (x : HashSession) : QueueCall := ⟨x.handle, 0, 0, 0, 0, 0, hashMode x.alg true, true⟩

/-- One step of `HASH_FINAL(s)` (42_hash_fsm.md R257). -/
def hashFinalStep (t : ThreadId) (k : Task) (x : HashSession) (s : State) : FinalPc → Step
  | .check =>
    match hashReadyCheck x true with
    | some r => .refused r
    | none => .next (s.setTask t { k with job := .hashFinal x.handle .lock })
  | .lock => lockHash t x { k with job := .hashFinal x.handle .pad } s
  | .pad =>
    hostAccess s t (memWrite s.params s.mem (x.bufAddr + x.left) (padBytes x.alg x.left x.total)) fun m =>
      if padLen x.alg x.left = 0 then .next ((s.setMem m).setTask t
        { job := .hashFinal x.handle .queued, sub := some (.queue (hashZeroQueue x) .enter), ret := none })
      else match hashQueue x x.bufAddr (padLen x.alg x.left) true true with
        | none => .refused .dmaWrap
        | some q => .next ((s.setMem m).setTask t
            { job := .hashFinal x.handle .queued, sub := some (.queue q .enter), ret := none })
  | .queued =>
    match k.ret with
    | some (.failed e) => .next (failHash t x.handle e s)
    | some _ => .next (s.setTask t
        { job := .hashFinal x.handle .waited, sub := some (.exec x.handle .trigger), ret := none })
    | none => .next s
  | .waited =>
    match k.ret with
    | some .executed =>
      hostAccess s t (memRead s.params s.mem x.stateAddr x.digestLen) fun b =>
        .next (leaveHash t x.handle (.okBytes b) (s.updHash x.handle fun y => { y with fsm := .done }))
    | some (.failed e) => .next (failHash t x.handle e s)
    | _ => .next s

/-- The body of `HASH_SETKEY(s, p, len)` (42_hash_fsm.md R262), under the session lock: an odd length is
the length minus one and forces the digest length. -/
def hashSetkeyBody (t : ThreadId) (p : Word) (len : Nat) (x : HashSession) (s : State) : Step :=
  if len - len % 2 ≠ 16 then .next (leaveHash t x.handle (.err .invalidParameter) s)
  else hostAccess s t ((memRead s.params s.mem p.toNat 16).bind fun b =>
      memWrite s.params s.mem x.hkeyAddr b) fun m =>
    .next (leaveHash t x.handle .ok ((s.setMem m).updHash x.handle fun y =>
      { y with
        keySet := true
        digestLen := if len % 2 = 1 then Config.ghashTagSize else y.digestLen }))

/-- The body of `HASH_EXPORT(s)` (42_hash_fsm.md R263), under the session lock. -/
def hashSaveBody (t : ThreadId) (x : HashSession) (s : State) : Step :=
  hostAccess s t (memRead s.params s.mem x.stateAddr x.alg.stateLen) fun st =>
    hostAccess s t (memRead s.params s.mem x.bufAddr x.left) fun b =>
      .next (leaveHash t x.handle (.okSnapshot ⟨x.alg, x.fsm, x.left, x.total, st, b⟩) s)

/-- What the counts of a resting session keep (42_hash_fsm.md R251, R253): nothing is counted when Ready;
else `left` is the total modulo the block size, of which `total` modulo 2^64 shows the part modulo the greatest
common divisor of the two moduli (notes/assumptions/20.md). -/
def Snapshot.countsAgree (p : Snapshot) : Bool :=
  (p.fsm != .ready || (p.left == 0 && p.total == 0)) &&
    p.left % Nat.gcd p.alg.blockSize (2 ^ 64) == p.total.toNat % Nat.gcd p.alg.blockSize (2 ^ 64)

/-- Whether an export can produce the snapshot (42_hash_fsm.md R263, R264; notes/assumptions/20.md). -/
def Snapshot.producible (p : Snapshot) : Bool :=
  decide (p.left < p.alg.blockSize) && (p.fsm == .ready || p.fsm == .updating) && p.countsAgree &&
    p.state.length == p.alg.stateLen && p.buf.length == p.left

/-- The body of `HASH_IMPORT(s, snap)` (42_hash_fsm.md R264), under the session lock. -/
def hashRestoreBody (t : ThreadId) (p : Snapshot) (x : HashSession) (s : State) : Step :=
  if p.alg ≠ x.alg then .next (leaveHash t x.handle (.err .invalidParameter) s)
  else if p.producible = false then .refused .badSnapshot
  else if 0 < x.ctx.outstanding then .refused .staleDescriptors
  else hostAccess s t ((memWrite s.params s.mem x.stateAddr p.state).bind fun m =>
      memWrite s.params m x.bufAddr p.buf) fun m =>
    .next (leaveHash t x.handle .ok ((s.setMem m).updHash x.handle fun y =>
      { y with left := p.left, total := p.total, fsm := p.fsm, ctx := y.ctx.cleared }))

/-- The session an operation is on, if it is on one. -/
def Job.session : Job → Option Handle
  | .queue q => some q.ctx
  | .execute h => some h
  | .hashInit h _ _ => some h
  | .hashUpdate h _ _ _ => some h
  | .hashFinal h _ => some h
  | .hashSetkey h _ _ _ => some h
  | .hashSave h _ => some h
  | .hashRestore h _ _ => some h
  | .hashDestroy h => some h
  | .cipherSetkey h _ _ _ => some h
  | .crypt h _ _ => some h
  | .cipherDestroy h => some h
  | _ => none

/-- Whether another thread has an operation of the session in progress (42_hash_fsm.md R268). -/
def State.sessionBusy (s : State) (t : ThreadId) (h : Handle) : Bool :=
  s.otherTask t fun k => k.job.session == some h

/-- `HASH_DESTROY(s)` (42_hash_fsm.md R268). -/
def hashDestroy (t : ThreadId) (x : HashSession) (s : State) : Step :=
  if 0 < x.ctx.outstanding ∨ x.lock.isSome ∨ s.sessionBusy t x.handle then .refused .staleDescriptors
  else .next ({ s with hashSessions := s.hashSessions.filter fun y => y.handle != x.handle }.finish t .ok)

end Sys2Proof.Machine
end

