-- ==== Sys2Proof/Machine/CipherSession.lean ====
section
/-! DEFINITION. The cipher session's operations and the scatter-gather walker (43_sg_walker.md): create,
setkey, crypt, destroy, each as the steps of a host thread. -/

namespace Sys2Proof.Machine

/-- `SCRATCH_ADDR` (10_state.md R60). -/
def CipherSession.scrAddr (x : CipherSession) : Nat := x.workbuf.toNat

/-- `IV_ADDR` (10_state.md R60). -/
def CipherSession.ivAddr (x : CipherSession) : Nat := x.workbuf.toNat + 64

/-- `KEY_ADDR` (10_state.md R60). -/
def CipherSession.keyAddr (x : CipherSession) : Nat := x.workbuf.toNat + 80

/-- A new cipher session (43_sg_walker.md R300). -/
def freshCipher (h : Handle) (a : CipherAlg) (wb : Word) : CipherSession where
  handle := h
  alg := a
  keyLen := none
  ivLoaded := false
  lock := none
  workbuf := wb
  ctx := freshCtx .aes none

/-- `CIPHER_CREATE(alg, wb)` (43_sg_walker.md R300); the identity is the caller's choice and must be new
(notes/assumptions/11.md). -/
def cipherCreate (t : ThreadId) (h : Handle) (a : CipherAlg) (wb : Word) (s : State) : Step :=
  if s.handleUsed h then .refused .handleInUse
  else if wb &&& 0x1F ≠ 0 then .refused .unalignedBuffer
  else .next ({ s with cipherSessions := s.cipherSessions ++ [freshCipher h a wb] }.finish t .ok)

/-- The session lock taken when it is free (20_memory.md R97); else the thread holds. -/
def lockCipher (t : ThreadId) (x : CipherSession) (k : Task) (s : State) : Step :=
  match x.lock with
  | none => .next ((s.updCipher x.handle fun y => { y with lock := some t }).setTask t k)
  | some _ => .next s

/-- The operation returns and gives up the session lock (43_sg_walker.md R324). -/
def leaveCipher (t : ThreadId) (h : Handle) (r : Result) (s : State) : State :=
  (s.updCipher h fun y => { y with lock := none }).finish t r

/-- The key lengths setkey accepts (43_sg_walker.md R301). -/
def keyLenOk (a : CipherAlg) (len : Nat) : Bool :=
  match a with
  | .chacha20 => len == 32
  | _ => len == 16 || len == 24 || len == 32

/-- `code(keyLen)` (43_sg_walker.md R305). -/
def keyszCode (len : Nat) : BitVec 2 := if len = 16 then 0 else if len = 24 then 1 else 2

/-- The body of `CIPHER_SETKEY(c, p, len)` (43_sg_walker.md R301), under the session lock. -/
def cipherSetkeyBody (t : ThreadId) (p : Word) (len : Nat) (x : CipherSession) (s : State) : Step :=
  if keyLenOk x.alg len = false then .next (leaveCipher t x.handle (.err .invalidParameter) s)
  else hostAccess s t ((memRead s.params s.mem p.toNat len).bind fun b =>
      memWrite s.params s.mem x.keyAddr b) fun m =>
    .next (leaveCipher t x.handle .ok ((s.setMem m).updCipher x.handle fun y => { y with keyLen := some len }))

/-- `SGLEN(l)` (43_sg_walker.md R302). -/
def sgLen : List Seg → Nat
  | [] => 0
  | x :: l => x.len + sgLen l

/-- `SGREAD(l, o, n)` (43_sg_walker.md R303): one MemRead a segment touched, in increasing offsets. -/
def sgRead (p : Params) (m : Memory) : List Seg → Nat → Nat → Acc (List Byte)
  | [], _, _ => .ok []
  | x :: l, o, n =>
    if n = 0 then .ok []
    else if x.len ≤ o then sgRead p m l (o - x.len) n
    else
      (memRead p m (x.addr.toNat + o) (min n (x.len - o))).bind fun b =>
        (sgRead p m l 0 (n - min n (x.len - o))).bind fun r => .ok (b ++ r)

/-- `SGWRITE(l, o, n, v)` (43_sg_walker.md R303); `n` is the length of `v`. -/
def sgWrite (p : Params) : List Seg → Nat → List Byte → Memory → Acc Memory
  | [], _, _, m => .ok m
  | x :: l, o, v, m =>
    if v.isEmpty then .ok m
    else if x.len ≤ o then sgWrite p l (o - x.len) v m
    else
      (memWrite p m (x.addr.toNat + o) (v.take (x.len - o))).bind fun m' =>
        sgWrite p l 0 (v.drop (x.len - o)) m'

/-- `LOAD_IV(c, req)` (43_sg_walker.md R304): the stored IV is loaded once in a session. -/
def loadIv (x : CipherSession) (req : Request) (s : State) : Acc Memory :=
  if x.ivLoaded then .ok s.mem
  else (memRead s.params s.mem req.iv.toNat 16).bind fun b => memWrite s.params s.mem x.ivAddr b

/-- What CRYPT reads and writes before the walk: the stored IV, the next IV of a CBC decryption, and the
initial counter (43_sg_walker.md R305, R321). -/
def cryptPrologue (x : CipherSession) (req : Request) (s : State) : Acc (Memory × Block × Block) :=
  if x.alg.usesIV then
    (loadIv x req s).bind fun m =>
      (if x.alg = .cbc ∧ req.decrypt then
          (sgRead s.params m req.src (req.nbytes - 16) 16).bind fun b => .ok (bitsOf 128 b)
        else .ok 0).bind fun nextIv =>
        (memRead s.params m x.ivAddr 16).bind fun b => .ok (m, bitsOf 128 b, nextIv)
  else .ok (s.mem, 0, 0)

/-- The walker's local variables as the walk starts (43_sg_walker.md R310). -/
def freshWalk (x : CipherSession) (req : Request) (c0 nextIv : Block) : Walk where
  si := 0
  sOff := 0
  di := 0
  dOff := 0
  left := req.nbytes
  ip := if x.alg.usesIV then BitVec.ofNat 32 x.ivAddr else 0
  cursor := .noneExhausted
  c0 := c0
  nextIv := nextIv

/-- The body of `CRYPT(c, req)` before the walk (43_sg_walker.md R305 to R307, R317), under the session
lock; the checks are in the order of the pseudocode (60_exceptions.md R354). -/
def cryptBody (t : ThreadId) (k : Task) (req : Request) (x : CipherSession) (s : State) : Step :=
  if x.keyLen = none then .refused .keyUnset
  else if 0 < x.ctx.outstanding then .refused .staleDescriptors
  else
    let s' := s.updCipher x.handle fun y => { y with ctx := { y.ctx with status := ccSuccess } }
    if (x.alg = .ecb ∨ x.alg = .cbc) ∧ req.nbytes % x.alg.blockSize ≠ 0 then
      .next (leaveCipher t x.handle (.err .invalidParameter) s')
    else if sgLen req.src < req.nbytes ∨ sgLen req.dst < req.nbytes then
      .next (leaveCipher t x.handle (.err .invalidParameter) s')
    else if req.nbytes = 0 then .next (leaveCipher t x.handle .ok s')
    else hostAccess s t (cryptPrologue x req s) fun r =>
      .next ((((s'.setMem r.1).updCipher x.handle fun y => { y with ivLoaded := y.ivLoaded || x.alg.usesIV }).setTask t
        { k with job := .crypt x.handle req (.walkLock (freshWalk x req r.2.1 r.2.2)) }))

/-- The exhausted and zero-length segments of a list skipped (43_sg_walker.md R310, R317); the first
argument is the rest of the list from index `i` on. -/
def skipSegs : List Seg → Nat → Nat → Nat × Nat
  | [], i, off => (i, off)
  | x :: l, i, off => if x.len - off = 0 then skipSegs l (i + 1) 0 else (i, off)

/-- A cursor advanced by `g` bytes across segments (43_sg_walker.md R310). -/
def advanceSegs : List Seg → Nat → Nat → Nat → Nat × Nat
  | [], i, off, _ => (i, off)
  | x :: l, i, off, g =>
    if g ≤ x.len - off then (i, off + g) else advanceSegs l (i + 1) 0 (g - (x.len - off))

/-- The walker's variables with exhausted segments skipped (43_sg_walker.md R310, loop top). -/
def Walk.skip (w : Walk) (req : Request) : Walk :=
  let a := skipSegs (req.src.drop w.si) w.si w.sOff
  let b := skipSegs (req.dst.drop w.di) w.di w.dOff
  { w with si := a.1, sOff := a.2, di := b.1, dOff := b.2 }

/-- The walker's variables after a staged block of `g` bytes (43_sg_walker.md R310, R313). -/
def Walk.afterStaged (w : Walk) (req : Request) (g : Nat) : Walk :=
  let a := advanceSegs (req.src.drop w.si) w.si w.sOff g
  let b := advanceSegs (req.dst.drop w.di) w.di w.dOff g
  { w with si := a.1, sOff := a.2, di := b.1, dOff := b.2, left := w.left - g, ip := 0, cursor := .noneExhausted }

/-- The walker's variables after a run of `t` bytes is queued (43_sg_walker.md R310). -/
def Walk.afterDirect (w : Walk) (t : Nat) : Walk :=
  { w with sOff := w.sOff + t, dOff := w.dOff + t, left := w.left - t }

/-- The cursor state of a step (43_sg_walker.md R310, R312). -/
def cursorOf (t sRem dRem : Nat) : Cursor :=
  if t = sRem ∧ t = dRem then .bothExhausted
  else if t = sRem then .srcExhausted
  else if t = dRem then .dstExhausted
  else .noneExhausted

/-- The bytes a direct step sends: a block multiple of at most MAXRUN (43_sg_walker.md R314, R315). -/
def directRun (bs run : Nat) : Nat := min (run - run % bs) (Config.maxRun bs)

/-- The mode value of a request (43_sg_walker.md R305). -/
def cipherMode (x : CipherSession) (req : Request) : Mode :=
  ⟨.cipher x.alg, req.decrypt, keyszCode (x.keyLen.getD 0), false⟩

/-- The QUEUE the walker makes (43_sg_walker.md R310); `none` when an address does not fit in 32 bits
(notes/assumptions/19.md). -/
def walkQueue (x : CipherSession) (req : Request) (w : Walk) (src dst len : Nat) (ioc : Bool) : Option QueueCall :=
  if Config.dmaEnd ≤ src ∨ Config.dmaEnd ≤ dst ∨ Config.dmaEnd ≤ x.keyAddr then none
  else some
    { ctx := x.handle
      src := BitVec.ofNat 32 src
      dst := BitVec.ofNat 32 dst
      iv := w.ip
      key := BitVec.ofNat 32 x.keyAddr
      len := len
      mode := cipherMode x req
      ioc := ioc }

/-- The walk's QUEUE begins. -/
def startWalkQueue (t : ThreadId) (x : CipherSession) (req : Request) (w : Walk) (p : Piece)
    (q : Option QueueCall) (s : State) : Step :=
  match q with
  | none => .refused .dmaWrap
  | some q => .next (s.setTask t
      { job := .crypt x.handle req (.queued w p), sub := some (.queue q .enter), ret := none })

/-- One pass of the walk loop up to its QUEUE (43_sg_walker.md R310, R312 to R316), exhausted segments
already skipped. A list that ends early (no run reaches it, 43_sg_walker.md R319) gives no step. -/
def walkPass (t : ThreadId) (x : CipherSession) (req : Request) (w : Walk) (s : State) : Step :=
  match req.src[w.si]?, req.dst[w.di]? with
  | some a, some b =>
    let bs := x.alg.blockSize
    let sRem := a.len - w.sOff
    let dRem := b.len - w.dOff
    let run := min sRem (min dRem w.left)
    if run < bs then
      let g := min bs w.left
      hostAccess s t ((sgRead s.params s.mem req.src (req.nbytes - w.left) g).bind fun v =>
          memWrite s.params s.mem x.scrAddr v) fun m =>
        startWalkQueue t x req w (.staged g) (walkQueue x req w x.scrAddr x.scrAddr bs true) (s.setMem m)
    else
      let n := directRun bs run
      startWalkQueue t x req { w with cursor := cursorOf n sRem dRem } (.direct n)
        (walkQueue x req w (a.addr.toNat + w.sOff) (b.addr.toNat + w.dOff) n (w.left - n == 0)) s
  | _, _ => .next s

/-- `RETURNED_IV(c, req, c0, nextIv)` (43_sg_walker.md R320). -/
def returnedIv (x : CipherSession) (req : Request) (w : Walk) (s : State) : Acc Block :=
  match x.alg with
  | .cbc =>
    if req.decrypt then .ok w.nextIv
    else (sgRead s.params s.mem req.dst (req.nbytes - 16) 16).bind fun b => .ok (bitsOf 128 b)
  | a => .ok (add128 s.params.ctrEndian w.c0 ((req.nbytes + a.blockSize - 1) / a.blockSize))

/-- The stored and the returned IV written (43_sg_walker.md R305, R323). -/
def writeIv (x : CipherSession) (req : Request) (w : Walk) (s : State) : Acc Memory :=
  if x.alg.usesIV then
    (returnedIv x req w s).bind fun v =>
      (memWrite s.params s.mem x.ivAddr (bytesOf 16 v)).bind fun m =>
        memWrite s.params m req.iv.toNat (bytesOf 16 v)
  else .ok s.mem

/-- One step of `CRYPT(c, req)` and its WALK (43_sg_walker.md R305, R310, R311, R324). -/
def cryptStep (t : ThreadId) (k : Task) (x : CipherSession) (req : Request) (s : State) : CryptPc → Step
  | .lock => lockCipher t x { k with job := .crypt x.handle req .body } s
  | .body => cryptBody t k req x s
  | .walkLock w =>
    match s.aesRing.mutex with
    | none => .next ({ s with aesRing := { s.aesRing with mutex := some t } }.setTask t
        { k with job := .crypt x.handle req (.loop w) })
    | some _ => .next s
  | .loop w =>
    if w.left = 0 then .next (s.setTask t { k with job := .crypt x.handle req (.leave w none) })
    else walkPass t x req (w.skip req) s
  | .queued w p =>
    match k.ret with
    | some (.queued _ iocEff) =>
      let w' := match p with
        | .staged _ => w
        | .direct n => w.afterDirect n
      if iocEff then .next (s.setTask t
        { job := .crypt x.handle req (.waited w' p), sub := some (.exec x.handle .trigger), ret := none })
      else .next (s.setTask t { k with job := .crypt x.handle req (.loop { w' with ip := 0 }), ret := none })
    | some (.failed e) => .next (s.setTask t { k with job := .crypt x.handle req (.leave w (some e)), ret := none })
    | _ => .next s
  | .waited w p =>
    match k.ret with
    | some .executed =>
      match p with
      | .direct _ =>
        .next (s.setTask t { k with job := .crypt x.handle req (.loop { w with ip := 0 }), ret := none })
      | .staged g =>
        hostAccess s t ((memRead s.params s.mem x.scrAddr g).bind fun v =>
            sgWrite s.params req.dst (req.nbytes - w.left) v s.mem) fun m =>
          .next ((s.setMem m).setTask t { k with job := .crypt x.handle req (.loop (w.afterStaged req g)), ret := none })
    | some (.failed e) => .next (s.setTask t { k with job := .crypt x.handle req (.leave w (some e)), ret := none })
    | _ => .next s
  | .leave w e =>
    .next ({ s with aesRing := { s.aesRing with mutex := none } }.setTask t
      { k with job := .crypt x.handle req (.finish w e) })
  | .finish w e =>
    match e with
    | some e => .next (leaveCipher t x.handle (.err e) s)
    | none => hostAccess s t (writeIv x req w s) fun m => .next (leaveCipher t x.handle .ok (s.setMem m))

/-- Whether a task is a crypt call of the session (43_sg_walker.md R325). -/
def Task.crypts (h : Handle) (k : Task) : Bool :=
  match k.job with
  | .crypt h' _ _ => h' == h
  | _ => false

/-- `CIPHER_DESTROY(c)` (43_sg_walker.md R325): refused while descriptors are outstanding or another thread is
in a crypt call of the session (notes/assumptions/30.md). -/
def cipherDestroy (t : ThreadId) (x : CipherSession) (s : State) : Step :=
  if 0 < x.ctx.outstanding ∨ s.otherTask t (Task.crypts x.handle) then .refused .staleDescriptors
  else .next ({ s with cipherSessions := s.cipherSessions.filter fun y => y.handle != x.handle }.finish t .ok)

end Sys2Proof.Machine
end

