-- ==== Sys2Proof/Machine/Host.lean ====
section
/-! DEFINITION. A host thread: how an operation begins, and its next step. -/

namespace Sys2Proof.Machine

/-- The task an operation begins as. -/
def startTask : HostOp → Task
  | .ringReset r base => ⟨.ringReset r base, none, none⟩
  | .queue q => ⟨.queue q, some (.queue q .enter), none⟩
  | .execute h => ⟨.execute h, some (.exec h .trigger), none⟩
  | .hashCreate h a hs => ⟨.hashCreate h a hs, none, none⟩
  | .hashInit h dl => ⟨.hashInit h dl .lock, none, none⟩
  | .hashUpdate h p n => ⟨.hashUpdate h p n .check, none, none⟩
  | .hashFinal h => ⟨.hashFinal h .check, none, none⟩
  | .hashSetkey h p len => ⟨.hashSetkey h p len .check, none, none⟩
  | .hashSave h => ⟨.hashSave h .check, none, none⟩
  | .hashRestore h snap => ⟨.hashRestore h snap .lock, none, none⟩
  | .hashDestroy h => ⟨.hashDestroy h, none, none⟩
  | .cipherCreate h a wb => ⟨.cipherCreate h a wb, none, none⟩
  | .cipherSetkey h p len => ⟨.cipherSetkey h p len .lock, none, none⟩
  | .crypt h req => ⟨.crypt h req .lock, none, none⟩
  | .cipherDestroy h => ⟨.cipherDestroy h, none, none⟩
  | .regRead a w => ⟨.regRead a w, none, none⟩
  | .regWrite a w v => ⟨.regWrite a w v, none, none⟩
  | .load a n => ⟨.load a n, none, none⟩
  | .store a v => ⟨.store a v, none, none⟩
  | .barrier => ⟨.barrier, none, none⟩

/-- The step of an operation on a hash session that exists. -/
def onHash (s : State) (h : Handle) (f : HashSession → Step) : Step :=
  match s.hashSession h with
  | some x => f x
  | none => .refused .noSession

/-- The step of an operation on a cipher session that exists. -/
def onCipher (s : State) (h : Handle) (f : CipherSession → Step) : Step :=
  match s.cipherSession h with
  | some x => f x
  | none => .refused .noSession

/-- The return of an operation that is one inner operation (40_ring.md R153, R158, R160). -/
def finishPlain (t : ThreadId) (k : Task) (s : State) : Step :=
  match k.ret with
  | some (.queued slot ioc) => .next (s.finish t (.okSlot slot ioc))
  | some .updated => .next (s.finish t .ok)
  | some .executed => .next (s.finish t .ok)
  | some (.failed e) => .next (s.finish t (.err e))
  | none => .next s

/-- The next step of an operation that is in no inner operation. That no step looks whether another call or an
outstanding descriptor uses the bytes it reads or writes, so that a run against the caller's precondition of
70_reset_and_hazards.md R412 has the ordinary meaning, is a DESIGN CHOICE (notes/assumptions/35.md). -/
def jobStep (t : ThreadId) (k : Task) (s : State) : Step :=
  match k.job with
  | .ringReset r base => ringReset t r base s
  | .queue _ => finishPlain t k s
  | .execute _ => finishPlain t k s
  | .hashCreate h a hs => hashCreate t h a hs s
  | .hashInit h dl pc =>
    onHash s h fun x =>
      match pc with
      | .body => hashInitBody t dl x s
      | _ => lockHash t x { k with job := .hashInit h dl .body } s
  | .hashUpdate h p n pc => onHash s h fun x => hashUpdateStep t k x p n s pc
  | .hashFinal h pc => onHash s h fun x => hashFinalStep t k x s pc
  | .hashSetkey h p len pc =>
    onHash s h fun x =>
      match pc with
      | .check =>
        if x.alg ≠ .ghash then .refused .noSetkey
        else .next (s.setTask t { k with job := .hashSetkey h p len .lock })
      | .lock => lockHash t x { k with job := .hashSetkey h p len .body } s
      | .body => hashSetkeyBody t p len x s
  | .hashSave h pc =>
    onHash s h fun x =>
      match pc with
      | .check =>
        match hashReadyCheck x false with
        | some r => .refused r
        | none => .next (s.setTask t { k with job := .hashSave h .lock })
      | .lock => lockHash t x { k with job := .hashSave h .body } s
      | .body => hashSaveBody t x s
  | .hashRestore h snap pc =>
    onHash s h fun x =>
      match pc with
      | .body => hashRestoreBody t snap x s
      | _ => lockHash t x { k with job := .hashRestore h snap .body } s
  | .hashDestroy h => onHash s h fun x => hashDestroy t x s
  | .cipherCreate h a wb => cipherCreate t h a wb s
  | .cipherSetkey h p len pc =>
    onCipher s h fun x =>
      match pc with
      | .body => cipherSetkeyBody t p len x s
      | _ => lockCipher t x { k with job := .cipherSetkey h p len .body } s
  | .crypt h req pc => onCipher s h fun x => cryptStep t k x req s pc
  | .cipherDestroy h => onCipher s h fun x => cipherDestroy t x s
  | .regRead addr width =>
    match readReg s (regOffset s.params addr) width with
    | .ok w => .next (s.finish t (.okWord w))
    | .error r => .refused r
  | .regWrite addr width v =>
    match writeReg s (regOffset s.params addr) width v with
    | .ok s' => .next (s'.finish t .ok)
    | .error r => .refused r
  | .load addr n => hostAccess s t (memRead s.params s.mem addr.toNat n) fun b => .next (s.finish t (.okBytes b))
  | .store addr v =>
    hostAccess s t (memWrite s.params s.mem addr.toNat v) fun m => .next ((s.setMem m).finish t .ok)
  | .barrier => .next (s.finish t .ok)

/-- The next step of a host thread's task. -/
def taskStep (t : ThreadId) (k : Task) (s : State) : Step :=
  match k.sub with
  | some (.queue q ph) => queueStep t k q ph s
  | some (.exec h ph) => execStep t k h ph s
  | none => jobStep t k s

/-- The next step of a host thread; a thread with nothing to do, or stuck, takes none. -/
def hostStep (t : ThreadId) (s : State) : Step :=
  let x := s.thread t
  if x.stuck then .next s
  else match x.task with
    | none => .next s
    | some k => taskStep t k s

/-- A host thread begins an operation when it has none in progress (00_scope.md R9). -/
def beginOp (t : ThreadId) (op : HostOp) (s : State) : State :=
  let x := s.thread t
  if x.stuck || x.task.isSome then s
  else s.setThread { x with task := some (startTask op), result := none }

/-- What a signal or a timeout does to a thread that is not stuck. -/
def interruptThread (t : ThreadId) (f : Task → State → State) (s : State) : State :=
  let x := s.thread t
  if x.stuck then s
  else match x.task with
    | none => s
    | some k => f k s

/-- The numeric code of a result (60_exceptions.md R352). -/
def errnoOf (e : Errno) : Result → Int
  | .err .interrupted => e.interrupted
  | .err .timeout => e.timeout
  | .err .invalidParameter => e.invalidParameter
  | .err .badKeyLength => e.badKeyLength
  | _ => 0

end Sys2Proof.Machine
end

