-- ==== Sys2Proof/Machine/Events.lean ====
section
/-! DEFINITION. The step of each agent and of the environment: the engine's fetch and execute
(40_ring.md R170 to R175), hardware reset (70_reset_and_hazards.md R400), and the choice of what happens
next (00_scope.md R10). -/

namespace Sys2Proof.Machine

/-- The refusal of a descriptor the decoder refuses (30_encoding.md R130); 32 bytes are never short. -/
def decodeRefusal : DecodeError → Refusal
  | .reservedAlg => .reservedAlg
  | _ => .reservedType

/-- The engine runs the descriptor it has latched (40_ring.md R170), its mode word read by the codec of the
implementation (00_scope.md R11). -/
def runLatched (e : EngineId) (s : State) : Step :=
  match decodeDescriptor ((s.engine e).latch.normal s.params.codec) with
  | .ok i => exec i { s with cur := e }
  | .error r => .refused (decodeRefusal r)

/-- The descriptor is latched; one that is not owned makes the engine idle (40_ring.md R170, R174). -/
def latchStep (e : EngineId) (d : Descriptor) (s : State) : Step :=
  let x := s.engine e
  if d.cycle ≠ x.ccs then .next (s.setEngine e { x with latch := d, busy := false })
  else runLatched e (s.setEngine e { x with latch := d })

/-- `ENGINE_STEP(e)` (40_ring.md R170): enabled exactly when BUSY = 1 and the engine is not stuck; a stop
request is honoured before the fetch (R175). -/
def engineStep (e : EngineId) (s : State) : Step :=
  let x := s.engine e
  if !x.busy || x.stuck then .next s
  else if x.stopReq then .next (s.setEngine e { x with stopReq := false, busy := false })
  else match fetch s e with
    | .wrap => .refused .dmaWrap
    | .unbacked => .next (s.stickEngine e)
    | .ok d => latchStep e d s

/-- An engine after a hardware reset (70_reset_and_hazards.md R400); the latch is not named there and
keeps its value. -/
def Engine.afterReset (x : Engine) : Engine := { Engine.reset with latch := x.latch }

/-- A hardware reset (70_reset_and_hazards.md R400, 10_state.md R64): control registers and engines take
their reset values, memory and the host's own state are not touched, the rings need a new ring reset
(R402), a QUEUE or a wait already begun goes on (notes/assumptions/10.md); CHAIN gets a free value (notes/assumptions/8.md, 25.md). -/
def hardwareReset (s : State) : State :=
  { s with
    aes := s.aes.afterReset
    hash := s.hash.afterReset
    chain := Config.chainAfterReset s.draws
    chainValid := false
    intEn := 0
    intFlag := 0
    aesRing := { s.aesRing with live := false }
    hashRing := { s.hashRing with live := false }
    dispatcher := Dispatcher.idle
    draws := s.draws + 1 }

/-- What an event does. -/
def runEvent (ev : Event) (s : State) : Step :=
  match ev with
  | .engine e => engineStep e s
  | .dispatcher => dispatcherStep s
  | .host t => hostStep t s
  | .call t op => .next (beginOp t op s)
  | .signal t => .next (interruptThread t (signalThread t) s)
  | .timeout t => .next (interruptThread t (timeoutThread t) s)
  | .eventRingFull e => .next { s with intFlag := s.intFlag ||| erfBit e }
  | .hardwareReset => .next (hardwareReset s)

/-- The next event and the state without it: the first of the listed ones, else a free value
(notes/assumptions/1.md). -/
def takeEvent (s : State) : Event × State :=
  match s.inputs with
  | ev :: rest => (ev, { s with inputs := rest })
  | [] => (Config.nextEvent s.draws, { s with draws := s.draws + 1 })

/-- The engine a table word is run on: the hash engine for the hash commands, else the AES engine. -/
def tableEngine (nbits w : Nat) : EngineId :=
  let d := tableDescriptor nbits w
  if d.type = 0 ∧ 4 ≤ d.alg.toNat then .hash else .aes

/-- The descriptor of a table word stored at DQ of its engine, in the layout of the mode codec, the engine busy with the cycle state that
owns it, and its step listed as the very next event (notes/assumptions/2.md). -/
def placeWord (s : State) (nbits w : Nat) : State :=
  let e := tableEngine nbits w
  let d := tableDescriptor nbits w
  let x := s.engine e
  { s with
    mem := Memory.writeBytes s.mem x.dq.toNat (d.inLayout s.params.codec).bytes
    inputs := .engine e :: s.inputs }.setEngine e
      { x with busy := true, stopReq := false, stuck := false, ccs := d.cycle }

end Sys2Proof.Machine
end

