-- ==== Sys2Proof/Machine/Step.lean ====
section
/-! DEFINITION. One step of the machine, and a table word placed where the next step fetches. -/

namespace Sys2Proof.Machine

/-- One step: the next choice of the environment takes effect (00_scope.md R10). -/
def step (s : State) : Host.Outcome State Fault Refusal :=
  runEvent (takeEvent s).1 (takeEvent s).2

/-- The state with the command of a table word placed so that the very next step fetches and runs it
(notes/assumptions/2.md, 12.md). -/
def State.withFetchWord (s : State) (nbits w : Nat) : State := placeWord s nbits w

end Sys2Proof.Machine
end

