-- ==== Sys2Proof/Safety.lean ====
section
/-! DEFINITION. What counts as a good state and a safe step, in the terms the statements use. -/

namespace Sys2Proof.Machine

/-- A step that neither faults nor is refused (00_scope.md R16). -/
def Safe (o : Step) : Prop := ∃ s, o = .next s

/-- A range of DMA addresses an access reaches: it does not pass the end of the space (20_memory.md R83)
and it is backed (R84). -/
abbrev Reach (s : State) (a n : Nat) : Prop := a + n ≤ Config.dmaEnd ∧ dmaOk s.params a n = true

/-- DQ and RING_BASE are multiples of 32 (10_state.md R32, R45). -/
def Engine.aligned (x : Engine) : Prop := x.dq &&& 0x1F = 0 ∧ x.ringBase &&& 0x1F = 0

/-- The cursors of a ring of `n` slots point at usable slots (10_state.md R47, R48). -/
def Ring.cursorsOk (n : Nat) (x : Ring) : Prop := x.head ≤ n - 2 ∧ x.tail ≤ n - 2

/-- Fewer bytes are buffered than a block holds (10_state.md R56) and the scratch region is 32-byte aligned
(R57). -/
def HashSession.ok (x : HashSession) : Prop := x.left < x.alg.blockSize ∧ x.scratch &&& 0x1F = 0

/-- The workbuffer is 32-byte aligned (10_state.md R60). -/
def CipherSession.ok (x : CipherSession) : Prop := x.workbuf &&& 0x1F = 0

/-- The identities of all sessions (30_encoding.md R126). -/
def State.handles (s : State) : List Handle :=
  s.hashSessions.map (fun x => x.handle) ++ s.cipherSessions.map (fun x => x.handle)

/-- What every reachable state satisfies: parameters as 00_scope.md R11 asks, memory in canonical form, the
engines' pointers aligned (10_state.md R32, R45), INT_EN and INT_FLAG without bits out of scope (R34, R35), the
ring cursors on usable slots (R47, R48), the sessions' buffers and counts as R56, R57 and R60 say, and
identities that name one session each (30_encoding.md R126). -/
structure State.Inv (s : State) : Prop where
  params : s.params.wf = true
  mem : Memory.wf s.mem = true
  aes : s.aes.aligned
  hash : s.hash.aligned
  intEn : s.intEn &&& ~~~intScope = 0
  intFlag : s.intFlag &&& ~~~intScope = 0
  aesRing : s.aesRing.cursorsOk s.params.nAes
  hashRing : s.hashRing.cursorsOk s.params.nHash
  hashSessions : ∀ x ∈ s.hashSessions, x.ok
  cipherSessions : ∀ x ∈ s.cipherSessions, x.ok
  handles : s.handles.Nodup

end Sys2Proof.Machine
end

