-- ==== Sys2Proof/Certificates/Slice0/Obligations.lean ====
section
/-! DEFINITION. The statements for the provers. The definitions of `Sys2Proof.Claims` say, in the words of
the rules and apart from the machine's own definitions, what the statements compare the machine with. -/

namespace Sys2Proof.Claims

open Sys2Proof.Machine

/-- The state once its next listed event is taken off the list. -/
def rest (s : State) : State := { s with inputs := s.inputs.tail }

/-- The next listed event. -/
abbrev Listed (s : State) (ev : Event) : Prop := s.inputs.head? = some ev

/-- The next event is a step of host thread `t`, which is not stuck and is inside the operation `k`. -/
abbrev HostAt (s : State) (t : ThreadId) (k : Task) : Prop :=
  Listed s (.host t) ∧ (s.thread t).stuck = false ∧ (s.thread t).task = some k

/-- The 32 bytes at the engine's DQ as the words of a descriptor. -/
def rawAtDq (s : State) (e : EngineId) : Descriptor :=
  Descriptor.ofBytes (Memory.readBytes s.mem (s.engine e).dq.toNat 32)

/-- The descriptor at the engine's DQ, its mode word read by the codec of the implementation (00_scope.md R11,
30_encoding.md R120). -/
def atDq (s : State) (e : EngineId) : Descriptor := (rawAtDq s e).normal s.params.codec

/-- The next event is a step of engine `e`, which may fetch (40_ring.md R170). -/
abbrev MayFetch (s : State) (e : EngineId) : Prop :=
  Listed s (.engine e) ∧ (s.engine e).busy = true ∧ (s.engine e).stuck = false ∧ (s.engine e).stopReq = false ∧
    Reach s (s.engine e).dq.toNat 32

/-- The next event is a step of engine `e`, which fetches a descriptor it owns (40_ring.md R170). -/
abbrev Fetches (s : State) (e : EngineId) : Prop :=
  MayFetch s e ∧ (rawAtDq s e).cycle = (s.engine e).ccs

/-- The state in which engine `e` executes the descriptor it has latched. -/
def latched (s : State) (e : EngineId) : State :=
  { (rest s).setEngine e { s.engine e with latch := rawAtDq s e } with cur := e }

/-- The descriptor with the bits no rule reads cleared: the reserved bits of words 0 and 3 (30_encoding.md
R112, R120), and for a link every field but C, TC, TYPE and DPTR (R127). -/
def significant (d : Descriptor) : Descriptor :=
  if d.type = 1 then ⟨d.w0 &&& 0x00000D01, 0, d.w2, 0, 0, 0, 0, 0⟩
  else { d with w0 := d.w0 &&& 0xFFFF0FFF, w3 := d.w3 &&& 0x000000FF }

/-- The command of a normal descriptor with an `ALG` code below 10 (30_encoding.md R121, R122). -/
def command (d : Descriptor) : Instr :=
  if d.alg = 0 then (if d.dir then .aesEcbDec d.trb else .aesEcbEnc d.trb)
  else if d.alg = 1 then (if d.dir then .aesCbcDec d.trb else .aesCbcEnc d.trb)
  else if d.alg = 2 then .aesCtr d.dir d.trb
  else if d.alg = 3 then .chacha20 d.dir d.trb
  else if d.alg = 4 then .md5 d.dir d.trb
  else if d.alg = 5 then .sha3_224 d.dir d.trb
  else if d.alg = 6 then .sha3_256 d.dir d.trb
  else if d.alg = 7 then .sha3_384 d.dir d.trb
  else if d.alg = 8 then .sha3_512 d.dir d.trb
  else .ghash d.dir d.trb

/-- The cipher commands with their algorithm and operands. -/
def cipherOf : Instr → Option (CipherAlg × Trb)
  | .aesEcbEnc d => some (.ecb, d)
  | .aesEcbDec d => some (.ecb, d)
  | .aesCbcEnc d => some (.cbc, d)
  | .aesCbcDec d => some (.cbc, d)
  | .aesCtr _ d => some (.ctr, d)
  | .chacha20 _ d => some (.chacha20, d)
  | _ => none

/-- The hash commands with their algorithm and operands. -/
def hashOf : Instr → Option (HashAlg × Trb)
  | .md5 _ d => some (.md5, d)
  | .sha3_224 _ d => some (.sha3_224, d)
  | .sha3_256 _ d => some (.sha3_256, d)
  | .sha3_384 _ d => some (.sha3_384, d)
  | .sha3_512 _ d => some (.sha3_512, d)
  | .ghash _ d => some (.ghash, d)
  | _ => none

/-- Every normal command with its algorithm and operands. -/
def normalOf (i : Instr) : Option (Alg × Trb) :=
  ((cipherOf i).map fun x => (.cipher x.1, x.2)) <|> ((hashOf i).map fun x => (.hash x.1, x.2))

/-- The cipher command of an algorithm and a direction. -/
def cipherInstr (a : CipherAlg) (decrypt : Bool) (d : Trb) : Instr :=
  match a with
  | .ecb => if decrypt then .aesEcbDec d else .aesEcbEnc d
  | .cbc => if decrypt then .aesCbcDec d else .aesCbcEnc d
  | .ctr => .aesCtr decrypt d
  | .chacha20 => .chacha20 decrypt d

/-- The hash command of an algorithm. -/
def hashInstr (a : HashAlg) (dir : Bool) (d : Trb) : Instr :=
  match a with
  | .md5 => .md5 dir d
  | .sha3_224 => .sha3_224 dir d
  | .sha3_256 => .sha3_256 dir d
  | .sha3_384 => .sha3_384 dir d
  | .sha3_512 => .sha3_512 dir d
  | .ghash => .ghash dir d

/-- `validKeysz(alg, k)` (41_descriptor_commands.md R203). -/
def KeyszValid (p : Params) (a : Alg) (k : BitVec 2) : Prop :=
  match a with
  | .cipher .chacha20 => k = 2
  | .cipher _ =>
    (k = 0 ∧ p.engineKeysz.k128 = true) ∨ (k = 1 ∧ p.engineKeysz.k192 = true) ∨
      (k = 2 ∧ p.engineKeysz.k256 = true)
  | .hash .ghash => k = 0
  | .hash _ => True

/-- Engine `e` completes the descriptor at DQ with completion code `cc` (40_ring.md R173): byte 0 is `cc`
over C, IOC sets the engine's DONE flag, DQ advances by 32. -/
def completed (e : EngineId) (d : Trb) (cc : Nat) (s : State) : State :=
  { s with
    mem := Memory.writeBytes s.mem (s.engine e).dq.toNat [BitVec.ofNat 8 (2 * cc + d.c.toNat)]
    intFlag := if d.ioc then s.intFlag ||| (match e with | .aes => 1 | .hash => 2) else s.intFlag }.setEngine e
      { s.engine e with dq := (s.engine e).dq + 32 }

/-- The block loop of 41_descriptor_commands.md R201 as a fold over the block numbers. -/
def cipherFold (bs : Nat) (blk : Block → List Byte → List Byte × Block) (src dst n : Nat) (m : Memory)
    (ch : Block) : Memory × Block :=
  (List.range n).foldl (fun x i =>
    let o := blk x.2 (Memory.readBytes x.1 (src + i * bs) bs)
    (Memory.writeBytes x.1 (dst + i * bs) o.1, o.2)) (m, ch)

/-- CHAIN as the block loop starts (41_descriptor_commands.md R205). -/
def chainIn (a : CipherAlg) (d : Trb) (s : State) : Block :=
  if a.usesIV = true ∧ d.iptr ≠ 0 then BitVec.ofNat 128 (leNat (Memory.readBytes s.mem d.iptr.toNat 16))
  else s.chain

/-- A cipher command with this block function has run and completed (41_descriptor_commands.md R201,
40_ring.md R173). -/
def cipherNext (a : CipherAlg) (blk : Block → List Byte → List Byte × Block) (d : Trb) (s : State) : State :=
  let r := cipherFold a.blockSize blk d.sptr.toNat d.dptr.toNat (d.size.toNat / a.blockSize) s.mem (chainIn a d s)
  completed .aes d 1
    { s with
      mem := r.1
      chain := r.2
      chainValid := s.chainValid || (a.usesIV && d.iptr != 0) }

/-- The AES key at KPTR (41_descriptor_commands.md R201). -/
def keyAt (d : Trb) (s : State) : Config.AesKey :=
  aesKey (Memory.readBytes s.mem d.kptr.toNat (keyBytes d.keysz))

/-- The 16 or 64 bytes of a number. -/
def toBytes (n : Nat) {w : Nat} (x : BitVec w) : List Byte := leBytes n x.toNat

/-- The number of 16 bytes. -/
def ofBytes (w : Nat) (b : List Byte) : BitVec w := BitVec.ofNat w (leNat b)

/-- When a cipher command executes normally: on the AES engine, with a valid key size, a positive block
multiple, a CHAIN to start from, and operands inside the backed DMA space. -/
abbrev CipherRuns (a : CipherAlg) (d : Trb) (s : State) : Prop :=
  s.cur = .aes ∧ KeyszValid s.params (.cipher a) d.keysz ∧ d.size ≠ 0 ∧ d.size.toNat % a.blockSize = 0 ∧
    (a.usesIV = true → d.iptr = 0 → s.chainValid = true) ∧
    Reach s d.kptr.toNat (keyBytes d.keysz) ∧ (a.usesIV = true → d.iptr ≠ 0 → Reach s d.iptr.toNat 16) ∧
    (∀ i < d.size.toNat / a.blockSize, Reach s (d.sptr.toNat + i * a.blockSize) a.blockSize ∧
      Reach s (d.dptr.toNat + i * a.blockSize) a.blockSize) ∧
    Reach s s.aes.dq.toNat 1

/-- The state a hash command computes (41_descriptor_commands.md R220). -/
def hashFold (a : HashAlg) (f : List Byte → List Byte → List Byte) (d : Trb) (s : State) : List Byte :=
  (List.range (d.size.toNat / a.blockSize)).foldl
    (fun st i => f st (Memory.readBytes s.mem (d.sptr.toNat + i * a.blockSize) a.blockSize))
    (Memory.readBytes s.mem d.iptr.toNat a.stateLen)

/-- A hash command with this compression function has run and completed (41_descriptor_commands.md R220,
40_ring.md R173). -/
def hashNext (a : HashAlg) (f : List Byte → List Byte → List Byte) (d : Trb) (s : State) : State :=
  completed .hash d 1 { s with mem := Memory.writeBytes s.mem d.dptr.toNat (hashFold a f d s) }

/-- When a hash command executes normally. -/
abbrev HashRuns (a : HashAlg) (d : Trb) (s : State) : Prop :=
  s.cur = .hash ∧ KeyszValid s.params (.hash a) d.keysz ∧ d.size ≠ 0 ∧ d.size.toNat % a.blockSize = 0 ∧
    Reach s d.iptr.toNat a.stateLen ∧ (a = .ghash → Reach s d.kptr.toNat 16) ∧
    (∀ i < d.size.toNat / a.blockSize, Reach s (d.sptr.toNat + i * a.blockSize) a.blockSize) ∧
    Reach s d.dptr.toNat a.stateLen ∧ Reach s s.hash.dq.toNat 1

/-- Keccak absorption of one block at rate `r` (41_descriptor_commands.md R224 to R227): the first `r` bytes
of the state are combined with the block. -/
def absorb (r : Nat) (st x : List Byte) : List Byte :=
  toBytes 200 (Config.keccakF1600 (ofBytes 1600 (List.zipWith (fun a b => a ^^^ b) (st.take r) x ++ st.drop r)))

/-- The block function of a cipher command, from CHAIN and an input block to the output block and the next CHAIN
(41_descriptor_commands.md R210 to R215). -/
def blockOf (a : CipherAlg) (decrypt : Bool) (d : Trb) (s : State) (ch : Block) (x : List Byte) : List Byte × Block :=
  let key := keyAt d s
  let input : Block := ofBytes 128 x
  match a with
  | .ecb => (toBytes 16 (if decrypt then Config.aesDec key input else Config.aesEnc key input), ch)
  | .cbc =>
    if decrypt then (toBytes 16 (Config.aesDec key input ^^^ ch), input)
    else (toBytes 16 (Config.aesEnc key (input ^^^ ch)), Config.aesEnc key (input ^^^ ch))
  | .ctr => (toBytes 16 (input ^^^ Config.aesEnc key ch), add128 s.params.ctrEndian ch 1)
  | .chacha20 =>
    (toBytes 64 (ofBytes 512 x ^^^
      Config.chacha20Block (ofBytes 256 (Memory.readBytes s.mem d.kptr.toNat 32)) ch), add128 s.params.ctrEndian ch 1)

/-- The compression function of a hash command (41_descriptor_commands.md R223 to R228). -/
def compressOf (a : HashAlg) (d : Trb) (s : State) (st x : List Byte) : List Byte :=
  match a with
  | .md5 => toBytes 16 (Config.md5Compress (ofBytes 128 st) (ofBytes 512 x))
  | .ghash =>
    toBytes 16 (Config.gf128Mul (ofBytes 128 st ^^^ ofBytes 128 x) (ofBytes 128 (Memory.readBytes s.mem d.kptr.toNat 16)))
  | a => absorb a.blockSize st x

/-- When a normal command executes normally. -/
def Runs (a : Alg) (d : Trb) (s : State) : Prop :=
  match a with
  | .cipher a => CipherRuns a d s
  | .hash a => HashRuns a d s

/-- A normal command has run its data operation and completed. -/
def ran (a : Alg) (decrypt : Bool) (d : Trb) (s : State) : State :=
  match a with
  | .cipher a => cipherNext a (blockOf a decrypt d s) d s
  | .hash a => hashNext a (compressOf a d s) d s

/-- The ranges a cipher command accesses, each an address and a length, in their order: the key, the IV when it
is loaded, source and destination of each block, and the completion byte (41_descriptor_commands.md R201, R205,
40_ring.md R173). -/
def cipherAccesses (a : CipherAlg) (d : Trb) (s : State) : List (Nat × Nat) :=
  (d.kptr.toNat, keyBytes d.keysz) ::
    ((if a.usesIV = true ∧ d.iptr ≠ 0 then [(d.iptr.toNat, 16)] else []) ++
      (List.range (d.size.toNat / a.blockSize)).flatMap (fun i =>
        [(d.sptr.toNat + i * a.blockSize, a.blockSize), (d.dptr.toNat + i * a.blockSize, a.blockSize)]) ++
      [(s.aes.dq.toNat, 1)])

/-- The ranges a hash command accesses in their order: the state, GHASH's sub-key, each block, the state again and
the completion byte (41_descriptor_commands.md R220, 40_ring.md R173). -/
def hashAccesses (a : HashAlg) (d : Trb) (s : State) : List (Nat × Nat) :=
  (d.iptr.toNat, a.stateLen) ::
    ((if a = .ghash then [(d.kptr.toNat, 16)] else []) ++
      (List.range (d.size.toNat / a.blockSize)).map (fun i => (d.sptr.toNat + i * a.blockSize, a.blockSize)) ++
      [(d.dptr.toNat, a.stateLen), (s.hash.dq.toNat, 1)])

/-- What an access gives that nothing before it turned away: not backed, the agent is stuck (20_memory.md R84); past
the end of the space, a refusal (R83). -/
abbrev TurnsAway (s : State) (r : Nat × Nat) (o : Step) (stuck : State) : Prop :=
  (r.1 + r.2 ≤ Config.dmaEnd → dmaOk s.params r.1 r.2 = false → o = .next stuck) ∧
    (Config.dmaEnd < r.1 + r.2 → o = .refused .dmaWrap)

/-- An address in a range. -/
abbrev In (c a n : Nat) : Prop := a ≤ c ∧ c < a + n

/-- Two ranges without a common address. -/
abbrev Apart (a n b k : Nat) : Prop := a + n ≤ b ∨ b + k ≤ a

/-- The first `k` writes of PUBLISH (40_ring.md R155) done. -/
def published (mc : ModeCodec) (q : QueueCall) (a : Nat) (cyc ioc : Bool) (k : Nat) (m : Memory) : Memory :=
  (List.range k).foldl (fun m i =>
    match publishWrite mc q a cyc ioc i with
    | some w => Memory.writeBytes m w.1 w.2
    | none => m) m

/-- The command a QUEUE publishes (40_ring.md R153, R155). -/
def queuedCommand (q : QueueCall) (cyc ioc : Bool) : Instr :=
  let d : Trb :=
    { c := cyc, cc := 0, tc := false, ioc := ioc, size := BitVec.ofNat 16 q.len, sptr := q.src, dptr := q.dst,
      keysz := q.mode.keysz, final := q.mode.final, iptr := q.iv, kptr := q.key, owner := q.ctx }
  match q.mode.alg with
  | .cipher a => cipherInstr a q.mode.dir d
  | .hash a => hashInstr a q.mode.dir d

/-- The ring mutex given up by an operation that took it itself (40_ring.md R153). -/
def unlocked (held : Bool) (x : Ring) : Ring := if held then x else { x with mutex := none }

/-- The addresses of a segment list in logical order (43_sg_walker.md R302). -/
def sgAddresses : List Seg → List Nat
  | [] => []
  | x :: l => (List.range x.len).map (fun i => x.addr.toNat + i) ++ sgAddresses l

/-- The logical offset of a cursor in a segment list (43_sg_walker.md R302, R310). -/
def sgPos (l : List Seg) (i off : Nat) : Nat := (sgAddresses (l.take i)).length + off

/-- A cursor stands in a segment of the list or at its end. -/
abbrev InSeg (l : List Seg) (i off : Nat) : Prop := ∃ x, l[i]? = some x ∧ off ≤ x.len

/-- A hash operation that waits for its session lock, as it stands when it has the lock (42_hash_fsm.md R269). -/
def hashLocked (h : Handle) : Job → Option Job
  | .hashInit h' dl .lock => if h' = h then some (.hashInit h dl .body) else none
  | .hashUpdate h' p n .lock => if h' = h then some (.hashUpdate h p n .body) else none
  | .hashFinal h' .lock => if h' = h then some (.hashFinal h .pad) else none
  | .hashSetkey h' p n .lock => if h' = h then some (.hashSetkey h p n .body) else none
  | .hashSave h' .lock => if h' = h then some (.hashSave h .body) else none
  | .hashRestore h' p .lock => if h' = h then some (.hashRestore h p .body) else none
  | _ => none

/-- A snapshot some export can produce (42_hash_fsm.md R263, R264): nothing counted when Ready; else `left` and
`total` are the bytes of one message of some length `n`, modulo the block size and modulo 2^64 (R251, R253). -/
def Exportable (p : Snapshot) : Prop :=
  p.left < p.alg.blockSize ∧ p.state.length = p.alg.stateLen ∧ p.buf.length = p.left ∧
    ((p.fsm = .ready ∧ p.left = 0 ∧ p.total = 0) ∨
      (p.fsm = .updating ∧ ∃ n : Nat, p.left = n % p.alg.blockSize ∧ p.total = BitVec.ofNat 64 n))

/-- The IV a successful cipher request returns and stores (43_sg_walker.md R320); `dstTail` are the last 16
destination bytes, `c0` the counter the request started from, `nextIv` the last source block. -/
def ivOf (a : CipherAlg) (decrypt : Bool) (e : Endian) (nbytes : Nat) (c0 nextIv dstTail : Block) : Block :=
  match a with
  | .cbc => if decrypt then nextIv else dstTail
  | a => add128 e c0 ((nbytes + a.blockSize - 1) / a.blockSize)

end Sys2Proof.Claims

open Sys2Proof Sys2Proof.Machine

/-- Decoding the encoding of a command gives the command, every operand included (30_encoding.md R110 to
R124, R130), in the default layout and under every mode codec of the model (00_scope.md R11; which codecs those
are is a choice, notes/assumptions/4.md). -/
def Obligations.DecodeEncodeAgree : Prop :=
  ∀ i : Instr, decode (encode i) = .ok i ∧ ∀ c : ModeCodec, c.wf = true → decodeIn c (encodeIn c i) = .ok i

/-- The converse in the default layout: the encoding of what a descriptor decodes to is the descriptor without
the bits that no rule reads (30_encoding.md R127, R131). -/
def Obligations.EncodeDecodeAgree : Prop :=
  ∀ (d : Descriptor) (i : Instr), decodeDescriptor d = .ok i → encodeDescriptor i = Claims.significant d

/-- 30_encoding.md R129: the decode key, its fields, and the table's rows: a row selects a descriptor
exactly when it decodes to the row's command, and a descriptor no row selects is refused. -/
def Obligations.OpcodeTableSelects : Prop :=
  ∀ d : Descriptor,
    d.key = (d.w3.setWidth 64 <<< 32) ||| d.w0.setWidth 64 ∧
    d.key.getLsbD 0 = d.cycle ∧ d.key.extractLsb' 1 7 = d.cc ∧ d.key.getLsbD 8 = d.tc ∧
    d.key.getLsbD 9 = d.ioc ∧ d.key.extractLsb' 10 2 = d.type ∧ d.key.extractLsb' 16 16 = d.size ∧
    d.key.extractLsb' 32 4 = d.alg ∧ d.key.getLsbD 36 = d.dir ∧ d.key.extractLsb' 37 2 = d.keysz ∧
    d.key.getLsbD 39 = d.final ∧
    (∀ r ∈ opcodeTable, r.mask &&& 0xFFFFFF000000F000 = 0 ∧ (r.selects d = true ↔ d.key &&& r.mask = r.pattern) ∧
      (r.selects d = true ↔ ∃ i, decodeDescriptor d = .ok i ∧ i.mnemonic = r.mnemonic)) ∧
    ((∃ x, decodeDescriptor d = .error x) ↔ ∀ r ∈ opcodeTable, r.selects d = false)

/-- 30_encoding.md R136: the words of its four examples, each decoding back to its command. -/
def Obligations.ExampleWordsDecode : Prop :=
  ∀ (p q iv k : Word) (o : Handle),
    let d1 : Descriptor := ⟨0x00400201, p, q, 0x00000084, iv, k, o.extractLsb' 0 32, o.extractLsb' 32 32⟩
    let d2 : Descriptor := ⟨0x00200000, p, q, 0x00000051, iv, k, o.extractLsb' 0 32, o.extractLsb' 32 32⟩
    let d3 : Descriptor := ⟨0x00000501, 0, 0x10000000, 0, 0, 0, 0, 0⟩
    let d4 : Descriptor := ⟨0x00880201, p, q, 0x00000086, iv, k, o.extractLsb' 0 32, o.extractLsb' 32 32⟩
    let i1 : Instr := .md5 false ⟨true, 0, false, true, 64, p, q, 0, true, iv, k, o⟩
    let i2 : Instr := .aesCbcDec ⟨false, 0, false, false, 32, p, q, 2, false, iv, k, o⟩
    let i3 : Instr := .link true true 0x10000000
    let i4 : Instr := .sha3_256 false ⟨true, 0, false, true, 136, p, q, 0, true, iv, k, o⟩
    decodeDescriptor d1 = .ok i1 ∧ encodeDescriptor i1 = d1 ∧ decodeDescriptor d2 = .ok i2 ∧
      encodeDescriptor i2 = d2 ∧ decodeDescriptor d3 = .ok i3 ∧ encodeDescriptor i3 = d3 ∧
      decodeDescriptor d4 = .ok i4 ∧ encodeDescriptor i4 = d4

/-- 30_encoding.md R125: the mode codec of the default layout, that decoding undoes encoding, and that it does
so under every codec of the parameter MODE_CODEC (which codecs those are is a choice, notes/assumptions/4.md). -/
def Obligations.ModeCodecAgrees : Prop :=
  (∀ m : Mode, encodeMode m =
    m.alg.code.setWidth 32 ||| ((BitVec.ofBool m.dir).setWidth 32 <<< 4) ||| (m.keysz.setWidth 32 <<< 5) |||
      ((BitVec.ofBool m.final).setWidth 32 <<< 7)) ∧
  (∀ w : Word, 10 ≤ (w.extractLsb' 0 4).toNat → decodeMode w = none) ∧
  (∀ w : Word, (w.extractLsb' 0 4).toNat < 10 →
    ∃ a : Alg, a.code = w.extractLsb' 0 4 ∧
      decodeMode w = some ⟨a, w.getLsbD 4, w.extractLsb' 5 2, w.getLsbD 7⟩) ∧
  (∀ m : Mode, decodeMode (encodeMode m) = some m) ∧
  ∀ (c : ModeCodec) (m : Mode), (c = ModeCodec.default → c.encodeMode m = encodeMode m) ∧
    (c.wf = true → c.decodeMode (c.encodeMode m) = some m)

/-- 30_encoding.md R130: what an engine makes of a descriptor it owns, the cases in their order, the mode word
read by the codec of the implementation (00_scope.md R11). -/
def Obligations.EngineDecodes : Prop :=
  ∀ (s : State) (e : EngineId), Claims.Fetches s e →
    let d := Claims.atDq s e
    step s =
      if d.type = 1 then exec (.link d.cycle d.tc d.w2) (Claims.latched s e)
      else if d.type = 2 ∨ d.type = 3 then .refused .reservedType
      else if 10 ≤ d.alg.toNat then .refused .reservedAlg
      else if e = .aes ∧ 4 ≤ d.alg.toNat then .refused .wrongRing
      else if e = .hash ∧ d.alg.toNat ≤ 3 then .refused .wrongRing
      else exec (Claims.command d) (Claims.latched s e)

/-- A step of an engine that fetches a descriptor it owns is `exec` of the command its 32 bytes decode to under
the codec of the implementation, in the state where the descriptor is latched (40_ring.md R170). -/
def Obligations.StepRunsDecodedCommand : Prop :=
  ∀ (s : State) (e : EngineId) (i : Instr), Claims.Fetches s e →
    decodeIn s.params.codec (Memory.readBytes s.mem (s.engine e).dq.toNat 32) = .ok i → i.wf = true →
    step s = exec i (Claims.latched s e)

/-- The engine steps that execute nothing: idle or stuck, nothing changes (40_ring.md R170, 20_memory.md R84);
a stop request is honoured before the fetch (40_ring.md R175); a descriptor not owned makes the engine idle
with DQ and CCS kept (R174). The latch is the model's reading of 10_state.md R63. The stuck case and the latch
are the model's (notes/assumptions/6.md, 9.md). -/
def Obligations.EngineStepsThatExecuteNothing : Prop :=
  ∀ (s : State) (e : EngineId), Claims.Listed s (.engine e) →
    let x := s.engine e
    ((x.busy = false ∨ x.stuck = true) → step s = .next (Claims.rest s)) ∧
    (x.busy = true → x.stuck = false → x.stopReq = true →
      step s = .next ((Claims.rest s).setEngine e { x with stopReq := false, busy := false })) ∧
    (Claims.MayFetch s e → (Claims.rawAtDq s e).cycle ≠ x.ccs →
      step s = .next ((Claims.rest s).setEngine e { x with latch := Claims.rawAtDq s e, busy := false }))

/-- 40_ring.md R172: LINK sends DQ to DPTR with the low five bits cleared and inverts CCS when TC is set;
nothing else changes. -/
def Obligations.LinkFollowsPointer : Prop :=
  ∀ (c tc : Bool) (dptr : Word) (s : State),
    ∃ t, exec (.link c tc dptr) s = .next t ∧
      (t.engine s.cur).dq = dptr &&& 0xFFFFFFE0 ∧
      (t.engine s.cur).ccs = ((s.engine s.cur).ccs != tc) ∧
      t = s.setEngine s.cur { s.engine s.cur with dq := (t.engine s.cur).dq, ccs := (t.engine s.cur).ccs }

/-- 41_descriptor_commands.md R200: the checks of a normal descriptor on its ring, in their order: an
invalid key size completes the descriptor with code 2, touches no operand and leaves CHAIN; then the bad
sizes, then the unset CHAIN. A command that passes them all and whose accesses are all backed runs its data
operation (R201 to R228) and completes with code 1; if an access is not, either it passes the end of the space
and is refused (20_memory.md R83), or the engine is stuck with nothing done (R84; that no part of the step is
done is the model's reading, notes/assumptions/6.md). -/
def Obligations.CommandCheckOrder : Prop :=
  ∀ (s : State) (e : EngineId) (a : Alg), Claims.Fetches s e →
    let d := Claims.atDq s e
    d.type = 0 → Alg.ofCode d.alg = some a →
    (a.engine ≠ e → step s = .refused .wrongRing) ∧
    (a.engine = e → ¬Claims.KeyszValid s.params a d.keysz →
      step s = .next (Claims.completed e d.trb 2 (Claims.latched s e))) ∧
    (a.engine = e → Claims.KeyszValid s.params a d.keysz → (d.size = 0 ∨ d.size.toNat % a.blockSize ≠ 0) →
      step s = .refused .badSize) ∧
    (a.engine = e → Claims.KeyszValid s.params a d.keysz → d.size ≠ 0 → d.size.toNat % a.blockSize = 0 →
      a.usesIV = true → d.w4 = 0 → s.chainValid = false → step s = .fault .chainUnset) ∧
    (a.engine = e → Claims.KeyszValid s.params a d.keysz → d.size ≠ 0 → d.size.toNat % a.blockSize = 0 →
      (a.usesIV = true → d.w4 = 0 → s.chainValid = true) →
      (Claims.Runs a d.trb (Claims.latched s e) →
        step s = .next (Claims.ran a d.dir d.trb (Claims.latched s e))) ∧
      (¬Claims.Runs a d.trb (Claims.latched s e) →
        step s = .refused .dmaWrap ∨
          step s = .next ((Claims.latched s e).setEngine e
            { s.engine e with latch := Claims.rawAtDq s e, stuck := true })))

/-- 41_descriptor_commands.md R210, R211: AES-ECB on every block, in increasing address order, CHAIN
unchanged. -/
def Obligations.EcbCommandsComplete : Prop :=
  ∀ (d : Trb) (s : State), Claims.CipherRuns .ecb d s →
    exec (.aesEcbEnc d) s = .next (Claims.cipherNext .ecb (fun ch x =>
      (Claims.toBytes 16 (Config.aesEnc (Claims.keyAt d s) (Claims.ofBytes 128 x)), ch)) d s) ∧
    exec (.aesEcbDec d) s = .next (Claims.cipherNext .ecb (fun ch x =>
      (Claims.toBytes 16 (Config.aesDec (Claims.keyAt d s) (Claims.ofBytes 128 x)), ch)) d s)

/-- 41_descriptor_commands.md R212, R213: AES-CBC; CHAIN becomes the ciphertext block. -/
def Obligations.CbcCommandsComplete : Prop :=
  ∀ (d : Trb) (s : State), Claims.CipherRuns .cbc d s →
    exec (.aesCbcEnc d) s = .next (Claims.cipherNext .cbc (fun ch x =>
      let out := Config.aesEnc (Claims.keyAt d s) (Claims.ofBytes 128 x ^^^ ch)
      (Claims.toBytes 16 out, out)) d s) ∧
    exec (.aesCbcDec d) s = .next (Claims.cipherNext .cbc (fun ch x =>
      (Claims.toBytes 16 (Config.aesDec (Claims.keyAt d s) (Claims.ofBytes 128 x) ^^^ ch),
        Claims.ofBytes 128 x)) d s)

/-- 41_descriptor_commands.md R214, R215: AES-CTR and CHACHA20 combine the input with the keystream of
CHAIN, which counts up; DIR has no effect (30_encoding.md R122). -/
def Obligations.StreamCommandsComplete : Prop :=
  ∀ (dir : Bool) (d : Trb) (s : State),
    (Claims.CipherRuns .ctr d s →
      exec (.aesCtr dir d) s = .next (Claims.cipherNext .ctr (fun ch x =>
        (Claims.toBytes 16 (Claims.ofBytes 128 x ^^^ Config.aesEnc (Claims.keyAt d s) ch),
          add128 s.params.ctrEndian ch 1)) d s)) ∧
    (Claims.CipherRuns .chacha20 d s →
      exec (.chacha20 dir d) s = .next (Claims.cipherNext .chacha20 (fun ch x =>
        (Claims.toBytes 64 (Claims.ofBytes 512 x ^^^
            Config.chacha20Block (Claims.ofBytes 256 (Memory.readBytes s.mem d.kptr.toNat 32)) ch),
          add128 s.params.ctrEndian ch 1)) d s))

/-- 41_descriptor_commands.md R223, R228: MD5 and GHASH over every block of the payload, the state read
from IPTR and written to DPTR. -/
def Obligations.Md5AndGhashComplete : Prop :=
  ∀ (dir : Bool) (d : Trb) (s : State),
    (Claims.HashRuns .md5 d s →
      exec (.md5 dir d) s = .next (Claims.hashNext .md5 (fun st x =>
        Claims.toBytes 16 (Config.md5Compress (Claims.ofBytes 128 st) (Claims.ofBytes 512 x))) d s)) ∧
    (Claims.HashRuns .ghash d s →
      exec (.ghash dir d) s = .next (Claims.hashNext .ghash (fun st x =>
        Claims.toBytes 16 (Config.gf128Mul (Claims.ofBytes 128 st ^^^ Claims.ofBytes 128 x)
          (Claims.ofBytes 128 (Memory.readBytes s.mem d.kptr.toNat 16)))) d s))

/-- 41_descriptor_commands.md R224 to R227: the SHA3 commands absorb every block at their rate. -/
def Obligations.Sha3CommandsComplete : Prop :=
  ∀ (dir : Bool) (d : Trb) (s : State),
    (Claims.HashRuns .sha3_224 d s →
      exec (.sha3_224 dir d) s = .next (Claims.hashNext .sha3_224 (Claims.absorb 144) d s)) ∧
    (Claims.HashRuns .sha3_256 d s →
      exec (.sha3_256 dir d) s = .next (Claims.hashNext .sha3_256 (Claims.absorb 136) d s)) ∧
    (Claims.HashRuns .sha3_384 d s →
      exec (.sha3_384 dir d) s = .next (Claims.hashNext .sha3_384 (Claims.absorb 104) d s)) ∧
    (Claims.HashRuns .sha3_512 d s →
      exec (.sha3_512 dir d) s = .next (Claims.hashNext .sha3_512 (Claims.absorb 72) d s))

/-- 40_ring.md R173: whenever a normal command leads to a next state and the engine is not stuck there, its
completion is as the rule says: code 1 or 2 over an unchanged C, DONE on IOC, DQ + 32, the rest of the engine
unchanged. The stuck case is the model's reading of 20_memory.md R84 (notes/assumptions/6.md). -/
def Obligations.CompletionWritesCode : Prop :=
  ∀ (i : Instr) (a : Alg) (d : Trb) (s t : State), Claims.normalOf i = some (a, d) → Memory.wf s.mem = true →
    exec i s = .next t → (t.engine s.cur).stuck = false →
    (∃ cc : Nat, (cc = 1 ∨ cc = 2) ∧
      Memory.byte t.mem (s.engine s.cur).dq.toNat = BitVec.ofNat 8 (2 * cc + d.c.toNat)) ∧
    t.intFlag = (if d.ioc then s.intFlag ||| (match s.cur with | .aes => 1 | .hash => 2) else s.intFlag) ∧
    t.engine s.cur = { s.engine s.cur with dq := (s.engine s.cur).dq + 32 }

/-- The frame of the cipher commands: only the destination range and the descriptor's byte 0 change in memory;
only CHAIN (not for ECB), CHAIN_VALID, INT_FLAG and DQ change elsewhere, or the engine is stuck
(41_descriptor_commands.md R201, R210 to R215, 40_ring.md R173, 20_memory.md R84). The stuck case is the
model's reading of 20_memory.md R84 (notes/assumptions/6.md). -/
def Obligations.CipherCommandFrame : Prop :=
  ∀ (i : Instr) (a : CipherAlg) (d : Trb) (s t : State), Claims.cipherOf i = some (a, d) →
    Memory.wf s.mem = true → exec i s = .next t →
    t = { s with
      mem := t.mem
      chain := t.chain
      chainValid := t.chainValid
      intFlag := t.intFlag
      aes := { s.aes with dq := t.aes.dq, stuck := t.aes.stuck } } ∧
    (a = .ecb → t.chain = s.chain ∧ t.chainValid = s.chainValid) ∧
    (t.intFlag = s.intFlag ∨ t.intFlag = s.intFlag ||| 1) ∧
    ∀ c, ¬Claims.In c d.dptr.toNat d.size.toNat → c ≠ s.aes.dq.toNat → Memory.byte t.mem c = Memory.byte s.mem c

/-- The frame of the hash commands: only the state at DPTR and the descriptor's byte 0 change in memory; only
INT_FLAG and DQ change elsewhere, or the engine is stuck (41_descriptor_commands.md R220, R223 to R228,
40_ring.md R173, 20_memory.md R84). The stuck case is the model's reading of 20_memory.md R84
(notes/assumptions/6.md). -/
def Obligations.HashCommandFrame : Prop :=
  ∀ (i : Instr) (a : HashAlg) (d : Trb) (s t : State), Claims.hashOf i = some (a, d) →
    Memory.wf s.mem = true → exec i s = .next t →
    t = { s with
      mem := t.mem
      intFlag := t.intFlag
      hash := { s.hash with dq := t.hash.dq, stuck := t.hash.stuck } } ∧
    (t.intFlag = s.intFlag ∨ t.intFlag = s.intFlag ||| 2) ∧
    ∀ c, ¬Claims.In c d.dptr.toNat a.stateLen → c ≠ s.hash.dq.toNat → Memory.byte t.mem c = Memory.byte s.mem c

/-- 41_descriptor_commands.md R207: the counter arithmetic in both byte orders, and that advances add up. -/
def Obligations.CounterArithmetic : Prop :=
  ∀ (e : Endian) (x : Block) (n k : Nat),
    inc128 e x = add128 e x 1 ∧
    Claims.toBytes 16 (add128 .little x n) =
      leBytes 16 ((leNat (Claims.toBytes 16 x) + n) % 2 ^ 128) ∧
    (Claims.toBytes 16 (add128 .big x n)).reverse =
      leBytes 16 ((leNat (Claims.toBytes 16 x).reverse + n) % 2 ^ 128) ∧
    add128 e (add128 e x n) k = add128 e x (n + k)

/-- CHAIN after a cipher command (10_state.md R43): ECB leaves it (41_descriptor_commands.md R210); CTR and
CHACHA20 advance the initial counter by the number of blocks (R214, R215); CBC encryption leaves the last
ciphertext block, the one now in memory (R212); CBC decryption the last ciphertext block read, which is the
one that was in memory unless an earlier output block overwrote it (R213). -/
def Obligations.ChainAfterCommand : Prop :=
  ∀ (a : CipherAlg) (decrypt : Bool) (d : Trb) (s : State), Memory.wf s.mem = true → Claims.CipherRuns a d s →
    ∃ t, exec (Claims.cipherInstr a decrypt d) s = .next t ∧
      (a = .ecb → t.chain = s.chain ∧ t.chainValid = s.chainValid) ∧
      (a ≠ .ecb → t.chainValid = true) ∧
      (a = .ctr ∨ a = .chacha20 →
        t.chain = add128 s.params.ctrEndian (Claims.chainIn a d s) (d.size.toNat / a.blockSize)) ∧
      (a = .cbc → decrypt = false → ¬Claims.In s.aes.dq.toNat (d.dptr.toNat + d.size.toNat - 16) 16 →
        Memory.readBytes t.mem (d.dptr.toNat + d.size.toNat - 16) 16 = Claims.toBytes 16 t.chain) ∧
      (a = .cbc → decrypt = true →
        Claims.Apart (d.sptr.toNat + d.size.toNat - 16) 16 d.dptr.toNat (d.size.toNat - 16) →
        Claims.toBytes 16 t.chain = Memory.readBytes s.mem (d.sptr.toNat + d.size.toNat - 16) 16)

/-- 41_descriptor_commands.md R222: two hash descriptors that share one STATE compute what one descriptor
over their joint payload computes, for every hash command, when the payload, the sub-key, the two completion
bytes and the state do not overlap. -/
def Obligations.HashDescriptorsSplit : Prop :=
  ∀ (a : HashAlg) (dir : Bool) (d : Trb) (n : BitVec 16) (s t u v : State),
    Memory.wf s.mem = true → d.iptr = d.dptr → n.toNat ≤ d.size.toNat →
    let L := a.stateLen
    let dq := s.hash.dq.toNat
    let d1 : Trb := { d with size := n }
    let d2 : Trb := { d with size := d.size - n, sptr := d.sptr + n.setWidth 32 }
    d.sptr.toNat + d.size.toNat ≤ 0x100000000 →
    Claims.Apart d.sptr.toNat d.size.toNat d.dptr.toNat L → Claims.Apart d.kptr.toNat 16 d.dptr.toNat L →
    Claims.Apart dq 1 d.dptr.toNat L → Claims.Apart dq 1 d.sptr.toNat d.size.toNat →
    Claims.Apart dq 1 d.kptr.toNat 16 → Claims.Apart (s.hash.dq + 32).toNat 1 d.dptr.toNat L →
    Claims.HashRuns a d s → exec (Claims.hashInstr a dir d) s = .next t →
    Claims.HashRuns a d1 s → exec (Claims.hashInstr a dir d1) s = .next u →
    Claims.HashRuns a d2 u → exec (Claims.hashInstr a dir d2) u = .next v →
    Memory.readBytes v.mem d.dptr.toNat L = Memory.readBytes t.mem d.dptr.toNat L

/-- 20_memory.md R100: a cipher command in place gives the output and the CHAIN it gives with a destination
apart from the source. -/
def Obligations.InPlaceEqualsDisjoint : Prop :=
  ∀ (a : CipherAlg) (decrypt : Bool) (d : Trb) (q : Word) (s t u : State), Memory.wf s.mem = true →
    let n := d.size.toNat
    let inPlace : Trb := { d with dptr := d.sptr }
    let disjoint : Trb := { d with dptr := q }
    Claims.Apart d.sptr.toNat n q.toNat n →
    Claims.Apart s.aes.dq.toNat 1 d.sptr.toNat n → Claims.Apart s.aes.dq.toNat 1 q.toNat n →
    Claims.CipherRuns a inPlace s → exec (Claims.cipherInstr a decrypt inPlace) s = .next t →
    Claims.CipherRuns a disjoint s → exec (Claims.cipherInstr a decrypt disjoint) s = .next u →
    Memory.readBytes t.mem d.sptr.toNat n = Memory.readBytes u.mem q.toNat n ∧ t.chain = u.chain

/-- 20_memory.md R83, R84: the first access that is not backed takes no effect and its agent is stuck from then
on; the first access past the end of the space is refused. The accesses are an engine's fetch; in their order
the key, IV, source, destination, state, sub-key and completion accesses of every command that passes its checks;
a host load and a host store; and the dispatcher's slot read. The stuck flag, and that no part of the step is
done, are the model's reading of R84 (notes/assumptions/6.md). -/
def Obligations.UnbackedAccessSticks : Prop :=
  (∀ (s : State) (e : EngineId), Claims.Listed s (.engine e) → (s.engine e).busy = true →
    (s.engine e).stuck = false → (s.engine e).stopReq = false →
    Claims.TurnsAway s ((s.engine e).dq.toNat, 32) (step s)
      ((Claims.rest s).setEngine e { s.engine e with stuck := true })) ∧
  (∀ (a : CipherAlg) (decrypt : Bool) (d : Trb) (s : State) (pre post : List (Nat × Nat)) (r : Nat × Nat),
    s.cur = .aes → Claims.KeyszValid s.params (.cipher a) d.keysz → d.size ≠ 0 → d.size.toNat % a.blockSize = 0 →
    (a.usesIV = true → d.iptr = 0 → s.chainValid = true) →
    Claims.cipherAccesses a d s = pre ++ r :: post → (∀ x ∈ pre, Reach s x.1 x.2) →
    Claims.TurnsAway s r (exec (Claims.cipherInstr a decrypt d) s) { s with aes := { s.aes with stuck := true } }) ∧
  (∀ (a : HashAlg) (dir : Bool) (d : Trb) (s : State) (pre post : List (Nat × Nat)) (r : Nat × Nat),
    s.cur = .hash → Claims.KeyszValid s.params (.hash a) d.keysz → d.size ≠ 0 → d.size.toNat % a.blockSize = 0 →
    Claims.hashAccesses a d s = pre ++ r :: post → (∀ x ∈ pre, Reach s x.1 x.2) →
    Claims.TurnsAway s r (exec (Claims.hashInstr a dir d) s) { s with hash := { s.hash with stuck := true } }) ∧
  (∀ (s : State) (t : ThreadId) (addr : Word) (n : Nat) (v : List Byte),
    let stuck := (Claims.rest s).setThread { s.thread t with stuck := true }
    (Claims.HostAt s t ⟨.load addr n, none, none⟩ → Claims.TurnsAway s (addr.toNat, n) (step s) stuck) ∧
    (Claims.HostAt s t ⟨.store addr v, none, none⟩ → Claims.TurnsAway s (addr.toNat, v.length) (step s) stuck)) ∧
  ∀ (s : State) (r : EngineId), Claims.Listed s .dispatcher →
    s.dispatcher = ⟨true, r == .aes, s.dispatcher.drainHash, false⟩ → (r = .hash → s.dispatcher.drainHash = true) →
    Claims.TurnsAway s ((s.ring r).base.toNat + 32 * (s.ring r).head, 32) (step s)
      { Claims.rest s with dispatcher := { s.dispatcher with stuck := true } }

/-- 20_memory.md R83: the DMA space has 2^32 bytes; a read returns the bytes of its range, a write sets them
and no others, and an access past the end is refused. R84: an access that is not backed is not done. -/
def Obligations.DmaReadAndWrite : Prop :=
  ∀ (p : Params) (m : Memory) (a n : Nat) (v : List Byte), Memory.wf m = true →
    (2 ^ 32 < a + n → memRead p m a n = .wrap) ∧
    (2 ^ 32 < a + v.length → memWrite p m a v = .wrap) ∧
    (a + n ≤ 2 ^ 32 → dmaOk p a n = false → memRead p m a n = .unbacked) ∧
    (a + v.length ≤ 2 ^ 32 → dmaOk p a v.length = false → memWrite p m a v = .unbacked) ∧
    (a + n ≤ 2 ^ 32 → dmaOk p a n = true →
      memRead p m a n = .ok ((List.range n).map fun i => Memory.byte m (a + i))) ∧
    (a + v.length ≤ 2 ^ 32 → dmaOk p a v.length = true →
      ∃ m', memWrite p m a v = .ok m' ∧ Memory.wf m' = true ∧
        ∀ c, Memory.byte m' c = if Claims.In c a v.length then v.getD (c - a) 0 else Memory.byte m c)

/-- 10_state.md R31, R33, R36, R37: what a host register access reads, and which accesses are refused. A read
changes nothing but its own thread. That the width is checked before the offset, and that addresses
are 32 bits wide and subtracted modulo 2^32, are the model's (notes/assumptions/16.md, 33.md). -/
def Obligations.RegisterReadsAndRefusals : Prop :=
  ∀ (s : State) (t : ThreadId) (addr : Word) (width : Nat) (v : Word),
    let off := (addr - s.params.regBase).toNat
    (Claims.HostAt s t ⟨.regRead addr width, none, none⟩ →
      (width ≠ 4 ∨ off % 4 ≠ 0 → step s = .refused .registerAccessWidth) ∧
      (width = 4 → off % 4 = 0 → 0x20 ≤ off → step s = .refused .unmappedRegister) ∧
      (width = 4 → (off = 0x10 ∨ off = 0x14) → step s = .refused .rsaOutOfScope) ∧
      (width = 4 → ∀ w : Word,
        (off = 0x00 ∧ w = s.aes.ringBase) ∨ (off = 0x08 ∧ w = s.hash.ringBase) ∨
        (off = 0x04 ∧ w = BitVec.ofNat 32 (s.aes.busy.toNat + 2 * s.aes.stopReq.toNat + 4 * s.aes.rcs.toNat)) ∨
        (off = 0x0C ∧ w = BitVec.ofNat 32 (s.hash.busy.toNat + 2 * s.hash.stopReq.toNat + 4 * s.hash.rcs.toNat)) ∨
        (off = 0x18 ∧ w = s.intEn) ∨ (off = 0x1C ∧ w = s.intFlag) →
        step s = .next ((Claims.rest s).setThread { s.thread t with task := none, result := some (.okWord w) }))) ∧
    (Claims.HostAt s t ⟨.regWrite addr width v, none, none⟩ →
      (width ≠ 4 ∨ off % 4 ≠ 0 → step s = .refused .registerAccessWidth) ∧
      (width = 4 → off % 4 = 0 → 0x20 ≤ off → step s = .refused .unmappedRegister) ∧
      (width = 4 → (off = 0x10 ∨ off = 0x14) → v ≠ 0 → step s = .refused .rsaOutOfScope) ∧
      (width = 4 → (off = 0x18 ∨ off = 0x1C) → v &&& 0x404 ≠ 0 → step s = .refused .rsaOutOfScope))

/-- 10_state.md R32: a write of RING_BASE of an idle engine stores the base with its low five bits zero and
loads DQ and CCS; of a busy engine it is refused; the low five bits of the register are zero, and all of it is
after reset. -/
def Obligations.RingBaseWrite : Prop :=
  ∀ (s : State) (t : ThreadId) (e : EngineId) (addr v : Word),
    Claims.HostAt s t ⟨.regWrite addr 4 v, none, none⟩ →
    (addr - s.params.regBase).toNat = (match e with | .aes => 0x00 | .hash => 0x08) →
    (State.reset.engine e).ringBase = 0 ∧ (s.Inv → (s.engine e).ringBase &&& 0x1F = 0) ∧
    ((s.engine e).busy = true → step s = .refused .baseWriteWhileBusy) ∧
    ((s.engine e).busy = false →
      step s = .next (((Claims.rest s).setEngine e
        { s.engine e with
          ringBase := v &&& 0xFFFFFFE0
          dq := v &&& 0xFFFFFFE0
          ccs := (s.engine e).rcs }).finish t .ok))

/-- 10_state.md R33, 40_ring.md R171, R175: a write of RING_CTRL: STOP acts on a busy engine only and before
RUN, RUN makes the engine busy and reloads neither DQ nor CCS, RCS is stored; a trigger of a ring that has
had no ring reset is refused (70_reset_and_hazards.md R402, notes/assumptions/17.md). -/
def Obligations.RingCtrlWrite : Prop :=
  ∀ (s : State) (t : ThreadId) (e : EngineId) (addr v : Word),
    Claims.HostAt s t ⟨.regWrite addr 4 v, none, none⟩ →
    (addr - s.params.regBase).toNat = (match e with | .aes => 0x04 | .hash => 0x0C) →
    (v.getLsbD 0 = true → (s.ring e).live = false → step s = .refused .ringNotReset) ∧
    ((v.getLsbD 0 = false ∨ (s.ring e).live = true) →
      step s = .next (((Claims.rest s).setEngine e
        { s.engine e with
          busy := if v.getLsbD 0 = true then true else (s.engine e).busy
          stopReq := if v.getLsbD 1 = true ∧ (s.engine e).busy = true then true else (s.engine e).stopReq
          rcs := v.getLsbD 2 }).finish t .ok))

/-- 10_state.md R34, R35, R38, 40_ring.md R180: INT_EN keeps the bits in scope; a write of INT_FLAG clears
exactly the bits written 1; the environment may set ERF (60_exceptions.md R357); the dispatcher, outside a
dispatch, does nothing while no enabled flag is set. -/
def Obligations.InterruptRegisters : Prop :=
  (∀ (s : State) (t : ThreadId) (addr v : Word), Claims.HostAt s t ⟨.regWrite addr 4 v, none, none⟩ →
    v &&& 0x404 = 0 →
    ((addr - s.params.regBase).toNat = 0x18 →
      step s = .next ({ Claims.rest s with intEn := v &&& 0x303 }.finish t .ok)) ∧
    ((addr - s.params.regBase).toNat = 0x1C →
      step s = .next ({ Claims.rest s with intFlag := s.intFlag &&& ~~~v }.finish t .ok))) ∧
  (∀ (s : State) (e : EngineId), Claims.Listed s (.eventRingFull e) →
    step s = .next { Claims.rest s with
      intFlag := s.intFlag ||| (match e with | .aes => 0x100 | .hash => 0x200) }) ∧
  (∀ s : State, s.irq = true ↔
    ∃ i, (i = 0 ∨ i = 1 ∨ i = 8 ∨ i = 9) ∧ s.intFlag.getLsbD i = true ∧ s.intEn.getLsbD i = true) ∧
  (∀ s : State, Claims.Listed s .dispatcher → s.dispatcher.active = false → s.irq = false →
    step s = .next (Claims.rest s))

/-- 10_state.md R64, 70_reset_and_hazards.md R400: a hardware reset gives every control register and engine
its reset value and does not touch memory, and afterwards neither engine nor dispatcher takes a step. -/
def Obligations.HardwareResetValues : Prop :=
  ∀ s : State, Claims.Listed s .hardwareReset →
    ∃ t, step s = .next t ∧ t.mem = s.mem ∧ t.params = s.params ∧
      (∀ e : EngineId, (t.engine e).ringBase = 0 ∧ ringCtrlValue (t.engine e) = 4 ∧ (t.engine e).rcs = true ∧
        (t.engine e).dq = 0 ∧ (t.engine e).ccs = true ∧ (t.engine e).busy = false ∧
        (t.engine e).stopReq = false ∧ engineStep e t = .next t) ∧
      t.intEn = 0 ∧ t.intFlag = 0 ∧ t.chainValid = false ∧ t.irq = false ∧ dispatcherStep t = .next t

/-- The reset state meets the invariant, and has the values of 10_state.md R64 (memory, CHAIN and the ring
controllers are the model's choices, notes/assumptions/7.md, 8.md, 10.md, and are not stated). -/
def Obligations.ResetMeetsInvariant : Prop :=
  State.reset.Inv ∧
    (∀ e : EngineId, (State.reset.engine e).ringBase = 0 ∧ ringCtrlValue (State.reset.engine e) = 4 ∧
      (State.reset.engine e).dq = 0 ∧ (State.reset.engine e).ccs = true ∧ (State.reset.engine e).busy = false ∧
      (State.reset.engine e).stopReq = false) ∧
    State.reset.intEn = 0 ∧ State.reset.intFlag = 0 ∧ State.reset.chainValid = false

/-- Every step of every agent keeps the invariant: parameters as 00_scope.md R11 asks, canonical memory, aligned
DQ and RING_BASE (10_state.md R32, R45), interrupt registers in scope (R34, R35), cursors on usable slots (R47,
R48), session buffers as R56, R57 and R60 say, one session for an identity (30_encoding.md R126). The canonical
form is about the model's own representation of memory, the form of a mode codec is the model's choice
(notes/assumptions/4.md), and so are unique identities (notes/assumptions/11.md). -/
def Obligations.StepKeepsInvariant : Prop :=
  ∀ s t : State, s.Inv → step s = .next t → t.Inv

/-- 10_state.md R47, R48, 40_ring.md R184: a ring's head moves only in a dispatcher step or a ring reset;
its tail and its producer cycle state only in the slot step of a QUEUE or a ring reset. -/
def Obligations.RingCursorWriters : Prop :=
  ∀ (s t : State) (r : EngineId), step s = .next t →
    let resets := ∃ th base k, (takeEvent s).1 = .host th ∧ (s.thread th).task = some k ∧ k.job = .ringReset r base
    ((t.ring r).head ≠ (s.ring r).head → (takeEvent s).1 = .dispatcher ∨ resets) ∧
    ((t.ring r).tail ≠ (s.ring r).tail ∨ (t.ring r).pcs ≠ (s.ring r).pcs →
      resets ∨ ∃ th k q held, (takeEvent s).1 = .host th ∧ (s.thread th).task = some k ∧
        k.sub = some (.queue q (.take held)))

/-- 10_state.md R43, R44: CHAIN and CHAIN_VALID change only in a step of the AES engine or a hardware
reset, and CHAIN_VALID is cleared by a hardware reset only. The parameters (00_scope.md R11) never change. -/
def Obligations.ChainWriters : Prop :=
  ∀ s t : State, step s = .next t →
    (t.chain ≠ s.chain ∨ t.chainValid ≠ s.chainValid →
      (takeEvent s).1 = .engine .aes ∨ (takeEvent s).1 = .hardwareReset) ∧
    (s.chainValid = true → t.chainValid = false → (takeEvent s).1 = .hardwareReset) ∧
    t.params = s.params

/-- 10_state.md R62, R63, 20_memory.md R93: a step of one engine leaves the other engine, INT_EN, the ring
controllers, the dispatcher, every session and every host thread as they were; the hash engine leaves CHAIN. -/
def Obligations.EngineStepFrame : Prop :=
  ∀ (s t : State) (e f : EngineId), Claims.Listed s (.engine e) → step s = .next t →
    (f ≠ e → t.engine f = s.engine f) ∧
    (e = .hash → t.chain = s.chain ∧ t.chainValid = s.chainValid) ∧
    (t.engine e).ringBase = (s.engine e).ringBase ∧ (t.engine e).rcs = (s.engine e).rcs ∧
    t = { s with
      mem := t.mem
      aes := t.aes
      hash := t.hash
      chain := t.chain
      chainValid := t.chainValid
      intFlag := t.intFlag
      cur := t.cur
      inputs := s.inputs.tail }

/-- 40_ring.md R150, 10_state.md R65: a ring reset of a quiet ring at an aligned base in backed memory: zero
slots, the link slot, the controller and the engine as the rule says, and nothing else in memory; with the
engine busy, another thread in QUEUE or EXECUTE on the ring, or (70_reset_and_hazards.md R403) slots still out
on a live ring, it is a fault. That it is one step, what it counts as traffic, and that traffic is tested before
the base's alignment, are the model's (notes/assumptions/14.md). -/
def Obligations.RingResetInitialises : Prop :=
  ∀ (s : State) (t : ThreadId) (r : EngineId) (base : Word),
    Claims.HostAt s t ⟨.ringReset r base, none, none⟩ → Memory.wf s.mem = true →
    let n := s.params.slots r
    ((s.engine r).busy = true ∨
      (∃ x ∈ s.threads, x.id ≠ t ∧ ∃ k, x.task = some k ∧ k.queuesOn s r = true) ∨
      ((s.ring r).live = true ∧ (s.ring r).sem ≠ n - 2) → step s = .fault .resetDuringTraffic) ∧
    (s.ringQuiet t r = true → 3 ≤ n → base &&& 0x1F = 0 → (∀ i < n, Reach s (base.toNat + 32 * i) 32) →
      ∃ u, step s = .next u ∧
        u.ring r =
          { live := true, base := base, head := 0, tail := 0, pcs := true, sem := n - 2, mutex := none,
            triggerCount := 0, irqCount := 0 } ∧
        u.engine r = { s.engine r with ringBase := base, rcs := true, dq := base, ccs := true } ∧
        (∀ i < n - 1, Memory.readBytes u.mem (base.toNat + 32 * i) 32 = List.replicate 32 0) ∧
        Descriptor.ofBytes (Memory.readBytes u.mem (base.toNat + 32 * (n - 1)) 32) =
          ⟨0x00000500, 0, base, 0, 0, 0, 0, 0⟩ ∧
        (∀ c, ¬Claims.In c base.toNat (32 * n) → Memory.byte u.mem c = Memory.byte s.mem c) ∧
        (u.thread t).task = none ∧ (u.thread t).result = some .ok)

/-- 40_ring.md R151 step 1, R153, 20_memory.md R97, 60_exceptions.md R355: a QUEUE with a payload goes on to
the semaphore; it takes one unit when there is one and holds while there is none, where a signal ends it with
`Interrupted` and nothing else changed; then it takes the ring mutex, holding while another thread has it.
That a signal ends the hold only while there is no unit is the model's reading (notes/assumptions/15.md); the
check of the length as a step of its own is the model's granularity (notes/assumptions/13.md). -/
def Obligations.AcquireSemaphoreAndMutex : Prop :=
  ∀ (s : State) (t : ThreadId) (k : Task) (q : QueueCall) (c : Ctx), s.ctx q.ctx = some c →
    let r := c.ring
    let x := s.ring r
    (Claims.HostAt s t k → k.sub = some (.queue q .enter) → x.live = true → q.len ≤ 65535 →
      step s = .next ((Claims.rest s).goSub t k (.queue q (if q.len = 0 then .zeroLock else .down)))) ∧
    (Claims.HostAt s t k → k.sub = some (.queue q .enter) → x.live = true → 65535 < q.len →
      step s = .refused .sizeTooLarge) ∧
    (Claims.HostAt s t k → k.sub = some (.queue q .down) → x.sem = 0 → step s = .next (Claims.rest s)) ∧
    (Claims.HostAt s t k → k.sub = some (.queue q .down) → 0 < x.sem →
      step s = .next (((Claims.rest s).setRing r { x with sem := x.sem - 1 }).goSub t k (.queue q .lock))) ∧
    (Claims.Listed s (.signal t) → (s.thread t).stuck = false → (s.thread t).task = some k →
      k.sub = some (.queue q .down) → x.sem = 0 →
      step s = .next ((Claims.rest s).retSub t k (.failed .interrupted))) ∧
    (Claims.HostAt s t k → k.sub = some (.queue q .lock) →
      (x.mutex = none → step s = .next (((Claims.rest s).setRing r { x with mutex := some t }).goSub t k
        (.queue q (.take false)))) ∧
      (x.mutex = some t → step s = .next ((Claims.rest s).goSub t k (.queue q (.take true)))) ∧
      (∀ o, x.mutex = some o → o ≠ t → step s = .next (Claims.rest s)))

/-- 40_ring.md R151 step 2, R154, R156: the slot at the tail is taken with the cycle value PCS; at a wrap the
link's byte 0 gets C and PCS inverts; the descriptor is to carry IOC when it was asked for or the semaphore is
0; a second IOC descriptor of a context that is not done is a fault. The slot step as one step is the model's
granularity (notes/assumptions/13.md). -/
def Obligations.AcquireTakesSlot : Prop :=
  ∀ (s : State) (t : ThreadId) (k : Task) (q : QueueCall) (c : Ctx) (held : Bool), s.ctx q.ctx = some c →
    Claims.HostAt s t k → k.sub = some (.queue q (.take held)) →
    let r := c.ring
    let x := s.ring r
    let n := s.params.slots r
    let ioc := if x.sem = 0 then true else q.ioc
    let next := QueuePhase.publish held x.tail x.pcs ioc 0
    (ioc = true → c.done = false → step s = .fault .secondOutstandingIoc) ∧
    ((ioc = false ∨ c.done = true) → x.tail ≠ n - 2 →
      step s = .next (((Claims.rest s).setRing r
        { x with tail := if x.tail < n - 2 then x.tail + 1 else 0 }).goSub t k (.queue q next))) ∧
    ((ioc = false ∨ c.done = true) → x.tail = n - 2 → Reach s (x.base.toNat + 32 * (n - 1)) 1 →
      step s = .next (({ Claims.rest s with
          mem := Memory.writeBytes s.mem (x.base.toNat + 32 * (n - 1)) [BitVec.ofNat 8 x.pcs.toNat] }.setRing r
        { x with tail := 0, pcs := !x.pcs }).goSub t k (.queue q next)))

/-- 40_ring.md R155, 20_memory.md R92: through all the writes of PUBLISH but the last the slot's C is not the
cycle value that gives it to the engine; after the last the slot holds exactly the queued command, under any
mode codec; no other byte changes. -/
def Obligations.PublishOwnershipLast : Prop :=
  ∀ (mc : ModeCodec) (q : QueueCall) (a : Nat) (cyc ioc : Bool) (m : Memory), Memory.wf m = true → a + 32 ≤ Config.dmaEnd →
    1 ≤ q.len → q.len ≤ 65535 → (Memory.byte m a).getLsbD 0 = !cyc →
    (∀ k ≤ 8, (Memory.byte (Claims.published mc q a cyc ioc k m) a).getLsbD 0 = !cyc) ∧
    Memory.readBytes (Claims.published mc q a cyc ioc 9 m) a 32 = encodeIn mc (Claims.queuedCommand q cyc ioc) ∧
    ∀ k ≤ 9, ∀ c, ¬Claims.In c a 32 → Memory.byte (Claims.published mc q a cyc ioc k m) c = Memory.byte m c

/-- 40_ring.md R153, R155: a QUEUE does the writes of PUBLISH one step each, at the slot's address; its last
write records the slot, the mode and the flags in the context, counts the descriptor, gives up the mutex it
took and returns the slot and the effective IOC. One write a step is the model's granularity
(notes/assumptions/13.md). -/
def Obligations.QueuePublishes : Prop :=
  ∀ (s : State) (t : ThreadId) (k : Task) (q : QueueCall) (c : Ctx) (held cyc ioc : Bool) (slot n : Nat),
    s.ctx q.ctx = some c → Claims.HostAt s t k → k.sub = some (.queue q (.publish held slot cyc ioc n)) → n ≤ 8 →
    let r := c.ring
    let a := (s.ring r).base.toNat + 32 * slot
    (∀ w, publishWrite s.params.codec q a cyc ioc n = some w → Reach s w.1 w.2.length) →
    let m := match publishWrite s.params.codec q a cyc ioc n with
      | some w => Memory.writeBytes s.mem w.1 w.2
      | none => s.mem
    (n < 8 → step s = .next ({ Claims.rest s with mem := m }.goSub t k
      (.queue q (.publish held slot cyc ioc (n + 1))))) ∧
    (n = 8 → ∃ u, step s = .next u ∧ u.mem = m ∧
      u.ctx q.ctx = some { c with
        last := some slot
        pendingNonIoc := !ioc
        mode := some q.mode
        outstanding := c.outstanding + 1
        done := if ioc then false else c.done } ∧
      (∀ h, h ≠ q.ctx → u.ctx h = s.ctx h) ∧
      u.ring r = Claims.unlocked held (s.ring r) ∧
      u.thread t = { s.thread t with task := some { k with sub := none, ret := some (.queued slot ioc) } })

/-- 40_ring.md R158: the zero-length QUEUE. With no pending descriptor without IOC it writes nothing and
leaves the context; else it rewrites the mode word of the pending slot, then the IOC bit of byte 1 of the same
slot, and updates the context, its condition tested once. One write a step is the model's granularity
(notes/assumptions/13.md). -/
def Obligations.ZeroLengthQueue : Prop :=
  ∀ (s : State) (t : ThreadId) (k : Task) (q : QueueCall) (c : Ctx) (held : Bool), s.ctx q.ctx = some c →
    let r := c.ring
    (Claims.HostAt s t k → k.sub = some (.queue q (.zeroMode held)) →
      (c.last = none ∨ c.pendingNonIoc = false →
        step s = .next (((Claims.rest s).setRing r (Claims.unlocked held (s.ring r))).retSub t k .updated)) ∧
      (∀ slot, c.last = some slot → c.pendingNonIoc = true →
        let a := (s.ring r).base.toNat + 32 * slot + 12
        Reach s a 4 →
        step s = .next ({ Claims.rest s with
          mem := Memory.writeBytes s.mem a (toLe32 (s.params.codec.encodeMode q.mode)) }.goSub t k
          (.queue q (.zeroFlags held slot))))) ∧
    (∀ slot, Claims.HostAt s t k → k.sub = some (.queue q (.zeroFlags held slot)) →
      let a := (s.ring r).base.toNat + 32 * slot + 1
      Reach s a 1 → Memory.wf s.mem = true →
      ∃ u, step s = .next u ∧
        (∀ b, b ≠ a → Memory.byte u.mem b = Memory.byte s.mem b) ∧
        (∀ i, i < 8 → (Memory.byte u.mem a).getLsbD i =
          if i = 1 then q.ioc else (Memory.byte s.mem a).getLsbD i) ∧
        u.ctx q.ctx = some { c with
          mode := some q.mode
          pendingNonIoc := if q.ioc then false else c.pendingNonIoc
          done := if q.ioc then false else c.done } ∧
        (∀ h, h ≠ q.ctx → u.ctx h = s.ctx h) ∧
        u.ring r = Claims.unlocked held (s.ring r) ∧
        u.thread t = { s.thread t with task := some { k with sub := none, ret := some .updated } })

/-- 40_ring.md R160, R161, R163: EXECUTE of a context that is done reports and resets the recorded status
without a trigger; of one that is not done it counts, writes RUN with RCS kept and waits; DQ, CCS and a stop
request are as they were. When the waiter is set and cleared is the model's reading
(notes/assumptions/28.md); that the count, the RUN write and the start of the wait are one step, and the report
with the reset of the status another, is the model's granularity (notes/assumptions/13.md). -/
def Obligations.ExecuteTriggersOrReports : Prop :=
  ∀ (s : State) (t : ThreadId) (k : Task) (h : Handle) (c : Ctx), s.ctx h = some c →
    Claims.HostAt s t k →
    let r := c.ring
    let reported := (Claims.rest s).updCtx h fun c => { c with status := 1, waiter := none }
    ((k.sub = some (.exec h .trigger) ∧ (s.ring r).live = true ∨ k.sub = some (.exec h .wait)) → c.done = true →
      (c.status = 1 → step s = .next (reported.retSub t k .executed)) ∧
      (c.status = 2 → step s = .next (reported.retSub t k (.failed .badKeyLength))) ∧
      (c.status ≠ 1 → c.status ≠ 2 → step s = .fault .reservedCompletionCode)) ∧
    (k.sub = some (.exec h .trigger) → (s.ring r).live = true → c.done = false →
      step s = .next (((((Claims.rest s).setRing r
          { s.ring r with triggerCount := (s.ring r).triggerCount + 1 }).setEngine r
          { s.engine r with busy := true }).updCtx h fun c => { c with waiter := some t }).goSub t k (.exec h .wait))) ∧
    (k.sub = some (.exec h .wait) → c.done = false → step s = .next (Claims.rest s))

/-- 40_ring.md R165, R166, 60_exceptions.md R355, R356: the wait of a cipher session may be ended by a signal
or by the timeout, whatever `done` is, and `done` is kept; the wait of a hash session by neither. That they
may end it whatever `done` is, and that its end clears the context's waiter, are the model's readings
(notes/assumptions/15.md, 28.md). -/
def Obligations.WaitEndings : Prop :=
  ∀ (s : State) (t : ThreadId) (k : Task) (h : Handle) (c : Ctx), s.ctx h = some c →
    (s.thread t).stuck = false → (s.thread t).task = some k → k.sub = some (.exec h .wait) →
    let ended := (Claims.rest s).updCtx h fun c => { c with waiter := none }
    (c.ring = .hash → Claims.Listed s (.signal t) ∨ Claims.Listed s (.timeout t) →
      step s = .next (Claims.rest s)) ∧
    (c.ring = .aes → Claims.Listed s (.signal t) →
      step s = .next (ended.retSub t k (.failed .interrupted))) ∧
    (c.ring = .aes → Claims.Listed s (.timeout t) →
      step s = .next (ended.retSub t k (.failed .timeout)))

/-- 70_reset_and_hazards.md R402: before the ring's first ring reset a QUEUE, an EXECUTE and a trigger are
refused; every ring is in that state after a hardware reset. That a RUN write by hand counts as a trigger, and
that a hardware reset asks for a new ring reset, are the model's readings (notes/assumptions/17.md, 10.md). That
a QUEUE is tested at its first step and an EXECUTE at its trigger, and neither again if a hardware reset comes
later, is its choice (notes/assumptions/10.md). -/
def Obligations.RingNotResetRefuses : Prop :=
  (∀ (s : State) (t : ThreadId) (k : Task) (c : Ctx), Claims.HostAt s t k → (s.ring c.ring).live = false →
    (∀ q, s.ctx q.ctx = some c → k.sub = some (.queue q .enter) → step s = .refused .ringNotReset) ∧
    (∀ h, s.ctx h = some c → k.sub = some (.exec h .trigger) → step s = .refused .ringNotReset)) ∧
  (∀ (s : State) (t : ThreadId) (e : EngineId) (addr v : Word),
    Claims.HostAt s t ⟨.regWrite addr 4 v, none, none⟩ → (s.ring e).live = false → v.getLsbD 0 = true →
    (addr - s.params.regBase).toNat = (match e with | .aes => 0x04 | .hash => 0x0C) →
    step s = .refused .ringNotReset) ∧
  (∀ r : EngineId, (State.reset.ring r).live = false) ∧
  ∀ s t : State, Claims.Listed s .hardwareReset → step s = .next t → ∀ r : EngineId, (t.ring r).live = false

/-- 40_ring.md R181, R367(b): the entry clears exactly the pending enabled flags, counts an interrupt for each
ring whose DONE flag is among them and marks it to drain; ERF flags are cleared and otherwise ignored. -/
def Obligations.DispatchEntryAcknowledges : Prop :=
  ∀ s : State, Claims.Listed s .dispatcher → s.dispatcher.stuck = false → s.dispatcher.active = false →
    s.irq = true → s.intEn &&& ~~~(0x303 : Word) = 0 →
    let pend := s.intFlag &&& s.intEn
    let served (x : Ring) (i : Nat) : Ring := if pend.getLsbD i = true then { x with irqCount := x.irqCount + 1 } else x
    step s = .next { Claims.rest s with
      intFlag := s.intFlag &&& ~~~pend
      dispatcher := { active := true, drainAes := pend.getLsbD 0, drainHash := pend.getLsbD 1, stuck := false }
      aesRing := served s.aesRing 0
      hashRing := served s.hashRing 1 }

/-- 40_ring.md R180, R182, R183: inside a dispatch the AES ring drains before the hash ring (60_exceptions.md
R367), the drain of a ring ends at a slot with CC = 0, and the dispatch ends when both have ended, whatever
interrupt is pending: it does not nest. That the end of a drain is a step of its own is the model's
(notes/assumptions/26.md). -/
def Obligations.DispatcherOrder : Prop :=
  ∀ s : State, Claims.Listed s .dispatcher → s.dispatcher.stuck = false → s.dispatcher.active = true →
    let slot (r : EngineId) := (s.ring r).base.toNat + 32 * (s.ring r).head
    let cc (r : EngineId) := (Descriptor.ofBytes (Memory.readBytes s.mem (slot r) 32)).cc
    (s.dispatcher.drainAes = true → Reach s (slot .aes) 32 → cc .aes = 0 →
      step s = .next { Claims.rest s with dispatcher := { s.dispatcher with drainAes := false } }) ∧
    (s.dispatcher.drainAes = false → s.dispatcher.drainHash = true → Reach s (slot .hash) 32 → cc .hash = 0 →
      step s = .next { Claims.rest s with dispatcher := { s.dispatcher with drainHash := false } }) ∧
    (s.dispatcher.drainAes = false → s.dispatcher.drainHash = false →
      step s = .next { Claims.rest s with dispatcher := { s.dispatcher with active := false } })

/-- 40_ring.md R182: the release of a completed descriptor at the head: CC is cleared and C kept, the head and
the semaphore advance, the owner's context loses one outstanding descriptor, records a code other than
success, and is done, its waiter woken, when the descriptor carries IOC; no other context, register or byte
changes. That a wake clears the waiter is the model's reading (notes/assumptions/28.md), and so is `outstanding - 1`
being 0 at 0, which needs a descriptor no QUEUE counted (notes/assumptions/34.md). -/
def Obligations.ReleaseRetiresSlot : Prop :=
  ∀ (s : State) (r : EngineId) (c : Ctx), Claims.Listed s .dispatcher → Memory.wf s.mem = true →
    s.dispatcher = ⟨true, r == .aes, s.dispatcher.drainHash, false⟩ → (r = .hash → s.dispatcher.drainHash = true) →
    let x := s.ring r
    let n := s.params.slots r
    let a := x.base.toNat + 32 * x.head
    let d := Descriptor.ofBytes (Memory.readBytes s.mem a 32)
    Reach s a 32 → d.cc ≠ 0 → s.ctx d.owner = some c →
    ∃ u, step s = .next u ∧
      Memory.byte u.mem a = BitVec.ofNat 8 d.cycle.toNat ∧
      (∀ b, b ≠ a → Memory.byte u.mem b = Memory.byte s.mem b) ∧
      u.ring r = { x with head := if x.head < n - 2 then x.head + 1 else 0, sem := x.sem + 1 } ∧
      u.ctx d.owner = some { c with
        status := if d.cc = 1 then c.status else d.cc
        outstanding := c.outstanding - 1
        done := if d.ioc then true else c.done
        waiter := if d.ioc then none else c.waiter } ∧
      (∀ h, h ≠ d.owner → u.ctx h = s.ctx h) ∧
      (∀ f : EngineId, f ≠ r → u.ring f = s.ring f) ∧
      u = { s with
        mem := u.mem
        aesRing := u.aesRing
        hashRing := u.hashRing
        hashSessions := u.hashSessions
        cipherSessions := u.cipherSessions
        inputs := s.inputs.tail }

/-- 42_hash_fsm.md R251, R266: HASH_INIT under the session lock: a query changes nothing; another digest
length is an error that changes nothing; with descriptors outstanding it is refused; else STATE is seeded, the
counts and the context's bookkeeping are cleared and the session is Ready. The lock is released. The body as
one step is the model's granularity (notes/assumptions/13.md). -/
def Obligations.HashInitStartsMessage : Prop :=
  ∀ (s : State) (t : ThreadId) (k : Task) (h : Handle) (x : HashSession) (dl : Option Nat),
    Claims.HostAt s t k → k.job = .hashInit h dl .body → k.sub = none → s.hashSession h = some x →
    let left (r : Result) (s : State) := (s.updHash h fun y => { y with lock := none }).finish t r
    let seed : List Byte := match x.alg with
      | .md5 => [0x01, 0x23, 0x45, 0x67, 0x89, 0xab, 0xcd, 0xef, 0xfe, 0xdc, 0xba, 0x98, 0x76, 0x54, 0x32, 0x10]
      | .ghash => List.replicate 16 0
      | _ => List.replicate 200 0
    (dl = none → step s = .next (left (.okLen x.digestLen) (Claims.rest s))) ∧
    (∀ n, dl = some n → n ≠ x.digestLen → step s = .next (left (.err .invalidParameter) (Claims.rest s))) ∧
    (dl = some x.digestLen → 0 < x.ctx.outstanding → step s = .refused .staleDescriptors) ∧
    (dl = some x.digestLen → x.ctx.outstanding = 0 → Reach s x.scratch.toNat seed.length →
      step s = .next (left .ok ({ Claims.rest s with mem := Memory.writeBytes s.mem x.scratch.toNat seed }.updHash h
        fun y => { y with
          left := 0
          total := 0
          fsm := .ready
          ctx := { y.ctx with last := none, pendingNonIoc := false, status := 1 } })))

/-- 42_hash_fsm.md R253, R254, R255: the steps of HASH_UPDATE under the lock. An input that fits under one block
is appended to the buffer and the update returns; a longer one fills the buffer to a full block and plans the
buffer block and the whole blocks in place. Each run is queued, the last with IOC; after a QUEUE whose descriptor
carries IOC comes EXECUTE, after another the next run; after the last the remainder goes to the buffer, the counts
are updated and the update returns. The body as one step is the model's granularity (notes/assumptions/13.md). -/
def Obligations.HashUpdateBuffers : Prop :=
  ∀ (s : State) (t : ThreadId) (k : Task) (h : Handle) (x : HashSession) (p : Word) (n : Nat),
    Claims.HostAt s t k → k.sub = none → s.hashSession h = some x →
    let bs := x.alg.blockSize
    let avail := bs - x.left
    let direct := n - avail - (n - avail) % bs
    let rem := (n - avail) % bs
    let buf := x.scratch.toNat + 224
    let hkey := x.scratch.toNat + 384
    let next (rest : List Run) : Machine.Task :=
      ⟨.hashUpdate h p n (if rest = [] then .remainder else .send rest), none, none⟩
    (k.job = .hashUpdate h p n .body → n < avail → Reach s p.toNat n → Reach s (buf + x.left) n →
      step s = .next (((({ Claims.rest s with
          mem := Memory.writeBytes s.mem (buf + x.left) (Memory.readBytes s.mem p.toNat n) }.updHash h fun y =>
            { y with left := y.left + n, total := y.total + BitVec.ofNat 64 n, fsm := .updating }).updHash h fun y =>
            { y with lock := none }).finish t .ok))) ∧
    (k.job = .hashUpdate h p n .body → avail ≤ n → Reach s p.toNat avail → Reach s (buf + x.left) avail →
      ∃ u runs, step s = .next u ∧
        u.mem = Memory.writeBytes s.mem (buf + x.left) (Memory.readBytes s.mem p.toNat avail) ∧
        (u.thread t).task = some { k with job := .hashUpdate h p n (.send runs) } ∧
        runs.head? = some ⟨buf, bs⟩ ∧
        (∀ y ∈ runs, 0 < y.len ∧ y.len % bs = 0 ∧ y.len ≤ Config.maxRun bs) ∧
        runs.tail.flatMap (fun y => List.range' y.addr y.len) = List.range' (p.toNat + avail) direct) ∧
    (∀ run rest, k.job = .hashUpdate h p n (.send (run :: rest)) → run.addr < Config.dmaEnd →
      (x.alg = .ghash → hkey < Config.dmaEnd) → step s = .next ((Claims.rest s).setTask t
        ⟨.hashUpdate h p n (.sent rest),
          some (.queue ⟨h, BitVec.ofNat 32 run.addr, x.scratch, x.scratch,
            if x.alg = .ghash then BitVec.ofNat 32 hkey else 0, run.len, ⟨.hash x.alg, false, 0, false⟩,
            decide (rest = [])⟩ .enter), none⟩)) ∧
    (∀ rest slot, k.job = .hashUpdate h p n (.sent rest) →
      (k.ret = some (.queued slot true) → step s = .next ((Claims.rest s).setTask t
        ⟨.hashUpdate h p n (.waited rest), some (.exec h .trigger), none⟩)) ∧
      (k.ret = some (.queued slot false) → step s = .next ((Claims.rest s).setTask t (next rest)))) ∧
    (∀ rest, k.job = .hashUpdate h p n (.waited rest) → k.ret = some .executed →
      step s = .next ((Claims.rest s).setTask t (next rest))) ∧
    (k.job = .hashUpdate h p n .remainder → Reach s (p.toNat + avail + direct) rem → Reach s buf rem →
      step s = .next (((({ Claims.rest s with
          mem := Memory.writeBytes s.mem buf (Memory.readBytes s.mem (p.toNat + avail + direct) rem) }.updHash h fun y =>
            { y with left := rem, total := y.total + BitVec.ofNat 64 n, fsm := .updating }).updHash h fun y =>
            { y with lock := none }).finish t .ok)))

/-- 42_hash_fsm.md R256: the runs of `split` lie end to end from the start address over the whole length;
every run but the last has the given size and the last at most it; of block multiples all runs are block
multiples. -/
def Obligations.SplitRunsCover : Prop :=
  ∀ m k a len bs : Nat, 0 < m → len ≤ k * m →
    (splitRuns m k a len).flatMap (fun r => List.range' r.addr r.len) = List.range' a len ∧
    (∀ r ∈ splitRuns m k a len, 0 < r.len ∧ r.len ≤ m) ∧
    (∀ r ∈ (splitRuns m k a len).dropLast, r.len = m) ∧
    (len % bs = 0 → m % bs = 0 → ∀ r ∈ splitRuns m k a len, r.len % bs = 0)

/-- 42_hash_fsm.md R258, R259, R260, R271, R272: what the buffer holds after PAD, for every algorithm and
every count of buffered bytes, and the size of the final descriptor. -/
def Obligations.PaddingFillsBlocks : Prop :=
  ∀ (a : HashAlg) (left : Nat) (total : BitVec 64) (b : List Byte), left < a.blockSize → b.length = left →
    let padded := b ++ padBytes a left total
    padded.length = padLen a left ∧ padLen a left % a.blockSize = 0 ∧
    (a = .md5 → padLen a left = (if left ≤ 55 then 64 else 128) ∧ padded[left]? = some 0x80 ∧
      (∀ i, left < i → i < padLen a left - 8 → padded[i]? = some 0) ∧
      padded.drop (padLen a left - 8) = leBytes 8 (8 * total.toNat % 2 ^ 64)) ∧
    (a = .ghash → padLen a left = (if left = 0 then 0 else 16) ∧
      ∀ i, left ≤ i → i < padLen a left → padded[i]? = some 0) ∧
    (a ≠ .md5 → a ≠ .ghash → padLen a left = a.blockSize ∧
      (left = a.blockSize - 1 → padded[left]? = some 0x86) ∧
      (left < a.blockSize - 1 → padded[left]? = some 0x06 ∧ padded[a.blockSize - 1]? = some 0x80 ∧
        ∀ i, left < i → i < a.blockSize - 1 → padded[i]? = some 0))

/-- 42_hash_fsm.md R253, R257, R263, R265, R267, R269, 20_memory.md R97: update, final and export of a session that
is neither Ready nor Updating are refused, and of a GHASH session without a sub-key update and final are; in the
two states they go on to the session lock. Every operation takes the lock when it is free and holds while any
thread has it. An error of a QUEUE or an EXECUTE leaves the session Failed, the lock free and the error
returned. The checks as a step of their own and the error exit as one step are the model's granularity
(notes/assumptions/13.md). -/
def Obligations.HashStateGuards : Prop :=
  ∀ (s : State) (t : ThreadId) (k : Task) (h : Handle) (x : HashSession) (p : Word) (n : Nat),
    Claims.HostAt s t k → k.sub = none → s.hashSession h = some x →
    (x.fsm ≠ .ready → x.fsm ≠ .updating →
      (k.job = .hashUpdate h p n .check ∨ k.job = .hashFinal h .check ∨ k.job = .hashSave h .check →
        step s = .refused .hashNotReady)) ∧
    (x.fsm = .ready ∨ x.fsm = .updating →
      (x.alg = .ghash → x.keySet = false → k.job = .hashUpdate h p n .check ∨ k.job = .hashFinal h .check →
        step s = .refused .ghashKeyUnset) ∧
      (x.alg ≠ .ghash ∨ x.keySet = true →
        (k.job = .hashUpdate h p n .check →
          step s = .next ((Claims.rest s).setTask t { k with job := .hashUpdate h p n .lock })) ∧
        (k.job = .hashFinal h .check →
          step s = .next ((Claims.rest s).setTask t { k with job := .hashFinal h .lock }))) ∧
      (k.job = .hashSave h .check →
        step s = .next ((Claims.rest s).setTask t { k with job := .hashSave h .lock }))) ∧
    (∀ j, Claims.hashLocked h k.job = some j →
      (x.lock = none → step s = .next (((Claims.rest s).updHash h fun y => { y with lock := some t }).setTask t
        { k with job := j })) ∧
      (∀ o, x.lock = some o → step s = .next (Claims.rest s))) ∧
    (∀ (e : Err) (runs : List Run), k.ret = some (.failed e) →
      k.job = .hashUpdate h p n (.sent runs) ∨ k.job = .hashUpdate h p n (.waited runs) ∨
        k.job = .hashFinal h .queued ∨ k.job = .hashFinal h .waited →
      step s = .next ((((Claims.rest s).updHash h fun y => { y with fsm := .failed }).updHash h fun y =>
        { y with lock := none }).finish t (.err e)))

/-- 42_hash_fsm.md R262: HASH_SETKEY is refused but for GHASH; under the lock it accepts 16 bytes, and 17,
which forces the digest length; any other length is an error that changes nothing. The body as one step is the
model's granularity (notes/assumptions/13.md). -/
def Obligations.HashSetkeyRules : Prop :=
  ∀ (s : State) (t : ThreadId) (k : Task) (h : Handle) (x : HashSession) (p : Word) (len : Nat),
    Claims.HostAt s t k → k.sub = none → s.hashSession h = some x →
    let left (r : Result) (s : State) := (s.updHash h fun y => { y with lock := none }).finish t r
    (k.job = .hashSetkey h p len .check → x.alg ≠ .ghash → step s = .refused .noSetkey) ∧
    (k.job = .hashSetkey h p len .check → x.alg = .ghash →
      step s = .next ((Claims.rest s).setTask t { k with job := .hashSetkey h p len .lock })) ∧
    (k.job = .hashSetkey h p len .body → len ≠ 16 → len ≠ 17 →
      step s = .next (left (.err .invalidParameter) (Claims.rest s))) ∧
    (k.job = .hashSetkey h p len .body → (len = 16 ∨ len = 17) → Reach s p.toNat 16 →
      Reach s (x.scratch.toNat + 384) 16 →
      step s = .next (left .ok ({ Claims.rest s with
        mem := Memory.writeBytes s.mem (x.scratch.toNat + 384) (Memory.readBytes s.mem p.toNat 16) }.updHash h fun y =>
          { y with keySet := true, digestLen := if len = 17 then 16 else y.digestLen })))

/-- 42_hash_fsm.md R263, R264: the snapshot an export returns and changes nothing but the lock; its import
into a session of the same algorithm writes the same state and pending bytes and sets the counts and the state
of the session; an algorithm mismatch changes nothing; a snapshot no export can produce is refused
(60_exceptions.md R360). The order of the import's checks and the body as one step are the model's
(notes/assumptions/20.md, 13.md). -/
def Obligations.ExportThenImport : Prop :=
  ∀ (s : State) (t : ThreadId) (k : Task) (h : Handle) (x : HashSession),
    Claims.HostAt s t k → k.sub = none → s.hashSession h = some x →
    let left (r : Result) (s : State) := (s.updHash h fun y => { y with lock := none }).finish t r
    (k.job = .hashSave h .body → Reach s x.scratch.toNat x.alg.stateLen → Reach s (x.scratch.toNat + 224) x.left →
      step s = .next (left (.okSnapshot ⟨x.alg, x.fsm, x.left, x.total,
        Memory.readBytes s.mem x.scratch.toNat x.alg.stateLen,
        Memory.readBytes s.mem (x.scratch.toNat + 224) x.left⟩) (Claims.rest s))) ∧
    ∀ snap : Snapshot, k.job = .hashRestore h snap .body →
      (snap.alg ≠ x.alg → step s = .next (left (.err .invalidParameter) (Claims.rest s))) ∧
      (snap.alg = x.alg →
        (¬Claims.Exportable snap → step s = .refused .badSnapshot) ∧
        (Claims.Exportable snap →
          (0 < x.ctx.outstanding → step s = .refused .staleDescriptors) ∧
          (x.ctx.outstanding = 0 → Memory.wf s.mem = true → Reach s x.scratch.toNat x.alg.stateLen →
            Reach s (x.scratch.toNat + 224) snap.left →
            ∃ u, step s = .next u ∧
              Memory.readBytes u.mem x.scratch.toNat x.alg.stateLen = snap.state ∧
              Memory.readBytes u.mem (x.scratch.toNat + 224) snap.left = snap.buf ∧
              u.hashSession h = some { x with
                lock := none
                left := snap.left
                total := snap.total
                fsm := snap.fsm
                ctx := { x.ctx with last := none, pendingNonIoc := false, status := 1 } })))

/-- 43_sg_walker.md R301, 20_memory.md R97: CIPHER_SETKEY takes the session lock when it is free and holds while
any thread has it. Under the lock it accepts 16, 24 and 32 bytes for AES and 32 for CHACHA20; the IV bookkeeping
is not changed; any other length is an error that changes nothing. The body as one step is the model's
granularity (notes/assumptions/13.md). -/
def Obligations.CipherSetkeyRules : Prop :=
  ∀ (s : State) (t : ThreadId) (k : Task) (h : Handle) (x : CipherSession) (p : Word) (len : Nat),
    Claims.HostAt s t k → k.sub = none → s.cipherSession h = some x →
    let left (r : Result) (s : State) := (s.updCipher h fun y => { y with lock := none }).finish t r
    let accepted := len = 32 ∨ (x.alg ≠ .chacha20 ∧ (len = 16 ∨ len = 24))
    (k.job = .cipherSetkey h p len .lock → x.lock = none →
      step s = .next (((Claims.rest s).updCipher h fun y => { y with lock := some t }).setTask t
        { k with job := .cipherSetkey h p len .body })) ∧
    (k.job = .cipherSetkey h p len .lock → ∀ o, x.lock = some o → step s = .next (Claims.rest s)) ∧
    (k.job = .cipherSetkey h p len .body → ¬accepted →
      step s = .next (left (.err .invalidParameter) (Claims.rest s))) ∧
    (k.job = .cipherSetkey h p len .body → accepted → Reach s p.toNat len → Reach s (x.workbuf.toNat + 80) len →
      step s = .next (left .ok ({ Claims.rest s with
        mem := Memory.writeBytes s.mem (x.workbuf.toNat + 80) (Memory.readBytes s.mem p.toNat len) }.updCipher h
          fun y => { y with keyLen := some len })))

/-- 43_sg_walker.md R304, R305, R306, R307, R317, R321, 20_memory.md R97: CRYPT takes the session lock when it is
free and holds while any thread has it; then its checks in their order. A request that passes them goes on to the
walk: for ECB with the first descriptor's IPTR 0 and nothing read or written; for CBC, CTR and CHACHA20 from the
stored IV, which the first call of a session copies from the request and a later one takes as it is, without
reading the request's. A CBC decryption has read the last block of its source list, the next IV, by then. The
body as one step is the model's granularity (notes/assumptions/13.md). -/
def Obligations.CryptChecks : Prop :=
  ∀ (s : State) (t : ThreadId) (k : Task) (h : Handle) (x : CipherSession) (req : Request),
    Claims.HostAt s t k → k.sub = none → s.cipherSession h = some x →
    (k.job = .crypt h req .lock →
      (x.lock = none → step s = .next (((Claims.rest s).updCipher h fun y => { y with lock := some t }).setTask t
        { k with job := .crypt h req .body })) ∧
      (∀ o, x.lock = some o → step s = .next (Claims.rest s))) ∧
    (k.job = .crypt h req .body →
      let cleared := (Claims.rest s).updCipher h fun y => { y with ctx := { y.ctx with status := 1 } }
      let left (r : Result) (s : State) := (s.updCipher h fun y => { y with lock := none }).finish t r
      let badLength := (x.alg = .ecb ∨ x.alg = .cbc) ∧ req.nbytes % 16 ≠ 0
      let short := (Claims.sgAddresses req.src).length < req.nbytes ∨ (Claims.sgAddresses req.dst).length < req.nbytes
      let startsAt (ip : Word) (c0 nextIv : Block) : Walk := ⟨0, 0, 0, 0, req.nbytes, ip, .noneExhausted, c0, nextIv⟩
      let passes := x.keyLen ≠ none ∧ x.ctx.outstanding = 0 ∧ ¬badLength ∧ ¬short
      let ivb := x.workbuf.toNat + 64
      let m := if x.ivLoaded then s.mem else Memory.writeBytes s.mem ivb (Memory.readBytes s.mem req.iv.toNat 16)
      (x.keyLen = none → step s = .refused .keyUnset) ∧
      (x.keyLen ≠ none → 0 < x.ctx.outstanding → step s = .refused .staleDescriptors) ∧
      (x.keyLen ≠ none → x.ctx.outstanding = 0 → badLength ∨ short →
        step s = .next (left (.err .invalidParameter) cleared)) ∧
      (passes → req.nbytes = 0 → step s = .next (left .ok cleared)) ∧
      (passes → 0 < req.nbytes → x.alg = .ecb →
        ∃ u c0 nextIv, step s = .next u ∧ u.mem = s.mem ∧
          u.cipherSession h = some { x with ctx := { x.ctx with status := 1 } } ∧
          (u.thread t).task = some { k with job := .crypt h req (.walkLock (startsAt 0 c0 nextIv)) }) ∧
      (passes → 0 < req.nbytes → x.alg ≠ .ecb → Reach s ivb 16 → (x.ivLoaded = false → Reach s req.iv.toNat 16) →
        ∀ last : Block,
        (x.alg = .cbc → req.decrypt = true →
          ∃ b, sgRead s.params m req.src (req.nbytes - 16) 16 = .ok b ∧ last = Claims.ofBytes 128 b) →
        ∃ u nextIv, step s = .next u ∧ u.mem = m ∧
          u.cipherSession h = some { x with ivLoaded := true, ctx := { x.ctx with status := 1 } } ∧
          (x.alg = .cbc → req.decrypt = true → nextIv = last) ∧
          (u.thread t).task = some { k with job := .crypt h req (.walkLock (startsAt (BitVec.ofNat 32 ivb)
            (Claims.ofBytes 128 (Memory.readBytes m ivb 16)) nextIv)) }))

/-- 43_sg_walker.md R302, R303: reading a segment list gives the bytes at its logical offsets; writing it
puts them there and changes no other byte, for a list that names no address twice. -/
def Obligations.SegmentListAccess : Prop :=
  ∀ (p : Params) (m : Memory) (l : List Seg) (o n : Nat), Memory.wf m = true →
    (∀ b, sgRead p m l o n = .ok b →
      b = (((Claims.sgAddresses l).drop o).take n).map (Memory.byte m)) ∧
    (∀ v m', sgWrite p l o v m = .ok m' → (Claims.sgAddresses l).Nodup →
      o + v.length ≤ (Claims.sgAddresses l).length →
      (((Claims.sgAddresses l).drop o).take v.length).map (Memory.byte m') = v ∧
      ∀ c, c ∉ ((Claims.sgAddresses l).drop o).take v.length → Memory.byte m' c = Memory.byte m c)

/-- 43_sg_walker.md R310 to R316, R319, R324: the steps of the walk. A run below a block is staged as one block
through SCRATCH with IOC; a longer one becomes a block multiple of at most MAXRUN (00_scope.md R13), with IOC
only when it is the last; the cursor state says which segments the run ended. A queued run advances both cursors;
a descriptor with IOC is waited for; a staged block is then scattered to the destination list and both cursors
advance by its useful bytes. Every descriptor after the first has IPTR 0. With nothing left the walk ends, and an
error of a QUEUE or an EXECUTE ends it. One pass up to its QUEUE as one step is the model's granularity
(notes/assumptions/13.md). -/
def Obligations.WalkPassQueues : Prop :=
  ∀ (s : State) (t : ThreadId) (k : Task) (h : Handle) (x : CipherSession) (req : Request) (w : Walk),
    Claims.HostAt s t k → k.sub = none → s.cipherSession h = some x →
    let goes (pc : CryptPc) : Step := .next ((Claims.rest s).setTask t ⟨.crypt h req pc, none, none⟩)
    (∀ a b : Seg, k.job = .crypt h req (.loop w) → 0 < w.left →
      let v := w.skip req
      req.src[v.si]? = some a → req.dst[v.di]? = some b → v.sOff < a.len → v.dOff < b.len →
      let bs := x.alg.blockSize
      let run := min (a.len - v.sOff) (min (b.len - v.dOff) w.left)
      let call (src dst len : Nat) (ioc : Bool) : QueueCall :=
        ⟨h, BitVec.ofNat 32 src, BitVec.ofNat 32 dst, w.ip, BitVec.ofNat 32 (x.workbuf.toNat + 80), len,
          ⟨.cipher x.alg, req.decrypt, keyszCode (x.keyLen.getD 0), false⟩, ioc⟩
      (x.workbuf.toNat + 80 < Config.dmaEnd → run < bs → ∀ data,
        sgRead s.params s.mem req.src (req.nbytes - w.left) (min bs w.left) = .ok data →
        Reach s x.workbuf.toNat data.length →
        ∃ u, step s = .next u ∧ u.mem = Memory.writeBytes s.mem x.workbuf.toNat data ∧
          (u.thread t).task = some ⟨.crypt h req (.queued v (.staged (min bs w.left))),
            some (.queue (call x.workbuf.toNat x.workbuf.toNat bs true) .enter), none⟩) ∧
      (x.workbuf.toNat + 80 < Config.dmaEnd → bs ≤ run → a.addr.toNat + v.sOff < Config.dmaEnd →
        b.addr.toNat + v.dOff < Config.dmaEnd →
        ∃ n u, step s = .next u ∧ u.mem = s.mem ∧ 0 < n ∧ n % bs = 0 ∧ n ≤ run ∧ n ≤ 65535 ∧
          (run < n + bs ∨ 65535 < n + bs) ∧
          (u.thread t).task = some ⟨.crypt h req (.queued { v with cursor :=
              if n = a.len - v.sOff ∧ n = b.len - v.dOff then .bothExhausted
              else if n = a.len - v.sOff then .srcExhausted
              else if n = b.len - v.dOff then .dstExhausted
              else .noneExhausted } (.direct n)),
            some (.queue (call (a.addr.toNat + v.sOff) (b.addr.toNat + v.dOff) n (decide (n = w.left))) .enter), none⟩)) ∧
    (k.job = .crypt h req (.loop w) → k.ret = none → w.left = 0 → step s = goes (.leave w none)) ∧
    (∀ slot n, k.job = .crypt h req (.queued w (.direct n)) →
      let v := { w with sOff := w.sOff + n, dOff := w.dOff + n, left := w.left - n }
      (k.ret = some (.queued slot true) → step s = .next ((Claims.rest s).setTask t
        ⟨.crypt h req (.waited v (.direct n)), some (.exec h .trigger), none⟩)) ∧
      (k.ret = some (.queued slot false) → step s = goes (.loop { v with ip := 0 }))) ∧
    (∀ slot g, k.job = .crypt h req (.queued w (.staged g)) → k.ret = some (.queued slot true) →
      step s = .next ((Claims.rest s).setTask t
        ⟨.crypt h req (.waited w (.staged g)), some (.exec h .trigger), none⟩)) ∧
    (∀ n, k.job = .crypt h req (.waited w (.direct n)) → k.ret = some .executed →
      step s = goes (.loop { w with ip := 0 })) ∧
    (∀ g m, k.job = .crypt h req (.waited w (.staged g)) → k.ret = some .executed → Reach s x.workbuf.toNat g →
      sgWrite s.params req.dst (req.nbytes - w.left) (Memory.readBytes s.mem x.workbuf.toNat g) s.mem = .ok m →
      ∃ u v, step s = .next u ∧ u.mem = m ∧ (u.thread t).task = some ⟨.crypt h req (.loop v), none, none⟩ ∧
        v.left = w.left - g ∧ v.ip = 0 ∧ v.c0 = w.c0 ∧ v.nextIv = w.nextIv ∧
        (Claims.InSeg req.src w.si w.sOff →
          Claims.sgPos req.src w.si w.sOff + g ≤ (Claims.sgAddresses req.src).length →
          Claims.InSeg req.src v.si v.sOff ∧
            Claims.sgPos req.src v.si v.sOff = Claims.sgPos req.src w.si w.sOff + g) ∧
        (Claims.InSeg req.dst w.di w.dOff →
          Claims.sgPos req.dst w.di w.dOff + g ≤ (Claims.sgAddresses req.dst).length →
          Claims.InSeg req.dst v.di v.dOff ∧
            Claims.sgPos req.dst v.di v.dOff = Claims.sgPos req.dst w.di w.dOff + g)) ∧
    (∀ (p : Piece) (e : Err), k.job = .crypt h req (.queued w p) ∨ k.job = .crypt h req (.waited w p) →
      k.ret = some (.failed e) → step s = goes (.leave w (some e)))

/-- 43_sg_walker.md R311, R320, R322, R323, R324: the walk starts by taking the mutex of the AES ring, holding while
any thread has it, and ends by giving it up. Then the request ends: after a walk without error the returned IV is
written to the stored IV and to the request's IV buffer, and the session lock is released; an error changes no IV
and is returned with the lock released; ECB writes none. The body as one step is the model's granularity
(notes/assumptions/13.md). -/
def Obligations.CryptReturnsIv : Prop :=
  ∀ (s : State) (t : ThreadId) (k : Task) (h : Handle) (x : CipherSession) (req : Request) (w : Walk) (e : Option Err),
    Claims.HostAt s t k → k.sub = none → s.cipherSession h = some x →
    let left (r : Result) (s : State) := (s.updCipher h fun y => { y with lock := none }).finish t r
    let mutex (o : Option ThreadId) : State := { Claims.rest s with aesRing := { s.aesRing with mutex := o } }
    (k.job = .crypt h req (.walkLock w) →
      (s.aesRing.mutex = none → step s = .next ((mutex (some t)).setTask t { k with job := .crypt h req (.loop w) })) ∧
      (∀ o, s.aesRing.mutex = some o → step s = .next (Claims.rest s))) ∧
    (k.job = .crypt h req (.leave w e) →
      step s = .next ((mutex none).setTask t { k with job := .crypt h req (.finish w e) })) ∧
    (k.job = .crypt h req (.finish w e) → ∀ r, e = some r → step s = .next (left (.err r) (Claims.rest s))) ∧
    (k.job = .crypt h req (.finish w e) → e = none → x.alg = .ecb → step s = .next (left .ok (Claims.rest s))) ∧
    (k.job = .crypt h req (.finish w e) → e = none → x.alg ≠ .ecb → Memory.wf s.mem = true → Reach s (x.workbuf.toNat + 64) 16 →
      Reach s req.iv.toNat 16 → ∀ tail : Block,
      (x.alg = .cbc → req.decrypt = false →
        ∃ d, sgRead s.params s.mem req.dst (req.nbytes - 16) 16 = .ok d ∧ tail = Claims.ofBytes 128 d) →
      let iv := Claims.toBytes 16 (Claims.ivOf x.alg req.decrypt s.params.ctrEndian req.nbytes w.c0 w.nextIv tail)
      ∃ u, step s = .next u ∧ Memory.readBytes u.mem req.iv.toNat 16 = iv ∧
        (Claims.Apart req.iv.toNat 16 (x.workbuf.toNat + 64) 16 →
          Memory.readBytes u.mem (x.workbuf.toNat + 64) 16 = iv) ∧
        (∀ c, ¬Claims.In c req.iv.toNat 16 → ¬Claims.In c (x.workbuf.toNat + 64) 16 →
          Memory.byte u.mem c = Memory.byte s.mem c) ∧
        (u.thread t).task = none ∧ (u.thread t).result = some .ok ∧
        u.cipherSession h = some { x with lock := none })

/-- 42_hash_fsm.md R250, R268, 43_sg_walker.md R300, R325: what a new session holds, under a caller-chosen
identity not in use (notes/assumptions/11.md), and when a session may be destroyed: with descriptors
outstanding, an operation of a hash session or a crypt call of a cipher session in progress it is refused; else
it is gone and nothing else changed. What counts as in progress is the model's reading
(notes/assumptions/30.md), and each of the four as one step its granularity (notes/assumptions/13.md). -/
def Obligations.SessionLifecycle : Prop :=
  ∀ (s : State) (t : ThreadId) (k : Task) (h : Handle), Claims.HostAt s t k → k.sub = none →
    let ctx (r : EngineId) (m : Option Mode) : Ctx :=
      { ring := r, mode := m, done := true, status := 1, last := none, pendingNonIoc := false, outstanding := 0,
        waiter := none }
    let unused := ∀ x ∈ s.threads, x.id ≠ t → ∀ j, x.task = some j → j.job.session ≠ some h
    let noCrypt := ∀ x ∈ s.threads, x.id ≠ t → ∀ j, x.task = some j → ∀ req pc, j.job ≠ .crypt h req pc
    (∀ a p, k.job = .hashCreate h a p → s.ctx h = none → p &&& 0x1F = 0 →
      step s = .next ({ Claims.rest s with
        hashSessions := s.hashSessions ++
          [(⟨h, a, a.digestLen, .uninitialized, 0, 0, false, none, p,
            ctx .hash (some ⟨.hash a, false, 0, false⟩)⟩ : HashSession)] }.finish
        t .ok)) ∧
    (∀ a p, k.job = .cipherCreate h a p → s.ctx h = none → p &&& 0x1F = 0 →
      step s = .next ({ Claims.rest s with
        cipherSessions := s.cipherSessions ++ [(⟨h, a, none, false, none, p, ctx .aes none⟩ : CipherSession)] }.finish t .ok)) ∧
    (∀ x, k.job = .hashDestroy h → s.hashSession h = some x →
      (0 < x.ctx.outstanding ∨ x.lock ≠ none ∨ ¬unused → step s = .refused .staleDescriptors) ∧
      (x.ctx.outstanding = 0 → x.lock = none → unused →
        step s = .next ({ Claims.rest s with
          hashSessions := s.hashSessions.filter fun y => decide (y.handle ≠ h) }.finish t .ok))) ∧
    (∀ x, k.job = .cipherDestroy h → s.cipherSession h = some x →
      (0 < x.ctx.outstanding ∨ ¬noCrypt → step s = .refused .staleDescriptors) ∧
      (x.ctx.outstanding = 0 → noCrypt →
        step s = .next ({ Claims.rest s with
          cipherSessions := s.cipherSessions.filter fun y => decide (y.handle ≠ h) }.finish t .ok)))

/-- 42_hash_fsm.md R257: the stages of HASH_FINAL under the session lock: the padding is written behind the
buffered bytes and queued as the final descriptor, or as a zero-length queue when there is none; then it is
executed; then the session is Done, the lock free and the first bytes of STATE are the digest. The body as one
step is the model's granularity (notes/assumptions/13.md). -/
def Obligations.HashFinalStages : Prop :=
  ∀ (s : State) (t : ThreadId) (k : Task) (h : Handle) (x : HashSession),
    Claims.HostAt s t k → k.sub = none → s.hashSession h = some x →
    let buf := x.scratch.toNat + 224
    let n := padLen x.alg x.left
    let final : Mode := ⟨.hash x.alg, false, 0, true⟩
    let queue (q : QueueCall) : Task := ⟨.hashFinal h .queued, some (.queue q .enter), none⟩
    (k.job = .hashFinal h .pad → (x.alg = .ghash → 0 < n → x.scratch.toNat + 384 < Config.dmaEnd) →
      Reach s (buf + x.left) (padBytes x.alg x.left x.total).length →
      ∃ u, step s = .next u ∧
        u.mem = Memory.writeBytes s.mem (buf + x.left) (padBytes x.alg x.left x.total) ∧
        (n = 0 → (u.thread t).task = some (queue ⟨h, 0, 0, 0, 0, 0, final, true⟩)) ∧
        (0 < n → (u.thread t).task = some (queue ⟨h, BitVec.ofNat 32 buf, x.scratch, x.scratch,
          if x.alg = .ghash then BitVec.ofNat 32 (x.scratch.toNat + 384) else 0, n, final, true⟩))) ∧
    (∀ slot ioc, k.job = .hashFinal h .queued → (k.ret = some (.queued slot ioc) ∨ k.ret = some .updated) →
      step s = .next ((Claims.rest s).setTask t ⟨.hashFinal h .waited, some (.exec h .trigger), none⟩)) ∧
    (k.job = .hashFinal h .waited → k.ret = some .executed → Reach s x.scratch.toNat x.digestLen →
      step s = .next ((((Claims.rest s).updHash h fun y => { y with fsm := .done }).updHash h fun y =>
        { y with lock := none }).finish t (.okBytes (Memory.readBytes s.mem x.scratch.toNat x.digestLen))))
end

