-- ==== Sys2Proof/Laws/State.lean ====
section
/-! SUPPORT. One lemma per field per update of the state, so that no proof unfolds a record update. -/

namespace Sys2Proof.Machine

namespace State

@[simp] theorem params_setMem (s : State) (m : Memory) : (s.setMem m).params = s.params := rfl
@[simp] theorem aes_setMem (s : State) (m : Memory) : (s.setMem m).aes = s.aes := rfl
@[simp] theorem hash_setMem (s : State) (m : Memory) : (s.setMem m).hash = s.hash := rfl
@[simp] theorem chain_setMem (s : State) (m : Memory) : (s.setMem m).chain = s.chain := rfl
@[simp] theorem chainValid_setMem (s : State) (m : Memory) : (s.setMem m).chainValid = s.chainValid := rfl
@[simp] theorem intEn_setMem (s : State) (m : Memory) : (s.setMem m).intEn = s.intEn := rfl
@[simp] theorem intFlag_setMem (s : State) (m : Memory) : (s.setMem m).intFlag = s.intFlag := rfl
@[simp] theorem aesRing_setMem (s : State) (m : Memory) : (s.setMem m).aesRing = s.aesRing := rfl
@[simp] theorem hashRing_setMem (s : State) (m : Memory) : (s.setMem m).hashRing = s.hashRing := rfl
@[simp] theorem dispatcher_setMem (s : State) (m : Memory) : (s.setMem m).dispatcher = s.dispatcher := rfl
@[simp] theorem hashSessions_setMem (s : State) (m : Memory) : (s.setMem m).hashSessions = s.hashSessions := rfl
@[simp] theorem cipherSessions_setMem (s : State) (m : Memory) : (s.setMem m).cipherSessions = s.cipherSessions := rfl
@[simp] theorem threads_setMem (s : State) (m : Memory) : (s.setMem m).threads = s.threads := rfl
@[simp] theorem cur_setMem (s : State) (m : Memory) : (s.setMem m).cur = s.cur := rfl
@[simp] theorem inputs_setMem (s : State) (m : Memory) : (s.setMem m).inputs = s.inputs := rfl
@[simp] theorem draws_setMem (s : State) (m : Memory) : (s.setMem m).draws = s.draws := rfl

@[simp] theorem mem_setMem (s : State) (m : Memory) : (s.setMem m).mem = m := rfl

@[simp] theorem params_setEngine (s : State) (e : EngineId) (x : Engine) : (s.setEngine e x).params = s.params := by cases e <;> rfl
@[simp] theorem mem_setEngine (s : State) (e : EngineId) (x : Engine) : (s.setEngine e x).mem = s.mem := by cases e <;> rfl
@[simp] theorem chain_setEngine (s : State) (e : EngineId) (x : Engine) : (s.setEngine e x).chain = s.chain := by cases e <;> rfl
@[simp] theorem chainValid_setEngine (s : State) (e : EngineId) (x : Engine) : (s.setEngine e x).chainValid = s.chainValid := by cases e <;> rfl
@[simp] theorem intEn_setEngine (s : State) (e : EngineId) (x : Engine) : (s.setEngine e x).intEn = s.intEn := by cases e <;> rfl
@[simp] theorem intFlag_setEngine (s : State) (e : EngineId) (x : Engine) : (s.setEngine e x).intFlag = s.intFlag := by cases e <;> rfl
@[simp] theorem aesRing_setEngine (s : State) (e : EngineId) (x : Engine) : (s.setEngine e x).aesRing = s.aesRing := by cases e <;> rfl
@[simp] theorem hashRing_setEngine (s : State) (e : EngineId) (x : Engine) : (s.setEngine e x).hashRing = s.hashRing := by cases e <;> rfl
@[simp] theorem dispatcher_setEngine (s : State) (e : EngineId) (x : Engine) : (s.setEngine e x).dispatcher = s.dispatcher := by cases e <;> rfl
@[simp] theorem hashSessions_setEngine (s : State) (e : EngineId) (x : Engine) : (s.setEngine e x).hashSessions = s.hashSessions := by cases e <;> rfl
@[simp] theorem cipherSessions_setEngine (s : State) (e : EngineId) (x : Engine) : (s.setEngine e x).cipherSessions = s.cipherSessions := by cases e <;> rfl
@[simp] theorem threads_setEngine (s : State) (e : EngineId) (x : Engine) : (s.setEngine e x).threads = s.threads := by cases e <;> rfl
@[simp] theorem cur_setEngine (s : State) (e : EngineId) (x : Engine) : (s.setEngine e x).cur = s.cur := by cases e <;> rfl
@[simp] theorem inputs_setEngine (s : State) (e : EngineId) (x : Engine) : (s.setEngine e x).inputs = s.inputs := by cases e <;> rfl
@[simp] theorem draws_setEngine (s : State) (e : EngineId) (x : Engine) : (s.setEngine e x).draws = s.draws := by cases e <;> rfl

@[simp] theorem engine_setEngine_same (s : State) (e : EngineId) (x : Engine) : (s.setEngine e x).engine e = x := by
  cases e <;> rfl

theorem engine_setEngine (s : State) (e f : EngineId) (x : Engine) :
    (s.setEngine e x).engine f = if f = e then x else s.engine f := by
  cases e <;> cases f <;> rfl

@[simp] theorem ring_setEngine (s : State) (e r : EngineId) (x : Engine) : (s.setEngine e x).ring r = s.ring r := by
  cases e <;> cases r <;> rfl

theorem aes_setEngine (s : State) (e : EngineId) (x : Engine) :
    (s.setEngine e x).aes = if e = .aes then x else s.aes := by cases e <;> rfl

theorem hash_setEngine (s : State) (e : EngineId) (x : Engine) :
    (s.setEngine e x).hash = if e = .hash then x else s.hash := by cases e <;> rfl

@[simp] theorem params_setRing (s : State) (r : EngineId) (x : Ring) : (s.setRing r x).params = s.params := by cases r <;> rfl
@[simp] theorem mem_setRing (s : State) (r : EngineId) (x : Ring) : (s.setRing r x).mem = s.mem := by cases r <;> rfl
@[simp] theorem aes_setRing (s : State) (r : EngineId) (x : Ring) : (s.setRing r x).aes = s.aes := by cases r <;> rfl
@[simp] theorem hash_setRing (s : State) (r : EngineId) (x : Ring) : (s.setRing r x).hash = s.hash := by cases r <;> rfl
@[simp] theorem chain_setRing (s : State) (r : EngineId) (x : Ring) : (s.setRing r x).chain = s.chain := by cases r <;> rfl
@[simp] theorem chainValid_setRing (s : State) (r : EngineId) (x : Ring) : (s.setRing r x).chainValid = s.chainValid := by cases r <;> rfl
@[simp] theorem intEn_setRing (s : State) (r : EngineId) (x : Ring) : (s.setRing r x).intEn = s.intEn := by cases r <;> rfl
@[simp] theorem intFlag_setRing (s : State) (r : EngineId) (x : Ring) : (s.setRing r x).intFlag = s.intFlag := by cases r <;> rfl
@[simp] theorem dispatcher_setRing (s : State) (r : EngineId) (x : Ring) : (s.setRing r x).dispatcher = s.dispatcher := by cases r <;> rfl
@[simp] theorem hashSessions_setRing (s : State) (r : EngineId) (x : Ring) : (s.setRing r x).hashSessions = s.hashSessions := by cases r <;> rfl
@[simp] theorem cipherSessions_setRing (s : State) (r : EngineId) (x : Ring) : (s.setRing r x).cipherSessions = s.cipherSessions := by cases r <;> rfl
@[simp] theorem threads_setRing (s : State) (r : EngineId) (x : Ring) : (s.setRing r x).threads = s.threads := by cases r <;> rfl
@[simp] theorem cur_setRing (s : State) (r : EngineId) (x : Ring) : (s.setRing r x).cur = s.cur := by cases r <;> rfl
@[simp] theorem inputs_setRing (s : State) (r : EngineId) (x : Ring) : (s.setRing r x).inputs = s.inputs := by cases r <;> rfl
@[simp] theorem draws_setRing (s : State) (r : EngineId) (x : Ring) : (s.setRing r x).draws = s.draws := by cases r <;> rfl

@[simp] theorem ring_setRing_same (s : State) (r : EngineId) (x : Ring) : (s.setRing r x).ring r = x := by
  cases r <;> rfl

theorem ring_setRing (s : State) (r q : EngineId) (x : Ring) :
    (s.setRing r x).ring q = if q = r then x else s.ring q := by
  cases r <;> cases q <;> rfl

@[simp] theorem engine_setRing (s : State) (r e : EngineId) (x : Ring) : (s.setRing r x).engine e = s.engine e := by
  cases e <;> cases r <;> rfl

theorem aesRing_setRing (s : State) (r : EngineId) (x : Ring) :
    (s.setRing r x).aesRing = if r = .aes then x else s.aesRing := by cases r <;> rfl

theorem hashRing_setRing (s : State) (r : EngineId) (x : Ring) :
    (s.setRing r x).hashRing = if r = .hash then x else s.hashRing := by cases r <;> rfl

@[simp] theorem engine_setMem (s : State) (m : Memory) (e : EngineId) : (s.setMem m).engine e = s.engine e := by
  cases e <;> rfl

@[simp] theorem ring_setMem (s : State) (m : Memory) (r : EngineId) : (s.setMem m).ring r = s.ring r := by
  cases r <;> rfl

@[simp] theorem params_setThread (s : State) (x : Thread) : (s.setThread x).params = s.params := rfl
@[simp] theorem mem_setThread (s : State) (x : Thread) : (s.setThread x).mem = s.mem := rfl
@[simp] theorem aes_setThread (s : State) (x : Thread) : (s.setThread x).aes = s.aes := rfl
@[simp] theorem hash_setThread (s : State) (x : Thread) : (s.setThread x).hash = s.hash := rfl
@[simp] theorem chain_setThread (s : State) (x : Thread) : (s.setThread x).chain = s.chain := rfl
@[simp] theorem chainValid_setThread (s : State) (x : Thread) : (s.setThread x).chainValid = s.chainValid := rfl
@[simp] theorem intEn_setThread (s : State) (x : Thread) : (s.setThread x).intEn = s.intEn := rfl
@[simp] theorem intFlag_setThread (s : State) (x : Thread) : (s.setThread x).intFlag = s.intFlag := rfl
@[simp] theorem aesRing_setThread (s : State) (x : Thread) : (s.setThread x).aesRing = s.aesRing := rfl
@[simp] theorem hashRing_setThread (s : State) (x : Thread) : (s.setThread x).hashRing = s.hashRing := rfl
@[simp] theorem dispatcher_setThread (s : State) (x : Thread) : (s.setThread x).dispatcher = s.dispatcher := rfl
@[simp] theorem hashSessions_setThread (s : State) (x : Thread) : (s.setThread x).hashSessions = s.hashSessions := rfl
@[simp] theorem cipherSessions_setThread (s : State) (x : Thread) : (s.setThread x).cipherSessions = s.cipherSessions := rfl
@[simp] theorem cur_setThread (s : State) (x : Thread) : (s.setThread x).cur = s.cur := rfl
@[simp] theorem inputs_setThread (s : State) (x : Thread) : (s.setThread x).inputs = s.inputs := rfl
@[simp] theorem draws_setThread (s : State) (x : Thread) : (s.setThread x).draws = s.draws := rfl

@[simp] theorem params_updHash (s : State) (h : Handle) (f : HashSession → HashSession) : (s.updHash h f).params = s.params := rfl
@[simp] theorem mem_updHash (s : State) (h : Handle) (f : HashSession → HashSession) : (s.updHash h f).mem = s.mem := rfl
@[simp] theorem aes_updHash (s : State) (h : Handle) (f : HashSession → HashSession) : (s.updHash h f).aes = s.aes := rfl
@[simp] theorem hash_updHash (s : State) (h : Handle) (f : HashSession → HashSession) : (s.updHash h f).hash = s.hash := rfl
@[simp] theorem chain_updHash (s : State) (h : Handle) (f : HashSession → HashSession) : (s.updHash h f).chain = s.chain := rfl
@[simp] theorem chainValid_updHash (s : State) (h : Handle) (f : HashSession → HashSession) : (s.updHash h f).chainValid = s.chainValid := rfl
@[simp] theorem intEn_updHash (s : State) (h : Handle) (f : HashSession → HashSession) : (s.updHash h f).intEn = s.intEn := rfl
@[simp] theorem intFlag_updHash (s : State) (h : Handle) (f : HashSession → HashSession) : (s.updHash h f).intFlag = s.intFlag := rfl
@[simp] theorem aesRing_updHash (s : State) (h : Handle) (f : HashSession → HashSession) : (s.updHash h f).aesRing = s.aesRing := rfl
@[simp] theorem hashRing_updHash (s : State) (h : Handle) (f : HashSession → HashSession) : (s.updHash h f).hashRing = s.hashRing := rfl
@[simp] theorem dispatcher_updHash (s : State) (h : Handle) (f : HashSession → HashSession) : (s.updHash h f).dispatcher = s.dispatcher := rfl
@[simp] theorem cipherSessions_updHash (s : State) (h : Handle) (f : HashSession → HashSession) : (s.updHash h f).cipherSessions = s.cipherSessions := rfl
@[simp] theorem threads_updHash (s : State) (h : Handle) (f : HashSession → HashSession) : (s.updHash h f).threads = s.threads := rfl
@[simp] theorem cur_updHash (s : State) (h : Handle) (f : HashSession → HashSession) : (s.updHash h f).cur = s.cur := rfl
@[simp] theorem inputs_updHash (s : State) (h : Handle) (f : HashSession → HashSession) : (s.updHash h f).inputs = s.inputs := rfl
@[simp] theorem draws_updHash (s : State) (h : Handle) (f : HashSession → HashSession) : (s.updHash h f).draws = s.draws := rfl

@[simp] theorem params_updCipher (s : State) (h : Handle) (f : CipherSession → CipherSession) : (s.updCipher h f).params = s.params := rfl
@[simp] theorem mem_updCipher (s : State) (h : Handle) (f : CipherSession → CipherSession) : (s.updCipher h f).mem = s.mem := rfl
@[simp] theorem aes_updCipher (s : State) (h : Handle) (f : CipherSession → CipherSession) : (s.updCipher h f).aes = s.aes := rfl
@[simp] theorem hash_updCipher (s : State) (h : Handle) (f : CipherSession → CipherSession) : (s.updCipher h f).hash = s.hash := rfl
@[simp] theorem chain_updCipher (s : State) (h : Handle) (f : CipherSession → CipherSession) : (s.updCipher h f).chain = s.chain := rfl
@[simp] theorem chainValid_updCipher (s : State) (h : Handle) (f : CipherSession → CipherSession) : (s.updCipher h f).chainValid = s.chainValid := rfl
@[simp] theorem intEn_updCipher (s : State) (h : Handle) (f : CipherSession → CipherSession) : (s.updCipher h f).intEn = s.intEn := rfl
@[simp] theorem intFlag_updCipher (s : State) (h : Handle) (f : CipherSession → CipherSession) : (s.updCipher h f).intFlag = s.intFlag := rfl
@[simp] theorem aesRing_updCipher (s : State) (h : Handle) (f : CipherSession → CipherSession) : (s.updCipher h f).aesRing = s.aesRing := rfl
@[simp] theorem hashRing_updCipher (s : State) (h : Handle) (f : CipherSession → CipherSession) : (s.updCipher h f).hashRing = s.hashRing := rfl
@[simp] theorem dispatcher_updCipher (s : State) (h : Handle) (f : CipherSession → CipherSession) : (s.updCipher h f).dispatcher = s.dispatcher := rfl
@[simp] theorem hashSessions_updCipher (s : State) (h : Handle) (f : CipherSession → CipherSession) : (s.updCipher h f).hashSessions = s.hashSessions := rfl
@[simp] theorem threads_updCipher (s : State) (h : Handle) (f : CipherSession → CipherSession) : (s.updCipher h f).threads = s.threads := rfl
@[simp] theorem cur_updCipher (s : State) (h : Handle) (f : CipherSession → CipherSession) : (s.updCipher h f).cur = s.cur := rfl
@[simp] theorem inputs_updCipher (s : State) (h : Handle) (f : CipherSession → CipherSession) : (s.updCipher h f).inputs = s.inputs := rfl
@[simp] theorem draws_updCipher (s : State) (h : Handle) (f : CipherSession → CipherSession) : (s.updCipher h f).draws = s.draws := rfl

@[simp] theorem params_updCtx (s : State) (h : Handle) (f : Ctx → Ctx) : (s.updCtx h f).params = s.params := rfl
@[simp] theorem mem_updCtx (s : State) (h : Handle) (f : Ctx → Ctx) : (s.updCtx h f).mem = s.mem := rfl
@[simp] theorem aes_updCtx (s : State) (h : Handle) (f : Ctx → Ctx) : (s.updCtx h f).aes = s.aes := rfl
@[simp] theorem hash_updCtx (s : State) (h : Handle) (f : Ctx → Ctx) : (s.updCtx h f).hash = s.hash := rfl
@[simp] theorem chain_updCtx (s : State) (h : Handle) (f : Ctx → Ctx) : (s.updCtx h f).chain = s.chain := rfl
@[simp] theorem chainValid_updCtx (s : State) (h : Handle) (f : Ctx → Ctx) : (s.updCtx h f).chainValid = s.chainValid := rfl
@[simp] theorem intEn_updCtx (s : State) (h : Handle) (f : Ctx → Ctx) : (s.updCtx h f).intEn = s.intEn := rfl
@[simp] theorem intFlag_updCtx (s : State) (h : Handle) (f : Ctx → Ctx) : (s.updCtx h f).intFlag = s.intFlag := rfl
@[simp] theorem aesRing_updCtx (s : State) (h : Handle) (f : Ctx → Ctx) : (s.updCtx h f).aesRing = s.aesRing := rfl
@[simp] theorem hashRing_updCtx (s : State) (h : Handle) (f : Ctx → Ctx) : (s.updCtx h f).hashRing = s.hashRing := rfl
@[simp] theorem dispatcher_updCtx (s : State) (h : Handle) (f : Ctx → Ctx) : (s.updCtx h f).dispatcher = s.dispatcher := rfl
@[simp] theorem threads_updCtx (s : State) (h : Handle) (f : Ctx → Ctx) : (s.updCtx h f).threads = s.threads := rfl
@[simp] theorem cur_updCtx (s : State) (h : Handle) (f : Ctx → Ctx) : (s.updCtx h f).cur = s.cur := rfl
@[simp] theorem inputs_updCtx (s : State) (h : Handle) (f : Ctx → Ctx) : (s.updCtx h f).inputs = s.inputs := rfl
@[simp] theorem draws_updCtx (s : State) (h : Handle) (f : Ctx → Ctx) : (s.updCtx h f).draws = s.draws := rfl

@[simp] theorem params_updRingCtxs (s : State) (r : EngineId) (f : Ctx → Ctx) : (s.updRingCtxs r f).params = s.params := rfl
@[simp] theorem mem_updRingCtxs (s : State) (r : EngineId) (f : Ctx → Ctx) : (s.updRingCtxs r f).mem = s.mem := rfl
@[simp] theorem aes_updRingCtxs (s : State) (r : EngineId) (f : Ctx → Ctx) : (s.updRingCtxs r f).aes = s.aes := rfl
@[simp] theorem hash_updRingCtxs (s : State) (r : EngineId) (f : Ctx → Ctx) : (s.updRingCtxs r f).hash = s.hash := rfl
@[simp] theorem chain_updRingCtxs (s : State) (r : EngineId) (f : Ctx → Ctx) : (s.updRingCtxs r f).chain = s.chain := rfl
@[simp] theorem chainValid_updRingCtxs (s : State) (r : EngineId) (f : Ctx → Ctx) : (s.updRingCtxs r f).chainValid = s.chainValid := rfl
@[simp] theorem intEn_updRingCtxs (s : State) (r : EngineId) (f : Ctx → Ctx) : (s.updRingCtxs r f).intEn = s.intEn := rfl
@[simp] theorem intFlag_updRingCtxs (s : State) (r : EngineId) (f : Ctx → Ctx) : (s.updRingCtxs r f).intFlag = s.intFlag := rfl
@[simp] theorem aesRing_updRingCtxs (s : State) (r : EngineId) (f : Ctx → Ctx) : (s.updRingCtxs r f).aesRing = s.aesRing := rfl
@[simp] theorem hashRing_updRingCtxs (s : State) (r : EngineId) (f : Ctx → Ctx) : (s.updRingCtxs r f).hashRing = s.hashRing := rfl
@[simp] theorem dispatcher_updRingCtxs (s : State) (r : EngineId) (f : Ctx → Ctx) : (s.updRingCtxs r f).dispatcher = s.dispatcher := rfl
@[simp] theorem threads_updRingCtxs (s : State) (r : EngineId) (f : Ctx → Ctx) : (s.updRingCtxs r f).threads = s.threads := rfl
@[simp] theorem cur_updRingCtxs (s : State) (r : EngineId) (f : Ctx → Ctx) : (s.updRingCtxs r f).cur = s.cur := rfl
@[simp] theorem inputs_updRingCtxs (s : State) (r : EngineId) (f : Ctx → Ctx) : (s.updRingCtxs r f).inputs = s.inputs := rfl
@[simp] theorem draws_updRingCtxs (s : State) (r : EngineId) (f : Ctx → Ctx) : (s.updRingCtxs r f).draws = s.draws := rfl

@[simp] theorem engine_setThread (s : State) (x : Thread) (e : EngineId) : (s.setThread x).engine e = s.engine e := by
  cases e <;> rfl

@[simp] theorem ring_setThread (s : State) (x : Thread) (q : EngineId) : (s.setThread x).ring q = s.ring q := by
  cases q <;> rfl

@[simp] theorem engine_updHash (s : State) (h : Handle) (f : HashSession → HashSession) (e : EngineId) : (s.updHash h f).engine e = s.engine e := by
  cases e <;> rfl

@[simp] theorem ring_updHash (s : State) (h : Handle) (f : HashSession → HashSession) (q : EngineId) : (s.updHash h f).ring q = s.ring q := by
  cases q <;> rfl

@[simp] theorem engine_updCipher (s : State) (h : Handle) (f : CipherSession → CipherSession) (e : EngineId) : (s.updCipher h f).engine e = s.engine e := by
  cases e <;> rfl

@[simp] theorem ring_updCipher (s : State) (h : Handle) (f : CipherSession → CipherSession) (q : EngineId) : (s.updCipher h f).ring q = s.ring q := by
  cases q <;> rfl

@[simp] theorem engine_updCtx (s : State) (h : Handle) (f : Ctx → Ctx) (e : EngineId) : (s.updCtx h f).engine e = s.engine e := by
  cases e <;> rfl

@[simp] theorem ring_updCtx (s : State) (h : Handle) (f : Ctx → Ctx) (q : EngineId) : (s.updCtx h f).ring q = s.ring q := by
  cases q <;> rfl

@[simp] theorem engine_updRingCtxs (s : State) (r : EngineId) (f : Ctx → Ctx) (e : EngineId) : (s.updRingCtxs r f).engine e = s.engine e := by
  cases e <;> rfl

@[simp] theorem ring_updRingCtxs (s : State) (r : EngineId) (f : Ctx → Ctx) (q : EngineId) : (s.updRingCtxs r f).ring q = s.ring q := by
  cases q <;> rfl

theorem setTask_eq (s : State) (t : ThreadId) (k : Task) :
    s.setTask t k = s.setThread { s.thread t with task := some k } := rfl

theorem finish_eq (s : State) (t : ThreadId) (r : Result) :
    s.finish t r = s.setThread { s.thread t with task := none, result := some r } := rfl

theorem stickThread_eq (s : State) (t : ThreadId) :
    s.stickThread t = s.setThread { s.thread t with stuck := true } := rfl

theorem stickEngine_eq (s : State) (e : EngineId) :
    s.stickEngine e = s.setEngine e { s.engine e with stuck := true } := rfl

theorem goSub_eq (s : State) (t : ThreadId) (k : Task) (x : Sub) :
    s.goSub t k x = s.setTask t { k with sub := some x, ret := none } := rfl

theorem retSub_eq (s : State) (t : ThreadId) (k : Task) (r : SubRet) :
    s.retSub t k r = s.setTask t { k with sub := none, ret := some r } := rfl

theorem leaveHash_eq (s : State) (t : ThreadId) (h : Handle) (r : Result) :
    leaveHash t h r s = (s.updHash h fun y => { y with lock := none }).finish t r := rfl

theorem leaveCipher_eq (s : State) (t : ThreadId) (h : Handle) (r : Result) :
    leaveCipher t h r s = (s.updCipher h fun y => { y with lock := none }).finish t r := rfl

end State

/-- The thread last put in the list is the one found under its number. -/
theorem find_putThread_same (l : List Thread) (x : Thread) :
    (putThread l x).find? (fun y => y.id == x.id) = some x := by
  induction l with
  | nil => simp [putThread]
  | cons y ys ih =>
    by_cases h : y.id = x.id
    · simp [putThread, h]
    · simp [putThread, h, ih]

/-- Putting a thread in the list leaves the others as they were. -/
theorem find_putThread_other (l : List Thread) (x : Thread) (t : ThreadId) (h : t ≠ x.id) :
    (putThread l x).find? (fun y => y.id == t) = l.find? (fun y => y.id == t) := by
  induction l with
  | nil => simp [putThread, Ne.symm h]
  | cons y ys ih =>
    by_cases hy : y.id = x.id
    · simp [putThread, hy, Ne.symm h]
    · simp only [putThread, hy, if_false, List.find?_cons, ih]

@[simp] theorem State.thread_setThread_same (s : State) (x : Thread) : (s.setThread x).thread x.id = x := by
  simp [State.thread, State.setThread, find_putThread_same]

theorem State.thread_setThread_other (s : State) (x : Thread) (t : ThreadId) (h : t ≠ x.id) :
    (s.setThread x).thread t = s.thread t := by
  simp [State.thread, State.setThread, find_putThread_other _ _ _ h]

/-- The thread found under a number carries that number. -/
@[simp] theorem State.thread_id (s : State) (t : ThreadId) : (s.thread t).id = t := by
  unfold State.thread
  cases h : s.threads.find? fun x => x.id == t with
  | none => rfl
  | some x => simpa using List.find?_some h

@[simp] theorem State.thread_setTask (s : State) (t : ThreadId) (k : Task) :
    (s.setTask t k).thread t = { s.thread t with task := some k } := by
  have h := State.thread_setThread_same s { s.thread t with task := some k }
  simpa [State.setTask] using h

@[simp] theorem State.thread_finish (s : State) (t : ThreadId) (r : Result) :
    (s.finish t r).thread t = { s.thread t with task := none, result := some r } := by
  have h := State.thread_setThread_same s { s.thread t with task := none, result := some r }
  simpa [State.finish] using h

end Sys2Proof.Machine
end

