-- ==== Sys2Proof/Laws/Memory.lean ====
section
/-! SUPPORT. The laws of DMA memory: a read after a write, a read elsewhere, and the canonical form, which
every memory operation keeps (20_memory.md R83, R84, R91). -/

namespace Sys2Proof.Machine

namespace Memory

@[simp] theorem byte_nil (a : Nat) : byte [] a = memDefault := rfl

@[simp] theorem readBytes_zero (m : Memory) (a : Nat) : readBytes m a 0 = [] := rfl

theorem readBytes_succ (m : Memory) (a n : Nat) :
    readBytes m a (n + 1) = byte m a :: readBytes m (a + 1) n := rfl

@[simp] theorem writeBytes_nil (m : Memory) (a : Nat) : writeBytes m a [] = m := rfl

theorem writeBytes_cons (m : Memory) (a : Nat) (b : Byte) (v : List Byte) :
    writeBytes m a (b :: v) = writeBytes (set m a b) (a + 1) v := rfl

@[simp] theorem readBytes_length (m : Memory) (a n : Nat) : (readBytes m a n).length = n := by
  induction n generalizing a with
  | zero => rfl
  | succ n ih => simp [readBytes_succ, ih]

/-- Byte `i` of a range is the byte at its address. -/
theorem readBytes_getElem (m : Memory) (a n i : Nat) (h : i < (readBytes m a n).length) :
    (readBytes m a n)[i] = byte m (a + i) := by
  induction n generalizing a i with
  | zero => simp at h
  | succ n ih =>
    cases i with
    | zero => simp [readBytes_succ]
    | succ i =>
      simp only [readBytes_succ, List.getElem_cons_succ]
      rw [ih (a + 1) i (by simp [readBytes_succ] at h ⊢; omega)]
      congr 1; omega

/-- A range is its first part and the rest. -/
theorem readBytes_add (m : Memory) (a i j : Nat) :
    readBytes m a (i + j) = readBytes m a i ++ readBytes m (a + i) j := by
  induction i generalizing a with
  | zero => simp
  | succ i ih =>
    rw [show i + 1 + j = (i + j) + 1 by omega, readBytes_succ, readBytes_succ, ih]
    simp [show a + 1 + i = a + (i + 1) by omega]

/-- Two memories that agree on a range read the same there. -/
theorem readBytes_congr (m m' : Memory) (a n : Nat) (h : ∀ c, a ≤ c → c < a + n → byte m c = byte m' c) :
    readBytes m a n = readBytes m' a n := by
  induction n generalizing a with
  | zero => rfl
  | succ n ih =>
    rw [readBytes_succ, readBytes_succ, h a (by omega) (by omega),
      ih (a + 1) fun c hc hc' => h c (by omega) (by omega)]

/-- A write of two parts is the write of one and then of the other. -/
theorem writeBytes_append (m : Memory) (a : Nat) (v w : List Byte) :
    writeBytes m a (v ++ w) = writeBytes (writeBytes m a v) (a + v.length) w := by
  induction v generalizing m a with
  | nil => simp
  | cons b v ih =>
    rw [List.cons_append, writeBytes_cons, writeBytes_cons, ih]
    simp [show a + 1 + v.length = a + (v.length + 1) by omega]

@[simp] theorem wfFrom_nil (lo : Nat) : wfFrom lo [] = true := rfl

theorem wfFrom_cons (lo a : Nat) (b : Byte) (m : Memory) :
    wfFrom lo ((a, b) :: m) = true ↔
      lo ≤ a ∧ a < Config.dmaEnd ∧ b ≠ memDefault ∧ wfFrom (a + 1) m = true := by
  simp [wfFrom, and_assoc]

/-- Fewer addresses may come first. -/
theorem wfFrom_mono {lo lo' : Nat} {m : Memory} (h : lo ≤ lo') (hm : wfFrom lo' m = true) :
    wfFrom lo m = true := by
  cases m with
  | nil => rfl
  | cons x m =>
    rw [wfFrom_cons] at hm ⊢
    exact ⟨by omega, hm.2⟩

/-- Nothing is listed below the first address a list may hold. -/
theorem byte_of_wfFrom {lo a : Nat} {m : Memory} (hm : wfFrom lo m = true) (h : a < lo) :
    byte m a = memDefault := by
  induction m generalizing lo with
  | nil => rfl
  | cons x m ih =>
    obtain ⟨k, v⟩ := x
    rw [wfFrom_cons] at hm
    rw [byte, if_neg (by omega)]
    exact ih hm.2.2.2 (by omega)

/-- Writing one byte keeps the canonical form. -/
theorem set_wfFrom {lo a : Nat} {m : Memory} (b : Byte) (hm : wfFrom lo m = true) (hlo : lo ≤ a)
    (ha : a < Config.dmaEnd) : wfFrom lo (set m a b) = true := by
  induction m generalizing lo with
  | nil =>
    unfold set
    split
    · rfl
    · rename_i h
      exact (wfFrom_cons _ _ _ _).2 ⟨hlo, ha, h, rfl⟩
  | cons x m ih =>
    obtain ⟨k, v⟩ := x
    have hx := (wfFrom_cons _ _ _ _).1 hm
    unfold set
    split
    · split
      · exact hm
      · rename_i h hb
        refine (wfFrom_cons _ _ _ _).2 ⟨hlo, ha, hb, (wfFrom_cons _ _ _ _).2 ⟨?_, hx.2⟩⟩
        omega
    · split
      · split
        · exact wfFrom_mono (by omega) hx.2.2.2
        · rename_i h h' hb
          exact (wfFrom_cons _ _ _ _).2 ⟨hlo, ha, hb, h' ▸ hx.2.2.2⟩
      · exact (wfFrom_cons _ _ _ _).2 ⟨hx.1, hx.2.1, hx.2.2.1, ih hx.2.2.2 (by omega)⟩

/-- A read after the write of one byte. -/
theorem byte_set_of_wfFrom {lo a : Nat} {m : Memory} (b : Byte) (hm : wfFrom lo m = true) (c : Nat) :
    byte (set m a b) c = if c = a then b else byte m c := by
  induction m generalizing lo with
  | nil =>
    unfold set
    by_cases hb : b = memDefault <;> by_cases hc : c = a <;> simp [hb, hc, byte, eq_comm]
    · exact fun h => absurd h.symm hc
  | cons x m ih =>
    obtain ⟨k, v⟩ := x
    have hx := (wfFrom_cons _ _ _ _).1 hm
    unfold set
    split
    · rename_i h
      have hd : byte ((k, v) :: m) a = memDefault :=
        byte_of_wfFrom (lo := k) ((wfFrom_cons _ _ _ _).2 ⟨le_refl _, hx.2⟩) h
      split
      · rename_i hb
        by_cases hc : c = a
        · rw [if_pos hc, hc, hd, hb]
        · rw [if_neg hc]
      · by_cases hc : c = a
        · rw [if_pos hc, byte, if_pos hc.symm]
        · rw [if_neg hc, byte, if_neg (fun h => hc h.symm)]
    · split
      · rename_i h h'
        subst h'
        split
        · rename_i hb
          by_cases hc : c = a
          · rw [if_pos hc, hc, byte_of_wfFrom hx.2.2.2 (by omega), hb]
          · rw [if_neg hc, byte, if_neg (fun h => hc h.symm)]
        · by_cases hc : c = a
          · rw [if_pos hc, byte, if_pos hc.symm]
          · rw [if_neg hc, byte, if_neg (fun h => hc h.symm), byte, if_neg (fun h => hc h.symm)]
      · rename_i h h'
        rw [byte, byte, ih hx.2.2.2]
        by_cases hk : k = c
        · rw [if_pos hk, if_pos hk, if_neg (by omega)]
        · rw [if_neg hk, if_neg hk]

/-- A read after the write of one byte, in canonical memory. -/
theorem byte_set {m : Memory} (hm : wf m = true) (a : Nat) (b : Byte) (c : Nat) :
    byte (set m a b) c = if c = a then b else byte m c :=
  byte_set_of_wfFrom b hm c

theorem set_wf {m : Memory} (hm : wf m = true) {a : Nat} (b : Byte) (ha : a < Config.dmaEnd) :
    wf (set m a b) = true :=
  set_wfFrom b hm (Nat.zero_le _) ha

/-- A write inside the space keeps the canonical form. -/
theorem writeBytes_wf {m : Memory} (hm : wf m = true) {a : Nat} {v : List Byte}
    (ha : a + v.length ≤ Config.dmaEnd) : wf (writeBytes m a v) = true := by
  induction v generalizing m a with
  | nil => exact hm
  | cons b v ih =>
    simp only [List.length_cons] at ha
    exact ih (set_wf hm b (by omega)) (by omega)

/-- A read after a write: the written byte inside the range, the old one elsewhere. -/
theorem byte_writeBytes {m : Memory} (hm : wf m = true) {a : Nat} {v : List Byte}
    (ha : a + v.length ≤ Config.dmaEnd) (c : Nat) :
    byte (writeBytes m a v) c =
      if h : a ≤ c ∧ c < a + v.length then v[c - a]'(by omega) else byte m c := by
  induction v generalizing m a with
  | nil => simp [show ¬(a ≤ c ∧ c < a) by omega]
  | cons b v ih =>
    simp only [List.length_cons] at ha
    rw [writeBytes_cons, ih (set_wf hm b (by omega)) (by omega)]
    by_cases h1 : a + 1 ≤ c ∧ c < a + 1 + v.length
    · rw [dif_pos h1, dif_pos (by simp only [List.length_cons]; omega)]
      simp only [show c - a = (c - (a + 1)) + 1 by omega, List.getElem_cons_succ]
    · rw [dif_neg h1, byte_set hm]
      by_cases h2 : c = a
      · subst h2
        rw [if_pos rfl, dif_pos (by simp)]
        simp
      · rw [if_neg h2, dif_neg (by simp only [List.length_cons]; omega)]

/-- A write leaves every byte outside its range. -/
theorem byte_writeBytes_outside {m : Memory} (hm : wf m = true) {a : Nat} {v : List Byte}
    (ha : a + v.length ≤ Config.dmaEnd) {c : Nat} (hc : ¬(a ≤ c ∧ c < a + v.length)) :
    byte (writeBytes m a v) c = byte m c := by
  rw [byte_writeBytes hm ha, dif_neg hc]

/-- A read of the range just written gives what was written. -/
theorem readBytes_writeBytes_same {m : Memory} (hm : wf m = true) {a : Nat} {v : List Byte}
    (ha : a + v.length ≤ Config.dmaEnd) : readBytes (writeBytes m a v) a v.length = v := by
  apply List.ext_getElem (by simp)
  intro i h1 h2
  rw [readBytes_getElem, byte_writeBytes hm ha, dif_pos (by omega)]
  simp

/-- A read of a range apart from the one written gives what was there. -/
theorem readBytes_writeBytes_apart {m : Memory} (hm : wf m = true) {a c n : Nat} {v : List Byte}
    (ha : a + v.length ≤ Config.dmaEnd) (h : c + n ≤ a ∨ a + v.length ≤ c) :
    readBytes (writeBytes m a v) c n = readBytes m c n :=
  readBytes_congr _ _ _ _ fun x hx hx' => byte_writeBytes_outside hm ha (by omega)

/-- Canonical memories that read the same everywhere are equal. -/
theorem eq_of_byte_eq {lo : Nat} {m m' : Memory} (hm : wfFrom lo m = true) (hm' : wfFrom lo m' = true)
    (h : ∀ c, byte m c = byte m' c) : m = m' := by
  induction m generalizing lo m' with
  | nil =>
    cases m' with
    | nil => rfl
    | cons x m' =>
      obtain ⟨k, v⟩ := x
      rw [wfFrom_cons] at hm'
      have := h k
      simp [byte] at this
      exact absurd this.symm hm'.2.2.1
  | cons x m ih =>
    obtain ⟨k, v⟩ := x
    have hx := (wfFrom_cons _ _ _ _).1 hm
    cases m' with
    | nil =>
      have := h k
      simp [byte] at this
      exact absurd this hx.2.2.1
    | cons y m' =>
      obtain ⟨k', v'⟩ := y
      have hy := (wfFrom_cons _ _ _ _).1 hm'
      have hk : k = k' := by
        rcases Nat.lt_trichotomy k k' with hlt | heq | hgt
        · have := h k
          rw [byte, if_pos rfl, byte_of_wfFrom (lo := k') ((wfFrom_cons _ _ _ _).2 ⟨le_refl _, hy.2⟩) hlt] at this
          exact absurd this hx.2.2.1
        · exact heq
        · have := h k'
          rw [byte_of_wfFrom (lo := k) ((wfFrom_cons _ _ _ _).2 ⟨le_refl _, hx.2⟩) hgt, byte, if_pos rfl] at this
          exact absurd this.symm hy.2.2.1
      subst hk
      have hv : v = v' := by simpa [byte] using h k
      subst hv
      congr 1
      refine ih hx.2.2.2 hy.2.2.2 fun c => ?_
      by_cases hc : k = c
      · rw [byte_of_wfFrom hx.2.2.2 (by omega), byte_of_wfFrom hy.2.2.2 (by omega)]
      · have := h c
        simpa [byte, hc] using this

end Memory

/-- The memory of `State.reset` is in canonical form. -/
theorem reset_mem_wf : Memory.wf State.reset.mem = true := rfl

/-- An access goes on exactly when it was done and what follows was done. -/
theorem Acc.bind_eq_ok {α β : Type} {x : Acc α} {f : α → Acc β} {b : β} :
    x.bind f = .ok b ↔ ∃ a, x = .ok a ∧ f a = .ok b := by
  cases x <;> simp [Acc.bind]

@[simp] theorem Acc.ok_bind {α β : Type} (a : α) (f : α → Acc β) : (Acc.ok a).bind f = f a := rfl

@[simp] theorem Acc.wrap_bind {α β : Type} (f : α → Acc β) : (Acc.wrap : Acc α).bind f = .wrap := rfl

@[simp] theorem Acc.unbacked_bind {α β : Type} (f : α → Acc β) : (Acc.unbacked : Acc α).bind f = .unbacked := rfl

theorem Acc.bind_assoc {α β γ : Type} (x : Acc α) (f : α → Acc β) (g : β → Acc γ) :
    (x.bind f).bind g = x.bind fun a => (f a).bind g := by
  cases x <;> rfl

/-- All `memRead` can do when it answers. -/
theorem memRead_eq_ok {p : Params} {m : Memory} {a n : Nat} {b : List Byte} :
    memRead p m a n = .ok b ↔ a + n ≤ Config.dmaEnd ∧ dmaOk p a n = true ∧ b = Memory.readBytes m a n := by
  unfold memRead
  split
  · rename_i h
    exact ⟨(fun h' => nomatch h'), fun h' => absurd h'.1 (by omega)⟩
  · rename_i h
    split
    · rename_i hd
      exact ⟨fun h' => ⟨by omega, hd, (Acc.ok.inj h').symm⟩, fun h' => congrArg _ h'.2.2.symm⟩
    · rename_i hd
      exact ⟨(fun h' => nomatch h'), fun h' => absurd h'.2.1 hd⟩

/-- All `memWrite` can do when it answers. -/
theorem memWrite_eq_ok {p : Params} {m m' : Memory} {a : Nat} {v : List Byte} :
    memWrite p m a v = .ok m' ↔
      a + v.length ≤ Config.dmaEnd ∧ dmaOk p a v.length = true ∧ m' = Memory.writeBytes m a v := by
  unfold memWrite
  split
  · rename_i h
    exact ⟨(fun h' => nomatch h'), fun h' => absurd h'.1 (by omega)⟩
  · rename_i h
    split
    · rename_i hd
      exact ⟨fun h' => ⟨by omega, hd, (Acc.ok.inj h').symm⟩, fun h' => congrArg _ h'.2.2.symm⟩
    · rename_i hd
      exact ⟨(fun h' => nomatch h'), fun h' => absurd h'.2.1 hd⟩

/-- `MemRead` inside the space and the backed ranges. -/
theorem memRead_ok {p : Params} {m : Memory} {a n : Nat} (h : a + n ≤ Config.dmaEnd) (hd : dmaOk p a n = true) :
    memRead p m a n = .ok (Memory.readBytes m a n) :=
  memRead_eq_ok.2 ⟨h, hd, rfl⟩

/-- `MemWrite` inside the space and the backed ranges. -/
theorem memWrite_ok {p : Params} {m : Memory} {a : Nat} {v : List Byte} (h : a + v.length ≤ Config.dmaEnd)
    (hd : dmaOk p a v.length = true) : memWrite p m a v = .ok (Memory.writeBytes m a v) :=
  memWrite_eq_ok.2 ⟨h, hd, rfl⟩

/-- `MemWrite` keeps the canonical form. -/
theorem memWrite_wf {p : Params} {m m' : Memory} {a : Nat} {v : List Byte} (h : memWrite p m a v = .ok m')
    (hm : Memory.wf m = true) : Memory.wf m' = true := by
  obtain ⟨h1, _, rfl⟩ := memWrite_eq_ok.1 h
  exact Memory.writeBytes_wf hm h1

/-- `MemWrite` leaves every byte outside its range. -/
theorem memWrite_outside {p : Params} {m m' : Memory} {a : Nat} {v : List Byte} (h : memWrite p m a v = .ok m')
    (hm : Memory.wf m = true) {c : Nat} (hc : c < a ∨ a + v.length ≤ c) : Memory.byte m' c = Memory.byte m c := by
  obtain ⟨h1, _, rfl⟩ := memWrite_eq_ok.1 h
  exact Memory.byte_writeBytes_outside hm h1 (by omega)

end Sys2Proof.Machine
end

