-- ==== Sys2Proof/Laws/Codec.lean ====
section
/-! SUPPORT. The laws of the byte codecs (20_memory.md R80) and of the descriptor's fields
(30_encoding.md R111, R112, R120). -/

namespace Sys2Proof

@[simp] theorem leBytes_length (n x : Nat) : (leBytes n x).length = n := by
  induction n generalizing x with
  | zero => rfl
  | succ n ih => simp [leBytes, ih]

/-- Reading back the bytes of a number gives the number modulo the width. -/
theorem leNat_leBytes (n x : Nat) : leNat (leBytes n x) = x % 256 ^ n := by
  induction n generalizing x with
  | zero => simp [leBytes, leNat, Nat.mod_one]
  | succ n ih =>
    rw [leBytes, leNat, ih, BitVec.toNat_ofNat, show 256 ^ (n + 1) = 256 * 256 ^ n by ring, Nat.mod_mul]

/-- A byte string is below its width. -/
theorem leNat_lt (b : List Byte) : leNat b < 256 ^ b.length := by
  induction b with
  | nil => simp [leNat]
  | cons x b ih =>
    have := x.isLt
    simp only [leNat, List.length_cons, Nat.pow_succ]
    omega

/-- The bytes of the number of a byte string are the byte string. -/
theorem leBytes_leNat (b : List Byte) : leBytes b.length (leNat b) = b := by
  induction b with
  | nil => rfl
  | cons x b ih =>
    have hx := x.isLt
    simp only [leNat, List.length_cons, leBytes]
    rw [show (x.toNat + 256 * leNat b) / 256 = leNat b by omega, ih]
    congr 1
    apply BitVec.eq_of_toNat_eq
    simp
    omega

theorem leNat_append (a b : List Byte) : leNat (a ++ b) = leNat a + 256 ^ a.length * leNat b := by
  induction a with
  | nil => simp [leNat]
  | cons x a ih => simp only [List.cons_append, leNat, ih, List.length_cons, Nat.pow_succ]; ring

@[simp] theorem toLe32_length (w : Word) : (toLe32 w).length = 4 := leBytes_length 4 w.toNat

@[simp] theorem le32_toLe32 (w : Word) : le32 (toLe32 w) = w := by
  apply BitVec.eq_of_toNat_eq
  have := w.isLt
  rw [le32, toLe32, leNat_leBytes, BitVec.toNat_ofNat]
  omega

@[simp] theorem Descriptor.bytes_length (d : Descriptor) : d.bytes.length = 32 := by
  simp [Descriptor.bytes]

/-- Reading back the bytes of a descriptor gives the descriptor (30_encoding.md R111). -/
@[simp] theorem Descriptor.ofBytes_bytes (d : Descriptor) : Descriptor.ofBytes d.bytes = d := by
  have h (w : Word) : ∃ a b c e : Byte, toLe32 w = [a, b, c, e] := by
    simp [toLe32, leBytes]
  obtain ⟨w0, w1, w2, w3, w4, w5, w6, w7⟩ := d
  obtain ⟨a0, b0, c0, e0, h0⟩ := h w0
  obtain ⟨a1, b1, c1, e1, h1⟩ := h w1
  obtain ⟨a2, b2, c2, e2, h2⟩ := h w2
  obtain ⟨a3, b3, c3, e3, h3⟩ := h w3
  obtain ⟨a4, b4, c4, e4, h4⟩ := h w4
  obtain ⟨a5, b5, c5, e5, h5⟩ := h w5
  obtain ⟨a6, b6, c6, e6, h6⟩ := h w6
  obtain ⟨a7, b7, c7, e7, h7⟩ := h w7
  have e (w : Word) (l : List Byte) (hw : toLe32 w = l) : le32 l = w := by rw [← hw, le32_toLe32]
  simp only [Descriptor.bytes, Descriptor.ofBytes, h0, h1, h2, h3, h4, h5, h6, h7]
  simp [e _ _ h0, e _ _ h1, e _ _ h2, e _ _ h3, e _ _ h4, e _ _ h5, e _ _ h6, e _ _ h7]

@[simp] theorem encode_length (i : Instr) : (encode i).length = 32 := Descriptor.bytes_length _

/-- Decoding the bytes of a descriptor decodes the descriptor. -/
theorem decode_bytes (d : Descriptor) : decode d.bytes = decodeDescriptor d := by
  simp [decode, Config.trbBytes]

/-- The fields of word 0 (30_encoding.md R112). -/
theorem ctrlWord_c (c : Bool) (cc : BitVec 7) (tc ioc : Bool) (ty : BitVec 2) (size : BitVec 16) :
    (ctrlWord c cc tc ioc ty size).getLsbD 0 = c := by
  simp only [ctrlWord, BitVec.getLsbD_append]
  simp

theorem ctrlWord_cc (c : Bool) (cc : BitVec 7) (tc ioc : Bool) (ty : BitVec 2) (size : BitVec 16) :
    (ctrlWord c cc tc ioc ty size).extractLsb' 1 7 = cc := by
  apply BitVec.eq_of_getLsbD_eq
  intro i hi
  simp only [ctrlWord, BitVec.getLsbD_extractLsb', BitVec.getLsbD_append, hi, decide_true, Bool.true_and]
  simp [show 1 + i < 8 by omega, show 1 + i < 9 by omega, show 1 + i < 10 by omega,
    show 1 + i < 12 by omega, show 1 + i < 16 by omega]

theorem ctrlWord_tc (c : Bool) (cc : BitVec 7) (tc ioc : Bool) (ty : BitVec 2) (size : BitVec 16) :
    (ctrlWord c cc tc ioc ty size).getLsbD 8 = tc := by
  simp only [ctrlWord, BitVec.getLsbD_append]
  simp

theorem ctrlWord_ioc (c : Bool) (cc : BitVec 7) (tc ioc : Bool) (ty : BitVec 2) (size : BitVec 16) :
    (ctrlWord c cc tc ioc ty size).getLsbD 9 = ioc := by
  simp only [ctrlWord, BitVec.getLsbD_append]
  simp

theorem ctrlWord_type (c : Bool) (cc : BitVec 7) (tc ioc : Bool) (ty : BitVec 2) (size : BitVec 16) :
    (ctrlWord c cc tc ioc ty size).extractLsb' 10 2 = ty := by
  apply BitVec.eq_of_getLsbD_eq
  intro i hi
  simp only [ctrlWord, BitVec.getLsbD_extractLsb', BitVec.getLsbD_append, hi, decide_true, Bool.true_and]
  simp [show 10 + i < 12 by omega, show 10 + i < 16 by omega]

theorem ctrlWord_size (c : Bool) (cc : BitVec 7) (tc ioc : Bool) (ty : BitVec 2) (size : BitVec 16) :
    (ctrlWord c cc tc ioc ty size).extractLsb' 16 16 = size := by
  apply BitVec.eq_of_getLsbD_eq
  intro i hi
  simp only [ctrlWord, BitVec.getLsbD_extractLsb', BitVec.getLsbD_append, hi, decide_true, Bool.true_and]
  simp

/-- The fields of word 3 (30_encoding.md R120). -/
theorem modeWord_alg (a : BitVec 4) (dir : Bool) (k : BitVec 2) (f : Bool) :
    (modeWord a dir k f).extractLsb' 0 4 = a := by
  apply BitVec.eq_of_getLsbD_eq
  intro i hi
  simp only [modeWord, BitVec.getLsbD_extractLsb', BitVec.getLsbD_append, hi, decide_true, Bool.true_and]
  simp [show i < 5 by omega, show i < 7 by omega, show i < 8 by omega, hi]

theorem modeWord_dir (a : BitVec 4) (dir : Bool) (k : BitVec 2) (f : Bool) :
    (modeWord a dir k f).getLsbD 4 = dir := by
  simp only [modeWord, BitVec.getLsbD_append]
  simp

theorem modeWord_keysz (a : BitVec 4) (dir : Bool) (k : BitVec 2) (f : Bool) :
    (modeWord a dir k f).extractLsb' 5 2 = k := by
  apply BitVec.eq_of_getLsbD_eq
  intro i hi
  simp only [modeWord, BitVec.getLsbD_extractLsb', BitVec.getLsbD_append, hi, decide_true, Bool.true_and]
  simp [show 5 + i < 7 by omega, show 5 + i < 8 by omega]

theorem modeWord_final (a : BitVec 4) (dir : Bool) (k : BitVec 2) (f : Bool) :
    (modeWord a dir k f).getLsbD 7 = f := by
  simp only [modeWord, BitVec.getLsbD_append]
  simp

/-- The operand fields of an encoded normal descriptor (30_encoding.md R111). -/
theorem encodeTrb_trb (a : BitVec 4) (dir : Bool) (d : Trb) : (encodeTrb a dir d).trb = d := by
  have ho : d.owner.extractLsb' 32 32 ++ d.owner.extractLsb' 0 32 = d.owner := by
    apply BitVec.eq_of_getLsbD_eq
    intro i hi
    simp only [BitVec.getLsbD_append, BitVec.getLsbD_extractLsb']
    by_cases h : i < 32
    · simp [h]
    · simp [h, show i - 32 < 32 by omega, show 32 + (i - 32) = i by omega]
  simp only [Descriptor.trb, Descriptor.cycle, Descriptor.cc, Descriptor.tc, Descriptor.ioc, Descriptor.size,
    Descriptor.keysz, Descriptor.final, Descriptor.owner, encodeTrb, ctrlWord_c, ctrlWord_cc, ctrlWord_tc,
    ctrlWord_ioc, ctrlWord_size, modeWord_keysz, modeWord_final, ho]

theorem encodeTrb_type (a : BitVec 4) (dir : Bool) (d : Trb) : (encodeTrb a dir d).type = 0 :=
  ctrlWord_type ..

theorem encodeTrb_alg (a : BitVec 4) (dir : Bool) (d : Trb) : (encodeTrb a dir d).alg = a :=
  modeWord_alg ..

theorem encodeTrb_dir (a : BitVec 4) (dir : Bool) (d : Trb) : (encodeTrb a dir d).dir = dir :=
  modeWord_dir ..

/-- Reading what a mode codec wrote gives the mode word of the default layout (30_encoding.md R125). -/
theorem ModeCodec.read_write {c : ModeCodec} (h : c.wf = true) (w : Word) : c.read (c.write w) = w := by
  match c, h with
  | .default, _ => rfl
  | .rearranged bits codes, h =>
  simp only [ModeCodec.wf, Bool.and_eq_true, beq_iff_eq, decide_eq_true_eq, List.all_eq_true, and_assoc] at h
  obtain ⟨h1, h2, h3, h4, h5⟩ := h
  have hb (x : Word) :
      (BitVec.ofFnLE fun i : Fin 32 => (BitVec.ofFnLE fun j : Fin 32 =>
        x.getLsbD (bits.idxOf j.val)).getLsbD (bits.getD i 0) : Word) = x := by
    apply BitVec.eq_of_getLsbD_eq
    intro i hi
    have hl : i < bits.length := by omega
    have := h3 _ (List.getElem_mem hl)
    simp [BitVec.getLsbD_ofFnLE, hi, hl, this, h2.idxOf_getElem]
  have hc (n : BitVec 4) : BitVec.ofNat 4 (codes.idxOf (codes.getD n.toNat 0)) = n := by
    have hl : n.toNat < codes.length := by have := n.isLt; omega
    simp [hl, h5.idxOf_getElem]
  have hx (a : BitVec 28) (b : BitVec 4) : (a ++ b : Word).extractLsb' 4 28 = a ∧ (a ++ b : Word).extractLsb' 0 4 = b := by
    constructor <;> apply BitVec.eq_of_getLsbD_eq <;> intro i hi <;>
      rw [BitVec.getLsbD_extractLsb', BitVec.getLsbD_append] <;> simp [hi]
  simp only [ModeCodec.read, ModeCodec.write, hb, (hx _ _).1, (hx _ _).2, hc]
  apply BitVec.eq_of_getLsbD_eq
  intro i hi
  rw [BitVec.getLsbD_append, BitVec.getLsbD_extractLsb', BitVec.getLsbD_extractLsb']
  by_cases h : i < 4
  · simp [h]
  · simp [h, show i - 4 < 28 by omega, show 4 + (i - 4) = i by omega]

@[simp] theorem ModeCodec.default_wf : ModeCodec.default.wf = true := rfl

/-- The default codec is the layout of 30_encoding.md R120 itself. -/
@[simp] theorem ModeCodec.read_default (w : Word) : ModeCodec.default.read w = w := rfl

@[simp] theorem ModeCodec.write_default (w : Word) : ModeCodec.default.write w = w := rfl

@[simp] theorem Descriptor.normal_default (d : Descriptor) : d.normal ModeCodec.default = d := by
  simp [Descriptor.normal]

@[simp] theorem Descriptor.inLayout_default (d : Descriptor) : d.inLayout ModeCodec.default = d := by
  simp [Descriptor.inLayout]

@[simp] theorem decodeIn_default (b : List Byte) : decodeIn ModeCodec.default b = decode b := by
  simp [decodeIn, decode]

@[simp] theorem encodeIn_default (i : Instr) : encodeIn ModeCodec.default i = encode i := by
  simp [encodeIn, encode]

/-- The codec touches word 3 alone. -/
@[simp] theorem Descriptor.type_normal (c : ModeCodec) (d : Descriptor) : (d.normal c).type = d.type := by
  unfold Descriptor.normal; split <;> rfl
@[simp] theorem Descriptor.cycle_normal (c : ModeCodec) (d : Descriptor) : (d.normal c).cycle = d.cycle := by
  unfold Descriptor.normal; split <;> rfl
@[simp] theorem Descriptor.type_inLayout (c : ModeCodec) (d : Descriptor) : (d.inLayout c).type = d.type := by
  unfold Descriptor.inLayout; split <;> rfl
@[simp] theorem Descriptor.cycle_inLayout (c : ModeCodec) (d : Descriptor) : (d.inLayout c).cycle = d.cycle := by
  unfold Descriptor.inLayout; split <;> rfl

/-- An implementation's descriptor back in the default layout. -/
theorem Descriptor.normal_inLayout {c : ModeCodec} (h : c.wf = true) (d : Descriptor) :
    (d.inLayout c).normal c = d := by
  rw [Descriptor.normal, Descriptor.type_inLayout]
  by_cases ht : d.type = 0
  · rw [if_pos ht, Descriptor.inLayout, if_pos ht, ModeCodec.read_write h]
  · rw [if_neg ht, Descriptor.inLayout, if_neg ht]

/-- Decoding the bytes of an implementation's descriptor decodes the descriptor. -/
theorem decodeIn_inLayout {c : ModeCodec} (h : c.wf = true) (d : Descriptor) :
    decodeIn c (d.inLayout c).bytes = decodeDescriptor d := by
  simp [decodeIn, Config.trbBytes, Descriptor.normal_inLayout h]

@[simp] theorem encodeIn_length (c : ModeCodec) (i : Instr) : (encodeIn c i).length = 32 :=
  Descriptor.bytes_length _

namespace Machine

@[simp] theorem bytesOf_length {w : Nat} (n : Nat) (x : BitVec w) : (bytesOf n x).length = n :=
  leBytes_length n x.toNat

/-- A value read back from its bytes. -/
theorem bitsOf_bytesOf {w n : Nat} (h : w = 8 * n) (x : BitVec w) : bitsOf w (bytesOf n x) = x := by
  subst h
  apply BitVec.eq_of_toNat_eq
  have := x.isLt
  rw [bitsOf, bytesOf, leNat_leBytes, BitVec.toNat_ofNat, show (256 : Nat) ^ n = 2 ^ (8 * n) by
    rw [Nat.pow_mul], Nat.mod_mod, Nat.mod_eq_of_lt this]

/-- The bytes of the value of a byte string. -/
theorem bytesOf_bitsOf {w n : Nat} {b : List Byte} (hw : w = 8 * n) (hb : b.length = n) :
    bytesOf n (bitsOf w b) = b := by
  subst hw hb
  have := leNat_lt b
  rw [bytesOf, bitsOf, BitVec.toNat_ofNat, Nat.mod_eq_of_lt (by rw [Nat.pow_mul]; exact this), leBytes_leNat]

/-- Every command's mode word is the code of its algorithm (30_encoding.md R121). -/
theorem ofCode_code (a : Alg) : Alg.ofCode a.code = some a := by
  cases a with
  | cipher a => cases a <;> rfl
  | hash a => cases a <;> rfl

end Machine

end Sys2Proof
end

