-- ==== Sys2Proof/Laws/Ops.lean ====
section
/-! SUPPORT. One lemma for each shared operation that says once what it can do. -/

namespace Sys2Proof.Machine

/-- A listed event takes effect in the state without it (00_scope.md R10). -/
theorem step_of_listed {s : State} {ev : Event} (h : s.inputs.head? = some ev) :
    step s = runEvent ev { s with inputs := s.inputs.tail } := by
  unfold step takeEvent
  cases hi : s.inputs with
  | nil => simp [hi] at h
  | cons x l => simp [hi] at h; simp [h]

/-- Every event leaves the state it is taken from unchanged but for the list and the count of draws. -/
theorem takeEvent_snd (s : State) :
    (takeEvent s).2 = { s with inputs := s.inputs.tail } ∨
      (s.inputs = [] ∧ (takeEvent s).2 = { s with draws := s.draws + 1 }) := by
  unfold takeEvent
  cases hi : s.inputs with
  | nil => exact .inr ⟨rfl, rfl⟩
  | cons x l => exact .inl rfl

/-- A backed range backs every range inside it. -/
theorem dmaOk_sub {p : Params} {a n b k : Nat} (h : dmaOk p a n = true) (hn : 0 < n) (h1 : a ≤ b)
    (h2 : b + k ≤ a + n) : dmaOk p b k = true := by
  unfold dmaOk at h ⊢
  simp only [Bool.or_eq_true, beq_iff_eq, List.any_eq_true, Bool.and_eq_true, decide_eq_true_eq] at h ⊢
  rcases h with h | ⟨r, hr, h3, h4⟩
  · omega
  · exact .inr ⟨r, hr, by omega, by omega⟩

/-- A reachable range contains reachable ranges. -/
theorem Reach.sub {s : State} {a n b k : Nat} (h : Reach s a n) (hn : 0 < n) (h1 : a ≤ b)
    (h2 : b + k ≤ a + n) : Reach s b k :=
  ⟨by have := h.1; omega, dmaOk_sub h.2 hn h1 h2⟩

/-- The fetch of a descriptor inside the backed space. -/
theorem fetch_ok {s : State} {e : EngineId} (h : Reach s (s.engine e).dq.toNat 32) :
    fetch s e = .ok (Descriptor.ofBytes (Memory.readBytes s.mem (s.engine e).dq.toNat 32)) := by
  rw [fetch, show Config.trbBytes = 32 from rfl, memRead_ok h.1 h.2, Acc.ok_bind]

/-- All the end of an engine's access can do. -/
theorem engineOutcome_next {s t : State} {x : Acc State} (h : engineOutcome s x = .next t) :
    x = .ok t ∨ (x = .unbacked ∧ t = s.stickEngine s.cur) := by
  cases x with
  | ok a => simp only [engineOutcome, Host.Outcome.next.injEq] at h; exact .inl (h ▸ rfl)
  | wrap => simp [engineOutcome] at h
  | unbacked => simp only [engineOutcome, Host.Outcome.next.injEq] at h; exact .inr ⟨rfl, h.symm⟩

/-- All a host thread's access can do. -/
theorem hostAccess_next {α : Type} {s u : State} {t : ThreadId} {x : Acc α} {f : α → Step}
    (h : hostAccess s t x f = .next u) : (∃ a, x = .ok a ∧ f a = .next u) ∨ (x = .unbacked ∧ u = s.stickThread t) := by
  cases x with
  | ok a => exact .inl ⟨a, rfl, h⟩
  | wrap => simp [hostAccess] at h
  | unbacked => simp only [hostAccess, Host.Outcome.next.injEq] at h; exact .inr ⟨rfl, h.symm⟩

@[simp] theorem hostAccess_ok {α : Type} (s : State) (t : ThreadId) (a : α) (f : α → Step) :
    hostAccess s t (.ok a) f = f a := rfl

@[simp] theorem engineOutcome_ok (s t : State) : engineOutcome s (.ok t) = .next t := rfl

/-- What completion leaves (40_ring.md R173). -/
def completedState (d : Trb) (cc : BitVec 7) (s : State) : State :=
  { s with
    mem := Memory.writeBytes s.mem (s.engine s.cur).dq.toNat [statusByte cc d.c]
    intFlag := if d.ioc then s.intFlag ||| doneBit s.cur else s.intFlag }.setEngine s.cur
      { s.engine s.cur with dq := (s.engine s.cur).dq + 32 }

/-- All completion can do when it is done. -/
theorem complete_eq_ok {d : Trb} {cc : BitVec 7} {s t : State} :
    complete d cc s = .ok t ↔ Reach s (s.engine s.cur).dq.toNat 1 ∧ t = completedState d cc s := by
  unfold complete
  rw [Acc.bind_eq_ok]
  constructor
  · rintro ⟨m, hm, ht⟩
    obtain ⟨h1, h2, rfl⟩ := memWrite_eq_ok.1 hm
    exact ⟨⟨h1, h2⟩, (Acc.ok.inj ht).symm⟩
  · rintro ⟨⟨h1, h2⟩, rfl⟩
    exact ⟨_, memWrite_ok h1 h2, rfl⟩

/-- All a normal command can do when it leads to a next state (41_descriptor_commands.md R200, 40_ring.md
R173): it completes with the bad-key code and no data operation, it completes after its data operation, or the
engine is stuck in the state it started from. -/
theorem runCommand_next {a : Alg} {d : Trb} {data : State → Acc State} {s t : State}
    (h : runCommand a d data s = .next t) :
    s.cur = a.engine ∧
      ((validKeysz s.params a d.keysz = false ∧ complete d ccBadKeyLength s = .ok t) ∨
        (validKeysz s.params a d.keysz = true ∧ sizeOk a d = true ∧ chainUnset a d s = false ∧
          ∃ u, data s = .ok u ∧ complete d ccSuccess u = .ok t) ∨
        t = s.stickEngine s.cur) := by
  unfold runCommand at h
  split at h
  · exact nomatch h
  · rename_i hc
    refine ⟨by simpa using hc, ?_⟩
    split at h
    · rename_i hk
      rcases engineOutcome_next h with h | ⟨_, h⟩
      · exact .inl ⟨hk, h⟩
      · exact .inr (.inr h)
    · rename_i hk
      split at h
      · exact nomatch h
      · rename_i hs
        split at h
        · exact nomatch h
        · rename_i hu
          rcases engineOutcome_next h with h | ⟨_, h⟩
          · exact .inr (.inl ⟨by simpa using hk, by simpa using hs, by simpa using hu, Acc.bind_eq_ok.1 h⟩)
          · exact .inr (.inr h)

/-- A command that passes the checks of 41_descriptor_commands.md R200. -/
theorem runCommand_of_checks {a : Alg} {d : Trb} {data : State → Acc State} {s : State} (h1 : s.cur = a.engine)
    (h2 : validKeysz s.params a d.keysz = true) (h3 : sizeOk a d = true) (h4 : chainUnset a d s = false) :
    runCommand a d data s = engineOutcome s ((data s).bind (complete d ccSuccess)) := by
  simp [runCommand, h1, h2, h3, h4]

/-- All the block loop of a cipher command can do when it is done (41_descriptor_commands.md R201, 20_memory.md
R100): canonical memory stays canonical, and only the destination range changes. -/
theorem cipherBlocks_ok {p : Params} {bs : Nat} {blk : BlockFn} {n src dst : Nat} {m m' : Memory}
    {ch ch' : Block} (h : cipherBlocks p bs blk n src dst m ch = .ok (m', ch'))
    (hl : ∀ ch x, (blk ch x).1.length = bs) (hm : Memory.wf m = true) :
    Memory.wf m' = true ∧ ∀ c, (c < dst ∨ dst + n * bs ≤ c) → Memory.byte m' c = Memory.byte m c := by
  induction n generalizing src dst m ch with
  | zero =>
    simp only [cipherBlocks, Acc.ok.injEq, Prod.mk.injEq] at h
    exact ⟨h.1 ▸ hm, fun c _ => by rw [h.1]⟩
  | succ n ih =>
    rw [cipherBlocks, Acc.bind_eq_ok] at h
    obtain ⟨x, _, h⟩ := h
    rw [Acc.bind_eq_ok] at h
    obtain ⟨m1, h1, h⟩ := h
    obtain ⟨ih1, ih2⟩ := ih h (memWrite_wf h1 hm)
    refine ⟨ih1, fun c hc => ?_⟩
    rw [Nat.add_one_mul] at hc
    rw [ih2 c (by omega), memWrite_outside h1 hm (by rw [hl]; omega)]

/-- All the data operation of a cipher command can do when it is done. -/
theorem cipherData_ok {a : CipherAlg} {d : Trb} {blk : List Byte → BlockFn} {s t : State}
    (h : cipherData a d blk s = .ok t) :
    ∃ key cv r, memRead s.params s.mem d.kptr.toNat (keyBytes d.keysz) = .ok key ∧ loadChain a d s = .ok cv ∧
      cipherBlocks s.params a.blockSize (blk key) (d.size.toNat / a.blockSize) d.sptr.toNat d.dptr.toNat
        s.mem cv.1 = .ok r ∧
      t = { s with mem := r.1, chain := r.2, chainValid := cv.2 } := by
  unfold cipherData at h
  obtain ⟨key, h1, h⟩ := Acc.bind_eq_ok.1 h
  obtain ⟨cv, h2, h⟩ := Acc.bind_eq_ok.1 h
  obtain ⟨r, h3, h⟩ := Acc.bind_eq_ok.1 h
  exact ⟨key, cv, r, h1, h2, h3, (Acc.ok.inj h).symm⟩

/-- All the data operation of a hash command can do when it is done. -/
theorem hashData_ok {a : HashAlg} {d : Trb} {f : CompressFn} {s t : State} (h : hashData a d f s = .ok t) :
    ∃ st key st' m, memRead s.params s.mem d.iptr.toNat a.stateLen = .ok st ∧ loadSubKey a d s = .ok key ∧
      hashBlocks s.params s.mem a.blockSize (fun st x => f st x key) (d.size.toNat / a.blockSize) d.sptr.toNat
        st = .ok st' ∧
      memWrite s.params s.mem d.dptr.toNat st' = .ok m ∧ t = s.setMem m := by
  unfold hashData at h
  obtain ⟨st, h1, h⟩ := Acc.bind_eq_ok.1 h
  obtain ⟨key, h2, h⟩ := Acc.bind_eq_ok.1 h
  obtain ⟨st', h3, h⟩ := Acc.bind_eq_ok.1 h
  obtain ⟨m, h4, h⟩ := Acc.bind_eq_ok.1 h
  exact ⟨st, key, st', m, h1, h2, h3, h4, (Acc.ok.inj h).symm⟩

/-- The state a block loop of a hash command computes has the length its compression gives. -/
theorem hashBlocks_length {p : Params} {m : Memory} {bs k : Nat} {f : List Byte → List Byte → List Byte}
    {n src : Nat} {st st' : List Byte} (h : hashBlocks p m bs f n src st = .ok st')
    (hf : ∀ st x, (f st x).length = k) (hst : st.length = k) : st'.length = k := by
  induction n generalizing src st with
  | zero => simp only [hashBlocks, Acc.ok.injEq] at h; exact h ▸ hst
  | succ n ih =>
    rw [hashBlocks, Acc.bind_eq_ok] at h
    obtain ⟨x, _, h⟩ := h
    exact ih h (hf _ _)

/-- The release of a slot: the drain ends, the dispatcher is stuck, or the slot is released (40_ring.md
R182). -/
theorem release_next {r : EngineId} {s t : State} (h : release r s = .next t) :
    t = endDrain s r ∨ t = { s with dispatcher := { s.dispatcher with stuck := true } } ∨
      ∃ b m, memRead s.params s.mem (slotAddr (s.ring r) (s.ring r).head) 32 = .ok b ∧
        (Descriptor.ofBytes b).cc ≠ ccNone ∧ (s.ctx (Descriptor.ofBytes b).owner).isSome ∧
        memWrite s.params s.mem (slotAddr (s.ring r) (s.ring r).head)
          [statusByte ccNone (Descriptor.ofBytes b).cycle] = .ok m ∧
        t = (((s.setMem m).setRing r ((s.ring r).afterRelease (s.slots r))).updCtx (Descriptor.ofBytes b).owner
          fun c => c.afterRelease (Descriptor.ofBytes b)) := by
  unfold release at h
  simp only at h
  split at h
  · exact nomatch h
  · exact .inr (.inl (Host.Outcome.next.inj h).symm)
  · rename_i b hb
    split at h
    · exact .inl (Host.Outcome.next.inj h).symm
    · rename_i hcc
      split at h
      · exact nomatch h
      · rename_i c hc
        split at h
        · exact nomatch h
        · exact .inr (.inl (Host.Outcome.next.inj h).symm)
        · rename_i m hm
          exact .inr (.inr ⟨b, m, hb, hcc, by rw [hc]; rfl, hm, (Host.Outcome.next.inj h).symm⟩)

/-- All a dispatcher step can do (40_ring.md R180 to R183). -/
theorem dispatcherStep_next {s t : State} (h : dispatcherStep s = .next t) :
    t = s ∨ t = dispatchExit s ∨ (s.dispatcher.active = false ∧ s.irq = true ∧ t = dispatchEntry s) ∨
      ∃ r, release r s = .next t := by
  unfold dispatcherStep at h
  split at h
  · exact .inl (Host.Outcome.next.inj h).symm
  · split at h
    · split at h
      · exact .inr (.inr (.inr ⟨.aes, h⟩))
      · split at h
        · exact .inr (.inr (.inr ⟨.hash, h⟩))
        · exact .inr (.inl (Host.Outcome.next.inj h).symm)
    · rename_i ha
      split at h
      · rename_i hi
        exact .inr (.inr (.inl ⟨by simpa using ha, hi, (Host.Outcome.next.inj h).symm⟩))
      · exact .inl (Host.Outcome.next.inj h).symm

/-- All an engine step can do (40_ring.md R170): nothing, honour a stop, get stuck, go idle at a descriptor
that is not its own, or execute the command it decoded. -/
theorem engineStep_next {e : EngineId} {s t : State} (h : engineStep e s = .next t) :
    t = s ∨ t = s.setEngine e { s.engine e with stopReq := false, busy := false } ∨ t = s.stickEngine e ∨
      ∃ d, fetch s e = .ok d ∧
        (t = s.setEngine e { s.engine e with latch := d, busy := false } ∨
          (d.cycle = (s.engine e).ccs ∧ ∃ i, decodeDescriptor (d.normal s.params.codec) = .ok i ∧
            exec i { s.setEngine e { s.engine e with latch := d } with cur := e } = .next t)) := by
  unfold engineStep at h
  simp only at h
  split at h
  · exact .inl (Host.Outcome.next.inj h).symm
  · split at h
    · exact .inr (.inl (Host.Outcome.next.inj h).symm)
    · split at h
      · exact nomatch h
      · exact .inr (.inr (.inl (Host.Outcome.next.inj h).symm))
      · rename_i d hd
        refine .inr (.inr (.inr ⟨d, hd, ?_⟩))
        unfold latchStep at h
        simp only at h
        split at h
        · exact .inl (Host.Outcome.next.inj h).symm
        · rename_i hc
          unfold runLatched at h
          split at h
          · rename_i i hi
            rw [State.engine_setEngine_same, State.params_setEngine] at hi
            exact .inr ⟨by simpa using hc, i, hi, h⟩
          · exact nomatch h

end Sys2Proof.Machine
end

