-- ==== Sys2Proof/Laws/Kept.lean ====
section
/-! SUPPORT. What the operations of the rings keep: the parameters, CHAIN, CHAIN_VALID and the invariant, and but for
the slot and reset operations the cursors of the rings. -/

namespace Sys2Proof.Laws

open Sys2Proof Sys2Proof.Machine

/-- The parameters, CHAIN, CHAIN_VALID and the invariant are kept. -/
structure KeptButRings (s u : State) : Prop where
  params : u.params = s.params
  chain : u.chain = s.chain
  chainValid : u.chainValid = s.chainValid
  inv : s.Inv → u.Inv

/-- And so are the cursors and the producer cycle state of the rings. -/
structure Kept (s u : State) : Prop extends KeptButRings s u where
  ring : ∀ r, (u.ring r).head = (s.ring r).head ∧ (u.ring r).tail = (s.ring r).tail ∧ (u.ring r).pcs = (s.ring r).pcs

theorem KeptButRings.refl (s) : KeptButRings s s := ⟨rfl, rfl, rfl, id⟩
theorem Kept.refl (s) : Kept s s := ⟨.refl s, fun _ => ⟨rfl, rfl, rfl⟩⟩
theorem KeptButRings.trans {s u v} (h : KeptButRings s u) (k : KeptButRings u v) : KeptButRings s v :=
  ⟨k.params.trans h.params, k.chain.trans h.chain, k.chainValid.trans h.chainValid, fun i => k.inv (h.inv i)⟩
theorem Kept.trans {s u v} (h : Kept s u) (k : Kept u v) : Kept s v :=
  ⟨h.toKeptButRings.trans k.toKeptButRings,
    fun r => ⟨(k.ring r).1.trans (h.ring r).1, (k.ring r).2.1.trans (h.ring r).2.1,
      (k.ring r).2.2.trans (h.ring r).2.2⟩⟩

theorem State.inv_iff (s : State) :
    s.Inv ↔ s.params.wf = true ∧ Memory.wf s.mem = true ∧ s.aes.aligned ∧ s.hash.aligned ∧ s.intEn &&& ~~~intScope = 0 ∧
   s.intFlag &&& ~~~intScope = 0 ∧ s.aesRing.cursorsOk s.params.nAes ∧ s.hashRing.cursorsOk s.params.nHash ∧
   (∀ x ∈ s.hashSessions, x.ok) ∧ (∀ x ∈ s.cipherSessions, x.ok) ∧ s.handles.Nodup :=
  ⟨fun h => ⟨h.params, h.mem, h.aes, h.hash, h.intEn, h.intFlag, h.aesRing, h.hashRing, h.hashSessions, h.cipherSessions,
    h.handles⟩,
   fun ⟨a, b, c, d, e, f, g, h, i, j, k⟩ => ⟨a, b, c, d, e, f, g, h, i, j, k⟩⟩

theorem setThread_kept (s : State) (x : Thread) : Kept s (s.setThread x) :=
  ⟨⟨rfl, rfl, rfl,
    fun i => ⟨i.params, i.mem, i.aes, i.hash, i.intEn, i.intFlag, i.aesRing, i.hashRing, i.hashSessions, i.cipherSessions,
      i.handles⟩⟩, fun r => by simp⟩
theorem setTask_kept (s : State) (t k) : Kept s (s.setTask t k) := setThread_kept _ _
theorem finish_kept (s : State) (t k) : Kept s (s.finish t k) := setThread_kept _ _
theorem stickThread_kept (s : State) (t) : Kept s (s.stickThread t) := setThread_kept _ _
theorem goSub_kept (s : State) (t k x) : Kept s (s.goSub t k x) := setThread_kept _ _
theorem retSub_kept (s : State) (t k x) : Kept s (s.retSub t k x) := setThread_kept _ _
theorem setMem_kept (s : State) (m) (h : Memory.wf s.mem = true → Memory.wf m = true) : Kept s (s.setMem m) :=
  ⟨⟨rfl, rfl, rfl, fun i => ⟨i.params, h i.mem, i.aes, i.hash, i.intEn, i.intFlag, i.aesRing, i.hashRing, i.hashSessions, i.cipherSessions, i.handles⟩⟩, fun r => by cases r <;> exact ⟨rfl, rfl, rfl⟩⟩

theorem setRing_kept_inv (s : State) (r) (x : Ring) (h : s.Inv → x.cursorsOk (s.slots r)) :
    KeptButRings s (s.setRing r x) := by
  cases r
  · exact ⟨rfl, rfl, rfl,
    fun i => ⟨i.params, i.mem, i.aes, i.hash, i.intEn, i.intFlag, h i, i.hashRing, i.hashSessions, i.cipherSessions, i.handles⟩⟩
  · exact ⟨rfl, rfl, rfl,
    fun i => ⟨i.params, i.mem, i.aes, i.hash, i.intEn, i.intFlag, i.aesRing, h i, i.hashSessions, i.cipherSessions, i.handles⟩⟩

theorem inv_cursorsOk {s : State} (h : s.Inv) (r) : (s.ring r).cursorsOk (s.slots r) := by
    cases r; exact h.aesRing; exact h.hashRing
theorem inv_aligned {s : State} (h : s.Inv) (r) : (s.engine r).aligned := by cases r; exact h.aes; exact h.hash

theorem setRing_kept (s : State) (r) (x : Ring) (h1 : x.head = (s.ring r).head) (h2 : x.tail = (s.ring r).tail)
    (h3 : x.pcs = (s.ring r).pcs) : Kept s (s.setRing r x) :=
  ⟨setRing_kept_inv s r x fun i => by have := inv_cursorsOk i r; exact ⟨by rw [h1]; exact this.1, by rw [h2]; exact this.2⟩, fun q => by
    cases r <;> cases q <;> first | exact ⟨rfl, rfl, rfl⟩ | exact ⟨h1, h2, h3⟩⟩

theorem setEngine_kept (s : State) (e) (x : Engine) (h : s.Inv → x.aligned) : Kept s (s.setEngine e x) := by
  cases e
  · exact ⟨⟨rfl, rfl, rfl, fun i => ⟨i.params, i.mem, h i, i.hash, i.intEn, i.intFlag, i.aesRing, i.hashRing, i.hashSessions, i.cipherSessions, i.handles⟩⟩, fun r => by cases r <;> exact ⟨rfl, rfl, rfl⟩⟩
  · exact ⟨⟨rfl, rfl, rfl, fun i => ⟨i.params, i.mem, i.aes, h i, i.intEn, i.intFlag, i.aesRing, i.hashRing, i.hashSessions, i.cipherSessions, i.handles⟩⟩, fun r => by cases r <;> exact ⟨rfl, rfl, rfl⟩⟩

theorem hash_handles_map (l : List HashSession) (h) (f : HashSession → HashSession)
    (hf : ∀ y ∈ l, y.handle = h → (f y).handle = h) :
    (l.map fun x => if x.handle = h then f x else x).map (fun x => x.handle) = l.map (fun x => x.handle) := by
  rw [List.map_map]
  apply List.map_congr_left
  intro a ha
  simp only [Function.comp]
  split
  · rename_i hh; rw [hf a ha hh, hh]
  · rfl
theorem cipher_handles_map (l : List CipherSession) (h) (f : CipherSession → CipherSession)
    (hf : ∀ y ∈ l, y.handle = h → (f y).handle = h) :
    (l.map fun x => if x.handle = h then f x else x).map (fun x => x.handle) = l.map (fun x => x.handle) := by
  rw [List.map_map]
  apply List.map_congr_left
  intro a ha
  simp only [Function.comp]
  split
  · rename_i hh; rw [hf a ha hh, hh]
  · rfl

theorem updHash_kept (s : State) (h) (f : HashSession → HashSession) (hf : ∀ y, (f y).handle = y.handle)
    (hk : s.Inv → ∀ y ∈ s.hashSessions, y.handle = h → y.ok → (f y).ok) : Kept s (s.updHash h f) :=
  ⟨⟨rfl, rfl, rfl, fun i => ⟨i.params, i.mem, i.aes, i.hash, i.intEn, i.intFlag, i.aesRing, i.hashRing, by
      intro x hx
      simp only [State.updHash, List.mem_map] at hx
      obtain ⟨y, hy, rfl⟩ := hx
      have := i.hashSessions y hy
      split
      · rename_i hh; exact hk i y hy hh this
      · exact this, i.cipherSessions, by
      have := i.handles
      simp only [State.handles, State.updHash] at this ⊢
      rw [hash_handles_map _ _ _ (fun y _ hh => (hf y).trans hh)]; exact this⟩⟩, fun r => by cases r <;> exact ⟨rfl, rfl, rfl⟩⟩

theorem updCipher_kept (s : State) (h) (f : CipherSession → CipherSession) (hf : ∀ y, (f y).handle = y.handle)
    (hk : ∀ y, y.ok → (f y).ok) : Kept s (s.updCipher h f) :=
  ⟨⟨rfl, rfl, rfl, fun i => ⟨i.params, i.mem, i.aes, i.hash, i.intEn, i.intFlag, i.aesRing, i.hashRing, i.hashSessions, by
      intro x hx
      simp only [State.updCipher, List.mem_map] at hx
      obtain ⟨y, hy, rfl⟩ := hx
      have := i.cipherSessions y hy
      split
      · exact hk y this
      · exact this, by
      have := i.handles
      simp only [State.handles, State.updCipher] at this ⊢
      rw [cipher_handles_map _ _ _ (fun y _ hh => (hf y).trans hh)]; exact this⟩⟩, fun r => by cases r <;> exact ⟨rfl, rfl, rfl⟩⟩

theorem updCtx_kept (s : State) (h f) : Kept s (s.updCtx h f) :=
  (updHash_kept s h (fun x => { x with ctx := f x.ctx }) (fun _ => rfl) fun _ _ _ _ hy => hy).trans (updCipher_kept _ h (fun x => { x with ctx := f x.ctx }) (fun _ => rfl) fun _ hy => hy)

theorem updRingCtxs_kept (s : State) (r f) : Kept s (s.updRingCtxs r f) := by
  refine ⟨⟨rfl, rfl, rfl, fun i => ⟨i.params, i.mem, i.aes, i.hash, i.intEn, i.intFlag, i.aesRing, i.hashRing, ?_, ?_, ?_⟩⟩, fun r => by cases r <;> exact ⟨rfl, rfl, rfl⟩⟩
  · intro x hx
    simp only [State.updRingCtxs, List.mem_map] at hx
    obtain ⟨y, hy, rfl⟩ := hx
    have := i.hashSessions y hy
    split <;> exact this
  · intro x hx
    simp only [State.updRingCtxs, List.mem_map] at hx
    obtain ⟨y, hy, rfl⟩ := hx
    have := i.cipherSessions y hy
    split <;> exact this
  · have := i.handles
    simp only [State.handles, State.updRingCtxs, List.map_map] at this ⊢
    convert this using 3
    · funext x; simp only [Function.comp]; split <;> rfl
    · funext x; simp only [Function.comp]; split <;> rfl

/-- host access combinator -/
theorem hostAccess_kept {α} {s u : State} {t} {x : Acc α} {f : α → Step} (h : hostAccess s t x f = .next u)
   (hf : ∀ a, x = .ok a → f a = .next u → Kept s u) : Kept s u := by
  rcases hostAccess_next h with ⟨a, h1, h2⟩ | ⟨_, rfl⟩
  · exact hf a h1 h2
  · exact stickThread_kept _ _

theorem hashLock_kept (s : State) (h l) : Kept s (s.updHash h fun y => { y with lock := l }) :=
    updHash_kept s h _ (fun _ => rfl) fun _ _ _ _ hy => hy
theorem hashFsm_kept (s : State) (h l) : Kept s (s.updHash h fun y => { y with fsm := l }) :=
    updHash_kept s h _ (fun _ => rfl) fun _ _ _ _ hy => hy
theorem cipherLock_kept (s : State) (h l) : Kept s (s.updCipher h fun y => { y with lock := l }) :=
    updCipher_kept s h _ (fun _ => rfl) fun _ hy => hy
theorem leaveHash_kept (s : State) (t h r) : Kept s (leaveHash t h r s) :=
  (hashLock_kept s h none).trans (finish_kept _ _ _)
theorem failHash_kept (s : State) (t h r) : Kept s (failHash t h r s) :=
  (hashFsm_kept s h .failed).trans (leaveHash_kept _ _ _ _)
theorem leaveCipher_kept (s : State) (t h r) : Kept s (leaveCipher t h r s) :=
  (cipherLock_kept s h none).trans (finish_kept _ _ _)

theorem lockHash_kept {s u : State} {t x k} (h : lockHash t x k s = .next u) : Kept s u := by
  unfold lockHash at h; split at h <;> injection h with h <;> subst h
  · exact (hashLock_kept s x.handle (some t)).trans (setTask_kept _ _ _)
  · exact .refl _
theorem lockCipher_kept {s u : State} {t x k} (h : lockCipher t x k s = .next u) : Kept s u := by
  unfold lockCipher at h; split at h <;> injection h with h <;> subst h
  · exact (cipherLock_kept s x.handle (some t)).trans (setTask_kept _ _ _)
  · exact .refl _

/-- with unique handles the session found is the only one -/
theorem hashSession_unique {s : State} (i : s.Inv) {h x} (hx : s.hashSession h = some x) {y}
    (hy : y ∈ s.hashSessions) (he : y.handle = h) : y = x := by
  have h1 := List.mem_of_find?_eq_some hx
  have h2 : x.handle = h := by simpa using List.find?_some hx
  have hn := i.handles
  unfold State.handles at hn
  have hn := (List.nodup_append.1 hn).1
  exact List.inj_on_of_nodup_map hn hy h1 (he.trans h2.symm)
theorem hashSession_handle {s : State} {h x} (hx : s.hashSession h = some x) : x.handle = h := by
    simpa using List.find?_some hx
theorem hashSession_ok {s : State} (i : s.Inv) {h x} (hx : s.hashSession h = some x) : x.ok :=
    i.hashSessions x (List.mem_of_find?_eq_some hx)

theorem zeroSlots_wf {p n a m m'} (h : zeroSlots p n a m = .ok m') (hm : Memory.wf m = true) : Memory.wf m' = true := by
  induction n generalizing a m with
  | zero => simp only [zeroSlots, Acc.ok.injEq] at h; exact h ▸ hm
  | succ n ih =>
    rw [zeroSlots, Acc.bind_eq_ok] at h
    obtain ⟨x, h1, h⟩ := h
    exact ih h (memWrite_wf h1 hm)

theorem sgWrite_wf {p l o v m m'} (h : sgWrite p l o v m = .ok m') (hm : Memory.wf m = true) : Memory.wf m' = true := by
  induction l generalizing o v m with
  | nil => simp only [sgWrite, Acc.ok.injEq] at h; exact h ▸ hm
  | cons x l ih =>
    rw [sgWrite] at h
    split at h
    · simp only [Acc.ok.injEq] at h; exact h ▸ hm
    · split at h
      · exact ih h hm
      · obtain ⟨x, h1, h⟩ := Acc.bind_eq_ok.1 h
        exact ih h (memWrite_wf h1 hm)

theorem alignBase_aligned (v : Word) : alignBase v &&& 0x1F = 0 := by
  unfold alignBase
  apply BitVec.eq_of_getLsbD_eq
  intro i hi
  simp only [BitVec.getLsbD_and]
  have : ∀ i < 32, ((0xFFFFFFE0#32).getLsbD i && (0x1F#32).getLsbD i) = false := by decide
  have := this i hi
  simp only [Bool.and_assoc, BitVec.ofNat_eq_ofNat, this]
  simp

theorem writeRingCtrl_aligned {x : Engine} (v) (h : x.aligned) : (writeRingCtrl v x).aligned := h
theorem writeRingBase_aligned {x : Engine} (v) : (writeRingBase v x).aligned :=
    ⟨alignBase_aligned v, alignBase_aligned v⟩

theorem ringReset_kept {s u : State} {t r base} (h : ringReset t r base s = .next u) : KeptButRings s u := by
  unfold ringReset at h
  split at h
  · exact nomatch h
  split at h
  · exact nomatch h
  rcases hostAccess_next h with ⟨m, h1, h2⟩ | ⟨_, rfl⟩
  · injection h2 with h2; subst h2
    have hm : Memory.wf s.mem = true → Memory.wf m = true := by
      intro hm
      obtain ⟨m1, h3, h4⟩ := Acc.bind_eq_ok.1 h1
      exact memWrite_wf h4 (zeroSlots_wf h3 hm)
    refine (((((setMem_kept s m hm).toKeptButRings.trans (setRing_kept_inv _ r _ ?_)).trans
      (setEngine_kept _ r _ ?_).toKeptButRings).trans (updRingCtxs_kept _ _ _).toKeptButRings).trans
        (finish_kept _ _ _).toKeptButRings)
    · intro _; exact ⟨Nat.zero_le _, Nat.zero_le _⟩
    · intro _; exact writeRingBase_aligned _
  · exact (stickThread_kept _ _).toKeptButRings

theorem unlockRing_kept (s : State) (r held) : Kept s (s.unlockRing r held) := by
  unfold State.unlockRing; split
  · exact .refl _
  · exact setRing_kept _ _ _ rfl rfl rfl

theorem publishStep_kept {s u : State} {t k q r held slot cyc ioc n}
    (h : publishStep t k q r held slot cyc ioc n s = .next u) : Kept s u := by
  unfold publishStep at h
  split at h
  · injection h with h; subst h; exact goSub_kept _ _ _ _
  · refine hostAccess_kept h fun m hm h => ?_
    split at h <;> injection h with h <;> subst h
    · exact (setMem_kept _ _ fun w => memWrite_wf hm w).trans (goSub_kept _ _ _ _)
    · exact (((setMem_kept _ _ fun w => memWrite_wf hm w).trans (updCtx_kept _ _ _)).trans
      (unlockRing_kept _ _ _)).trans (retSub_kept _ _ _ _)

theorem lockRing_kept {s u : State} {t r held} (h : s.lockRing t r = some (u, held)) : Kept s u := by
  unfold State.lockRing at h
  split at h
  · injection h with h; injection h with h _; subst h; exact setRing_kept _ _ _ rfl rfl rfl
  · split at h
    · injection h with h; injection h with h _; subst h; exact .refl _
    · exact nomatch h

theorem takeSlot_kept {s u : State} {r} (h : takeSlot s r = .ok u) : KeptButRings s u := by
  obtain ⟨m, hm, h⟩ := Acc.bind_eq_ok.1 h
  injection h with h; subst h
  refine (setMem_kept s m ?_).toKeptButRings.trans (setRing_kept_inv _ _ _ ?_)
  · intro w
    unfold linkMemory at hm
    split at hm
    · exact memWrite_wf hm w
    · injection hm with hm; exact hm ▸ w
  · intro i
    have h1 : (s.ring r).cursorsOk (s.slots r) := by
      have := inv_cursorsOk i r
      cases r <;> exact this
    refine ⟨h1.1, ?_⟩
    show nextSlot _ _ ≤ _
    show nextSlot (s.slots r) (s.ring r).tail ≤ s.slots r - 2
    unfold nextSlot; split <;> omega

theorem queuePhase_kept {s u : State} {t k q c r ph} (h : queuePhase t k q c r s ph = .next u) :
    KeptButRings s u ∧ ((∀ held, ph ≠ .take held) → Kept s u) := by
  cases ph with
  | enter =>
    simp only [queuePhase] at h
    split at h
    · exact nomatch h
    · split at h
      · exact nomatch h
      · injection h with h; subst h; exact ⟨(goSub_kept _ _ _ _).toKeptButRings, fun _ => goSub_kept _ _ _ _⟩
  | down =>
    simp only [queuePhase] at h
    split at h <;> injection h with h <;> subst h
    · exact ⟨.refl _, fun _ => .refl _⟩
    · have : Kept s _ :=
      (setRing_kept s r { s.ring r with sem :=
        (s.ring r).sem - 1 } rfl rfl rfl).trans (goSub_kept _ t k (.queue q .lock))
      exact ⟨this.toKeptButRings, fun _ => this⟩
  | lock =>
    simp only [queuePhase] at h
    split at h
    · injection h with h; subst h; exact ⟨.refl _, fun _ => .refl _⟩
    · rename_i s' held hl
      injection h with h; subst h
      have := (lockRing_kept hl).trans (goSub_kept s' t k (.queue q (.take held)))
      exact ⟨this.toKeptButRings, fun _ => this⟩
  | take held =>
    simp only [queuePhase] at h
    split at h
    · exact nomatch h
    · refine ⟨?_, fun h => absurd rfl (h held)⟩
      rcases hostAccess_next h with ⟨m, h1, h2⟩ | ⟨_, rfl⟩
      · injection h2 with h2; subst h2
        exact (takeSlot_kept h1).trans (goSub_kept _ _ _ _).toKeptButRings
      · exact (stickThread_kept _ _).toKeptButRings
  | publish held slot cyc ioc n =>
    have := publishStep_kept h
    exact ⟨this.toKeptButRings, fun _ => this⟩
  | zeroLock =>
    simp only [queuePhase] at h
    split at h
    · injection h with h; subst h; exact ⟨.refl _, fun _ => .refl _⟩
    · rename_i s' held hl
      injection h with h; subst h
      have := (lockRing_kept hl).trans (goSub_kept s' t k (.queue q (.zeroMode held)))
      exact ⟨this.toKeptButRings, fun _ => this⟩
  | zeroMode held =>
    have : Kept s u := by
      simp only [queuePhase] at h
      split at h
      · injection h with h; subst h; exact (unlockRing_kept _ _ _).trans (retSub_kept _ _ _ _)
      · refine hostAccess_kept h fun m hm h => ?_
        injection h with h; subst h
        exact (setMem_kept _ _ fun w => memWrite_wf hm w).trans (goSub_kept _ _ _ _)
    exact ⟨this.toKeptButRings, fun _ => this⟩
  | zeroFlags held slot =>
    have : Kept s u := by
      simp only [queuePhase] at h
      refine hostAccess_kept h fun m hm h => ?_
      injection h with h; subst h
      obtain ⟨b, _, hm⟩ := Acc.bind_eq_ok.1 hm
      exact (((setMem_kept _ _ fun w => memWrite_wf hm w).trans (updCtx_kept _ _ _)).trans
        (unlockRing_kept _ _ _)).trans (retSub_kept _ _ _ _)
    exact ⟨this.toKeptButRings, fun _ => this⟩

theorem queueStep_kept {s u : State} {t k q ph} (h : queueStep t k q ph s = .next u) :
    KeptButRings s u ∧ ((∀ held, ph ≠ .take held) → Kept s u) := by
  unfold queueStep at h; split at h
  · exact nomatch h
  · exact queuePhase_kept h

theorem finishExecute_kept {s u : State} {t k h' c} (h : finishExecute t k h' c s = .next u) : Kept s u := by
  unfold finishExecute at h
  simp only at h
  split at h
  · injection h with h; subst h; exact (updCtx_kept _ _ _).trans (retSub_kept _ _ _ _)
  · split at h
    · injection h with h; subst h; exact (updCtx_kept _ _ _).trans (retSub_kept _ _ _ _)
    · exact nomatch h

theorem execStep_kept {s u : State} {t k h' ph} (h : execStep t k h' ph s = .next u) : Kept s u := by
  unfold execStep at h
  split at h
  · exact nomatch h
  · rename_i c hc
    cases ph with
    | trigger =>
      simp only at h
      split at h
      · exact nomatch h
      · split at h
        · exact finishExecute_kept h
        · injection h with h; subst h
          refine (((setRing_kept s c.ring { s.ring c.ring with triggerCount :=
            (s.ring c.ring).triggerCount + 1 } rfl rfl rfl).trans (setEngine_kept _ _ _ ?_)).trans
              (updCtx_kept _ _ _)).trans (goSub_kept _ _ _ _)
          intro i
          have := inv_aligned i c.ring
          have h2 : ∀ (s : State) r x e, (s.setRing r x).engine e = s.engine e := fun s r x e => by cases r <;> cases e <;> rfl
          rw [h2] at this
          exact writeRingCtrl_aligned _ this
    | wait =>
      simp only at h
      split at h
      · exact finishExecute_kept h
      · injection h with h; subst h; exact .refl _

theorem signalThread_kept (s : State) (t k) : Kept s (signalThread t k s) := by
  unfold signalThread
  split
  · split
    · split
      · exact retSub_kept _ _ _ _
      · exact .refl _
    · exact .refl _
  · split
    · split
      · exact (updCtx_kept _ _ _).trans (retSub_kept _ _ _ _)
      · exact .refl _
    · exact .refl _
  · exact .refl _
theorem timeoutThread_kept (s : State) (t k) : Kept s (timeoutThread t k s) := by
  unfold timeoutThread
  split
  · split
    · split
      · exact (updCtx_kept _ _ _).trans (retSub_kept _ _ _ _)
      · exact .refl _
    · exact .refl _
  · exact .refl _

end Sys2Proof.Laws
end

