-- ==== Sys2Proof/Laws/KeptHost.lean ====
section
/-! SUPPORT. What the operations of the sessions and of a host thread keep. -/

namespace Sys2Proof.Laws

open Sys2Proof Sys2Proof.Machine

theorem HashAlg.blockSize_pos (a : HashAlg) : 0 < a.blockSize := by cases a <;> decide
theorem leaveHash_updHash_kept {s : State} {h t r} {f : HashSession → HashSession} (hf : ∀ y, (f y).handle = y.handle)
    (hk : s.Inv → ∀ y ∈ s.hashSessions, y.handle = h → y.ok → (f y).ok) : Kept s (leaveHash t h r (s.updHash h f)) :=
  (updHash_kept s h f hf hk).trans (leaveHash_kept _ _ _ _)
theorem leaveCipher_updCipher_kept {s : State} {h t r} {f : CipherSession → CipherSession}
    (hf : ∀ y, (f y).handle = y.handle)
    (hk : ∀ y, y.ok → (f y).ok) : Kept s (leaveCipher t h r (s.updCipher h f)) :=
  (updCipher_kept s h f hf hk).trans (leaveCipher_kept _ _ _ _)
theorem setTask_updCipher_kept {s : State} {h t k} {f : CipherSession → CipherSession}
    (hf : ∀ y, (f y).handle = y.handle)
    (hk : ∀ y, y.ok → (f y).ok) : Kept s ((s.updCipher h f).setTask t k) :=
  (updCipher_kept s h f hf hk).trans (setTask_kept _ _ _)
theorem handleUsed_false_not_mem {s : State} {h} (hu : s.handleUsed h = false) : h ∉ s.handles := by
  unfold State.handleUsed State.ctx at hu
  intro hm
  unfold State.handles at hm
  rw [List.mem_append, List.mem_map, List.mem_map] at hm
  cases hs : s.hashSession h with
  | some x => simp [hs] at hu
  | none =>
    simp [hs] at hu
    rcases hm with ⟨x, hx, rfl⟩ | ⟨x, hx, rfl⟩
    · have := List.find?_eq_none.1 hs x hx; simp at this
    · have := List.find?_eq_none.1 hu x hx; simp at this

theorem hashCreate_kept {s u : State} {t h' a hs} (h : hashCreate t h' a hs s = .next u) : Kept s u := by
  unfold hashCreate at h
  split at h
  · exact nomatch h
  · rename_i hu
    split at h
    · exact nomatch h
    · rename_i ha
      injection h with h; subst h
      refine Kept.trans ?_ (finish_kept _ _ _)
      refine ⟨⟨rfl, rfl, rfl, fun i => ⟨i.params, i.mem, i.aes, i.hash, i.intEn, i.intFlag, i.aesRing, i.hashRing, ?_, i.cipherSessions, ?_⟩⟩, fun r => by cases r <;> exact ⟨rfl, rfl, rfl⟩⟩
      · intro x hx
        rw [List.mem_append] at hx
        rcases hx with hx | hx
        · exact i.hashSessions x hx
        · simp at hx; subst hx
          exact ⟨HashAlg.blockSize_pos a, not_not.1 ha⟩
      · have := i.handles
        have hn := handleUsed_false_not_mem (by simpa using hu : s.handleUsed h' = false)
        simp only [State.handles, List.map_append, List.map_cons, List.map_nil] at this hn ⊢
        rw [List.append_assoc, List.singleton_append, List.nodup_middle]
        exact List.nodup_cons.2 ⟨hn, this⟩

theorem cipherCreate_kept {s u : State} {t h' a hs} (h : cipherCreate t h' a hs s = .next u) : Kept s u := by
  unfold cipherCreate at h
  split at h
  · exact nomatch h
  · rename_i hu
    split at h
    · exact nomatch h
    · rename_i ha
      injection h with h; subst h
      refine Kept.trans ?_ (finish_kept _ _ _)
      refine ⟨⟨rfl, rfl, rfl, fun i => ⟨i.params, i.mem, i.aes, i.hash, i.intEn, i.intFlag, i.aesRing, i.hashRing, i.hashSessions, ?_, ?_⟩⟩, fun r => by cases r <;> exact ⟨rfl, rfl, rfl⟩⟩
      · intro x hx
        rw [List.mem_append] at hx
        rcases hx with hx | hx
        · exact i.cipherSessions x hx
        · simp at hx; subst hx
          show hs &&& 0x1F = 0
          simpa using ha
      · have := i.handles
        have hn := handleUsed_false_not_mem (by simpa using hu : s.handleUsed h' = false)
        simp only [State.handles, List.map_append, List.map_cons, List.map_nil] at this hn ⊢
        rw [← List.append_assoc]
        have : (h' ::
          (List.map (fun x => x.handle) s.hashSessions ++ List.map (fun x => x.handle) s.cipherSessions)).Nodup :=
            List.nodup_cons.2 ⟨hn, this⟩
        exact (List.perm_append_singleton _ _).nodup_iff.2 this

theorem hashDestroy_kept {s u : State} {t x} (h : hashDestroy t x s = .next u) : Kept s u := by
  unfold hashDestroy at h
  split at h
  · exact nomatch h
  · injection h with h; subst h
    refine Kept.trans ?_ (finish_kept _ _ _)
    refine ⟨⟨rfl, rfl, rfl, fun i => ⟨i.params, i.mem, i.aes, i.hash, i.intEn, i.intFlag, i.aesRing, i.hashRing, ?_, i.cipherSessions, ?_⟩⟩, fun r => by cases r <;> exact ⟨rfl, rfl, rfl⟩⟩
    · intro x hx; exact i.hashSessions x (List.mem_of_mem_filter hx)
    · have := i.handles
      unfold State.handles at this ⊢
      exact this.sublist ((List.filter_sublist.map _).append (List.Sublist.refl _))

theorem cipherDestroy_kept {s u : State} {t x} (h : cipherDestroy t x s = .next u) : Kept s u := by
  unfold cipherDestroy at h
  split at h
  · exact nomatch h
  · injection h with h; subst h
    refine Kept.trans ?_ (finish_kept _ _ _)
    refine ⟨⟨rfl, rfl, rfl, fun i => ⟨i.params, i.mem, i.aes, i.hash, i.intEn, i.intFlag, i.aesRing, i.hashRing, i.hashSessions, ?_, ?_⟩⟩, fun r => by cases r <;> exact ⟨rfl, rfl, rfl⟩⟩
    · intro x hx; exact i.cipherSessions x (List.mem_of_mem_filter hx)
    · have := i.handles
      unfold State.handles at this ⊢
      exact this.sublist ((List.Sublist.refl _).append (List.filter_sublist.map _))


theorem hashInitBody_kept {s u : State} {t dl x} (h : hashInitBody t dl x s = .next u) : Kept s u := by
  unfold hashInitBody at h
  split at h
  · injection h with h; subst h; exact leaveHash_kept _ _ _ _
  · split at h
    · injection h with h; subst h; exact leaveHash_kept _ _ _ _
    · split at h
      · exact nomatch h
      · refine hostAccess_kept h fun m hm h => ?_
        injection h with h; subst h
        refine Kept.trans (setMem_kept _ _ fun w => memWrite_wf hm w) (leaveHash_updHash_kept (fun _ => rfl) ?_)
        intro _ y _ _ hy
        exact ⟨HashAlg.blockSize_pos _, hy.2⟩

theorem hashUpdateStep_kept {s u : State} {t k h' x p n pc} (hx : s.hashSession h' = some x)
    (h : hashUpdateStep t k x p n s pc = .next u) : Kept s u := by
  have hh := hashSession_handle hx
  have hcopy :
    ∀ {a b : Nat} {m : Memory} {n :
      Nat}, ((memRead s.params s.mem a n).bind fun c => memWrite s.params s.mem b c) = .ok m → Memory.wf s.mem = true →
        Memory.wf m = true := by
    intro a b m n h w
    obtain ⟨c, _, h⟩ := Acc.bind_eq_ok.1 h
    exact memWrite_wf h w
  have huniq : ∀ {m}, (s.setMem m).Inv → ∀ y ∈ (s.setMem m).hashSessions, y.handle = x.handle → y = x := by
    intro m i y hy he
    exact hashSession_unique i (h := h') (x := x) hx hy (he.trans hh)
  unfold hashUpdateStep at h
  split at h
  · split at h
    · exact nomatch h
    · injection h with h; subst h; exact setTask_kept _ _ _
  · exact lockHash_kept h
  · simp only at h
    split at h
    · rename_i hlt
      refine hostAccess_kept h fun m hm h => ?_
      injection h with h; subst h
      refine Kept.trans (setMem_kept _ _ (hcopy hm)) (leaveHash_updHash_kept (fun _ => rfl) ?_)
      intro i y hy he hok
      have := huniq i y hy he
      subst this
      exact ⟨by show y.left + n < y.alg.blockSize; omega, hok.2⟩
    · refine hostAccess_kept h fun m hm h => ?_
      injection h with h; subst h
      exact (setMem_kept _ _ (hcopy hm)).trans (setTask_kept _ _ _)
  · injection h with h; subst h; exact setTask_kept _ _ _
  · split at h
    · exact nomatch h
    · injection h with h; subst h; exact setTask_kept _ _ _
  · split at h
    · split at h <;> injection h with h <;> subst h <;> exact setTask_kept _ _ _
    · injection h with h; subst h; exact failHash_kept _ _ _ _
    · injection h with h; subst h; exact .refl _
  · split at h
    · injection h with h; subst h; exact setTask_kept _ _ _
    · injection h with h; subst h; exact failHash_kept _ _ _ _
    · injection h with h; subst h; exact .refl _
  · simp only at h
    refine hostAccess_kept h fun m hm h => ?_
    injection h with h; subst h
    refine Kept.trans (setMem_kept _ _ (hcopy hm)) (leaveHash_updHash_kept (fun _ => rfl) ?_)
    intro i y hy he hok
    have := huniq i y hy he
    subst this
    exact ⟨Nat.mod_lt _ (HashAlg.blockSize_pos _), hok.2⟩

theorem hashFinalStep_kept {s u : State} {t k x pc} (h : hashFinalStep t k x s pc = .next u) : Kept s u := by
  unfold hashFinalStep at h
  split at h
  · split at h
    · exact nomatch h
    · injection h with h; subst h; exact setTask_kept _ _ _
  · exact lockHash_kept h
  · refine hostAccess_kept h fun m hm h => ?_
    have km := setMem_kept s m fun w => memWrite_wf hm w
    split at h
    · injection h with h; subst h; exact km.trans (setTask_kept _ _ _)
    · split at h
      · exact nomatch h
      · injection h with h; subst h; exact km.trans (setTask_kept _ _ _)
  · split at h
    · injection h with h; subst h; exact failHash_kept _ _ _ _
    · injection h with h; subst h; exact setTask_kept _ _ _
    · injection h with h; subst h; exact .refl _
  · split at h
    · refine hostAccess_kept h fun m hm h => ?_
      injection h with h; subst h
      exact leaveHash_updHash_kept (fun _ => rfl) fun _ _ _ _ hy => hy
    · injection h with h; subst h; exact failHash_kept _ _ _ _
    · injection h with h; subst h; exact .refl _

theorem hashSetkeyBody_kept {s u : State} {t p len x} (h : hashSetkeyBody t p len x s = .next u) : Kept s u := by
  unfold hashSetkeyBody at h
  split at h
  · injection h with h; subst h; exact leaveHash_kept _ _ _ _
  · refine hostAccess_kept h fun m hm h => ?_
    injection h with h; subst h
    obtain ⟨b, _, hm⟩ := Acc.bind_eq_ok.1 hm
    exact Kept.trans (setMem_kept _ _ fun w => memWrite_wf hm w)
      (leaveHash_updHash_kept (fun _ => rfl) fun _ _ _ _ hy => hy)

theorem hashSaveBody_kept {s u : State} {t x} (h : hashSaveBody t x s = .next u) : Kept s u := by
  unfold hashSaveBody at h
  refine hostAccess_kept h fun m hm h => ?_
  refine hostAccess_kept h fun m hm h => ?_
  injection h with h; subst h; exact leaveHash_kept _ _ _ _

theorem hashRestoreBody_kept {s u : State} {t p h' x} (hx : s.hashSession h' = some x)
    (h : hashRestoreBody t p x s = .next u) : Kept s u := by
  unfold hashRestoreBody at h
  split at h
  · injection h with h; subst h; exact leaveHash_kept _ _ _ _
  · rename_i ha
    split at h
    · exact nomatch h
    · rename_i hp
      split at h
      · exact nomatch h
      · refine hostAccess_kept h fun m hm h => ?_
        injection h with h; subst h
        obtain ⟨b, hb, hm⟩ := Acc.bind_eq_ok.1 hm
        refine Kept.trans (setMem_kept _ _ fun w => memWrite_wf hm (memWrite_wf hb w))
          (leaveHash_updHash_kept (fun _ => rfl) ?_)
        intro i y hy he hok
        have : y = x := hashSession_unique i (h := h') (x := x) hx hy (he.trans (hashSession_handle hx))
        subst this
        refine ⟨?_, hok.2⟩
        simp only [Snapshot.producible, Bool.not_eq_false, Bool.and_eq_true, decide_eq_true_eq] at hp
        simp only [ne_eq, not_not] at ha
        show p.left < y.alg.blockSize
        rw [← ha]; exact hp.1.1.1.1

theorem cipherSetkeyBody_kept {s u : State} {t p len x} (h : cipherSetkeyBody t p len x s = .next u) : Kept s u := by
  unfold cipherSetkeyBody at h
  split at h
  · injection h with h; subst h; exact leaveCipher_kept _ _ _ _
  · refine hostAccess_kept h fun m hm h => ?_
    injection h with h; subst h
    obtain ⟨b, _, hm⟩ := Acc.bind_eq_ok.1 hm
    exact Kept.trans (setMem_kept _ _ fun w => memWrite_wf hm w)
      (leaveCipher_updCipher_kept (fun _ => rfl) fun _ hy => hy)

theorem cryptPrologue_wf {x req s r} (h : cryptPrologue x req s = .ok r) (w : Memory.wf s.mem = true) :
    Memory.wf r.1 = true := by
  unfold cryptPrologue at h
  split at h
  · obtain ⟨m, h1, h⟩ := Acc.bind_eq_ok.1 h
    obtain ⟨iv, h2, h⟩ := Acc.bind_eq_ok.1 h
    obtain ⟨b, h3, h⟩ := Acc.bind_eq_ok.1 h
    injection h with h; subst h
    unfold loadIv at h1
    split at h1
    · injection h1 with h1; subst h1; exact w
    · obtain ⟨b, _, h1⟩ := Acc.bind_eq_ok.1 h1
      exact memWrite_wf h1 w
  · injection h with h; subst h; exact w

theorem cryptBody_kept {s u : State} {t k req x} (h : cryptBody t k req x s = .next u) : Kept s u := by
  unfold cryptBody at h
  split at h
  · exact nomatch h
  · split at h
    · exact nomatch h
    · have k1 : ∀ s :
      State, Kept s (s.updCipher x.handle fun y => { y with ctx := { y.ctx with status := ccSuccess } }) := fun s =>
        updCipher_kept _ _ _ (fun _ => rfl) fun _ hy => hy
      simp only at h
      split at h
      · injection h with h; subst h; exact (k1 s).trans (leaveCipher_kept _ _ _ _)
      · split at h
        · injection h with h; subst h; exact (k1 s).trans (leaveCipher_kept _ _ _ _)
        · split at h
          · injection h with h; subst h; exact (k1 s).trans (leaveCipher_kept _ _ _ _)
          · refine hostAccess_kept h fun m hm h => ?_
            injection h with h; subst h
            exact Kept.trans ((k1 s).trans (setMem_kept _ _ (cryptPrologue_wf hm)))
              (setTask_updCipher_kept (fun _ => rfl) fun _ hy => hy)

theorem startWalkQueue_kept {s u : State} {t x req w p q} (h : startWalkQueue t x req w p q s = .next u) : Kept s u :=
    by
  unfold startWalkQueue at h
  split at h
  · exact nomatch h
  · injection h with h; subst h; exact setTask_kept _ _ _

theorem walkPass_kept {s u : State} {t x req w} (h : walkPass t x req w s = .next u) : Kept s u := by
  unfold walkPass at h
  split at h
  · simp only at h
    split at h
    · refine hostAccess_kept h fun m hm h => ?_
      obtain ⟨b, _, hm⟩ := Acc.bind_eq_ok.1 hm
      exact (setMem_kept _ _ fun w => memWrite_wf hm w).trans (startWalkQueue_kept h)
    · exact startWalkQueue_kept h
  · injection h with h; subst h; exact .refl _

theorem writeIv_wf {x req w s m} (h : writeIv x req w s = .ok m) (hw : Memory.wf s.mem = true) : Memory.wf m = true :=
    by
  unfold writeIv at h
  split at h
  · obtain ⟨v, h1, h⟩ := Acc.bind_eq_ok.1 h
    obtain ⟨m1, h2, h⟩ := Acc.bind_eq_ok.1 h
    exact memWrite_wf h (memWrite_wf h2 hw)
  · injection h with h; subst h; exact hw

theorem aesMutex_kept (s : State) (m) : Kept s { s with aesRing := { s.aesRing with mutex := m } } :=
    setRing_kept s .aes _ rfl rfl rfl

theorem cryptStep_kept {s u : State} {t k x req pc} (h : cryptStep t k x req s pc = .next u) : Kept s u := by
  unfold cryptStep at h
  split at h
  · exact lockCipher_kept h
  · exact cryptBody_kept h
  · split at h
    · injection h with h; subst h; exact (aesMutex_kept _ _).trans (setTask_kept _ _ _)
    · injection h with h; subst h; exact .refl _
  · split at h
    · injection h with h; subst h; exact setTask_kept _ _ _
    · exact walkPass_kept h
  · split at h
    · simp only at h
      split at h <;> split at h <;> injection h with h <;> subst h <;> exact setTask_kept _ _ _
    · injection h with h; subst h; exact setTask_kept _ _ _
    · injection h with h; subst h; exact .refl _
  · split at h
    · split at h
      · injection h with h; subst h; exact setTask_kept _ _ _
      · refine hostAccess_kept h fun m hm h => ?_
        injection h with h; subst h
        obtain ⟨b, _, hm⟩ := Acc.bind_eq_ok.1 hm
        exact (setMem_kept _ _ fun w => sgWrite_wf hm w).trans (setTask_kept _ _ _)
    · injection h with h; subst h; exact setTask_kept _ _ _
    · injection h with h; subst h; exact .refl _
  · injection h with h; subst h; exact (aesMutex_kept _ _).trans (setTask_kept _ _ _)
  · split at h
    · injection h with h; subst h; exact leaveCipher_kept _ _ _ _
    · refine hostAccess_kept h fun m hm h => ?_
      injection h with h; subst h
      exact (setMem_kept _ _ (writeIv_wf hm)).trans (leaveCipher_kept _ _ _ _)

theorem and_intScope (v : Word) : (v &&& intScope) &&& ~~~intScope = 0 := by
  apply BitVec.eq_of_getLsbD_eq; intro i hi; simp; intro h h2; simp [h2]
theorem clearFlags_intScope (f v : Word) (h : f &&& ~~~intScope = 0) : clearFlags f v &&& ~~~intScope = 0 := by
  unfold clearFlags
  rw [BitVec.and_assoc, BitVec.and_comm (~~~v), ← BitVec.and_assoc, h]; simp

theorem writeReg_kept {s u : State} {off w v} (h : writeReg s off w v = .ok u) : Kept s u := by
  unfold writeReg at h
  split at h
  · exact nomatch h
  · have kb : ∀ e u, writeBaseReg s e v = .ok u → Kept s u := by
      intro e u h; unfold writeBaseReg at h; split at h
      · exact nomatch h
      · injection h with h; subst h; exact setEngine_kept _ _ _ fun _ => writeRingBase_aligned _
    have kc : ∀ e u, writeCtrlReg s e v = .ok u → Kept s u := by
      intro e u h; unfold writeCtrlReg at h; split at h
      · exact nomatch h
      · injection h with h; subst h; exact setEngine_kept _ _ _ fun i => writeRingCtrl_aligned _ (inv_aligned i e)
    split at h
    · exact kb _ _ h
    · exact kc _ _ h
    · exact kb _ _ h
    · exact kc _ _ h
    · split at h
      · injection h with h; subst h; exact .refl _
      · exact nomatch h
    · split at h
      · injection h with h; subst h; exact .refl _
      · exact nomatch h
    · split at h
      · injection h with h; subst h
        exact ⟨⟨rfl, rfl, rfl, fun i => ⟨i.params, i.mem, i.aes, i.hash, and_intScope v, i.intFlag, i.aesRing, i.hashRing, i.hashSessions, i.cipherSessions, i.handles⟩⟩, fun r => by cases r <;> exact ⟨rfl, rfl, rfl⟩⟩
      · exact nomatch h
    · split at h
      · injection h with h; subst h
        exact ⟨⟨rfl, rfl, rfl, fun i => ⟨i.params, i.mem, i.aes, i.hash, i.intEn, clearFlags_intScope _ _ i.intFlag, i.aesRing, i.hashRing, i.hashSessions, i.cipherSessions, i.handles⟩⟩, fun r => by cases r <;> exact ⟨rfl, rfl, rfl⟩⟩
      · exact nomatch h
    · exact nomatch h

theorem finishPlain_kept {s u : State} {t k} (h : finishPlain t k s = .next u) : Kept s u := by
  unfold finishPlain at h
  split at h <;> injection h with h <;> subst h <;> first | exact finish_kept _ _ _ | exact .refl _

theorem onHash_kept {s u : State} {h'} {f : HashSession → Step} (h : onHash s h' f = .next u)
    (hf : ∀ x, s.hashSession h' = some x → f x = .next u → Kept s u) : Kept s u := by
  unfold onHash at h; split at h
  · exact hf _ ‹_› h
  · exact nomatch h
theorem onCipher_kept {s u : State} {h'} {f : CipherSession → Step} (h : onCipher s h' f = .next u)
    (hf : ∀ x, f x = .next u → Kept s u) : Kept s u := by
  unfold onCipher at h; split at h
  · exact hf _ h
  · exact nomatch h

theorem jobStep_kept {s u : State} {t k} (h : jobStep t k s = .next u) :
    KeptButRings s u ∧ ((∀ r b, k.job ≠ .ringReset r b) → Kept s u) := by
  by_cases hr : ∃ r b, k.job = .ringReset r b
  · obtain ⟨r, b, hr⟩ := hr
    refine ⟨?_, fun h => absurd hr (h r b)⟩
    unfold jobStep at h; rw [hr] at h; exact ringReset_kept h
  suffices Kept s u from ⟨this.toKeptButRings, fun _ => this⟩
  unfold jobStep at h
  cases hj : k.job <;> rw [hj] at h <;> simp only at h
  case ringReset r b => exact absurd ⟨r, b, hj⟩ hr
  case queue => exact finishPlain_kept h
  case execute => exact finishPlain_kept h
  case hashCreate => exact hashCreate_kept h
  case hashInit h' dl pc =>
    refine onHash_kept h fun x hx h => ?_
    split at h
    · exact hashInitBody_kept h
    · exact lockHash_kept h
  case hashUpdate => exact onHash_kept h fun x hx h => hashUpdateStep_kept hx h
  case hashFinal => exact onHash_kept h fun x hx h => hashFinalStep_kept h
  case hashSetkey h' p len pc =>
    refine onHash_kept h fun x hx h => ?_
    split at h
    · split at h
      · exact nomatch h
      · injection h with h; subst h; exact setTask_kept _ _ _
    · exact lockHash_kept h
    · exact hashSetkeyBody_kept h
  case hashSave h' pc =>
    refine onHash_kept h fun x hx h => ?_
    split at h
    · split at h
      · exact nomatch h
      · injection h with h; subst h; exact setTask_kept _ _ _
    · exact lockHash_kept h
    · exact hashSaveBody_kept h
  case hashRestore h' sn pc =>
    refine onHash_kept h fun x hx h => ?_
    split at h
    · exact hashRestoreBody_kept hx h
    · exact lockHash_kept h
  case hashDestroy => exact onHash_kept h fun x hx h => hashDestroy_kept h
  case cipherCreate => exact cipherCreate_kept h
  case cipherSetkey h' p len pc =>
    refine onCipher_kept h fun x h => ?_
    split at h
    · exact cipherSetkeyBody_kept h
    · exact lockCipher_kept h
  case crypt => exact onCipher_kept h fun x h => cryptStep_kept h
  case cipherDestroy => exact onCipher_kept h fun x h => cipherDestroy_kept h
  case regRead =>
    split at h
    · injection h with h; subst h; exact finish_kept _ _ _
    · exact nomatch h
  case regWrite =>
    split at h
    · rename_i hw; injection h with h; subst h; exact (writeReg_kept hw).trans (finish_kept _ _ _)
    · exact nomatch h
  case load =>
    refine hostAccess_kept h fun m hm h => ?_
    injection h with h; subst h; exact finish_kept _ _ _
  case store =>
    refine hostAccess_kept h fun m hm h => ?_
    injection h with h; subst h; exact (setMem_kept _ _ fun w => memWrite_wf hm w).trans (finish_kept _ _ _)
  case barrier => injection h with h; subst h; exact finish_kept _ _ _

theorem hostStep_kept {s u : State} {t} (h : hostStep t s = .next u) : KeptButRings s u ∧
   ((∀ k r b, (s.thread t).task = some k → k.job ≠ .ringReset r b) →
     (∀ k q held, (s.thread t).task = some k → k.sub ≠ some (.queue q (.take held))) → Kept s u) := by
  unfold hostStep at h
  simp only at h
  split at h
  · injection h with h; subst h; exact ⟨.refl _, fun _ _ => .refl _⟩
  · split at h
    · injection h with h; subst h; exact ⟨.refl _, fun _ _ => .refl _⟩
    · rename_i k hk
      unfold taskStep at h
      split at h
      · rename_i q ph hs
        have := queueStep_kept h
        exact ⟨this.1, fun _ h2 => this.2 fun held hp => h2 k q held hk (by rw [hs, hp])⟩
      · have := execStep_kept h
        exact ⟨this.toKeptButRings, fun _ _ => this⟩
      · have := jobStep_kept h
        exact ⟨this.1, fun h1 _ => this.2 fun r b => h1 k r b hk⟩

end Sys2Proof.Laws
end

