-- ==== Sys2Proof/Laws/KeptSteps.lean ====
section
/-! SUPPORT. What the steps of an engine and of the dispatcher and the other events keep. -/

namespace Sys2Proof.Laws

open Sys2Proof Sys2Proof.Machine

theorem add32_aligned (x : Word) (h : x &&& 0x1F = 0) : (x + 32) &&& 0x1F = 0 := by
  have e : (0x1F : Word) = BitVec.ofNat 32 (2^5 - 1) := rfl
  have h2 : x.toNat % 32 = 0 := by
    have := congrArg BitVec.toNat h
    rw [BitVec.toNat_and] at this
    have e : (0x1F : Word).toNat = 2 ^ 5 - 1 := rfl
    rw [e, Nat.and_two_pow_sub_one_eq_mod] at this
    simpa using this
  apply BitVec.eq_of_toNat_eq
  rw [BitVec.toNat_and]
  have e : (0x1F : Word).toNat = 2 ^ 5 - 1 := rfl
  rw [e, Nat.and_two_pow_sub_one_eq_mod, BitVec.toNat_add]
  have : (32 : Word).toNat = 32 := rfl
  rw [this]; simp; omega

theorem setEngine_fields (s : State) (e x) :
    s.setEngine e x = { s with mem := (s.setEngine e x).mem, aes := (s.setEngine e x).aes, hash := (s.setEngine e x).hash, chain := (s.setEngine e x).chain, chainValid := (s.setEngine e x).chainValid, intFlag := (s.setEngine e x).intFlag } := by cases e <;> rfl
theorem engine_setEngine_other (s : State) (e f x) (hf : f ≠ e) : (s.setEngine e x).engine f = s.engine f := by
    cases f <;> cases e <;> first | rfl | exact absurd rfl hf

/-- What a command does is the link's effect, or the shared run of a cipher or a hash with a block function
whose outputs have the algorithm's length. -/
theorem exec_forms (i : Instr) (s : State) :
    (∃ c tc dp, i = .link c tc dp) ∨
    (∃ (a : CipherAlg) (d : Trb) (blk : List Byte → BlockFn), (∀ k ch x, (blk k ch x).1.length = a.blockSize) ∧
      exec i s = runCipher a d blk s) ∨
    (∃ (a : HashAlg) (d : Trb) (f : CompressFn), (∀ st x k, (f st x k).length = a.stateLen) ∧
      exec i s = runHash a d f s) := by
  cases i with
  | link c tc dp => exact .inl ⟨c, tc, dp, rfl⟩
  | aesEcbEnc d => exact .inr (.inl ⟨.ecb, d, ecbEncBlock, fun _ _ _ => by simp [ecbEncBlock, CipherAlg.blockSize], rfl⟩)
  | aesEcbDec d => exact .inr (.inl ⟨.ecb, d, ecbDecBlock, fun _ _ _ => by simp [ecbDecBlock, CipherAlg.blockSize], rfl⟩)
  | aesCbcEnc d => exact .inr (.inl ⟨.cbc, d, cbcEncBlock, fun _ _ _ => by simp [cbcEncBlock, CipherAlg.blockSize], rfl⟩)
  | aesCbcDec d => exact .inr (.inl ⟨.cbc, d, cbcDecBlock, fun _ _ _ => by simp [cbcDecBlock, CipherAlg.blockSize], rfl⟩)
  | aesCtr _ d => exact .inr (.inl ⟨.ctr, d, ctrBlock s.params.ctrEndian,
      fun _ _ _ => by simp [ctrBlock, CipherAlg.blockSize], rfl⟩)
  | chacha20 _ d => exact .inr (.inl ⟨.chacha20, d, chacha20BlockFn s.params.ctrEndian,
      fun _ _ _ => by simp [chacha20BlockFn, CipherAlg.blockSize], rfl⟩)
  | md5 _ d => exact .inr (.inr ⟨.md5, d, md5Block, fun _ _ _ => by simp [md5Block, HashAlg.stateLen], rfl⟩)
  | sha3_224 _ d => exact .inr (.inr ⟨.sha3_224, d, keccakBlock 144,
      fun _ _ _ => by simp [keccakBlock, HashAlg.stateLen], rfl⟩)
  | sha3_256 _ d => exact .inr (.inr ⟨.sha3_256, d, keccakBlock 136,
      fun _ _ _ => by simp [keccakBlock, HashAlg.stateLen], rfl⟩)
  | sha3_384 _ d => exact .inr (.inr ⟨.sha3_384, d, keccakBlock 104,
      fun _ _ _ => by simp [keccakBlock, HashAlg.stateLen], rfl⟩)
  | sha3_512 _ d => exact .inr (.inr ⟨.sha3_512, d, keccakBlock 72,
      fun _ _ _ => by simp [keccakBlock, HashAlg.stateLen], rfl⟩)
  | ghash _ d => exact .inr (.inr ⟨.ghash, d, ghashBlock, fun _ _ _ => by simp [ghashBlock, HashAlg.stateLen], rfl⟩)

/-- What a command executed by engine `e` keeps. -/
structure ExecKept (e : EngineId) (s t : State) : Prop where
  params : t.params = s.params
  inv : s.Inv → t.Inv
  chain : e = .hash → t.chain = s.chain ∧ t.chainValid = s.chainValid
  chainValid : s.chainValid = true → t.chainValid = true
  other : ∀ f, f ≠ e → t.engine f = s.engine f
  ringBase : (t.engine e).ringBase = (s.engine e).ringBase
  rcs : (t.engine e).rcs = (s.engine e).rcs
  rest : t = { s with
    mem := t.mem, aes := t.aes, hash := t.hash, chain := t.chain, chainValid := t.chainValid,
    intFlag := t.intFlag, cur := t.cur }

/-- Storing an engine whose DQ and RING_BASE are aligned. -/
theorem setEngine_execKept (s : State) (e : EngineId) (x : Engine) (h : s.Inv → x.aligned)
    (hb : x.ringBase = (s.engine e).ringBase) (hr : x.rcs = (s.engine e).rcs) : ExecKept e s (s.setEngine e x) := by
  have k := setEngine_kept s e x h
  refine ⟨k.params, k.inv, fun _ => ⟨k.chain, k.chainValid⟩, fun h => k.chainValid.trans h,
    fun f hf => engine_setEngine_other _ _ _ _ hf, ?_, ?_, ?_⟩
  · rw [State.engine_setEngine_same, hb]
  · rw [State.engine_setEngine_same, hr]
  · cases e <;> rfl

/-- The completion keeps what the data operation kept. -/
theorem complete_execKept {s u t : State} {d : Trb} {cc : BitVec 7}
    (hu : u = { s with mem := u.mem, chain := u.chain, chainValid := u.chainValid })
    (w : Memory.wf s.mem = true → Memory.wf u.mem = true)
    (hch : s.cur = .hash → u.chain = s.chain ∧ u.chainValid = s.chainValid)
    (hcv : s.chainValid = true → u.chainValid = true) (h : complete d cc u = .ok t) : ExecKept s.cur s t := by
  obtain ⟨h1, rfl⟩ := complete_eq_ok.1 h
  have hcur : u.cur = s.cur := by rw [hu]
  have he : ∀ f, u.engine f = s.engine f := by intro f; rw [hu]; cases f <;> rfl
  unfold completedState
  refine ⟨?_, ?_, ?_, ?_, ?_, ?_, ?_, ?_⟩
  · rw [State.params_setEngine, hu]
  · intro i
    have i2 : u.Inv := by
      rw [hu]; exact ⟨i.params, w i.mem, i.aes, i.hash, i.intEn, i.intFlag, i.aesRing, i.hashRing, i.hashSessions, i.cipherSessions, i.handles⟩
    refine (setEngine_kept _ _ _ ?_).inv ?_
    · intro _
      have := inv_aligned i2 u.cur
      exact ⟨add32_aligned _ this.1, this.2⟩
    · refine ⟨i2.params, Memory.writeBytes_wf i2.mem h1.1, i2.aes, i2.hash, i2.intEn, ?_, i2.aesRing, i2.hashRing,
      i2.hashSessions, i2.cipherSessions, i2.handles⟩
      show (if d.ioc then u.intFlag ||| doneBit u.cur else u.intFlag) &&& ~~~intScope = 0
      split
      · rw [BitVec.and_comm, BitVec.and_or_distrib_left]
        rw [BitVec.and_comm, i2.intFlag]
        cases u.cur <;> decide
      · exact i2.intFlag
  · intro h; rw [State.chain_setEngine, State.chainValid_setEngine]; exact hch h
  · intro h; rw [State.chainValid_setEngine]; exact hcv h
  · intro f hf
    rw [engine_setEngine_other _ _ _ _ (by rw [hcur]; exact hf), ← he f]
    cases f <;> rfl
  · rw [hcur, State.engine_setEngine_same, ← he]
  · rw [hcur, State.engine_setEngine_same, ← he]
  · rw [hcur, setEngine_fields]
    rw [hu]

/-- The run of a command whose data operation changes memory and, on the AES engine, CHAIN only. -/
theorem runCommand_execKept {a : Alg} {d : Trb} {data : State → Acc State} {s t : State}
    (hd : ∀ u, data s = .ok u → u = { s with mem := u.mem, chain := u.chain, chainValid := u.chainValid } ∧
      (Memory.wf s.mem = true → Memory.wf u.mem = true) ∧
      (a.engine = .hash → u.chain = s.chain ∧ u.chainValid = s.chainValid) ∧
      (s.chainValid = true → u.chainValid = true))
    (h : runCommand a d data s = .next t) : ExecKept s.cur s t := by
  obtain ⟨hc, h⟩ := runCommand_next h
  rcases h with ⟨_, h⟩ | ⟨_, _, _, u, hu, h⟩ | h
  · exact complete_execKept rfl id (fun _ => ⟨rfl, rfl⟩) id h
  · obtain ⟨d1, d2, d3, d4⟩ := hd u hu
    exact complete_execKept d1 d2 (fun e => d3 (hc ▸ e)) d4 h
  · subst h
    exact setEngine_execKept s s.cur _ (fun i => inv_aligned i _) rfl rfl

/-- What every command keeps. -/
theorem exec_kept {i : Instr} {s t : State} (h : exec i s = .next t) : ExecKept s.cur s t := by
  rcases exec_forms i s with ⟨c, tc, dp, rfl⟩ | ⟨a, d, blk, hl, he⟩ | ⟨a, d, f, hl, he⟩
  · simp only [exec, execLink] at h
    injection h with h; subst h
    exact setEngine_execKept s s.cur _ (fun i => ⟨alignBase_aligned _, (inv_aligned i _).2⟩) rfl rfl
  · rw [he, runCipher] at h
    refine runCommand_execKept ?_ h
    intro u hu
    obtain ⟨key, cv, r, h1, h2, h3, rfl⟩ := cipherData_ok hu
    refine ⟨rfl, fun w => (cipherBlocks_ok (m' := r.1) (ch' := r.2) h3 (hl key) w).1, (fun h => nomatch h),
      fun hv => ?_⟩
    unfold loadChain at h2
    split at h2
    · obtain ⟨b, _, h2⟩ := Acc.bind_eq_ok.1 h2; injection h2 with h2; rw [← h2]
    · injection h2 with h2; rw [← h2]; exact hv
  · rw [he, runHash] at h
    refine runCommand_execKept ?_ h
    intro u hu
    obtain ⟨st, key, st', m, h1, h2, h3, h4, rfl⟩ := hashData_ok hu
    exact ⟨rfl, fun w => memWrite_wf h4 w, fun _ => ⟨rfl, rfl⟩, id⟩

/-- What a step of engine `e` keeps. -/
theorem engineStep_kept {e : EngineId} {s t : State} (h : engineStep e s = .next t) : ExecKept e s t := by
  rcases engineStep_next h with rfl | rfl | rfl | ⟨d, _, rfl | ⟨_, i, _, h⟩⟩
  · exact ⟨rfl, id, fun _ => ⟨rfl, rfl⟩, id, fun _ _ => rfl, rfl, rfl, rfl⟩
  · exact setEngine_execKept s e _ (fun i => inv_aligned i e) rfl rfl
  · exact setEngine_execKept s e _ (fun i => inv_aligned i e) rfl rfl
  · exact setEngine_execKept s e _ (fun i => inv_aligned i e) rfl rfl
  · have k := exec_kept h
    have l := setEngine_execKept s e { s.engine e with latch := d } (fun i => inv_aligned i e) rfl rfl
    have ce : ∀ (s : State) c f, ({ s with cur := c } : State).engine f = s.engine f := fun s c f => by cases f <;> rfl
    refine ⟨k.params.trans l.params, fun i => k.inv ?_, ?_, fun v => k.chainValid (l.chainValid v), ?_, ?_, ?_, ?_⟩
    · have j := l.inv i
      exact ⟨j.params, j.mem, j.aes, j.hash, j.intEn, j.intFlag, j.aesRing, j.hashRing, j.hashSessions, j.cipherSessions,
        j.handles⟩
    · intro he
      exact ⟨(k.chain he).1.trans (l.chain he).1, (k.chain he).2.trans (l.chain he).2⟩
    · intro f hf; rw [k.other f hf, ce]; exact l.other f hf
    · rw [show (t.engine e).ringBase = _ from k.ringBase, ce]; exact l.ringBase
    · rw [show (t.engine e).rcs = _ from k.rcs, ce]; exact l.rcs
    · cases e <;> (rw [k.rest]; rfl)

theorem release_kept {r s t} (h : release r s = .next t) :
    KeptButRings s t ∧ ∀ q, (t.ring q).tail = (s.ring q).tail ∧ (t.ring q).pcs = (s.ring q).pcs := by
  rcases release_next h with rfl | rfl | ⟨b, m, h1, h2, h3, h4, rfl⟩
  · cases r <;> exact ⟨⟨rfl, rfl, rfl, fun i => ⟨i.params, i.mem, i.aes, i.hash, i.intEn, i.intFlag, i.aesRing, i.hashRing, i.hashSessions, i.cipherSessions, i.handles⟩⟩, fun q => by cases q <;> exact ⟨rfl, rfl⟩⟩
  · exact ⟨⟨rfl, rfl, rfl, fun i => ⟨i.params, i.mem, i.aes, i.hash, i.intEn, i.intFlag, i.aesRing, i.hashRing, i.hashSessions, i.cipherSessions, i.handles⟩⟩, fun q => by cases q <;> exact ⟨rfl, rfl⟩⟩
  · refine ⟨((setMem_kept s m fun w => memWrite_wf h4 w).toKeptButRings.trans (setRing_kept_inv _ _ _ ?_)).trans
    (updCtx_kept _ _ _).toKeptButRings, ?_⟩
    · intro i
      have h1 : (s.ring r).cursorsOk (s.slots r) := by
        have := inv_cursorsOk i r
        cases r <;> exact this
      refine ⟨?_, h1.2⟩
      show nextSlot (s.slots r) (s.ring r).head ≤ s.slots r - 2
      unfold nextSlot; split <;> omega
    · intro q; cases r <;> cases q <;> exact ⟨rfl, rfl⟩

theorem dispatcherStep_kept {s t} (h : dispatcherStep s = .next t) :
    KeptButRings s t ∧ ∀ q, (t.ring q).tail = (s.ring q).tail ∧ (t.ring q).pcs = (s.ring q).pcs := by
  rcases dispatcherStep_next h with rfl | rfl | ⟨_, _, rfl⟩ | ⟨r, h⟩
  · exact ⟨.refl _, fun _ => ⟨rfl, rfl⟩⟩
  · exact ⟨⟨rfl, rfl, rfl, fun i => ⟨i.params, i.mem, i.aes, i.hash, i.intEn, i.intFlag, i.aesRing, i.hashRing, i.hashSessions, i.cipherSessions, i.handles⟩⟩, fun q => by cases q <;> exact ⟨rfl, rfl⟩⟩
  · refine ⟨⟨rfl, rfl, rfl,
    fun i => ⟨i.params, i.mem, i.aes, i.hash, i.intEn, clearFlags_intScope _ _ i.intFlag, ?_, ?_, i.hashSessions,
      i.cipherSessions, i.handles⟩⟩, fun q => ?_⟩
    · unfold dispatchEntry; simp only; split
      · exact i.aesRing
      · exact i.aesRing
    · unfold dispatchEntry; simp only; split
      · exact i.hashRing
      · exact i.hashRing
    · unfold dispatchEntry
      cases q <;> simp only [State.ring] <;> split <;> exact ⟨rfl, rfl⟩
  · exact release_kept h

theorem erfBit_intScope (f : Word) (e) (h : f &&& ~~~intScope = 0) : (f ||| erfBit e) &&& ~~~intScope = 0 := by
  rw [BitVec.and_comm, BitVec.and_or_distrib_left, BitVec.and_comm, h]
  cases e <;> decide

theorem interruptThread_kept (s : State) (t) (f : Task → State → State) (hf : ∀ k s, Kept s (f k s)) :
    Kept s (interruptThread t f s) := by
  unfold interruptThread; simp only
  split
  · exact .refl _
  · split
    · exact .refl _
    · exact hf _ _

theorem beginOp_kept (s : State) (t op) : Kept s (beginOp t op s) := by
  unfold beginOp; simp only; split
  · exact .refl _
  · exact setThread_kept _ _

theorem takeEvent_kept (s : State) : Kept s (takeEvent s).2 := by
  rcases takeEvent_snd s with h | ⟨_, h⟩ <;> rw [h] <;>
    exact ⟨⟨rfl, rfl, rfl, fun i => ⟨i.params, i.mem, i.aes, i.hash, i.intEn, i.intFlag, i.aesRing, i.hashRing, i.hashSessions, i.cipherSessions, i.handles⟩⟩, fun q => by cases q <;> exact ⟨rfl, rfl, rfl⟩⟩

end Sys2Proof.Laws
end

