-- ==== Sys2Proof/Laws/PerInstr.lean ====
section
/-! SUPPORT. Statements about every command as syntax, one lemma for each constructor of `Instr`. -/

namespace Sys2Proof.Laws

/-- A row of the table that tests ALG alone selects the descriptors of its code (30_encoding.md R129). -/
theorem alg_row_selects (a : BitVec 4) (dir : Bool) (d : Trb) (n : String) :
    (OpcodeRow.mk n (BitVec.zeroExtend 64 a <<< 32) 0x0F00000C00).selects (encodeTrb a dir d) = true := by
  simp only [OpcodeRow.selects, Descriptor.key, encodeTrb, ctrlWord, modeWord, beq_iff_eq]
  apply BitVec.eq_of_getLsbD_eq
  intro i hi
  have h : (0x0F00000C00#64).getLsbD i = decide (i = 10 ∨ i = 11 ∨ i = 32 ∨ i = 33 ∨ i = 34 ∨ i = 35) := by
    revert i; decide
  simp only [BitVec.getLsbD_and, BitVec.getLsbD_append, BitVec.getLsbD_shiftLeft, BitVec.getLsbD_setWidth, hi,
    decide_true, Bool.true_and]
  by_cases h' : i = 10 ∨ i = 11 ∨ i = 32 ∨ i = 33 ∨ i = 34 ∨ i = 35
  · rcases h' with rfl | rfl | rfl | rfl | rfl | rfl <;> simp
  · have hf : (0x0F00000C00#64).getLsbD i = false := by rw [h]; simpa using h'
    have : i < 32 ∨ 36 ≤ i := by omega
    rcases this with h'' | h''
    · simp [hf, h'']
    · simp [hf, show ¬ i < 32 by omega, show 4 ≤ i - 32 by omega]

/-- A row of the table that tests ALG and DIR selects the descriptors of its code and direction
(30_encoding.md R129). -/
theorem dir_row_selects (a : BitVec 4) (dir : Bool) (d : Trb) (n : String) :
    (OpcodeRow.mk n (BitVec.zeroExtend 64 (BitVec.ofBool dir ++ a) <<< 32) 0x1F00000C00).selects
      (encodeTrb a dir d) = true := by
  simp only [OpcodeRow.selects, Descriptor.key, encodeTrb, ctrlWord, modeWord, beq_iff_eq]
  apply BitVec.eq_of_getLsbD_eq
  intro i hi
  have h : (0x1F00000C00#64).getLsbD i =
      decide (i = 10 ∨ i = 11 ∨ i = 32 ∨ i = 33 ∨ i = 34 ∨ i = 35 ∨ i = 36) := by
    revert i; decide
  simp only [BitVec.getLsbD_and, BitVec.getLsbD_append, BitVec.getLsbD_shiftLeft, BitVec.getLsbD_setWidth, hi,
    decide_true, Bool.true_and]
  by_cases h' : i = 10 ∨ i = 11 ∨ i = 32 ∨ i = 33 ∨ i = 34 ∨ i = 35 ∨ i = 36
  · rcases h' with rfl | rfl | rfl | rfl | rfl | rfl | rfl <;> simp
  · have hf : (0x1F00000C00#64).getLsbD i = false := by rw [h]; simpa using h'
    have : i < 32 ∨ 37 ≤ i := by omega
    rcases this with h'' | h''
    · simp [hf, h'']
    · simp [hf, show ¬ i < 32 by omega, show ¬ i - 32 < 4 by omega, BitVec.getLsbD_of_ge _ (i - 32 - 4) (show 1 ≤ i - 32 - 4 by omega)]

namespace Length

/-- A command is 32 bytes (30_encoding.md R110). -/
def Statement (i : Instr) : Prop := (encode i).length = Config.trbBytes

theorem link (c tc : Bool) (dptr : Word) : Statement (.link c tc dptr) := encode_length _

theorem aesEcbEnc (d : Trb) : Statement (.aesEcbEnc d) := encode_length _

theorem aesEcbDec (d : Trb) : Statement (.aesEcbDec d) := encode_length _

theorem aesCbcEnc (d : Trb) : Statement (.aesCbcEnc d) := encode_length _

theorem aesCbcDec (d : Trb) : Statement (.aesCbcDec d) := encode_length _

theorem aesCtr (dir : Bool) (d : Trb) : Statement (.aesCtr dir d) := encode_length _

theorem chacha20 (dir : Bool) (d : Trb) : Statement (.chacha20 dir d) := encode_length _

theorem md5 (dir : Bool) (d : Trb) : Statement (.md5 dir d) := encode_length _

theorem sha3_224 (dir : Bool) (d : Trb) : Statement (.sha3_224 dir d) := encode_length _

theorem sha3_256 (dir : Bool) (d : Trb) : Statement (.sha3_256 dir d) := encode_length _

theorem sha3_384 (dir : Bool) (d : Trb) : Statement (.sha3_384 dir d) := encode_length _

theorem sha3_512 (dir : Bool) (d : Trb) : Statement (.sha3_512 dir d) := encode_length _

theorem ghash (dir : Bool) (d : Trb) : Statement (.ghash dir d) := encode_length _

end Length

namespace Selected

/-- A row of the opcode table with the command's name selects its descriptor (30_encoding.md R129, R132). -/
def Statement (i : Instr) : Prop :=
  ∃ r ∈ opcodeTable, r.mnemonic = i.mnemonic ∧ r.selects (encodeDescriptor i) = true

/-- The row at a place of the table is the command's. -/
theorem of_row (i : Instr) (k : Nat) (hk : k < opcodeTable.length) (hm : opcodeTable[k].mnemonic = i.mnemonic)
    (hs : opcodeTable[k].selects (encodeDescriptor i) = true) : Statement i :=
  ⟨opcodeTable[k], List.getElem_mem hk, hm, hs⟩

theorem link (c tc : Bool) (dptr : Word) : Statement (.link c tc dptr) := by
  refine of_row _ 0 (by decide) rfl ?_
  simp only [opcodeTable, List.getElem_cons_zero, OpcodeRow.selects, Descriptor.key, encodeDescriptor, ctrlWord,
    beq_iff_eq]
  cases c <;> cases tc <;> decide

theorem aesEcbEnc (d : Trb) : Statement (.aesEcbEnc d) :=
  of_row _ 1 (by decide) rfl (dir_row_selects 0 false d _)

theorem aesEcbDec (d : Trb) : Statement (.aesEcbDec d) :=
  of_row _ 2 (by decide) rfl (dir_row_selects 0 true d _)

theorem aesCbcEnc (d : Trb) : Statement (.aesCbcEnc d) :=
  of_row _ 3 (by decide) rfl (dir_row_selects 1 false d _)

theorem aesCbcDec (d : Trb) : Statement (.aesCbcDec d) :=
  of_row _ 4 (by decide) rfl (dir_row_selects 1 true d _)

theorem aesCtr (dir : Bool) (d : Trb) : Statement (.aesCtr dir d) :=
  of_row _ 5 (by decide) rfl (alg_row_selects 2 dir d _)

theorem chacha20 (dir : Bool) (d : Trb) : Statement (.chacha20 dir d) :=
  of_row _ 6 (by decide) rfl (alg_row_selects 3 dir d _)

theorem md5 (dir : Bool) (d : Trb) : Statement (.md5 dir d) :=
  of_row _ 7 (by decide) rfl (alg_row_selects 4 dir d _)

theorem sha3_224 (dir : Bool) (d : Trb) : Statement (.sha3_224 dir d) :=
  of_row _ 8 (by decide) rfl (alg_row_selects 5 dir d _)

theorem sha3_256 (dir : Bool) (d : Trb) : Statement (.sha3_256 dir d) :=
  of_row _ 9 (by decide) rfl (alg_row_selects 6 dir d _)

theorem sha3_384 (dir : Bool) (d : Trb) : Statement (.sha3_384 dir d) :=
  of_row _ 10 (by decide) rfl (alg_row_selects 7 dir d _)

theorem sha3_512 (dir : Bool) (d : Trb) : Statement (.sha3_512 dir d) :=
  of_row _ 11 (by decide) rfl (alg_row_selects 8 dir d _)

theorem ghash (dir : Bool) (d : Trb) : Statement (.ghash dir d) :=
  of_row _ 12 (by decide) rfl (alg_row_selects 9 dir d _)

end Selected

end Sys2Proof.Laws
end

