-- ==== Sys2Proof/Laws/Sessions.lean ====
section
/-! SUPPORT. What a session update reads as, what unlocking a ring changes, and the memory of a ring reset. -/

namespace Sys2Proof.Laws

open Sys2Proof Sys2Proof.Machine

theorem ctx_setThread (s : State) (x h) : (s.setThread x).ctx h = s.ctx h := rfl
theorem ctx_setMem (s : State) (x h) : (s.setMem x).ctx h = s.ctx h := rfl
theorem ctx_setRing (s : State) (r x h) : (s.setRing r x).ctx h = s.ctx h := by cases r <;> rfl
theorem find_map_hash (l : List HashSession) (h g : Handle) (f : HashSession → HashSession)
    (hf : ∀ y, (f y).handle = y.handle) :
    (l.map fun x => if x.handle = h then f x else x).find? (fun x => x.handle == g) =
      (l.find? fun x => x.handle == g).map fun x => if x.handle = h then f x else x := by
  induction l with
  | nil => rfl
  | cons y l ih =>
    rw [List.map_cons, List.find?_cons, List.find?_cons, ih]
    have : (if y.handle = h then f y else y).handle = y.handle := by split; exact hf y; rfl
    rw [this]; split <;> rfl
theorem find_map_cipher (l : List CipherSession) (h g : Handle) (f : CipherSession → CipherSession)
    (hf : ∀ y, (f y).handle = y.handle) :
    (l.map fun x => if x.handle = h then f x else x).find? (fun x => x.handle == g) =
      (l.find? fun x => x.handle == g).map fun x => if x.handle = h then f x else x := by
  induction l with
  | nil => rfl
  | cons y l ih =>
    rw [List.map_cons, List.find?_cons, List.find?_cons, ih]
    have : (if y.handle = h then f y else y).handle = y.handle := by split; exact hf y; rfl
    rw [this]; split <;> rfl
theorem hashSession_updHash (s : State) (h g f) (hf : ∀ y, (f y).handle = y.handle) :
    (s.updHash h f).hashSession g = (s.hashSession g).map fun x => if x.handle = h then f x else x :=
      find_map_hash _ _ _ _ hf
theorem cipherSession_updCipher (s : State) (h g f) (hf : ∀ y, (f y).handle = y.handle) :
    (s.updCipher h f).cipherSession g = (s.cipherSession g).map fun x => if x.handle = h then f x else x :=
      find_map_cipher _ _ _ _ hf

theorem cipherSession_handle {s : State} {h x} (hx : s.cipherSession h = some x) : x.handle = h := by
    simpa using List.find?_some hx

theorem ctx_updCtx (s : State) (h g : Handle) (f) :
    (s.updCtx h f).ctx g = (s.ctx g).map fun c => if g = h then f c else c := by
  have e1 : (s.updCtx h f).hashSession g = (s.hashSession g).map fun x => if x.handle = h then { x with ctx := f x.ctx } else x :=
    hashSession_updHash s h g (fun x => { x with ctx := f x.ctx }) (fun _ => rfl)
  have e2 : (s.updCtx h f).cipherSession g = (s.cipherSession g).map fun x => if x.handle = h then { x with ctx := f x.ctx } else x :=
    cipherSession_updCipher (s.updHash h fun x => { x with ctx := f x.ctx }) h g (fun x => { x with ctx := f x.ctx }) (fun _ => rfl)
  unfold State.ctx
  rw [e1, e2]
  cases hh : s.hashSession g with
  | some x =>
    have := hashSession_handle hh
    simp only [Option.map_some, this]
    split <;> rfl
  | none =>
    simp only [Option.map_none]
    cases hc : s.cipherSession g with
    | some x =>
      have := cipherSession_handle hc
      simp only [Option.map_some, this]
      split <;> rfl
    | none => rfl

theorem ringMemory_ok (p : Params) (n : Nat) (base : Word) (m : Memory) (hm : Memory.wf m = true) (hn : 3 ≤ n)
   (hr : ∀ i < n, base.toNat + 32 * i + 32 ≤ Config.dmaEnd ∧ dmaOk p (base.toNat + 32 * i) 32 = true) :
   ∃ m', ringMemory p n base m = .ok m' ∧ 
        (∀ i < n - 1, Memory.readBytes m' (base.toNat + 32 * i) 32 = List.replicate 32 0) ∧
        Descriptor.ofBytes (Memory.readBytes m' (base.toNat + 32 * (n - 1)) 32) = ⟨0x00000500, 0, base, 0, 0, 0, 0, 0⟩ ∧
        (∀ c, ¬(base.toNat ≤ c ∧ c < base.toNat + 32 * n) → Memory.byte m' c = Memory.byte m c) := by
  have zs : ∀ (k a : Nat) (m : Memory), Memory.wf m = true →
    (∀ i < k, a + 32 * i + 32 ≤ Config.dmaEnd ∧ dmaOk p (a + 32 * i) 32 = true) →
     ∃ m', zeroSlots p k a m = .ok m' ∧ Memory.wf m' = true ∧ (∀ c, a ≤ c → c < a + 32 * k → Memory.byte m' c = 0) ∧
       (∀ c, (c < a ∨ a + 32 * k ≤ c) → Memory.byte m' c = Memory.byte m c) := by
    intro k
    induction k with
    | zero => intro a m hm _; exact ⟨m, rfl, hm, fun c h1 h2 => by omega, fun _ _ => rfl⟩
    | succ k ih =>
      intro a m hm hr
      have h0 := hr 0 (by omega)
      simp only [Nat.mul_zero, Nat.add_zero] at h0
      have hw : memWrite p m a (List.replicate 32 0) = .ok (Memory.writeBytes m a (List.replicate 32 0)) :=
        memWrite_ok (by simpa using h0.1) (by simpa using h0.2)
      have w1 := memWrite_wf hw hm
      obtain ⟨m', h1, h2, h3, h4⟩ := ih (a + 32) _ w1 fun i hi => by
        have := hr (i + 1) (by omega)
        rw [show a + 32 * (i + 1) = a + 32 + 32 * i by omega] at this; exact this
      refine ⟨m', ?_, h2, ?_, ?_⟩
      · rw [zeroSlots, hw, Acc.ok_bind]; exact h1
      · intro c c1 c2
        by_cases hc : c < a + 32
        · rw [h4 c (.inl hc), Memory.byte_writeBytes hm (by simpa using h0.1), dif_pos ⟨c1, by simpa using hc⟩]; exact List.getElem_replicate _
        · exact h3 c (by omega) (by omega)
      · intro c hc
        rw [h4 c (by omega), Memory.byte_writeBytes_outside hm (by simpa using h0.1) (by simp; omega)]
  obtain ⟨m1, h1, h2, h3, h4⟩ := zs (n - 1) base.toNat m hm fun i hi => hr i (by omega)
  have hl := hr (n - 1) (by omega)
  have hlen : (encode (.link false true base)).length = 32 := encode_length _
  have hw : memWrite p m1 (base.toNat + 32 * (n - 1)) (encode (.link false true base)) = .ok _ := memWrite_ok (by rw [hlen]; exact hl.1) (by rw [hlen]; exact hl.2)
  have hle : base.toNat + 32 * (n - 1) + (encode (.link false true base)).length ≤ Config.dmaEnd := by rw [hlen]; exact hl.1
  refine ⟨_, by rw [ringMemory, h1, Acc.ok_bind, hw], ?_, ?_, ?_⟩
  · intro i hi
    rw [Memory.readBytes_writeBytes_apart h2 hle (by rw [hlen]; omega)]
    apply List.ext_getElem (by simp)
    intro j j1 j2
    rw [Memory.readBytes_getElem, h3 _ (by omega) (by simp at j1; omega)]; exact (List.getElem_replicate _).symm
  · have := Memory.readBytes_writeBytes_same h2 hle
    rw [hlen] at this
    rw [this, encode, Descriptor.ofBytes_bytes]
    show (⟨ctrlWord false 0 true false 1 0, 0, base, 0, 0, 0, 0, 0⟩ : Descriptor) = _
    rw [show ctrlWord false 0 true false 1 0 = 0x00000500 by decide]
  · intro c hc
    rw [Memory.byte_writeBytes_outside h2 hle (by rw [hlen]; omega), h4 c (by omega)]

theorem ctx_unlockRing (s : State) (r held h) : (s.unlockRing r held).ctx h = s.ctx h := by
  unfold State.unlockRing; split
  · rfl
  · exact ctx_setRing _ _ _ _
theorem thread_unlockRing (s : State) (r held h) : (s.unlockRing r held).thread h = s.thread h := by
  unfold State.unlockRing; split
  · rfl
  · cases r <;> rfl
theorem mem_unlockRing (s : State) (r held) : (s.unlockRing r held).mem = s.mem := by
  unfold State.unlockRing; split
  · rfl
  · cases r <;> rfl
theorem ring_unlockRing (s : State) (r held) :
    (s.unlockRing r held).ring r = (if held then s.ring r else { s.ring r with mutex := none }) := by
  unfold State.unlockRing; split
  · rfl
  · cases r <;> rfl
theorem unlock_eq (s : State) (r held) :
    s.unlockRing r held = s.setRing r ((if held then s.ring r else { s.ring r with mutex := none })) := by
  unfold State.unlockRing; split
  · cases r <;> rfl
  · rfl

theorem withIoc_bits (b : Byte) (ioc : Bool) (i : Nat) (hi : i < 8) :
    (withIoc b ioc).getLsbD i = if i = 1 then ioc else b.getLsbD i := by
  have h1 : ∀ i < 8, (0xFD#8).getLsbD i = !decide (i = 1) := by decide
  have h2 : ∀ i < 8, (0x02#8).getLsbD i = decide (i = 1) := by decide
  have a := h1 i hi
  have b' := h2 i hi
  unfold withIoc
  cases ioc
  · simp only [Bool.false_eq_true, if_false, BitVec.ofNat_eq_ofNat]
    rw [BitVec.getLsbD_or, BitVec.getLsbD_and, a, BitVec.getLsbD_zero]
    by_cases h : i = 1 <;> simp [h]
  · simp only [if_true, BitVec.ofNat_eq_ofNat]
    rw [BitVec.getLsbD_or, BitVec.getLsbD_and, a, b']
    by_cases h : i = 1 <;> simp [h]

end Sys2Proof.Laws
end

