-- ==== Sys2Proof/Tests/Slice0.lean ====
section
/-! SUPPORT. Tests: the well-formedness checks, written-out encodings, single steps with results from the
spec's vectors (95_test_vectors.md), and for every statement with hypotheses a state that meets them. -/

namespace Sys2Proof.Tests

open Sys2Proof.Machine

/-! ### Well-formedness: each check refuses a term that breaks only it -/

/-- A normal descriptor that passes every check for 16-byte blocks. -/
def good : Trb := ⟨true, 0, false, true, 16, 0x2000, 0x3000, 0, false, 0, 0x4000, 7⟩

theorem test_wf_accepts : (Instr.aesEcbEnc good).wf = true ∧ (Instr.aesCtr true good).wf = true ∧
    (Instr.chacha20 false { good with size := 64, keysz := 2 }).wf = true ∧
    (Instr.md5 false { good with size := 64, final := true }).wf = true ∧ (Instr.ghash false good).wf = true ∧
    (Instr.link true true 0x1000).wf = true := by decide

theorem test_wf_refuses_cc : (Instr.aesEcbEnc { good with cc := 1 }).wf = false := by decide
theorem test_wf_refuses_tc : (Instr.aesEcbDec { good with tc := true }).wf = false := by decide
theorem test_wf_refuses_size_zero : (Instr.aesCbcEnc { good with size := 0 }).wf = false := by decide
theorem test_wf_refuses_partial_block : (Instr.aesCbcDec { good with size := 17 }).wf = false := by decide
theorem test_wf_refuses_cipher_final : (Instr.aesCtr false { good with final := true }).wf = false := by decide
theorem test_wf_refuses_aes_keysz : (Instr.aesEcbEnc { good with keysz := 3 }).wf = false := by decide
theorem test_wf_refuses_chacha_keysz : (Instr.chacha20 false { good with size := 64, keysz := 0 }).wf = false := by
  decide
theorem test_wf_refuses_chacha_final :
    (Instr.chacha20 false { good with size := 64, keysz := 2, final := true }).wf = false := by decide
theorem test_wf_refuses_hash_dir : (Instr.md5 true { good with size := 64 }).wf = false := by decide
theorem test_wf_refuses_hash_keysz : (Instr.ghash false { good with keysz := 1 }).wf = false := by decide
theorem test_wf_refuses_rates : (Instr.sha3_224 false { good with size := 136 }).wf = false ∧
    (Instr.sha3_256 false { good with size := 144 }).wf = false ∧
    (Instr.sha3_384 false { good with size := 72 }).wf = false ∧
    (Instr.sha3_512 false { good with size := 104 }).wf = false := by decide
theorem test_wf_refuses_link_pointer : (Instr.link true true 0x1001).wf = false := by decide

/-! ### Decoding: words 0 and 3 from E1 to E17, the others chosen here -/

/-- A descriptor with these words 0 and 3. -/
def words (w0 w3 : Word) : Descriptor := ⟨w0, 0x2000, 0x3000, w3, 0x5000, 0x4000, 7, 0⟩

/-- The operands of `words` with the fields of word 0 and word 3 given. -/
def operands (c ioc : Bool) (size : BitVec 16) (keysz : BitVec 2) (final : Bool) : Trb :=
  ⟨c, 0, false, ioc, size, 0x2000, 0x3000, keysz, final, 0x5000, 0x4000, 7⟩

-- E3, every byte of the descriptor written out
theorem test_decode_link :
    decode [0x01, 0x05, 0, 0, 0, 0, 0, 0, 0, 0, 0, 0x10, 0, 0, 0, 0, 0, 0, 0, 0, 0, 0, 0, 0, 0, 0, 0, 0, 0, 0, 0, 0] =
      .ok (.link true true 0x10000000) := by decide
-- E6
theorem test_decode_aes_ecb_enc : decodeDescriptor (words 0x00100001 0x00000000) =
    .ok (.aesEcbEnc (operands true false 16 0 false)) := by decide
-- E7
theorem test_decode_aes_ecb_dec : decodeDescriptor (words 0x00300201 0x00000030) =
    .ok (.aesEcbDec (operands true true 48 1 false)) := by decide
-- E8
theorem test_decode_aes_cbc_enc : decodeDescriptor (words 0x00100001 0x00000001) =
    .ok (.aesCbcEnc (operands true false 16 0 false)) := by decide
-- E2
theorem test_decode_aes_cbc_dec : decodeDescriptor (words 0x00200000 0x00000051) =
    .ok (.aesCbcDec (operands false false 32 2 false)) := by decide
-- E9
theorem test_decode_aes_ctr : decodeDescriptor (words 0xFFF00200 0x00000002) =
    .ok (.aesCtr false (operands false true 65520 0 false)) := by decide
-- E10
theorem test_decode_chacha20 : decodeDescriptor (words 0x00800201 0x00000043) =
    .ok (.chacha20 false (operands true true 128 2 false)) := by decide
-- E1, every byte of the descriptor written out
theorem test_decode_md5 :
    decode [0x01, 0x02, 0x40, 0x00, 0x00, 0x20, 0, 0, 0x00, 0x30, 0, 0, 0x84, 0, 0, 0, 0x00, 0x50, 0, 0,
      0x00, 0x40, 0, 0, 7, 0, 0, 0, 0, 0, 0, 0] = .ok (.md5 false (operands true true 64 0 true)) := by decide
-- E11
theorem test_decode_sha3_224 : decodeDescriptor (words 0x00900001 0x00000005) =
    .ok (.sha3_224 false (operands true false 144 0 false)) := by decide
-- E5
theorem test_decode_sha3_256 : decodeDescriptor (words 0x00880201 0x00000086) =
    .ok (.sha3_256 false (operands true true 136 0 true)) := by decide
-- E12
theorem test_decode_sha3_384 : decodeDescriptor (words 0x00680201 0x00000087) =
    .ok (.sha3_384 false (operands true true 104 0 true)) := by decide
-- E13
theorem test_decode_sha3_512 : decodeDescriptor (words 0x00480000 0x00000008) =
    .ok (.sha3_512 false (operands false false 72 0 false)) := by decide
-- E15
theorem test_decode_ghash : decodeDescriptor (words 0x00100001 0x00000089) =
    .ok (.ghash false (operands true false 16 0 true)) := by decide
-- E17
theorem test_decode_reserved_type : decodeDescriptor (words 0x00100801 0) = .error .reservedType ∧
    decodeDescriptor (words 0x00100C01 0) = .error .reservedType := by decide
-- E17
theorem test_decode_reserved_alg : decodeDescriptor (words 0x00100001 0x0000000A) = .error .reservedAlg ∧
    decodeDescriptor (words 0x00100001 0x0000000F) = .error .reservedAlg := by decide
-- E17: reserved bits 15:12 of word 0 are ignored
theorem test_decode_ignores_reserved_bits :
    decodeDescriptor (words 0x0010F401 0) = .ok (.link true false 0x3000) := by decide
theorem test_decode_short : decode (List.replicate 31 0) = .error .short := by decide
-- E16
theorem test_mode_codec : encodeMode ⟨.cipher .ctr, true, 0, false⟩ = 0x12 ∧
    decodeMode 0x12 = some ⟨.cipher .ctr, true, 0, false⟩ ∧ decodeMode 0x0A = none ∧
    decodeMode 0xFFFFFF84 = some ⟨.hash .md5, false, 0, true⟩ ∧
    decodeMode 0xF1 = some ⟨.cipher .cbc, true, 3, true⟩ := by decide

/-- A mode codec with the bits in reverse and the `ALG` codes counted down from 15. -/
def mirrored : ModeCodec :=
  .rearranged (List.range 32).reverse [15, 14, 13, 12, 11, 10, 9, 8, 7, 6, 5, 4, 3, 2, 1, 0]

-- MD5 with FINAL: ALG 4 has the code 11, so bits 0, 1, 3 and 7, which stand at 31, 30, 28 and 24
theorem test_mode_codec_parameter : mirrored.wf = true ∧
    mirrored.encodeMode ⟨.hash .md5, false, 0, true⟩ = 0xD1000000 ∧
    mirrored.decodeMode 0xD1000000 = some ⟨.hash .md5, false, 0, true⟩ ∧
    (ModeCodec.rearranged [] []).wf = false := by decide +kernel

/-! ### Small states -/

/-- The reset state with bytes at an address and one listed event. -/
def withBytes (a : Nat) (b : List Byte) (ev : Event) : State :=
  { State.reset with mem := Memory.writeBytes [] a b, inputs := [ev] }

/-- The reset state with a descriptor at 0x1000, where its busy engine fetches next. -/
def fetching (e : EngineId) (d : Descriptor) : State :=
  (withBytes 0x1000 d.bytes (.engine e)).setEngine e { Engine.reset with dq := 0x1000, busy := true }

/-- The reset state as the engine executes a descriptor at 0x1000. -/
def executing (e : EngineId) : State :=
  { fetching e (words 1 0) with cur := e }

/-- A hash session of an algorithm, its scratch region at 0x8000. -/
def session (a : HashAlg) : HashSession := { freshHash 7 a 0x8000 with fsm := .ready, left := 3, total := 3 }

/-- A cipher session of an algorithm with a key, its workbuffer at 0x9000. -/
def cipher (a : CipherAlg) : CipherSession := { freshCipher 9 a 0x9000 with keyLen := some 32 }

/-- A ring with 4 slots at a base. -/
def ring (base : Word) : Ring := freshRing 4 base

/-- The reset state with both rings reset, one hash session and one cipher session. -/
def ready (a : HashAlg) (c : CipherAlg) : State :=
  { State.reset with
    aesRing := ring 0x1000
    hashRing := ring 0x2000
    hashSessions := [session a]
    cipherSessions := [cipher c] }

/-- The state in which thread 1 is inside a task and takes the next step. -/
def running (k : Task) (s : State) : State :=
  { s with threads := [⟨1, some k, none, false⟩], inputs := [.host 1] }

/-- A result of a step, when it is a next state. -/
def next? (o : Step) : Option State :=
  match o with
  | .next s => some s
  | _ => none

/-- The refusal of a step. -/
def refusal? (o : Step) : Option Refusal :=
  match o with
  | .refused r => some r
  | _ => none

/-- A field of the next state of a step. -/
def after {α : Type} (o : Step) (f : State → α) : Option α := (next? o).map f

/-! ### One step of each command -/

-- N4, N7
theorem test_link : after (step (fetching .hash ⟨0x00000501, 0, 0x10000013, 0, 0, 0, 0, 0⟩))
    (fun t => (t.hash.dq, t.hash.ccs, t.hash.busy, t.intFlag)) = some (0x10000000, false, true, 0) := by decide
-- N3, N5: not owned
theorem test_not_owned : after (step (fetching .hash ⟨0x00000500, 0, 0x10000000, 0, 0, 0, 0, 0⟩))
    (fun t => (t.hash.dq, t.hash.ccs, t.hash.busy)) = some (0x1000, true, false) := by decide
-- E17: the wrong ring
theorem test_wrong_ring : step (fetching .aes (words 0x00400001 0x04)) = .refused .wrongRing ∧
    step (fetching .hash (words 0x00100001 0x00)) = .refused .wrongRing := ⟨rfl, rfl⟩
-- X1: the key-size check comes before the size check
theorem test_aes_ecb_enc_bad_key : after (step (fetching .aes (words 0x00000001 0x60)))
    (fun t => (Memory.byte t.mem 0x1000, t.aes.dq, t.intFlag, t.chain)) = some (0x05, 0x1020, 0, 0) := by decide
-- X3
theorem test_aes_ecb_dec_bad_size : step (fetching .aes (words 0x00140001 0x10)) = .refused .badSize := rfl
-- X4
theorem test_aes_cbc_enc_chain_unset :
    step (fetching .aes { words 0x00100001 0x01 with w4 := 0 }) = .fault .chainUnset := rfl
-- C5: the chaining value is the last ciphertext block read
theorem test_aes_cbc_dec_chain :
    after (exec (.aesCbcDec { good with iptr := 0x5000 })
      { executing .aes with mem := Memory.writeBytes [] 0x2000 [0x11, 0x22] }) (fun t => (t.chain, t.chainValid, t.intFlag)) =
      some (0x2211, true, 1) := by decide
-- C6, C8: three blocks advance the counter by three, for either direction
theorem test_aes_ctr_counter :
    after (exec (.aesCtr true { good with size := 48, iptr := 0x5000 })
      { executing .aes with mem := Memory.writeBytes [] 0x5000 [0xf0, 0xf1] }) (fun t => t.chain) = some 0xf1f3 := by
  decide
-- C9
theorem test_chacha20_counter :
    after (exec (.chacha20 false { good with size := 128, keysz := 2, iptr := 0x5000 }) (executing .aes))
      (fun t => (t.chain, t.aes.dq)) = some (2, 0x1020) := by decide
-- C9
theorem test_chacha20_bad_key : after (exec (.chacha20 false { good with size := 64 }) (executing .aes))
    (fun t => (Memory.byte t.mem 0x1000, t.intFlag)) = some (0x05, 1) := by decide
-- C7
theorem test_counter_wraps : add128 .little 0xffffffffffffffffffffffffffffffff 1 = 0 ∧
    add128 .little 0xff 1 = 0x100 ∧ add128 .big (0xff <<< 120) 1 = 0x01 <<< 112 := by decide
-- N1, X2: KEYSZ is ignored
theorem test_md5_completes : after (exec (.md5 false { good with size := 64, keysz := 3 }) (executing .hash))
    (fun t => (t.hash.dq, t.intFlag, t.hash.ccs)) = some (0x1020, 2, true) := by decide
theorem test_sha3_224_completes :
    after (exec (.sha3_224 false { good with size := 288, ioc := false }) (executing .hash))
      (fun t => (t.hash.dq, t.intFlag)) = some (0x1020, 0) := by decide +kernel
-- X3
theorem test_sha3_256_bad_size : exec (.sha3_256 false { good with size := 144 }) (executing .hash) =
    .refused .badSize := rfl
theorem test_sha3_384_completes : after (exec (.sha3_384 false { good with size := 104 }) (executing .hash))
    (fun t => t.hash.dq) = some 0x1020 := by decide +kernel
theorem test_sha3_512_completes : after (exec (.sha3_512 false { good with size := 72 }) (executing .hash))
    (fun t => t.hash.dq) = some 0x1020 := by decide +kernel
-- X2
theorem test_ghash_bad_key : after (exec (.ghash false { good with keysz := 1 }) (executing .hash))
    (fun t => (Memory.byte t.mem 0x1000, t.intFlag)) = some (0x05, 2) := by decide

-- the same word 3 is MD5 under the mirrored codec and AES-ECB in the default layout
theorem test_codec_in_step :
    decodeDescriptor ((words 0x00100001 0xD1000000).normal mirrored) =
      .ok (.md5 false (operands true false 16 0 true)) ∧
    refusal? (step { fetching .aes (words 0x00100001 0xD1000000) with
      params := { Params.default with codec := mirrored } }) = some .wrongRing := by decide +kernel

/-! ### The ring, the dispatcher and the sessions, one step each -/

-- Q1
theorem test_ring_reset :
    after (step (running ⟨.ringReset .hash 0x10000000, none, none⟩ State.reset)) (fun t =>
      (Memory.byte t.mem 0x10000061, Memory.byte t.mem 0x1000006B, t.mem.length, t.hashRing.sem, t.hash.dq)) =
      some (0x05, 0x10, 2, 2, 0x10000000) := by decide

/-- A queue call of the hash session. -/
def call (len : Nat) (ioc : Bool) : QueueCall := ⟨7, 0x100, 0x8000, 0x8000, 0, len, hashMode .md5 false, ioc⟩

-- Q3: the slot at the wrap
theorem test_acquire_wraps :
    after (step (running ⟨.queue (call 64 false), some (.queue (call 64 false) (.take false)), none⟩
      { ready .md5 .ecb with hashRing := { ring 0x2000 with tail := 2, sem := 0 } })) (fun t =>
        (Memory.byte t.mem 0x2060, t.hashRing.tail, t.hashRing.pcs)) = some (0x01, 0, false) := by decide
-- Q13
theorem test_queue_size_bound :
    step (running ⟨.queue (call 65536 false), some (.queue (call 65536 false) .enter), none⟩ (ready .md5 .ecb)) =
      .refused .sizeTooLarge := rfl
-- Q12
theorem test_queue_before_ring_reset :
    step (running ⟨.queue (call 64 false), some (.queue (call 64 false) .enter), none⟩
      { ready .md5 .ecb with hashRing := Ring.reset 4 }) = .refused .ringNotReset := rfl

/-- The state in which the hash ring drains and its slot 0 holds a descriptor of the hash session. -/
def draining (d : Descriptor) : State :=
  { ready .md5 .ecb with
    mem := Memory.writeBytes [] 0x2000 d.bytes
    dispatcher := ⟨true, false, true, false⟩
    hashRing := { ring 0x2000 with sem := 1 }
    hashSessions := [{ session .md5 with ctx := { (session .md5).ctx with done := false, outstanding := 1 } }]
    inputs := [.dispatcher] }

-- D1, D4: a release with the bad-key code
theorem test_release :
    after (step (draining ⟨0x00400205, 0, 0, 0x84, 0, 0, 7, 0⟩)) (fun t =>
      (Memory.byte t.mem 0x2000, t.hashRing.head, t.hashRing.sem)) = some (0x01, 1, 2) ∧
    after (step (draining ⟨0x00400205, 0, 0, 0x84, 0, 0, 7, 0⟩)) (fun t =>
      (t.ctx 7).map fun c => (c.status, c.outstanding, c.done)) = some (some (2, 0, true)) := by decide
-- D5
theorem test_dispatch_entry :
    after (step { State.reset with intEn := 0x303, intFlag := 0x200, inputs := [.dispatcher] }) (fun t =>
      (t.intFlag, t.dispatcher.active, t.dispatcher.drainHash, t.hashRing.irqCount)) = some (0, true, false, 0) := by
  decide
-- G2
theorem test_ring_base_write :
    after (step (running ⟨.regWrite 0x08 4 0x1000001F, none, none⟩ State.reset)) (fun t =>
      (t.hash.ringBase, t.hash.dq, t.hash.ccs)) = some (0x10000000, 0x10000000, true) := by decide
-- G8: STOP, then RUN, of a busy engine
theorem test_stop_and_run :
    after (step (running ⟨.regWrite 0x04 4 7, none, none⟩
      { ready .md5 .ecb with aes := { Engine.reset with busy := true } })) (fun t =>
        (t.aes.stopReq, t.aes.busy, ringCtrlValue t.aes)) = some (true, true, 7) := by decide
-- G16, G18
theorem test_int_en :
    step (running ⟨.regWrite 0x18 4 0xFFFFFFFF, none, none⟩ State.reset) = .refused .rsaOutOfScope ∧
      after (step (running ⟨.regWrite 0x18 4 0xF003, none, none⟩ State.reset)) (fun t => t.intEn) = some 3 :=
  ⟨rfl, by decide⟩
-- S4: 55 bytes pad to one block, 56 to two
theorem test_md5_padding : padLen .md5 55 = 64 ∧ padLen .md5 56 = 128 ∧
    padBytes .md5 55 55 = [0x80, 0xb8, 1, 0, 0, 0, 0, 0, 0] := by decide
-- S1
theorem test_hash_init :
    after (step (running ⟨.hashInit 7 (some 16) .body, none, none⟩ (ready .md5 .ecb))) (fun t =>
      (Memory.readBytes t.mem 0x8000 16, (t.hashSession 7).map fun x => (x.left, x.fsm))) =
      some ([0x01, 0x23, 0x45, 0x67, 0x89, 0xab, 0xcd, 0xef, 0xfe, 0xdc, 0xba, 0x98, 0x76, 0x54, 0x32, 0x10],
        some (0, .ready)) := by decide

-- R325: a setkey of another thread, which holds the lock, does not stop a destroy; its crypt call does
theorem test_cipher_destroy :
    (∀ x ∈ [(Job.cipherSetkey 9 0 32 .body, some []), (Job.crypt 9 ⟨false, [], [], 0, 0⟩ .body, none)],
      after (step { running ⟨.cipherDestroy 9, none, none⟩ (ready .md5 .ecb) with
        threads := [⟨1, some ⟨.cipherDestroy 9, none, none⟩, none, false⟩, ⟨2, some ⟨x.1, none, none⟩, none, false⟩]
        cipherSessions := [{ cipher .ecb with lock := some 2 }] }) (fun t => t.cipherSessions) = x.2) := by decide
-- R360: no export gives a Ready snapshot with counts, or a total that left does not divide
theorem test_import_checks_counts : ∀ p ∈ [(Fsm.ready, 1, 1), (.ready, 0, 64), (.updating, 3, 64), (.failed, 3, 67)],
    refusal? (step (running ⟨.hashRestore 7 ⟨.md5, p.1, p.2.1, p.2.2, List.replicate 16 1, List.replicate p.2.1 2⟩
      .body, none, none⟩ (ready .md5 .ecb))) = some .badSnapshot := by decide
-- R252: a scratch region that passes the end of the space at HKEY alone stops a GHASH descriptor, not an MD5 one
theorem test_hash_queue_at_end :
    (hashQueue { session .md5 with scratch := 0xFFFFFE80 } 0x100 64 false true).map (fun q => (q.dst, q.key)) =
      some (0xFFFFFE80, 0) ∧
    hashQueue { session .ghash with scratch := 0xFFFFFE80 } 0x100 16 false true = none ∧
    (hashQueue { session .ghash with scratch := 0xFFFFFE60 } 0x100 16 false true).map (fun q => q.key) =
      some 0xFFFFFFE0 := by decide

/-! ### Where `withFetchWord` places a word of the opcode table -/

theorem test_fetch_word_runs : after (step (State.reset.withFetchWord 39 0x0400400000)) (fun t => t.hash.dq) =
    some 0x20 := by decide
theorem test_table_words : decodeTableWord 12 0x400 = some (.link false false 0) ∧
    (decodeTableWord 40 0x0900100000).isSome ∧ decodeTableWord 40 0x0A00100000 = none := by decide

/-! ### Witnesses: for each statement with hypotheses, a state and operands that meet them, clause by clause -/

theorem witness_DecodeEncodeAgree : mirrored.wf = true ∧ mirrored ≠ .default := by decide

theorem witness_EncodeDecodeAgree :
    decodeDescriptor (words 0x00400201 0x84) = .ok (.md5 false (operands true true 64 0 true)) := by decide

-- the largest code of an algorithm and the smallest reserved one
theorem witness_ModeCodecAgrees : ((9 : Word).extractLsb' 0 4).toNat < 10 ∧
    10 ≤ ((10 : Word).extractLsb' 0 4).toNat ∧ mirrored.wf = true := by decide

/-- The engine fetches `d` and owns it. -/
theorem fetching_fetches : ∀ x ∈ [(EngineId.aes, words 0x501 0), (.aes, words 0x801 0), (.hash, words 0xC01 0),
    (.hash, words 1 10), (.aes, words 1 4), (.hash, words 1 3), (.aes, words 1 3), (.hash, words 1 9)],
    Claims.Fetches (fetching x.1 x.2) x.1 ∧ Claims.atDq (fetching x.1 x.2) x.1 = x.2 := by decide

-- one state for each case of the decoding, the last of the reserved codes' neighbours among them
theorem witness_EngineDecodes :
    (words 0x501 0).type = 1 ∧ (words 0x801 0).type = 2 ∧ (words 0xC01 0).type = 3 ∧
      10 ≤ (words 1 10).alg.toNat ∧ 4 ≤ (words 1 4).alg.toNat ∧ (words 1 3).alg.toNat ≤ 3 ∧
      Claims.Fetches (fetching .hash (words 1 9)) .hash := by decide

theorem witness_StepRunsDecodedCommand : Claims.Fetches (fetching .hash (words 0x00400201 0x84)) .hash ∧
    decode (Memory.readBytes (fetching .hash (words 0x00400201 0x84)).mem 0x1000 32) =
      .ok (.md5 false (operands true true 64 0 true)) ∧
    (Instr.md5 false (operands true true 64 0 true)).wf = true ∧ State.reset.params.codec = .default := by decide

-- the same command under another codec
theorem witness_StepRunsDecodedCommand_codec :
    let s := { fetching .hash (words 0x00400201 0xD1000000) with params := { Params.default with codec := mirrored } }
    Claims.Fetches s .hash ∧ Claims.atDq s .hash = words 0x00400201 0x84 ∧
      decodeIn s.params.codec (Memory.readBytes s.mem 0x1000 32) =
        .ok (.md5 false (operands true true 64 0 true)) := by decide +kernel

theorem witness_EngineStepsThatExecuteNothing :
    (Claims.Listed (withBytes 0 [] (.engine .aes)) (.engine .aes) ∧ State.reset.aes.busy = false) ∧
    (Claims.Listed ((fetching .aes (words 1 0)).stickEngine .aes) (.engine .aes) ∧
      ((fetching .aes (words 1 0)).stickEngine .aes).aes.stuck = true) ∧
    (Claims.MayFetch (fetching .aes (words 0 0)) .aes ∧
      (Claims.rawAtDq (fetching .aes (words 0 0)) .aes).cycle ≠ (fetching .aes (words 0 0)).aes.ccs) ∧
    Claims.Listed ((fetching .aes (words 1 0)).setEngine .aes { Engine.reset with busy := true, stopReq := true })
      (.engine .aes) := by decide

-- wrong ring; key size 3; size 0 and size 17; no CHAIN; every check passed
theorem witness_CommandCheckOrder :
    (∀ x ∈ [words 0x00100001 4, words 0x00100001 0x60, words 1 0, words 0x00110001 0,
        { words 0x00100001 1 with w4 := 0 }, words 0x00100001 0], Claims.Fetches (fetching .aes x) .aes ∧ x.type = 0) ∧
    Alg.ofCode (words 0x00100001 4).alg = some (.hash .md5) ∧
    Alg.ofCode (words 0x00100001 0x60).alg = some (.cipher .ecb) ∧ (words 0x00100001 0x60).keysz = 3 ∧
    (words 1 0).size = 0 ∧ (words 0x00110001 0).size.toNat % 16 = 1 ∧
    Alg.ofCode ({ words 0x00100001 1 with w4 := 0 } : Descriptor).alg = some (.cipher .cbc) ∧
    (fetching .aes { words 0x00100001 1 with w4 := 0 }).chainValid = false := by decide

-- past the checks: a command whose operands are backed, and one whose key passes the end of the space
theorem witness_CommandCheckOrder_runs :
    Claims.Runs (.cipher .ecb) (words 0x00100001 0).trb (Claims.latched (fetching .aes (words 0x00100001 0)) .aes) ∧
    ¬Claims.Runs (.hash .ghash) { words 0x00100001 9 with w5 := 0xFFFFFFF1 }.trb
      (Claims.latched (fetching .hash { words 0x00100001 9 with w5 := 0xFFFFFFF1 }) .hash) :=
  ⟨⟨rfl, .inl ⟨rfl, rfl⟩, by decide⟩, fun h => absurd (h.2.2.2.2.2.1 rfl) (by decide)⟩

/-- The default parameters take the three AES key sizes and, for CHACHA20, code 2 only. -/
theorem keysz_valid : Claims.KeyszValid State.reset.params (.cipher .ecb) 0 ∧
    Claims.KeyszValid State.reset.params (.cipher .cbc) 2 ∧ Claims.KeyszValid State.reset.params (.cipher .ctr) 1 ∧
    Claims.KeyszValid State.reset.params (.cipher .chacha20) 2 ∧ Claims.KeyszValid State.reset.params (.hash .ghash) 0 ∧
    ¬Claims.KeyszValid State.reset.params (.cipher .ecb) 3 :=
  ⟨.inl ⟨rfl, rfl⟩, .inr (.inr ⟨rfl, rfl⟩), .inr (.inl ⟨rfl, rfl⟩), rfl, rfl,
    fun h => by rcases h with ⟨h, _⟩ | ⟨h, _⟩ | ⟨h, _⟩ <;> exact absurd h (by decide)⟩

theorem witness_EcbCommandsComplete : Claims.CipherRuns .ecb good (executing .aes) :=
  ⟨rfl, keysz_valid.1, by decide⟩

-- a CHAIN that continues, and one that is loaded
theorem witness_CbcCommandsComplete :
    Claims.CipherRuns .cbc { good with keysz := 2 } { executing .aes with chainValid := true } ∧
      Claims.CipherRuns .cbc { good with keysz := 2, iptr := 0x5000 } (executing .aes) :=
  ⟨⟨rfl, keysz_valid.2.1, by decide⟩, ⟨rfl, keysz_valid.2.1, by decide⟩⟩

theorem witness_StreamCommandsComplete :
    Claims.CipherRuns .ctr { good with keysz := 1, iptr := 0x5000 } (executing .aes) ∧
      Claims.CipherRuns .chacha20 { good with size := 64, keysz := 2, iptr := 0x5000 } (executing .aes) :=
  ⟨⟨rfl, keysz_valid.2.2.1, by decide⟩, ⟨rfl, rfl, by decide⟩⟩

theorem witness_Md5AndGhashComplete :
    Claims.HashRuns .md5 { good with size := 64 } (executing .hash) ∧
      Claims.HashRuns .ghash good (executing .hash) :=
  ⟨⟨rfl, trivial, by decide⟩, ⟨rfl, rfl, by decide⟩⟩

theorem witness_Sha3CommandsComplete :
    Claims.HashRuns .sha3_224 { good with size := 144 } (executing .hash) ∧
      Claims.HashRuns .sha3_256 { good with size := 136 } (executing .hash) ∧
      Claims.HashRuns .sha3_384 { good with size := 104 } (executing .hash) ∧
      Claims.HashRuns .sha3_512 { good with size := 72 } (executing .hash) :=
  ⟨⟨rfl, trivial, by decide⟩, ⟨rfl, trivial, by decide⟩, ⟨rfl, trivial, by decide⟩, ⟨rfl, trivial, by decide⟩⟩

theorem executing_mem_wf (e : EngineId) : Memory.wf (executing e).mem = true := by cases e <;> decide

-- a command that runs and one that completes with the bad-key code
theorem witness_CompletionWritesCode :
    (∃ t, exec (.aesEcbEnc good) (executing .aes) = .next t ∧ (t.engine .aes).stuck = false) ∧
      ∃ t, exec (.ghash false { good with keysz := 1 }) (executing .hash) = .next t ∧ (t.engine .hash).stuck = false :=
  ⟨⟨_, rfl, rfl⟩, ⟨_, rfl, rfl⟩⟩

theorem witness_CipherCommandFrame : Claims.cipherOf (.aesEcbEnc good) = some (.ecb, good) ∧
    Memory.wf (executing .aes).mem = true ∧ ∃ t, exec (.aesEcbEnc good) (executing .aes) = .next t :=
  ⟨rfl, executing_mem_wf .aes, _, rfl⟩

theorem witness_HashCommandFrame : Claims.hashOf (.md5 false { good with size := 64 }) = some (.md5, { good with size := 64 }) ∧
    Memory.wf (executing .hash).mem = true ∧ ∃ t, exec (.md5 false { good with size := 64 }) (executing .hash) = .next t :=
  ⟨rfl, executing_mem_wf .hash, _, rfl⟩

theorem witness_ChainAfterCommand : Memory.wf (executing .aes).mem = true ∧
    Claims.CipherRuns .cbc { good with keysz := 2, iptr := 0x5000 } (executing .aes) ∧
    ¬Claims.In (executing .aes).aes.dq.toNat (good.dptr.toNat + good.size.toNat - 16) 16 ∧
    Claims.Apart (good.sptr.toNat + good.size.toNat - 16) 16 good.dptr.toNat (good.size.toNat - 16) :=
  ⟨executing_mem_wf .aes, witness_CbcCommandsComplete.2, by decide⟩

/-- Two blocks of MD5 over one STATE. -/
def twoBlocks : Trb := { good with size := 128, iptr := 0x3000 }

theorem witness_HashDescriptorsSplit :
    let d1 : Trb := { twoBlocks with size := 64 }
    let d2 : Trb := { twoBlocks with size := twoBlocks.size - 64, sptr := twoBlocks.sptr + (64 : BitVec 16).setWidth 32 }
    (Memory.wf (executing .hash).mem = true ∧ Claims.Apart 0x2000 128 0x3000 16 ∧ Claims.Apart 0x4000 16 0x3000 16 ∧
      Claims.Apart 0x1000 1 0x3000 16 ∧ Claims.Apart 0x1000 1 0x2000 128 ∧ Claims.Apart 0x1000 1 0x4000 16 ∧
      Claims.Apart 0x1020 1 0x3000 16) ∧
    Claims.HashRuns .md5 twoBlocks (executing .hash) ∧ Claims.HashRuns .md5 d1 (executing .hash) ∧
    (∃ t, exec (.md5 false twoBlocks) (executing .hash) = .next t) ∧
    ∃ u v, exec (.md5 false d1) (executing .hash) = .next u ∧ Claims.HashRuns .md5 d2 u ∧
      exec (.md5 false d2) u = .next v :=
  ⟨by decide, ⟨rfl, trivial, by decide⟩, ⟨rfl, trivial, by decide⟩, ⟨_, rfl⟩, _, _, rfl, ⟨rfl, trivial, by decide⟩, rfl⟩

theorem witness_InPlaceEqualsDisjoint :
    (Memory.wf (executing .aes).mem = true ∧ Claims.Apart 0x2000 16 0x3000 16 ∧ Claims.Apart 0x1000 1 0x2000 16 ∧
      Claims.Apart 0x1000 1 0x3000 16) ∧
    Claims.CipherRuns .ecb { good with dptr := 0x2000 } (executing .aes) ∧ Claims.CipherRuns .ecb good (executing .aes) ∧
    (∃ t, exec (.aesEcbEnc { good with dptr := 0x2000 }) (executing .aes) = .next t) ∧
    ∃ u, exec (.aesEcbEnc good) (executing .aes) = .next u :=
  ⟨by decide, ⟨rfl, keysz_valid.1, by decide⟩, witness_EcbCommandsComplete, ⟨_, rfl⟩, _, rfl⟩

/-- A thread inside a task, its step listed. -/
theorem running_at (k : Machine.Task) (s : State) : Claims.HostAt (running k s) 1 k := ⟨rfl, rfl, rfl⟩

/-- A state whose backed ranges end at 0x2000. -/
def lowMemory (s : State) : State := { s with params := { Params.default with dmaRegions := [(0, 0x2000)] } }

-- the fetch one slot past the backed range; loads and stores at its end and at the end of the space; a slot
theorem witness_UnbackedAccessSticks :
    (let s := (lowMemory (fetching .aes (words 1 0))).setEngine .aes { Engine.reset with dq := 0x2000, busy := true };
      Claims.Listed s (.engine .aes) ∧ s.aes.dq.toNat + 32 ≤ Config.dmaEnd ∧ dmaOk s.params s.aes.dq.toNat 32 = false) ∧
    (∀ a ∈ [(0x1FFF : Word), 0xFFFFFFFF], ∀ j ∈ [Job.load a 2, .store a [1, 2]],
      Claims.HostAt (running ⟨j, none, none⟩ (lowMemory State.reset)) 1 ⟨j, none, none⟩) ∧
    dmaOk (lowMemory State.reset).params 0x1FFF 2 = false ∧ Config.dmaEnd < (0xFFFFFFFF : Word).toNat + 2 ∧
    (let s := { lowMemory (draining (words 1 0)) with dispatcher := ⟨true, false, true, false⟩ };
      Claims.Listed s .dispatcher ∧ s.dispatcher = ⟨true, EngineId.hash == .aes, true, false⟩ ∧
        dmaOk s.params (0x2000 + 32 * 0) 32 = false) :=
  ⟨by decide, fun _ _ _ _ => running_at _ _, by decide, by decide, by decide⟩

/-- The state executing a command, with these ranges backed. -/
def backed (e : EngineId) (l : List (Nat × Nat)) : State :=
  { executing e with params := { Params.default with dmaRegions := l } }

-- a CBC command over one block: each of its five accesses in turn is the first that is not backed, and the block
-- that ends the space at its last two bounds
theorem witness_UnbackedAccessSticks_cipher :
    let d : Trb := { good with iptr := 0x5000 }
    Claims.cipherAccesses .cbc d (executing .aes) = [(0x4000, 16), (0x5000, 16), (0x2000, 16), (0x3000, 16), (0x1000, 1)] ∧
    (∀ n < 5, ∀ x ∈ (Claims.cipherAccesses .cbc d (executing .aes)).take n,
      Reach (backed .aes ((Claims.cipherAccesses .cbc d (executing .aes)).take n)) x.1 x.2) ∧
    (∀ n < 5, ∀ x ∈ ((Claims.cipherAccesses .cbc d (executing .aes)).drop n).head?,
      dmaOk (backed .aes ((Claims.cipherAccesses .cbc d (executing .aes)).take n)).params x.1 x.2 = false) ∧
    0xFFFFFFF0 + 16 = Config.dmaEnd ∧ Config.dmaEnd < 0xFFFFFFF1 + 16 ∧ d.size ≠ 0 ∧ d.size.toNat % 16 = 0 := by
  decide

-- a GHASH command over one block: each of its five accesses in turn
theorem witness_UnbackedAccessSticks_hash :
    let d : Trb := { good with iptr := 0x5000 }
    Claims.hashAccesses .ghash d (executing .hash) = [(0x5000, 16), (0x4000, 16), (0x2000, 16), (0x3000, 16), (0x1000, 1)] ∧
    (∀ n < 5, ∀ x ∈ (Claims.hashAccesses .ghash d (executing .hash)).take n,
      Reach (backed .hash ((Claims.hashAccesses .ghash d (executing .hash)).take n)) x.1 x.2) ∧
    ∀ n < 5, ∀ x ∈ ((Claims.hashAccesses .ghash d (executing .hash)).drop n).head?,
      dmaOk (backed .hash ((Claims.hashAccesses .ghash d (executing .hash)).take n)).params x.1 x.2 = false := by
  decide

-- a range that ends at the end of the space, one a byte longer, and one that is not backed
theorem witness_DmaReadAndWrite : Memory.wf [(5, 1)] = true ∧ dmaOk Params.default 0xFFFFFFFC 4 = true ∧
    0xFFFFFFFC + 4 ≤ 2 ^ 32 ∧ 2 ^ 32 < 0xFFFFFFFC + 5 ∧
    dmaOk (lowMemory State.reset).params 0x1FFF 2 = false := by decide

-- widths and offsets at their bounds; running_at gives the thread
theorem witness_RegisterReadsAndRefusals : ∀ a ∈ [(0x1C, 2), (0x02, 4), (0x20, 4), (0x10, 4), (0x14, 4), (0x00, 4),
    (0x0C, 4), (0x18, 4), (0x1C, 4)], Claims.HostAt (running ⟨.regRead (BitVec.ofNat 32 a.1) a.2, none, none⟩ State.reset) 1
      ⟨.regRead (BitVec.ofNat 32 a.1) a.2, none, none⟩ ∧
    ((BitVec.ofNat 32 a.1 : Word) - State.reset.params.regBase).toNat = a.1 :=
  fun x h => ⟨running_at _ _, by revert x; decide⟩

theorem witness_RegisterReadsAndRefusals_write :
    Claims.HostAt (running ⟨.regWrite 0x18 4 0x4, none, none⟩ State.reset) 1 ⟨.regWrite 0x18 4 0x4, none, none⟩ ∧
      (0x4 : Word) &&& 0x404 ≠ 0 := ⟨running_at _ _, by decide⟩

-- both engines, idle and busy
theorem witness_RingBaseWrite :
    Claims.HostAt (running ⟨.regWrite 0x08 4 0x1F, none, none⟩ State.reset) 1 ⟨.regWrite 0x08 4 0x1F, none, none⟩ ∧
      ((0x08 : Word) - State.reset.params.regBase).toNat = 0x08 ∧ State.reset.hash.busy = false ∧
      Claims.HostAt (running ⟨.regWrite 0 4 0, none, none⟩ (fetching .aes (words 1 0))) 1 ⟨.regWrite 0 4 0, none, none⟩ ∧
      (fetching .aes (words 1 0)).aes.busy = true := ⟨running_at _ _, by decide, rfl, running_at _ _, rfl⟩

theorem witness_RingCtrlWrite :
    Claims.HostAt (running ⟨.regWrite 0x04 4 7, none, none⟩ State.reset) 1 ⟨.regWrite 0x04 4 7, none, none⟩ ∧
      ((0x04 : Word) - State.reset.params.regBase).toNat = 0x04 ∧ (State.reset.ring .aes).live = false ∧
      Claims.HostAt (running ⟨.regWrite 0x0C 4 7, none, none⟩ (ready .md5 .ecb)) 1 ⟨.regWrite 0x0C 4 7, none, none⟩ ∧
      ((ready .md5 .ecb).ring .hash).live = true := ⟨running_at _ _, by decide, rfl, running_at _ _, rfl⟩

theorem witness_InterruptRegisters :
    Claims.HostAt (running ⟨.regWrite 0x1C 4 0x303, none, none⟩ State.reset) 1 ⟨.regWrite 0x1C 4 0x303, none, none⟩ ∧
      (0x303 : Word) &&& 0x404 = 0 ∧ Claims.Listed (withBytes 0 [] (.eventRingFull .hash)) (.eventRingFull .hash) ∧
      Claims.Listed (withBytes 0 [] .dispatcher) .dispatcher ∧ (withBytes 0 [] .dispatcher).irq = false :=
  ⟨running_at _ _, by decide, rfl, rfl, by decide⟩

theorem witness_HardwareResetValues : Claims.Listed (withBytes 0 [1] .hardwareReset) .hardwareReset := rfl

/-- A state with sessions, reset rings and a descriptor in memory meets the invariant. -/
theorem draining_inv (d : Descriptor) (hd : Memory.wf (draining d).mem = true) : (draining d).Inv where
  params := rfl
  mem := hd
  aes := (by decide : (0 : Word) &&& 0x1F = 0 ∧ (0 : Word) &&& 0x1F = 0)
  hash := (by decide : (0 : Word) &&& 0x1F = 0 ∧ (0 : Word) &&& 0x1F = 0)
  intEn := (by decide : (0 : Word) &&& ~~~intScope = 0)
  intFlag := (by decide : (0 : Word) &&& ~~~intScope = 0)
  aesRing := ⟨Nat.zero_le _, Nat.zero_le _⟩
  hashRing := ⟨Nat.zero_le _, Nat.zero_le _⟩
  hashSessions := fun x hx => by simp [draining] at hx; subst hx; exact ⟨by decide, by decide⟩
  cipherSessions := fun x hx => by simp [draining, ready] at hx; subst hx; exact (by decide : (0x9000 : Word) &&& 0x1F = 0)
  handles := (by decide : [(7 : Handle), 9].Nodup)

-- the step is the release of a slot, which moves the head
theorem witness_StepKeepsInvariant : (draining ⟨0x00400205, 0, 0, 0x84, 0, 0, 7, 0⟩).Inv ∧
    ∃ t, step (draining ⟨0x00400205, 0, 0, 0x84, 0, 0, 7, 0⟩) = .next t ∧ t.hashRing.head ≠ 0 :=
  ⟨draining_inv _ (by decide), _, rfl, by decide⟩

/-- The task of a queue call at a position. -/
def queueAt (ph : QueuePhase) : Machine.Task := ⟨.queue (call 64 false), some (.queue (call 64 false) ph), none⟩

theorem witness_RingCursorWriters :
    (∃ t, step (draining ⟨0x00400205, 0, 0, 0x84, 0, 0, 7, 0⟩) = .next t ∧ (t.ring .hash).head ≠ 0) ∧
      ∃ t, step (running (queueAt (.take false)) (ready .md5 .ecb)) = .next t ∧ (t.ring .hash).tail ≠ 0 :=
  ⟨⟨_, rfl, by decide⟩, _, rfl, by decide⟩

-- CHAIN_VALID is set by a CBC command and cleared by a hardware reset
theorem witness_ChainWriters :
    (∃ t, step (fetching .aes (words 0x00100001 0x01)) = .next t ∧ t.chainValid = true) ∧
      ∃ t, step { withBytes 0 [] .hardwareReset with chainValid := true } = .next t ∧ t.chainValid = false :=
  ⟨⟨_, rfl, rfl⟩, _, rfl, rfl⟩

theorem witness_EngineStepFrame : Claims.Listed (fetching .aes (words 0x00100001 0x01)) (.engine .aes) ∧
    ∃ t, step (fetching .aes (words 0x00100001 0x01)) = .next t := ⟨rfl, _, rfl⟩

-- a busy engine, another thread in QUEUE, slots still out; a quiet ring whose last slot ends the space
theorem witness_RingResetInitialises :
    (fetching .aes (words 1 0)).aes.busy = true ∧
    (∃ x ∈ (running (queueAt .down) (ready .md5 .ecb)).threads, x.id ≠ 2 ∧
      ∃ k, x.task = some k ∧ k.queuesOn (running (queueAt .down) (ready .md5 .ecb)) .hash = true) ∧
    (draining (words 1 0)).hashRing.sem ≠ 4 - 2 ∧
    (let s := running ⟨.ringReset .hash 0xFFFFFF80, none, none⟩ State.reset;
      Memory.wf s.mem = true ∧ s.ringQuiet 1 .hash = true ∧ 3 ≤ s.params.slots .hash ∧ (0xFFFFFF80 : Word) &&& 0x1F = 0 ∧
      ∀ i < s.params.slots .hash, Reach s ((0xFFFFFF80 : Word).toNat + 32 * i) 32) :=
  ⟨rfl, ⟨_, List.mem_singleton.2 rfl, by decide, _, rfl, by decide⟩, by decide, by decide⟩

/-- The context of the hash session of `ready`. -/
theorem ready_ctx : (ready .md5 .ecb).ctx 7 = some (session .md5).ctx := rfl

-- the length at its bounds, the semaphore at 0 and above, the mutex free, own and another's
theorem witness_AcquireSemaphoreAndMutex :
    (ready .md5 .ecb).ctx 7 = some (session .md5).ctx ∧ ((ready .md5 .ecb).ring .hash).live = true ∧
    (call 65535 false).len ≤ 65535 ∧ 65535 < (call 65536 false).len ∧ 0 < ((ready .md5 .ecb).ring .hash).sem ∧
    ({ ring 0x2000 with sem := 0 } : Machine.Ring).sem = 0 ∧
    (let s := { running (queueAt .down) (ready .md5 .ecb) with inputs := [.signal 1] };
      Claims.Listed s (.signal 1) ∧ (s.thread 1).stuck = false ∧ (s.thread 1).task = some (queueAt .down)) ∧
    Claims.HostAt (running (queueAt .lock) (ready .md5 .ecb)) 1 (queueAt .lock) ∧ (queueAt .lock).sub =
      some (.queue (call 64 false) .lock) :=
  ⟨rfl, rfl, by decide, by decide, by decide, rfl, ⟨rfl, rfl, rfl⟩, running_at _ _, rfl⟩

-- the last slot before the wrap, the last slot, and the forced IOC of a context that is not done
theorem witness_AcquireTakesSlot :
    (let s := running (queueAt (.take false)) { ready .md5 .ecb with hashRing := { ring 0x2000 with tail := 1 } };
      s.ctx 7 = some (session .md5).ctx ∧ Claims.HostAt s 1 (queueAt (.take false)) ∧ s.hashRing.tail ≠ 4 - 2 ∧
      (session .md5).ctx.done = true) ∧
    (let s := running (queueAt (.take false)) { ready .md5 .ecb with hashRing := { ring 0x2000 with tail := 2, sem := 0 } };
      Claims.HostAt s 1 (queueAt (.take false)) ∧ s.hashRing.tail = 4 - 2 ∧ Reach s (0x2000 + 32 * 3) 1) ∧
    (let s := running (queueAt (.take false))
        { draining (words 1 0) with hashRing := { ring 0x2000 with sem := 0 } };
      Claims.HostAt s 1 (queueAt (.take false)) ∧ s.hashRing.sem = 0 ∧ (s.ctx 7).map (fun c => c.done) = some false) :=
  ⟨⟨rfl, running_at _ _, by decide, rfl⟩, ⟨running_at _ _, rfl, by decide⟩, running_at _ _, rfl, rfl⟩

-- the slot that ends the space, the largest length
theorem witness_PublishOwnershipLast : Memory.wf [] = true ∧ 0xFFFFFFE0 + 32 ≤ Config.dmaEnd ∧
    1 ≤ (call 65535 true).len ∧ (call 65535 true).len ≤ 65535 ∧ (Memory.byte [] 0xFFFFFFE0).getLsbD 0 = !true := by
  decide

-- the first write, the barrier and the last write
theorem witness_QueuePublishes : ∀ n ∈ [0, 7, 8],
    let k := queueAt (.publish false 0 true true n)
    Claims.HostAt (running k (ready .md5 .ecb)) 1 k ∧ (running k (ready .md5 .ecb)).ctx 7 = some (session .md5).ctx ∧
      ∀ w, publishWrite .default (call 64 false) 0x2000 true true n = some w → Reach (running k (ready .md5 .ecb)) w.1 w.2.length := by
  intro n hn
  refine ⟨running_at _ _, rfl, fun w hw => ?_⟩
  simp only [List.mem_cons, List.not_mem_nil, or_false] at hn
  rcases hn with rfl | rfl | rfl
  · cases hw; decide
  · cases hw
  · cases hw; decide

/-- A hash session whose slot 0 is pending without IOC. -/
def pending : State :=
  { ready .md5 .ecb with
    hashSessions := [{ session .md5 with ctx := { (session .md5).ctx with last := some 0, pendingNonIoc := true } }] }

theorem witness_ZeroLengthQueue :
    (Claims.HostAt (running (queueAt (.zeroMode false)) (ready .md5 .ecb)) 1 (queueAt (.zeroMode false)) ∧
      (session .md5).ctx.last = none) ∧
    (Claims.HostAt (running (queueAt (.zeroMode true)) pending) 1 (queueAt (.zeroMode true)) ∧
      (pending.ctx 7).map (fun c => (c.last, c.pendingNonIoc)) = some (some 0, true) ∧ Reach pending (0x2000 + 32 * 0 + 12) 4) ∧
    Claims.HostAt (running (queueAt (.zeroFlags true 0)) pending) 1 (queueAt (.zeroFlags true 0)) ∧
      Reach pending (0x2000 + 32 * 0 + 1) 1 ∧ Memory.wf pending.mem = true :=
  ⟨⟨running_at _ _, rfl⟩, ⟨running_at _ _, rfl, by decide⟩, running_at _ _, by decide, rfl⟩

/-- The task of an EXECUTE at a position. -/
def execAt (ph : ExecPhase) : Machine.Task := ⟨.execute 7, some (.exec 7 ph), none⟩

/-- `ready` with a context of the hash session changed. -/
def withCtx (f : Ctx → Ctx) : State := (ready .md5 .ecb).updCtx 7 f

-- done with each recorded status, a reserved one among them; not done, at the trigger and in the wait
theorem witness_ExecuteTriggersOrReports :
    (∀ c ∈ [1, 2, 3], let s := running (execAt .trigger) (withCtx fun x => { x with status := c })
      Claims.HostAt s 1 (execAt .trigger) ∧ (s.ctx 7).map (fun x => (x.done, x.status)) = some (true, c) ∧
        (s.ring .hash).live = true) ∧
    ∀ ph ∈ [ExecPhase.trigger, .wait], let s := running (execAt ph) (withCtx fun x => { x with done := false })
      Claims.HostAt s 1 (execAt ph) ∧ (s.ctx 7).map (fun x => x.done) = some false :=
  ⟨fun _ _ => ⟨running_at _ _, rfl, rfl⟩, fun _ _ => ⟨running_at _ _, rfl⟩⟩

-- a wait of either class, with a signal and with the timeout
theorem witness_WaitEndings : (∀ h : Handle, ∀ ev ∈ [Event.signal 1, .timeout 1],
    let s := { running ⟨.execute h, some (.exec h .wait), none⟩ (ready .md5 .ecb) with inputs := [ev] }
    Claims.Listed s ev ∧ (s.thread 1).stuck = false ∧
      (s.thread 1).task = some ⟨.execute h, some (.exec h .wait), none⟩) ∧
    ((ready .md5 .ecb).ctx 7).map (fun c => c.ring) = some .hash ∧
    ((ready .md5 .ecb).ctx 9).map (fun c => c.ring) = some .aes := ⟨fun _ _ _ => ⟨rfl, rfl, rfl⟩, rfl, rfl⟩

theorem witness_RingNotResetRefuses :
    (let s := { ready .md5 .ecb with hashRing := Ring.reset 4 };
      s.ctx 7 = some (session .md5).ctx ∧ (s.ring .hash).live = false ∧
      Claims.HostAt (running (queueAt .enter) s) 1 (queueAt .enter) ∧
      Claims.HostAt (running (execAt .trigger) s) 1 (execAt .trigger)) ∧
    (Claims.HostAt (running ⟨.regWrite 0x0C 4 1, none, none⟩ State.reset) 1 ⟨.regWrite 0x0C 4 1, none, none⟩ ∧
      (1 : Word).getLsbD 0 = true ∧ ((0x0C : Word) - State.reset.params.regBase).toNat = 0x0C) ∧
    ∃ t, step (withBytes 0 [] .hardwareReset) = .next t :=
  ⟨⟨rfl, rfl, running_at _ _, running_at _ _⟩, ⟨running_at _ _, by decide, by decide⟩, _, rfl⟩

theorem witness_DispatchEntryAcknowledges :
    let s := { State.reset with intEn := 0x303, intFlag := 0x3, inputs := [Event.dispatcher] }
    Claims.Listed s .dispatcher ∧ s.dispatcher.stuck = false ∧ s.dispatcher.active = false ∧ s.irq = true ∧
      s.intEn &&& ~~~(0x303 : Word) = 0 := by decide

/-- `ready` inside a dispatch with these rings to drain. -/
def dispatching (a h : Bool) : State := { ready .md5 .ecb with dispatcher := ⟨true, a, h, false⟩, inputs := [.dispatcher] }

-- both rings, the hash ring, and none left to drain
theorem witness_DispatcherOrder : ∀ x ∈ [(true, true), (false, true), (false, false)],
    Claims.Listed (dispatching x.1 x.2) .dispatcher ∧ (dispatching x.1 x.2).dispatcher = ⟨true, x.1, x.2, false⟩ ∧
      Reach (dispatching x.1 x.2) 0x1000 32 ∧ Reach (dispatching x.1 x.2) 0x2000 32 ∧
      (Descriptor.ofBytes (Memory.readBytes (dispatching x.1 x.2).mem 0x1000 32)).cc = 0 := by decide

theorem witness_ReleaseRetiresSlot :
    let d : Descriptor := ⟨0x00400205, 0, 0, 0x84, 0, 0, 7, 0⟩
    Claims.Listed (draining d) .dispatcher ∧ Memory.wf (draining d).mem = true ∧
      (draining d).dispatcher = ⟨true, EngineId.hash == .aes, true, false⟩ ∧ Reach (draining d) 0x2000 32 ∧
      Descriptor.ofBytes (Memory.readBytes (draining d).mem 0x2000 32) = d ∧ d.cc ≠ 0 ∧
      ((draining d).ctx d.owner).isSome = true := by decide

/-- The hash session of `ready`. -/
theorem ready_hash (a : HashAlg) : (ready a .ecb).hashSession 7 = some (session a) := rfl

/-- The cipher session of `ready`. -/
theorem ready_cipher (a : CipherAlg) : (ready .md5 a).cipherSession 9 = some (cipher a) := rfl

-- a query, another length, descriptors outstanding, a start
theorem witness_HashInitStartsMessage : (∀ dl ∈ [none, some 15, some 16],
    Claims.HostAt (running ⟨.hashInit 7 dl .body, none, none⟩ (ready .md5 .ecb)) 1 ⟨.hashInit 7 dl .body, none, none⟩) ∧
    (session .md5).digestLen = 16 ∧ (session .md5).ctx.outstanding = 0 ∧ Reach (ready .md5 .ecb) 0x8000 16 ∧
    ((draining (words 1 0)).hashSession 7).map (fun x => x.ctx.outstanding) = some 1 :=
  ⟨fun _ _ => running_at _ _, rfl, rfl, by decide, rfl⟩

/-- An update of 200 bytes at 0x100 at a position, with the result of the operation it called. -/
def updateAt (pc : UpdatePc) (r : Option SubRet) : Machine.Task := ⟨.hashUpdate 7 0x100 200 pc, none, r⟩

-- the longest update that is buffered and the shortest that fills a block; the last run and one before it, with
-- and without IOC; a remainder of 11 bytes behind 128 whole ones
theorem witness_HashUpdateBuffers : (∀ n ∈ [60, 61],
    Claims.HostAt (running ⟨.hashUpdate 7 0x100 n .body, none, none⟩ (ready .md5 .ecb)) 1
      ⟨.hashUpdate 7 0x100 n .body, none, none⟩) ∧
    (session .md5).alg.blockSize - (session .md5).left = 61 ∧ Reach (ready .md5 .ecb) 0x100 61 ∧
    Reach (ready .md5 .ecb) (0x8000 + 224 + 3) 61 ∧
    (∀ rest ∈ [[], [(⟨0x13D, 128⟩ : Run)]],
      ∀ k ∈ [updateAt (.send (⟨0x80E0, 64⟩ :: rest)) none, updateAt (.sent rest) (some (.queued 0 true)),
        updateAt (.sent rest) (some (.queued 0 false)), updateAt (.waited rest) (some .executed),
        updateAt .remainder none], Claims.HostAt (running k (ready .md5 .ecb)) 1 k) ∧
    0x80E0 < Config.dmaEnd ∧ 0x8000 + 384 < Config.dmaEnd ∧ 200 - 61 - (200 - 61) % 64 = 128 ∧ (200 - 61) % 64 = 11 ∧
    Reach (ready .md5 .ecb) (0x100 + 61 + 128) 11 ∧ Reach (ready .md5 .ecb) (0x8000 + 224) 11 :=
  ⟨fun _ _ => running_at _ _, by decide, by decide, by decide, fun _ _ _ _ => running_at _ _, by decide⟩

-- a length that is a multiple of the run and one that is not
theorem witness_SplitRunsCover : 0 < 64 ∧ 128 ≤ 2 * 64 ∧ 128 % 16 = 0 ∧ 64 % 16 = 0 ∧ 100 ≤ 2 * 64 := by decide

-- the fullest buffer of every algorithm
theorem witness_PaddingFillsBlocks : ∀ a ∈ [HashAlg.md5, .sha3_224, .sha3_256, .sha3_384, .sha3_512, .ghash],
    a.blockSize - 1 < a.blockSize ∧ (List.replicate (a.blockSize - 1) (0 : Byte)).length = a.blockSize - 1 := by
  simp only [List.length_replicate]; decide

/-- The state with this lock of the hash session. -/
def hashLockedBy (o : Option ThreadId) : State :=
  { ready .md5 .ecb with hashSessions := [{ session .md5 with lock := o }] }

-- every operation before the lock, in every state of a session; a GHASH session without a key; an error
theorem witness_HashStateGuards : (∀ f : Fsm, ∀ j ∈ [Job.hashUpdate 7 0 0 .check, .hashFinal 7 .check, .hashSave 7 .check],
    let s := running ⟨j, none, none⟩ { ready .md5 .ecb with hashSessions := [{ session .ghash with fsm := f }] }
    Claims.HostAt s 1 ⟨j, none, none⟩ ∧ (s.hashSession 7).map (fun x => x.fsm) = some f) ∧
    (session .ghash).keySet = false ∧ (session .ghash).fsm = .ready ∧ (session .md5).alg ≠ .ghash ∧
    ∀ j ∈ [Job.hashUpdate 7 0 0 (.sent []), .hashUpdate 7 0 0 (.waited []), .hashFinal 7 .queued, .hashFinal 7 .waited],
      Claims.HostAt (running ⟨j, none, some (.failed .interrupted)⟩ (ready .md5 .ecb)) 1
        ⟨j, none, some (.failed .interrupted)⟩ :=
  ⟨fun _ _ _ => ⟨running_at _ _, rfl⟩, rfl, rfl, by decide, fun _ _ => running_at _ _⟩

-- every operation at the lock, free, its own thread's and another's
theorem witness_HashStateGuards_lock : ∀ o ∈ [none, some 1, some 2],
    ∀ j ∈ [Job.hashInit 7 (some 16) .lock, .hashUpdate 7 0 0 .lock, .hashFinal 7 .lock, .hashSetkey 7 0 16 .lock,
      .hashSave 7 .lock, .hashRestore 7 ⟨.md5, .ready, 0, 0, [], []⟩ .lock],
    let s := running ⟨j, none, none⟩ (hashLockedBy o)
    (Claims.HostAt s 1 ⟨j, none, none⟩ ∧ (s.hashSession 7).map (fun x => x.lock) = some o) ∧
      (Claims.hashLocked 7 j).isSome = true :=
  fun _ _ j hj => ⟨⟨running_at _ _, rfl⟩, by revert j; decide⟩

-- the lengths around the accepted ones
theorem witness_HashSetkeyRules : (∀ len ∈ [15, 16, 17, 18], ∀ pc ∈ [LockPc.check, .body],
    Claims.HostAt (running ⟨.hashSetkey 7 0x100 len pc, none, none⟩ (ready .ghash .ecb)) 1
      ⟨.hashSetkey 7 0x100 len pc, none, none⟩) ∧
    (session .ghash).alg = .ghash ∧ (session .md5).alg ≠ .ghash ∧ Reach (ready .ghash .ecb) 0x100 16 ∧
    Reach (ready .ghash .ecb) (0x8000 + 384) 16 := ⟨fun _ _ _ _ => running_at _ _, rfl, by decide, by decide, by decide⟩

/-- A snapshot of an MD5 message of this many bytes, all of them pending. -/
def snapshot (n : Nat) : Snapshot := ⟨.md5, .updating, n, BitVec.ofNat 64 n, List.replicate 16 1, List.replicate n 2⟩

-- the fullest buffer a snapshot may have, and one byte more; a Ready one, with and without a count; another algorithm
theorem witness_ExportThenImport :
    Claims.HostAt (running ⟨.hashSave 7 .body, none, none⟩ (ready .md5 .ecb)) 1 ⟨.hashSave 7 .body, none, none⟩ ∧
    (∀ p : Snapshot, Claims.HostAt (running ⟨.hashRestore 7 p .body, none, none⟩ (ready .md5 .ecb)) 1
      ⟨.hashRestore 7 p .body, none, none⟩) ∧
    Claims.Exportable (snapshot 63) ∧ ¬Claims.Exportable (snapshot 64) ∧
    Claims.Exportable { snapshot 0 with fsm := .ready } ∧ ¬Claims.Exportable { snapshot 1 with fsm := .ready } ∧
    (snapshot 63).alg ≠ (session .ghash).alg ∧ (session .md5).ctx.outstanding = 0 ∧ Memory.wf (ready .md5 .ecb).mem = true ∧
    Reach (ready .md5 .ecb) 0x8000 16 ∧ Reach (ready .md5 .ecb) (0x8000 + 224) 63 :=
  ⟨running_at _ _, fun _ => running_at _ _, ⟨by decide, rfl, rfl, .inr ⟨rfl, 63, rfl, rfl⟩⟩,
    fun h => absurd h.1 (by decide), ⟨by decide, rfl, rfl, .inl ⟨rfl, rfl, rfl⟩⟩,
    fun h => h.2.2.2.elim (fun x => absurd x.2.1 (by decide)) (fun x => absurd x.1 (by decide)), by decide, rfl, rfl,
    by decide, by decide⟩

theorem witness_CipherSetkeyRules : (∀ len ∈ [16, 24, 32, 31], ∀ a ∈ [CipherAlg.ecb, .chacha20],
    Claims.HostAt (running ⟨.cipherSetkey 9 0x100 len .body, none, none⟩ (ready .md5 a)) 1
      ⟨.cipherSetkey 9 0x100 len .body, none, none⟩) ∧ Reach (ready .md5 .ecb) 0x100 32 ∧
    Reach (ready .md5 .ecb) (0x9000 + 80) 32 := ⟨fun _ _ _ _ => running_at _ _, by decide, by decide⟩

-- the two operations of a cipher session at its lock, free, the thread's own and another's
theorem witness_CipherSetkeyRules_lock : ∀ o ∈ [none, some 1, some 2],
    ∀ j ∈ [Job.cipherSetkey 9 0x100 32 .lock, .crypt 9 ⟨false, [], [], 0, 0⟩ .lock],
    let s := running ⟨j, none, none⟩ { ready .md5 .ecb with cipherSessions := [{ cipher .ecb with lock := o }] }
    Claims.HostAt s 1 ⟨j, none, none⟩ ∧ (s.cipherSession 9).map (fun x => x.lock) = some o :=
  fun _ _ _ _ => ⟨running_at _ _, rfl⟩

/-- A request over two source segments and one destination segment. -/
def request (n : Nat) : Request := ⟨false, [⟨0x100, 20⟩, ⟨0x200, 12⟩], [⟨0x300, 32⟩], n, 0x400⟩

-- the longest request its lists hold, one byte more, a partial block, nothing; a session without a key
theorem witness_CryptChecks : (∀ n ∈ [32, 33, 17, 0], ∀ a ∈ [CipherAlg.ecb, .ctr],
    Claims.HostAt (running ⟨.crypt 9 (request n) .body, none, none⟩ (ready .md5 a)) 1
      ⟨.crypt 9 (request n) .body, none, none⟩) ∧
    (Claims.sgAddresses (request 32).src).length = 32 ∧ (Claims.sgAddresses (request 32).dst).length = 32 ∧
    (request 17).nbytes % 16 ≠ 0 ∧ (cipher .ecb).keyLen ≠ none ∧ (freshCipher 9 .ecb 0x9000).keyLen = none ∧
    (cipher .ecb).ctx.outstanding = 0 ∧ ({ cipher .ctr with ivLoaded := true } : CipherSession).ivLoaded = true ∧
    Reach (ready .md5 .ctr) (0x9000 + 64) 16 :=
  ⟨fun _ _ _ _ => running_at _ _, by decide, by decide, by decide, by decide, rfl, rfl, rfl, by decide⟩

-- the first call of a CBC session, decrypting: the next IV is read over the border of two segments
theorem witness_CryptChecks_cbc :
    let req : Request := { request 32 with decrypt := true }
    let k : Machine.Task := ⟨.crypt 9 req .body, none, none⟩
    Claims.HostAt (running k (ready .md5 .cbc)) 1 k ∧ (cipher .cbc).ivLoaded = false ∧ 0 < req.nbytes ∧
      Reach (ready .md5 .cbc) req.iv.toNat 16 ∧
      ∃ b, sgRead Params.default (Memory.writeBytes [] 0x9040 (Memory.readBytes [] 0x400 16)) req.src 16 16 = .ok b ∧
        b.length = 16 := ⟨running_at _ _, rfl, by decide, by decide, _, rfl, rfl⟩

-- the whole of two segments, and a write over their border
theorem witness_SegmentListAccess : Memory.wf [] = true ∧
    (∃ b, sgRead Params.default [] (request 32).src 0 32 = .ok b) ∧
    (∃ m, sgWrite Params.default (request 32).src 18 [1, 2, 3, 4] [] = .ok m) ∧
    (Claims.sgAddresses (request 32).src).Nodup ∧ 18 + 4 ≤ (Claims.sgAddresses (request 32).src).length :=
  ⟨rfl, ⟨_, rfl⟩, ⟨_, rfl⟩, by decide, by decide⟩

/-- The walk of `request 32` with this much of the source's first segment done. -/
def walk (done : Nat) : Walk := ⟨0, done, 0, done, 32 - done, 0, .noneExhausted, 0, 0⟩

/-- A pass of the walk. -/
def passAt (done : Nat) : Machine.Task := ⟨.crypt 9 (request 32) (.loop (walk done)), none, none⟩

-- a first pass with a block in the segment, and one with 4 bytes left in it
theorem witness_WalkPassQueues : (∀ n ∈ [0, 16], Claims.HostAt (running (passAt n) (ready .md5 .ecb)) 1 (passAt n) ∧
      0 < (walk n).left ∧ (walk n).skip (request 32) = walk n) ∧
    min (20 - 0) (min (32 - 0) 32) ≥ 16 ∧ min (20 - 16) (min (32 - 16) 16) < 16 ∧
    (∃ b, sgRead Params.default [] (request 32).src (32 - 16) (min 16 16) = .ok b ∧ b.length = 16) ∧
    Reach (ready .md5 .ecb) 0x9000 16 ∧ (0x9000 : Word).toNat + 80 < Config.dmaEnd :=
  ⟨fun n h => ⟨running_at _ _, by revert n; decide⟩, by decide, by decide, ⟨_, rfl, rfl⟩, by decide, by decide⟩

-- the later steps: a queued and a waited run, direct and staged, each outcome; a scatter over a segment's border
theorem witness_WalkPassQueues_later :
    (∀ x ∈ [(CryptPc.queued (walk 0) (.direct 16), some (SubRet.queued 0 false)),
        (.queued (walk 0) (.direct 16), some (.queued 0 true)), (.queued (walk 16) (.staged 16), some (.queued 0 true)),
        (.waited (walk 16) (.direct 16), some .executed), (.waited (walk 16) (.staged 16), some .executed),
        (.waited (walk 16) (.staged 16), some (.failed .timeout)), (.queued (walk 0) (.direct 16), some (.failed .interrupted)),
        (.loop (walk 32), none)],
      Claims.HostAt (running ⟨.crypt 9 (request 32) x.1, none, x.2⟩ (ready .md5 .ecb)) 1
        ⟨.crypt 9 (request 32) x.1, none, x.2⟩) ∧ (walk 32).left = 0 ∧
    (∃ m, sgWrite Params.default (request 32).dst (32 - (walk 16).left) (Memory.readBytes [] 0x9000 16) [] = .ok m) ∧
    Claims.InSeg (request 32).src 0 16 ∧ Claims.sgPos (request 32).src 0 16 + 16 ≤ (Claims.sgAddresses (request 32).src).length ∧
    Claims.InSeg (request 32).dst 0 16 ∧ Claims.sgPos (request 32).dst 0 16 + 16 ≤ (Claims.sgAddresses (request 32).dst).length :=
  ⟨fun _ _ => running_at _ _, rfl, ⟨_, rfl⟩, ⟨_, rfl, by decide⟩, by decide, ⟨_, rfl, by decide⟩, by decide⟩

-- an error, an ECB request, a CBC encryption whose last block the destination holds
theorem witness_CryptReturnsIv : (∀ e ∈ [none, some Err.timeout], ∀ a ∈ [CipherAlg.ecb, .cbc],
    Claims.HostAt (running ⟨.crypt 9 (request 32) (.finish (walk 32) e), none, none⟩ (ready .md5 a)) 1
      ⟨.crypt 9 (request 32) (.finish (walk 32) e), none, none⟩) ∧
    (∃ d, sgRead Params.default [] (request 32).dst (32 - 16) 16 = .ok d) ∧ Memory.wf (ready .md5 .cbc).mem = true ∧
    Reach (ready .md5 .cbc) (0x9000 + 64) 16 ∧ Reach (ready .md5 .cbc) 0x400 16 ∧
    Claims.Apart 0x400 16 (0x9000 + 64) 16 :=
  ⟨fun _ _ _ _ => running_at _ _, ⟨_, rfl⟩, rfl, by decide, by decide, by decide⟩

-- the walk's mutex free and held; the end of a walk with and without an error
theorem witness_CryptReturnsIv_mutex : (∀ o ∈ [none, some 1, some 2],
    let k : Machine.Task := ⟨.crypt 9 (request 32) (.walkLock (walk 0)), none, none⟩
    let s := running k { ready .md5 .ecb with aesRing := { ring 0x1000 with mutex := o } }
    Claims.HostAt s 1 k ∧ s.aesRing.mutex = o) ∧
    ∀ e ∈ [none, some Err.timeout], Claims.HostAt
      (running ⟨.crypt 9 (request 32) (.leave (walk 32) e), none, none⟩ (ready .md5 .ecb)) 1
      ⟨.crypt 9 (request 32) (.leave (walk 32) e), none, none⟩ :=
  ⟨fun _ _ => ⟨running_at _ _, rfl⟩, fun _ _ => running_at _ _⟩

-- new identities over aligned buffers; both sessions quiet, and one with a descriptor out
theorem witness_SessionLifecycle : (∀ j ∈ [Job.hashCreate 8 .ghash 0x8020, .cipherCreate 8 .cbc 0x9020, .hashDestroy 7,
      .cipherDestroy 9],
    let s := running ⟨j, none, none⟩ (ready .md5 .ecb)
    Claims.HostAt s 1 ⟨j, none, none⟩ ∧ s.ctx 8 = none ∧ (∀ x ∈ s.threads, x.id = 1)) ∧
    (0x8020 : Word) &&& 0x1F = 0 ∧ (session .md5).ctx.outstanding = 0 ∧ (session .md5).lock = none ∧
    (cipher .ecb).ctx.outstanding = 0 ∧ (cipher .ecb).lock = none ∧
    ((draining (words 1 0)).hashSession 7).map (fun x => x.ctx.outstanding) = some 1 ∧
    (let j : Job := .crypt 9 ⟨false, [], [], 0, 0⟩ .lock;
      ∃ x ∈ [(⟨2, some ⟨j, none, none⟩, none, false⟩ : Thread)], x.id ≠ 1 ∧ ∃ k, x.task = some k ∧ k.job = j ∧
        j.session = some 9) ∧ (hashLockedBy (some 2)).hashSessions.map (fun x => x.lock) = [some 2] :=
  ⟨fun _ _ => ⟨running_at _ _, rfl, by intro x hx; cases hx with | head => rfl | tail _ h => cases h⟩,
    by decide, rfl, rfl, rfl, rfl, rfl, ⟨_, List.mem_singleton.2 rfl, by decide, _, rfl, rfl, rfl⟩, rfl⟩

-- a final descriptor, the zero-length queue of a GHASH message of whole blocks, and the two later stages
theorem witness_HashFinalStages :
    (let k : Machine.Task := ⟨.hashFinal 7 .pad, none, none⟩;
      Claims.HostAt (running k (ready .md5 .ecb)) 1 k ∧ (session .ghash).scratch.toNat + 384 < Config.dmaEnd ∧
        Reach (running k (ready .md5 .ecb)) (0x8000 + 224 + 3) 61 ∧ padLen .md5 3 = 64 ∧ padLen .ghash 0 = 0) ∧
    (∀ r ∈ [SubRet.queued 0 true, .updated], let k : Machine.Task := ⟨.hashFinal 7 .queued, none, some r⟩;
      Claims.HostAt (running k (ready .md5 .ecb)) 1 k) ∧
    (let k : Machine.Task := ⟨.hashFinal 7 .waited, none, some .executed⟩;
      Claims.HostAt (running k (ready .md5 .ecb)) 1 k ∧ Reach (running k (ready .md5 .ecb)) 0x8000 16) :=
  ⟨by decide, fun _ _ => running_at _ _, by decide⟩

end Sys2Proof.Tests
end

/-! The proofs of the family 00_scope: the decoder inverts the encoder under every mode codec, and the
invariant holds at reset and is kept by every step of every agent. -/

namespace Sys2Proof.Proofs.Scope

open Sys2Proof Sys2Proof.Machine Sys2Proof.Laws

/-! ### The decoder inverts the encoder (30_encoding.md R130) -/

/-- An encoded normal descriptor decodes to the command its ALG code selects (30_encoding.md R121). -/
theorem decodeDescriptor_encodeTrb {a : BitVec 4} {dir : Bool} {d : Trb} {i : Instr}
    (h : decodeAlg (encodeTrb a dir d) = some i) : decodeDescriptor (encodeTrb a dir d) = .ok i := by
  simp [decodeDescriptor, encodeTrb_type, h]

/-- The words of a link decode to the link (30_encoding.md R127). -/
theorem decodeDescriptor_encode_link (c tc : Bool) (dptr : Word) :
    decodeDescriptor (encodeDescriptor (.link c tc dptr)) = .ok (.link c tc dptr) := by
  simp only [encodeDescriptor, decodeDescriptor, Descriptor.type, Descriptor.cycle, Descriptor.tc, ctrlWord_type,
    ctrlWord_c, ctrlWord_tc, if_true]

/-- The words of every command decode to the command: each `ALG` code selects its own arm, and DIR the direction
of ECB and CBC (30_encoding.md R121, R122). -/
theorem decodeDescriptor_encodeDescriptor (i : Instr) : decodeDescriptor (encodeDescriptor i) = .ok i := by
  cases i with
  | link c tc dptr => exact decodeDescriptor_encode_link c tc dptr
  | _ =>
    exact decodeDescriptor_encodeTrb (by simp [decodeAlg, encodeTrb_alg, encodeTrb_dir, encodeTrb_trb])

/-- Settles O1: the layout is undone first (`decode_bytes`, `decodeIn_inLayout`), then the words decode to the
command. -/
theorem decodeEncodeAgree : Obligations.DecodeEncodeAgree := by
  intro i
  refine ⟨?_, fun c hc => ?_⟩
  · exact (decode_bytes _).trans (decodeDescriptor_encodeDescriptor i)
  · exact (decodeIn_inLayout hc _).trans (decodeDescriptor_encodeDescriptor i)

/-! ### Every step keeps the invariant -/

/-- An engine has aligned pointers after a hardware reset, whatever they were (10_state.md R64). -/
theorem afterReset_aligned (x : Engine) : x.afterReset.aligned :=
  (by decide : (0 : Word) &&& 0x1F = 0 ∧ (0 : Word) &&& 0x1F = 0)

/-- A hardware reset clears the registers and leaves memory, cursors and sessions (70_reset_and_hazards.md R400). -/
theorem hardwareReset_inv {s : State} (i : s.Inv) : (hardwareReset s).Inv where
  params := i.params
  mem := i.mem
  aes := afterReset_aligned s.aes
  hash := afterReset_aligned s.hash
  intEn := BitVec.zero_and
  intFlag := BitVec.zero_and
  aesRing := i.aesRing
  hashRing := i.hashRing
  hashSessions := i.hashSessions
  cipherSessions := i.cipherSessions
  handles := i.handles

/-- The event-ring-full flag is a bit in scope (10_state.md R35). -/
theorem eventRingFull_inv {s : State} (i : s.Inv) (e : EngineId) :
    ({ s with intFlag := s.intFlag ||| erfBit e } : State).Inv :=
  { i with intFlag := erfBit_intScope _ e i.intFlag }

/-- What an event does keeps the invariant, whichever agent it is a step of. -/
theorem runEvent_inv {ev : Event} {s t : State} (h : runEvent ev s = .next t) (i : s.Inv) : t.Inv := by
  cases ev with
  | engine e => exact (engineStep_kept h).inv i
  | dispatcher => exact (dispatcherStep_kept h).1.inv i
  | host th => exact (hostStep_kept h).1.inv i
  | call th op =>
    cases h
    exact (beginOp_kept s th op).inv i
  | signal th =>
    cases h
    exact (interruptThread_kept s th _ fun k s => signalThread_kept s th k).inv i
  | timeout th =>
    cases h
    exact (interruptThread_kept s th _ fun k s => timeoutThread_kept s th k).inv i
  | eventRingFull e =>
    cases h
    exact eventRingFull_inv i e
  | hardwareReset =>
    cases h
    exact hardwareReset_inv i

/-- Settles O31: taking the event off the list keeps the invariant, and so does what the event does. -/
theorem stepKeepsInvariant : Obligations.StepKeepsInvariant := fun s _ i h =>
  runEvent_inv h ((takeEvent_kept s).inv i)

/-! ### The reset state meets the invariant -/

/-- Both engines of the reset state have the reset values (10_state.md R64). -/
theorem engine_reset (e : EngineId) : State.reset.engine e = Engine.reset := by cases e <;> rfl

/-- The reset state meets the invariant under every choice of the open parameters (00_scope.md R11). -/
theorem resetWith_inv {p : Params} (hp : p.wf = true) : (State.resetWith p).Inv where
  params := hp
  mem := rfl
  aes := afterReset_aligned Engine.reset
  hash := afterReset_aligned Engine.reset
  intEn := BitVec.zero_and
  intFlag := BitVec.zero_and
  aesRing := ⟨Nat.zero_le _, Nat.zero_le _⟩
  hashRing := ⟨Nat.zero_le _, Nat.zero_le _⟩
  hashSessions := fun _ hx => nomatch hx
  cipherSessions := fun _ hx => nomatch hx
  handles := List.nodup_nil

/-- Settles O30: the default parameters are among those of `resetWith_inv`, and the values are the engine's reset
values read off. -/
theorem resetMeetsInvariant : Obligations.ResetMeetsInvariant := by
  refine ⟨resetWith_inv (by decide), fun e => ?_, rfl, rfl, rfl⟩
  rw [engine_reset]
  decide

end Sys2Proof.Proofs.Scope

/-! The proofs of the family 10_state, who writes what: the frame of an engine step, the writers of CHAIN and of
the ring cursors. -/

namespace Sys2Proof.Proofs.Writers

open Sys2Proof Sys2Proof.Machine Sys2Proof.Laws

/-! ### The frame of an engine step (10_state.md R62, R63) -/

/-- Taking a listed event off the list leaves both engines. -/
@[simp] theorem engine_rest (s : State) (e : EngineId) : (Claims.rest s).engine e = s.engine e := by cases e <;> rfl

/-- Settles O34: a listed engine event is the engine's step in the state without the event, and `engineStep_kept`
says what that step keeps. -/
theorem engineStepFrame : Obligations.EngineStepFrame := by
  intro s t e f hl h
  rw [step_of_listed hl] at h
  have k : ExecKept e (Claims.rest s) t := engineStep_kept h
  refine ⟨fun hf => ?_, k.chain, ?_, ?_, k.rest⟩
  · exact (k.other f hf).trans (engine_rest s f)
  · exact k.ringBase.trans (by rw [engine_rest])
  · exact k.rcs.trans (by rw [engine_rest])

/-! ### The writers of CHAIN and CHAIN_VALID (10_state.md R43, R44) -/

/-- An event that is neither an engine's step nor a hardware reset keeps CHAIN and CHAIN_VALID. -/
theorem runEvent_keptButRings {ev : Event} {s t : State} (h : runEvent ev s = .next t) (he : ∀ e, ev ≠ .engine e)
    (hr : ev ≠ .hardwareReset) : KeptButRings s t := by
  cases ev with
  | engine e => exact absurd rfl (he e)
  | dispatcher => exact (dispatcherStep_kept h).1
  | host th => exact (hostStep_kept h).1
  | call th op =>
    cases h
    exact (beginOp_kept s th op).toKeptButRings
  | signal th =>
    cases h
    exact (interruptThread_kept s th _ fun k s => signalThread_kept s th k).toKeptButRings
  | timeout th =>
    cases h
    exact (interruptThread_kept s th _ fun k s => timeoutThread_kept s th k).toKeptButRings
  | eventRingFull e =>
    cases h
    exact ⟨rfl, rfl, rfl, fun i => Scope.eventRingFull_inv i e⟩
  | hardwareReset => exact absurd rfl hr

/-- Settles O33: the AES engine may load CHAIN and sets CHAIN_VALID, the hash engine leaves both, a hardware reset
clears CHAIN_VALID, and every other event keeps both. -/
theorem chainWriters : Obligations.ChainWriters := by
  intro s t h
  have k0 := takeEvent_kept s
  rw [← k0.chain, ← k0.chainValid, ← k0.params]
  unfold step at h
  generalize (takeEvent s).1 = ev at h ⊢
  generalize (takeEvent s).2 = u at h ⊢
  cases ev with
  | engine e =>
    have k : ExecKept e u t := engineStep_kept h
    refine ⟨fun hc => ?_, fun hv hn => ?_, k.params⟩
    · cases e with
      | aes => exact .inl rfl
      | hash => exact absurd hc (by simp [k.chain rfl])
    · exact absurd (k.chainValid hv) (by simp [hn])
  | hardwareReset =>
    cases h
    exact ⟨fun _ => .inr rfl, fun _ _ => rfl, rfl⟩
  | _ =>
    have k := runEvent_keptButRings h (fun _ => Event.noConfusion) Event.noConfusion
    exact ⟨fun hc => absurd hc (by simp [k.chain, k.chainValid]),
      fun hv hn => absurd (k.chainValid.trans hv) (by simp [hn]), k.params⟩

/-! ### The writers of the ring cursors (10_state.md R47, R48) -/

/-- The head, the tail and the producer cycle state of a ring are kept. -/
def CursorsKept (s t : State) (r : EngineId) : Prop :=
  (t.ring r).head = (s.ring r).head ∧ (t.ring r).tail = (s.ring r).tail ∧ (t.ring r).pcs = (s.ring r).pcs

/-- The thread is in a RING_RESET of the ring. -/
def Resets (s : State) (th : ThreadId) (r : EngineId) : Prop :=
  ∃ base k, (s.thread th).task = some k ∧ k.job = .ringReset r base

/-- The thread is at the slot step of a QUEUE. -/
def TakesSlot (s : State) (th : ThreadId) : Prop :=
  ∃ k q held, (s.thread th).task = some k ∧ k.sub = some (.queue q (.take held))

theorem CursorsKept.of_ring_eq {s t : State} {r : EngineId} (h : t.ring r = s.ring r) : CursorsKept s t r := by
  simp [CursorsKept, h]

/-- A ring reset leaves the other ring's controller (40_ring.md R150). -/
theorem ringReset_ring_other {s t : State} {th : ThreadId} {r q : EngineId} {base : Word}
    (h : ringReset th r base s = .next t) (hq : q ≠ r) : t.ring q = s.ring q := by
  unfold ringReset at h
  split at h
  · exact nomatch h
  split at h
  · exact nomatch h
  rcases hostAccess_next h with ⟨m, _, h⟩ | ⟨_, rfl⟩
  · cases h
    simp [State.finish_eq, State.ring_setRing, hq]
  · simp [State.stickThread_eq]

/-- Outside a QUEUE and an EXECUTE only a RING_RESET of the ring itself moves its cursors. -/
theorem jobStep_cursors {s t : State} {th : ThreadId} {k : Task} (h : jobStep th k s = .next t) (r : EngineId) :
    CursorsKept s t r ∨ ∃ base, k.job = .ringReset r base := by
  by_cases hj : ∃ q base, k.job = .ringReset q base
  · obtain ⟨q, base, hj⟩ := hj
    by_cases hq : r = q
    · exact .inr ⟨base, hq ▸ hj⟩
    · refine .inl (.of_ring_eq (ringReset_ring_other (th := th) (r := q) (base := base) ?_ hq))
      simpa [jobStep, hj] using h
  · exact .inl (((jobStep_kept h).2 fun q b hk => hj ⟨q, b, hk⟩).ring r)

/-- Taking a slot leaves every head (40_ring.md R151). -/
theorem takeSlot_head {s t : State} {q : EngineId} (h : takeSlot s q = .ok t) (r : EngineId) :
    (t.ring r).head = (s.ring r).head := by
  obtain ⟨m, _, h⟩ := Acc.bind_eq_ok.1 h
  cases h
  rw [State.ring_setRing]
  split
  · next hr => rw [hr]; rfl
  · simp

/-- No step of a QUEUE moves a head (10_state.md R47). -/
theorem queueStep_head {s t : State} {th : ThreadId} {k : Task} {q : QueueCall} {ph : QueuePhase}
    (h : queueStep th k q ph s = .next t) (r : EngineId) : (t.ring r).head = (s.ring r).head := by
  by_cases hp : ∃ held, ph = .take held
  · obtain ⟨held, rfl⟩ := hp
    simp only [queueStep] at h
    split at h
    · exact nomatch h
    simp only [queuePhase] at h
    split at h
    · exact nomatch h
    rcases hostAccess_next h with ⟨u, hu, h⟩ | ⟨_, rfl⟩
    · cases h
      exact ((goSub_kept _ _ _ _).ring r).1.trans (takeSlot_head hu r)
    · exact ((stickThread_kept _ _).ring r).1
  · exact (((queueStep_kept h).2 fun held he => hp ⟨held, he⟩).ring r).1

/-- All a host thread's step can do to a ring's cursors: nothing, a reset of the ring, or a slot step, which keeps
the head. -/
theorem hostStep_cursors {s t : State} {th : ThreadId} (h : hostStep th s = .next t) (r : EngineId) :
    CursorsKept s t r ∨ Resets s th r ∨ (TakesSlot s th ∧ (t.ring r).head = (s.ring r).head) := by
  unfold hostStep at h
  simp only at h
  split at h
  · cases h
    exact .inl (.of_ring_eq rfl)
  split at h
  · cases h
    exact .inl (.of_ring_eq rfl)
  next k hk =>
    unfold taskStep at h
    split at h
    · next q ph hs =>
      by_cases hp : ∃ held, ph = .take held
      · obtain ⟨held, rfl⟩ := hp
        exact .inr (.inr ⟨⟨k, q, held, hk, hs⟩, queueStep_head h r⟩)
      · exact .inl (((queueStep_kept h).2 fun held he => hp ⟨held, he⟩).ring r)
    · exact .inl ((execStep_kept h).ring r)
    · rcases jobStep_cursors h r with hc | ⟨base, hj⟩
      · exact .inl hc
      · exact .inr (.inl ⟨base, k, hk, hj⟩)

/-- All an event can do to a ring's cursors. -/
theorem runEvent_cursors {ev : Event} {s t : State} (h : runEvent ev s = .next t) (r : EngineId) :
    CursorsKept s t r ∨
      (ev = .dispatcher ∧ (t.ring r).tail = (s.ring r).tail ∧ (t.ring r).pcs = (s.ring r).pcs) ∨
      ∃ th, ev = .host th ∧ (Resets s th r ∨ (TakesSlot s th ∧ (t.ring r).head = (s.ring r).head)) := by
  cases ev with
  | engine e =>
    refine .inl (.of_ring_eq ?_)
    rw [(engineStep_kept h).rest]
    cases r <;> rfl
  | dispatcher => exact .inr (.inl ⟨rfl, (dispatcherStep_kept h).2 r⟩)
  | host th =>
    rcases hostStep_cursors h r with hc | hm
    · exact .inl hc
    · exact .inr (.inr ⟨th, rfl, hm⟩)
  | call th op =>
    cases h
    exact .inl ((beginOp_kept s th op).ring r)
  | signal th =>
    cases h
    exact .inl ((interruptThread_kept s th _ fun k s => signalThread_kept s th k).ring r)
  | timeout th =>
    cases h
    exact .inl ((interruptThread_kept s th _ fun k s => timeoutThread_kept s th k).ring r)
  | eventRingFull e =>
    cases h
    cases r <;> exact .inl (.of_ring_eq rfl)
  | hardwareReset =>
    cases h
    cases r <;> exact .inl ⟨rfl, rfl, rfl⟩

/-- Taking an event leaves the host threads. -/
theorem thread_takeEvent (s : State) (th : ThreadId) : (takeEvent s).2.thread th = s.thread th := by
  rcases takeEvent_snd s with h | ⟨_, h⟩ <;> rw [h] <;> rfl

/-- Settles O32: taking the event off the list moves no cursor, and `runEvent_cursors` lists what the event can
do. -/
theorem ringCursorWriters : Obligations.RingCursorWriters := by
  intro s t r h
  obtain ⟨h0, t0, p0⟩ := (takeEvent_kept s).ring r
  intro resets
  rw [← h0, ← t0, ← p0]
  rcases runEvent_cursors h r with ⟨hh, ht, hp⟩ | ⟨he, ht, hp⟩ | ⟨th, he, hm⟩
  · exact ⟨fun hn => absurd hh hn, fun hn => hn.elim (absurd ht) (absurd hp)⟩
  · exact ⟨fun _ => .inl he, fun hn => hn.elim (absurd ht) (absurd hp)⟩
  · simp only [Resets, TakesSlot, thread_takeEvent] at hm
    rcases hm with ⟨base, k, hk, hj⟩ | ⟨⟨k, q, held, hk, hs⟩, hh⟩
    · have hr : resets := ⟨th, base, k, he, hk, hj⟩
      exact ⟨fun _ => .inr hr, fun _ => .inl hr⟩
    · exact ⟨fun hn => absurd hh hn, fun _ => .inr ⟨th, k, q, held, he, hk, hs⟩⟩

end Sys2Proof.Proofs.Writers

/-! The proofs of the family 10_state, the control registers: what an access reads, stores and refuses, and the
interrupt level. -/

namespace Sys2Proof.Proofs.Registers

open Sys2Proof Sys2Proof.Machine Sys2Proof.Laws

/-! ### A step of a host thread -/

/-- A thread that is not stuck takes the next step of its operation. -/
theorem step_of_hostAt {s : State} {t : ThreadId} {k : Task} (h : Claims.HostAt s t k) :
    step s = taskStep t k (Claims.rest s) := by
  obtain ⟨hl, hs, hk⟩ := h
  have hs' : ((Claims.rest s).thread t).stuck = false := hs
  have hk' : ((Claims.rest s).thread t).task = some k := hk
  rw [step_of_listed hl]
  show hostStep t (Claims.rest s) = _
  simp [hostStep, hs', hk']

/-- A register read answers with the word read and changes nothing but its own thread (10_state.md R31). -/
theorem step_regRead {s : State} {t : ThreadId} {addr : Word} {width off : Nat}
    (h : Claims.HostAt s t ⟨.regRead addr width, none, none⟩) (ho : regOffset s.params addr = off) :
    step s = match readReg s off width with
      | .ok w => .next ((Claims.rest s).finish t (.okWord w))
      | .error r => .refused r :=
  ho ▸ (step_of_hostAt h).trans rfl

/-- A register write does what `writeReg` says and returns. -/
theorem step_regWrite {s : State} {t : ThreadId} {addr v : Word} {width off : Nat}
    (h : Claims.HostAt s t ⟨.regWrite addr width v, none, none⟩) (ho : regOffset s.params addr = off) :
    step s = match writeReg (Claims.rest s) off width v with
      | .ok u => .next (u.finish t .ok)
      | .error r => .refused r :=
  ho ▸ (step_of_hostAt h).trans rfl

/-! ### Reads and refusals (10_state.md R31, R33, R36, R37) -/

/-- The offsets of `RING_BASE[e]` (10_state.md R31). -/
def baseOffset : EngineId → Nat
  | .aes => 0x00
  | .hash => 0x08

/-- The offsets of `RING_CTRL[e]` (10_state.md R31). -/
def ctrlOffset : EngineId → Nat
  | .aes => 0x04
  | .hash => 0x0C

/-- A value of RING_CTRL as the sum of its bits (10_state.md R33). -/
theorem ringCtrlValue_eq (x : Engine) :
    ringCtrlValue x = BitVec.ofNat 32 (x.busy.toNat + 2 * x.stopReq.toNat + 4 * x.rcs.toNat) := by
  unfold ringCtrlValue
  cases x.busy <;> cases x.stopReq <;> cases x.rcs <;> rfl

section
variable (s : State) (off width : Nat) (v : Word)

theorem readReg_of_width (h : width ≠ 4 ∨ off % 4 ≠ 0) : readReg s off width = .error .registerAccessWidth :=
  if_pos h

theorem writeReg_of_width (h : width ≠ 4 ∨ off % 4 ≠ 0) : writeReg s off width v = .error .registerAccessWidth :=
  if_pos h

/-- A word access to an aligned offset of 0x20 or above meets none of the registers (10_state.md R36). -/
theorem readReg_of_unmapped (h : off % 4 = 0) (ho : 0x20 ≤ off) : readReg s off 4 = .error .unmappedRegister := by
  rw [readReg, if_neg (by omega)] <;> omega

theorem writeReg_of_unmapped (h : off % 4 = 0) (ho : 0x20 ≤ off) :
    writeReg s off 4 v = .error .unmappedRegister := by
  rw [writeReg, if_neg (by omega)] <;> omega

theorem readReg_base (e : EngineId) : readReg s (baseOffset e) 4 = .ok (s.engine e).ringBase := by
  cases e <;> rfl

theorem readReg_ctrl (e : EngineId) : readReg s (ctrlOffset e) 4 = .ok (ringCtrlValue (s.engine e)) := by
  cases e <;> rfl

theorem readReg_rsa (h : off = 0x10 ∨ off = 0x14) : readReg s off 4 = .error .rsaOutOfScope := by
  rcases h with rfl | rfl <;> rfl

theorem readReg_intEn : readReg s 0x18 4 = .ok s.intEn := rfl

theorem readReg_intFlag : readReg s 0x1C 4 = .ok s.intFlag := rfl

theorem writeReg_base (e : EngineId) : writeReg s (baseOffset e) 4 v = writeBaseReg s e v := by
  cases e <;> rfl

theorem writeReg_ctrl (e : EngineId) : writeReg s (ctrlOffset e) 4 v = writeCtrlReg s e v := by
  cases e <;> rfl

/-- A write of an RSA register is refused unless it writes 0 (10_state.md R36). -/
theorem writeReg_rsa (h : off = 0x10 ∨ off = 0x14) :
    writeReg s off 4 v = if v = 0 then .ok s else .error .rsaOutOfScope := by
  rcases h with rfl | rfl <;> rfl

/-- INT_EN keeps the bits in scope, unless an RSA bit is written 1 (10_state.md R34, R36). -/
theorem writeReg_intEn : writeReg s 0x18 4 v =
    if v &&& rsaBits = 0 then .ok { s with intEn := maskEnable v } else .error .rsaOutOfScope := rfl

/-- INT_FLAG clears the bits written 1, unless an RSA bit is written 1 (10_state.md R35, R36). -/
theorem writeReg_intFlag : writeReg s 0x1C 4 v =
    if v &&& rsaBits = 0 then .ok { s with intFlag := clearFlags s.intFlag v } else .error .rsaOutOfScope := rfl

end

/-- What a register read at a mapped offset in scope returns, as the statement lists it (10_state.md R31, R33). -/
theorem readReg_mapped {s : State} {off : Nat} {w : Word}
    (h : (off = 0x00 ∧ w = s.aes.ringBase) ∨ (off = 0x08 ∧ w = s.hash.ringBase) ∨
      (off = 0x04 ∧ w = BitVec.ofNat 32 (s.aes.busy.toNat + 2 * s.aes.stopReq.toNat + 4 * s.aes.rcs.toNat)) ∨
      (off = 0x0C ∧ w = BitVec.ofNat 32 (s.hash.busy.toNat + 2 * s.hash.stopReq.toNat + 4 * s.hash.rcs.toNat)) ∨
      (off = 0x18 ∧ w = s.intEn) ∨ (off = 0x1C ∧ w = s.intFlag)) : readReg s off 4 = .ok w := by
  rcases h with ⟨rfl, rfl⟩ | ⟨rfl, rfl⟩ | ⟨rfl, rfl⟩ | ⟨rfl, rfl⟩ | ⟨rfl, rfl⟩ | ⟨rfl, rfl⟩
  · exact readReg_base s .aes
  · exact readReg_base s .hash
  · exact (readReg_ctrl s .aes).trans (congrArg _ (ringCtrlValue_eq s.aes))
  · exact (readReg_ctrl s .hash).trans (congrArg _ (ringCtrlValue_eq s.hash))
  · exact readReg_intEn s
  · exact readReg_intFlag s

/-- Settles O25: each clause is the lemma about `readReg` or `writeReg` at that offset, taken through the step. -/
theorem registerReadsAndRefusals : Obligations.RegisterReadsAndRefusals := by
  intro s t addr width v off
  have hoff : regOffset s.params addr = off := rfl
  clear_value off
  refine ⟨fun h => ⟨fun hw => ?_, fun hw ha ho => ?_, fun hw ho => ?_, fun hw w ho => ?_⟩,
    fun h => ⟨fun hw => ?_, fun hw ha ho => ?_, fun hw ho hv => ?_, fun hw ho hv => ?_⟩⟩
  · rw [step_regRead h hoff, readReg_of_width s off width hw]
  · rw [step_regRead h hoff, hw, readReg_of_unmapped s off ha ho]
  · rw [step_regRead h hoff, hw, readReg_rsa s off ho]
  · rw [step_regRead h hoff, hw, readReg_mapped ho]
    rfl
  · rw [step_regWrite h hoff, writeReg_of_width _ off width v hw]
  · rw [step_regWrite h hoff, hw, writeReg_of_unmapped _ off v ha ho]
  · rw [step_regWrite h hoff, hw, writeReg_rsa _ off v ho, if_neg hv]
  · have hv' : ¬v &&& rsaBits = 0 := hv
    rw [step_regWrite h hoff, hw]
    rcases ho with rfl | rfl
    · rw [writeReg_intEn, if_neg hv']
    · rw [writeReg_intFlag, if_neg hv']

/-! ### RING_BASE (10_state.md R32) -/

/-- Settles O26: the write reaches `writeBaseReg`, whose one test is BUSY; the low bits are part of the
invariant. -/
theorem ringBaseWrite : Obligations.RingBaseWrite := by
  intro s t e addr v h ho
  have hoff : regOffset s.params addr = baseOffset e := by cases e <;> exact ho
  have hstep := step_regWrite h hoff
  rw [writeReg_base, writeBaseReg, Writers.engine_rest] at hstep
  refine ⟨by rw [Scope.engine_reset]; rfl, fun i => (inv_aligned i e).2, fun hb => ?_, fun hb => ?_⟩
  · rw [hstep, if_pos hb]
  · rw [hstep, if_neg (by simp [hb])]
    rfl

/-! ### RING_CTRL (10_state.md R33, 40_ring.md R171, R175) -/

/-- A write of RING_CTRL bit by bit: RUN, STOP on a busy engine, RCS (10_state.md R33). -/
theorem writeRingCtrl_eq (v : Word) (x : Engine) :
    writeRingCtrl v x = { x with
      busy := if v.getLsbD 0 = true then true else x.busy
      stopReq := if v.getLsbD 1 = true ∧ x.busy = true then true else x.stopReq
      rcs := v.getLsbD 2 } := by
  unfold writeRingCtrl
  congr 1
  · cases v.getLsbD 0 <;> simp
  · cases v.getLsbD 1 <;> cases x.busy <;> simp

/-- Settles O27: the write reaches `writeCtrlReg`, whose one test is a trigger of a ring without a ring reset. -/
theorem ringCtrlWrite : Obligations.RingCtrlWrite := by
  intro s t e addr v h ho
  have hoff : regOffset s.params addr = ctrlOffset e := by cases e <;> exact ho
  have hring : (Claims.rest s).ring e = s.ring e := by cases e <;> rfl
  have hstep := step_regWrite h hoff
  rw [writeReg_ctrl, writeCtrlReg, Writers.engine_rest, hring] at hstep
  refine ⟨fun hv hl => ?_, fun hv => ?_⟩
  · rw [hstep, if_pos (by rw [hv, hl]; rfl)]
  · have ht : ¬(v.getLsbD 0 && !(s.ring e).live) = true := by rcases hv with hv | hv <;> rw [hv] <;> simp
    rw [hstep, if_neg ht, writeRingCtrl_eq]

/-! ### The interrupt registers (10_state.md R34, R35, R38) -/

/-- The bits of INT_EN and INT_FLAG in scope are 0, 1, 8 and 9 (10_state.md R34, R35). -/
theorem intScope_getLsbD (i : Nat) : intScope.getLsbD i = true ↔ i = 0 ∨ i = 1 ∨ i = 8 ∨ i = 9 := by
  by_cases hi : i < 32
  · revert i
    decide
  · rw [BitVec.getLsbD_of_ge _ _ (by omega)]
    simp
    omega

/-- A word is not 0 when one of its bits is 1. -/
theorem ne_zero_iff_getLsbD (x : Word) : x ≠ 0 ↔ ∃ i, x.getLsbD i = true := by
  refine ⟨fun h => ?_, ?_⟩
  · by_contra hn
    refine h (BitVec.eq_of_getLsbD_eq fun i _ => ?_)
    simpa using fun hx => hn ⟨i, hx⟩
  · rintro ⟨i, hi⟩ rfl
    simp at hi

/-- IRQ is 1 exactly when a flag in scope is set and enabled (10_state.md R38). -/
theorem irq_iff (s : State) : s.irq = true ↔
    ∃ i, (i = 0 ∨ i = 1 ∨ i = 8 ∨ i = 9) ∧ s.intFlag.getLsbD i = true ∧ s.intEn.getLsbD i = true := by
  rw [State.irq, irq, bne_iff_ne, ne_zero_iff_getLsbD]
  refine exists_congr fun i => ?_
  rw [BitVec.getLsbD_and, BitVec.getLsbD_and, Bool.and_eq_true, Bool.and_eq_true, intScope_getLsbD, and_comm]

/-- The dispatcher does nothing outside a dispatch while IRQ is 0 (40_ring.md R180). -/
theorem dispatcherStep_idle {s : State} (ha : s.dispatcher.active = false) (hi : s.irq = false) :
    dispatcherStep s = .next s := by
  simp [dispatcherStep, ha, hi]

/-- Settles O28: the two writes are those of `writeReg`, the event sets `erfBit`, and IRQ is `irq_iff`. -/
theorem interruptRegisters : Obligations.InterruptRegisters := by
  refine ⟨fun s t addr v h hv => ⟨fun ho => ?_, fun ho => ?_⟩, fun s e hl => ?_, irq_iff, fun s hl ha hi => ?_⟩
  · rw [step_regWrite h ho, writeReg_intEn, if_pos (show v &&& rsaBits = 0 from hv)]
    rfl
  · rw [step_regWrite h ho, writeReg_intFlag, if_pos (show v &&& rsaBits = 0 from hv)]
    rfl
  · rw [step_of_listed hl]
    cases e <;> rfl
  · rw [step_of_listed hl]
    exact dispatcherStep_idle (s := Claims.rest s) ha hi

end Sys2Proof.Proofs.Registers

/-! The proofs of the family 10_state, CHAIN after a cipher command: the block loop as a fold, what a cipher command
that runs leaves, and what each algorithm's loop leaves in CHAIN. -/

namespace Sys2Proof.Proofs.Chain

open Sys2Proof Sys2Proof.Machine Sys2Proof.Laws

/-! ### The block loop as a fold over the block numbers (41_descriptor_commands.md R201) -/

@[simp] theorem cipherFold_zero (bs : Nat) (blk : BlockFn) (src dst : Nat) (m : Memory) (ch : Block) :
    Claims.cipherFold bs blk src dst 0 m ch = (m, ch) := rfl

/-- The last block is read and written after all the others (20_memory.md R100). -/
theorem cipherFold_succ (bs : Nat) (blk : BlockFn) (src dst n : Nat) (m : Memory) (ch : Block) :
    Claims.cipherFold bs blk src dst (n + 1) m ch =
      let r := Claims.cipherFold bs blk src dst n m ch
      let o := blk r.2 (Memory.readBytes r.1 (src + n * bs) bs)
      (Memory.writeBytes r.1 (dst + n * bs) o.1, o.2) := by
  show List.foldl _ _ (List.range (n + 1)) = _
  rw [List.range_succ, List.foldl_append]
  rfl

/-- The first block is read and written before the others. -/
theorem cipherFold_cons (bs : Nat) (blk : BlockFn) (src dst n : Nat) (m : Memory) (ch : Block) :
    Claims.cipherFold bs blk src dst (n + 1) m ch =
      let o := blk ch (Memory.readBytes m src bs)
      Claims.cipherFold bs blk (src + bs) (dst + bs) n (Memory.writeBytes m dst o.1) o.2 := by
  show List.foldl _ _ (List.range (n + 1)) = List.foldl _ _ (List.range n)
  simp only [List.range_succ_eq_map, List.foldl_cons, List.foldl_map, Nat.zero_mul, Nat.add_zero, Nat.succ_mul,
    Nat.add_assoc, Nat.add_comm bs]

/-- The source and the destination of every block are inside the backed space. -/
def BlocksReach (s : State) (bs src dst n : Nat) : Prop :=
  ∀ i < n, Reach s (src + i * bs) bs ∧ Reach s (dst + i * bs) bs

theorem BlocksReach.tail {s : State} {bs src dst n : Nat} (h : BlocksReach s bs src dst (n + 1)) :
    BlocksReach s bs (src + bs) (dst + bs) n := fun i hi => by
  have := h (i + 1) (by omega)
  rwa [show src + (i + 1) * bs = src + bs + i * bs by ring, show dst + (i + 1) * bs = dst + bs + i * bs by ring]
    at this

theorem BlocksReach.mono {s : State} {bs src dst n k : Nat} (h : BlocksReach s bs src dst n) (hk : k ≤ n) :
    BlocksReach s bs src dst k := fun i hi => h i (by omega)

/-- A loop whose blocks are all inside the backed space is done, and is the fold. -/
theorem cipherBlocks_eq_fold {s : State} {bs : Nat} {blk : BlockFn} (hl : ∀ ch x, (blk ch x).1.length = bs)
    {n src dst : Nat} {m : Memory} {ch : Block} (hr : BlocksReach s bs src dst n) :
    cipherBlocks s.params bs blk n src dst m ch = .ok (Claims.cipherFold bs blk src dst n m ch) := by
  induction n generalizing src dst m ch with
  | zero => rfl
  | succ n ih =>
    obtain ⟨⟨hs, hsb⟩, hd, hdb⟩ := hr 0 (by omega)
    rw [Nat.zero_mul, Nat.add_zero] at hs hsb hd hdb
    rw [cipherBlocks, memRead_ok hs hsb, Acc.ok_bind, memWrite_ok (by rw [hl]; exact hd) (by rw [hl]; exact hdb),
      Acc.ok_bind, ih hr.tail, cipherFold_cons]

/-- The loop keeps canonical memory and every byte outside the destination. -/
theorem cipherFold_memory {s : State} {bs : Nat} {blk : BlockFn} (hl : ∀ ch x, (blk ch x).1.length = bs)
    {n src dst : Nat} {m : Memory} (ch : Block) (hr : BlocksReach s bs src dst n) (hm : Memory.wf m = true) :
    Memory.wf (Claims.cipherFold bs blk src dst n m ch).1 = true ∧
      ∀ c, (c < dst ∨ dst + n * bs ≤ c) →
        Memory.byte (Claims.cipherFold bs blk src dst n m ch).1 c = Memory.byte m c :=
  cipherBlocks_ok (cipherBlocks_eq_fold (m := m) (ch := ch) hl hr) hl hm

/-! ### A cipher command that runs (41_descriptor_commands.md R200, R201) -/

/-- The block function a cipher command gives to the common procedure. -/
def blockFn (a : CipherAlg) (decrypt : Bool) (e : Endian) : List Byte → BlockFn :=
  match a, decrypt with
  | .ecb, false => ecbEncBlock
  | .ecb, true => ecbDecBlock
  | .cbc, false => cbcEncBlock
  | .cbc, true => cbcDecBlock
  | .ctr, _ => ctrBlock e
  | .chacha20, _ => chacha20BlockFn e

/-- Every cipher command is the common procedure with its block function. -/
theorem exec_cipherInstr (a : CipherAlg) (decrypt : Bool) (d : Trb) (s : State) :
    exec (Claims.cipherInstr a decrypt d) s = runCipher a d (blockFn a decrypt s.params.ctrEndian) s := by
  cases a <;> cases decrypt <;> rfl

/-- An output block has the size of a block. -/
theorem blockFn_length (a : CipherAlg) (decrypt : Bool) (e : Endian) (key : List Byte) (ch : Block) (x : List Byte) :
    (blockFn a decrypt e key ch x).1.length = a.blockSize := by
  cases a <;> cases decrypt <;> exact leBytes_length _ _

/-- `KeyszValid` says what the engine tests (41_descriptor_commands.md R203). -/
theorem validKeysz_iff (p : Params) (a : Alg) (k : BitVec 2) : validKeysz p a k = true ↔ Claims.KeyszValid p a k := by
  rcases a with (_ | _ | _ | _) | (_ | _ | _ | _ | _ | _) <;>
    simp [validKeysz, Claims.KeyszValid, engineAccepts, or_assoc]

/-- The chaining value and flag the block loop starts with (41_descriptor_commands.md R205). -/
theorem loadChain_eq {a : CipherAlg} {d : Trb} {s : State}
    (h : a.usesIV = true → d.iptr ≠ 0 → Reach s d.iptr.toNat 16) :
    loadChain a d s = .ok (Claims.chainIn a d s, s.chainValid || (a.usesIV && d.iptr != 0)) := by
  by_cases hb : (a.usesIV && d.iptr != 0) = true
  · have hu : a.usesIV = true ∧ d.iptr ≠ 0 := by simpa using hb
    obtain ⟨h1, h2⟩ := h hu.1 hu.2
    rw [loadChain, if_pos hb, memRead_ok h1 h2, Acc.ok_bind, Claims.chainIn, if_pos hu, hb, Bool.or_true, bitsOf]
  · have hu : ¬(a.usesIV = true ∧ d.iptr ≠ 0) := by simpa using hb
    rw [loadChain, if_neg hb, Claims.chainIn, if_neg hu, Bool.eq_false_of_not_eq_true hb, Bool.or_false]

/-- What the data operation of a cipher command leaves (41_descriptor_commands.md R201). -/
def cipherRan (a : CipherAlg) (blk : BlockFn) (d : Trb) (s : State) : State :=
  let r := Claims.cipherFold a.blockSize blk d.sptr.toNat d.dptr.toNat (d.size.toNat / a.blockSize) s.mem
    (Claims.chainIn a d s)
  { s with mem := r.1, chain := r.2, chainValid := s.chainValid || (a.usesIV && d.iptr != 0) }

/-- The state the statements name is the data operation completed with code 1. -/
theorem cipherNext_eq (a : CipherAlg) (blk : BlockFn) (d : Trb) (s : State) :
    Claims.cipherNext a blk d s = Claims.completed .aes d 1 (cipherRan a blk d s) := rfl

/-- The data operation of a command that runs is done. -/
theorem cipherData_of_runs {a : CipherAlg} {d : Trb} {s : State} {blk : List Byte → BlockFn}
    (hl : ∀ key ch x, (blk key ch x).1.length = a.blockSize) (hr : Claims.CipherRuns a d s) :
    cipherData a d blk s =
      .ok (cipherRan a (blk (Memory.readBytes s.mem d.kptr.toNat (keyBytes d.keysz))) d s) := by
  obtain ⟨-, -, -, -, -, ⟨hk, hkb⟩, hiv, hblocks, -⟩ := hr
  rw [cipherData, memRead_ok hk hkb, Acc.ok_bind, loadChain_eq hiv, Acc.ok_bind,
    cipherBlocks_eq_fold (hl _) hblocks, Acc.ok_bind]
  rfl

/-- Completion with code 1 leaves the state the statements name (40_ring.md R173). -/
theorem completedState_success (d : Trb) (s : State) :
    completedState d ccSuccess s = Claims.completed s.cur d 1 s := by
  have hb : statusByte ccSuccess d.c = BitVec.ofNat 8 (2 * 1 + d.c.toNat) := by cases d.c <;> rfl
  unfold completedState Claims.completed
  rw [hb]
  generalize s.cur = e
  cases e <;> rfl

/-- What a cipher command with any block function leaves when it runs. -/
theorem runCipher_of_runs {a : CipherAlg} {d : Trb} {s : State} {blk : List Byte → BlockFn}
    (hl : ∀ key ch x, (blk key ch x).1.length = a.blockSize) (hr : Claims.CipherRuns a d s) :
    runCipher a d blk s =
      .next (Claims.cipherNext a (blk (Memory.readBytes s.mem d.kptr.toNat (keyBytes d.keysz))) d s) := by
  have hdata := cipherData_of_runs hl hr
  obtain ⟨hcur, hkeysz, hsize, hmul, hvalid, -, -, -, hdq⟩ := hr
  have hset : chainUnset (.cipher a) d s = false := by simpa [chainUnset, Alg.usesIV] using hvalid
  have hok : sizeOk (.cipher a) d = true := by simpa [sizeOk, Alg.blockSize, hmul] using hsize
  generalize blk (Memory.readBytes s.mem d.kptr.toNat (keyBytes d.keysz)) = f at hdata ⊢
  have hcur' : (cipherRan a f d s).cur = .aes := hcur
  have hc : complete d ccSuccess (cipherRan a f d s) = .ok (Claims.completed .aes d 1 (cipherRan a f d s)) :=
    complete_eq_ok.2 ⟨by rw [hcur']; exact hdq, by rw [completedState_success, hcur']⟩
  rw [runCipher, runCommand_of_checks hcur ((validKeysz_iff _ _ _).2 hkeysz) hok hset, hdata, Acc.ok_bind, hc,
    engineOutcome_ok, cipherNext_eq]

/-! ### What the loop of each algorithm leaves in CHAIN (41_descriptor_commands.md R210 to R215) -/

@[simp] theorem swap128_swap128 (x : Block) : swap128 (swap128 x) = x := by
  rw [swap128, swap128, bytesOf_bitsOf rfl (by simp), List.reverse_reverse, bitsOf_bytesOf (n := 16) rfl]

@[simp] theorem add128_zero (e : Endian) (x : Block) : add128 e x 0 = x := by
  cases e with
  | little => exact BitVec.add_zero x
  | big => exact (congrArg swap128 (BitVec.add_zero _)).trans (swap128_swap128 x)

/-- Advances of the counter add up (41_descriptor_commands.md R207). -/
theorem add128_add (e : Endian) (x : Block) (n k : Nat) : add128 e (add128 e x n) k = add128 e x (n + k) := by
  have hsum (y : Block) : y + BitVec.ofNat 128 n + BitVec.ofNat 128 k = y + BitVec.ofNat 128 (n + k) := by
    rw [BitVec.add_assoc, BitVec.ofNat_add]
  cases e with
  | little => exact hsum x
  | big =>
    show swap128 (swap128 (swap128 _) + _) = swap128 _
    rw [swap128_swap128, hsum]

/-- A block function that passes CHAIN on leaves it (R210, R211). -/
theorem cipherFold_chain_const {bs : Nat} {blk : BlockFn} (h : ∀ ch x, (blk ch x).2 = ch) (src dst n : Nat)
    (m : Memory) (ch : Block) : (Claims.cipherFold bs blk src dst n m ch).2 = ch := by
  induction n with
  | zero => rfl
  | succ n ih => rw [cipherFold_succ]; exact (h _ _).trans ih

/-- A block function that increments CHAIN advances it by the number of blocks (R214, R215). -/
theorem cipherFold_chain_counter {bs : Nat} {blk : BlockFn} {e : Endian} (h : ∀ ch x, (blk ch x).2 = inc128 e ch)
    (src dst n : Nat) (m : Memory) (ch : Block) :
    (Claims.cipherFold bs blk src dst n m ch).2 = add128 e ch n := by
  induction n with
  | zero => simp
  | succ n ih =>
    rw [cipherFold_succ, ← add128_add, ← ih]
    exact h _ _

/-- A block function whose output is the next CHAIN leaves the last output block, which is in memory (R212). -/
theorem cipherFold_chain_output {s : State} {bs : Nat} {blk : BlockFn} (hl : ∀ ch x, (blk ch x).1.length = bs)
    (h : ∀ ch x, (blk ch x).1 = bytesOf bs (blk ch x).2) {src dst n : Nat} {m : Memory} (ch : Block)
    (hr : BlocksReach s bs src dst (n + 1)) (hm : Memory.wf m = true) :
    let r := Claims.cipherFold bs blk src dst (n + 1) m ch
    Memory.readBytes r.1 (dst + n * bs) bs = bytesOf bs r.2 := by
  have w := (cipherFold_memory hl ch (hr.mono (Nat.le_succ n)) hm).1
  simp only [cipherFold_succ]
  rw [← h]
  have := Memory.readBytes_writeBytes_same w (a := dst + n * bs) (v := (blk (Claims.cipherFold bs blk src dst n m ch).2
    (Memory.readBytes (Claims.cipherFold bs blk src dst n m ch).1 (src + n * bs) bs)).1)
    (by rw [hl]; exact (hr n (Nat.lt_succ_self n)).2.1)
  rwa [hl] at this

/-- A block function whose next CHAIN is its input leaves the last input block, as it was in memory when no earlier
output block overwrote it (R213). -/
theorem cipherFold_chain_input {s : State} {blk : BlockFn} (hl : ∀ ch x, (blk ch x).1.length = 16)
    (h : ∀ ch x, (blk ch x).2 = bitsOf 128 x) {src dst n : Nat} {m : Memory} (ch : Block)
    (hr : BlocksReach s 16 src dst (n + 1)) (hm : Memory.wf m = true)
    (ha : Claims.Apart (src + n * 16) 16 dst (n * 16)) :
    (Claims.cipherFold 16 blk src dst (n + 1) m ch).2 = bitsOf 128 (Memory.readBytes m (src + n * 16) 16) := by
  have f := (cipherFold_memory hl ch (hr.mono (Nat.le_succ n)) hm).2
  simp only [cipherFold_succ, h]
  rw [Memory.readBytes_congr _ m _ _ fun c _ _ => f c (by omega)]

/-! ### CHAIN after a cipher command (10_state.md R43) -/

/-- The completion leaves every range of memory apart from its one byte (40_ring.md R173). -/
theorem readBytes_completed_aes {d : Trb} {cc : Nat} {s : State} {a n : Nat} (hm : Memory.wf s.mem = true)
    (hdq : s.aes.dq.toNat + 1 ≤ Config.dmaEnd) (ha : ¬Claims.In s.aes.dq.toNat a n) :
    Memory.readBytes (Claims.completed .aes d cc s).mem a n = Memory.readBytes s.mem a n :=
  Memory.readBytes_writeBytes_apart hm hdq
    (show a + n ≤ s.aes.dq.toNat ∨ s.aes.dq.toNat + 1 ≤ a by omega)

/-- A positive multiple of a block counts a last block. -/
theorem exists_last_block {n bs : Nat} (hn : n ≠ 0) (h : n % bs = 0) :
    ∃ k, n / bs = k + 1 ∧ n = k * bs + bs := by
  obtain ⟨j, rfl⟩ := Nat.dvd_of_mod_eq_zero h
  obtain ⟨hb, hj⟩ := Nat.mul_ne_zero_iff.1 hn
  obtain ⟨k, rfl⟩ := Nat.exists_eq_add_one_of_ne_zero hj
  exact ⟨k, Nat.mul_div_cancel_left _ (by omega), by ring⟩

/-- A CBC command that runs has a last block, and reaches it and every other. -/
theorem cbc_last_block {d : Trb} {s : State} (hr : Claims.CipherRuns .cbc d s) :
    ∃ k, d.size.toNat / 16 = k + 1 ∧ d.size.toNat = k * 16 + 16 ∧
      BlocksReach s 16 d.sptr.toNat d.dptr.toNat (k + 1) := by
  obtain ⟨-, -, hsize, hmul, -, -, -, hblocks, -⟩ := hr
  have hpos : d.size.toNat ≠ 0 := fun h => hsize (BitVec.eq_of_toNat_eq h)
  obtain ⟨k, hk, hn⟩ := exists_last_block (bs := 16) hpos hmul
  exact ⟨k, hk, hn, hk ▸ hblocks⟩

/-- After a CBC encryption the last destination block holds CHAIN (41_descriptor_commands.md R212). -/
theorem chain_cbcEnc {d : Trb} {s : State} {key : List Byte} (hm : Memory.wf s.mem = true)
    (hr : Claims.CipherRuns .cbc d s) (ha : ¬Claims.In s.aes.dq.toNat (d.dptr.toNat + d.size.toNat - 16) 16) :
    let t := Claims.cipherNext .cbc (cbcEncBlock key) d s
    Memory.readBytes t.mem (d.dptr.toNat + d.size.toNat - 16) 16 = Claims.toBytes 16 t.chain := by
  obtain ⟨k, hk, hn, hreach⟩ := cbc_last_block hr
  obtain ⟨-, -, -, -, -, -, -, -, hdq, -⟩ := hr
  have hl : ∀ ch x, (cbcEncBlock key ch x).1.length = 16 := blockFn_length .cbc false .little key
  have w := (cipherFold_memory hl (Claims.chainIn .cbc d s) hreach hm).1
  have hlast := cipherFold_chain_output hl (fun _ _ => rfl) (Claims.chainIn .cbc d s) hreach hm
  rw [← hk] at w hlast
  intro t
  rw [show t = Claims.completed .aes d 1 (cipherRan .cbc (cbcEncBlock key) d s) from rfl,
    readBytes_completed_aes (s := cipherRan .cbc (cbcEncBlock key) d s) w hdq ha,
    show d.dptr.toNat + d.size.toNat - 16 = d.dptr.toNat + k * 16 by omega]
  exact hlast

/-- After a CBC decryption CHAIN is the last source block as it was, when no earlier output block overwrote it
(41_descriptor_commands.md R213). -/
theorem chain_cbcDec {d : Trb} {s : State} {key : List Byte} (hm : Memory.wf s.mem = true)
    (hr : Claims.CipherRuns .cbc d s)
    (ha : Claims.Apart (d.sptr.toNat + d.size.toNat - 16) 16 d.dptr.toNat (d.size.toNat - 16)) :
    Claims.toBytes 16 (Claims.cipherNext .cbc (cbcDecBlock key) d s).chain =
      Memory.readBytes s.mem (d.sptr.toNat + d.size.toNat - 16) 16 := by
  obtain ⟨k, hk, hn, hreach⟩ := cbc_last_block hr
  have hl : ∀ ch x, (cbcDecBlock key ch x).1.length = 16 := blockFn_length .cbc true .little key
  rw [show d.sptr.toNat + d.size.toNat - 16 = d.sptr.toNat + k * 16 by omega,
    show d.size.toNat - 16 = k * 16 by omega] at ha
  have hlast := cipherFold_chain_input hl (fun _ _ => rfl) (Claims.chainIn .cbc d s) hreach hm ha
  rw [← hk] at hlast
  rw [show (Claims.cipherNext .cbc (cbcDecBlock key) d s).chain = _ from hlast,
    show d.sptr.toNat + d.size.toNat - 16 = d.sptr.toNat + k * 16 by omega]
  exact bytesOf_bitsOf rfl (Memory.readBytes_length _ _ _)

/-- A command that uses an IV and runs leaves CHAIN_VALID set (10_state.md R44). -/
theorem chainValid_of_runs {a : CipherAlg} {d : Trb} {s : State} (blk : BlockFn) (hr : Claims.CipherRuns a d s)
    (hu : a.usesIV = true) : (Claims.cipherNext a blk d s).chainValid = true := by
  obtain ⟨-, -, -, -, hvalid, -⟩ := hr
  show (s.chainValid || (a.usesIV && d.iptr != 0)) = true
  by_cases hi : d.iptr = 0
  · rw [hvalid hu hi, Bool.true_or]
  · rw [hu, bne_iff_ne.2 hi, Bool.and_self, Bool.or_true]

/-- Settles O20: the command leaves `cipherNext` (`runCipher_of_runs`), whose CHAIN is that of the block loop; the
lemma about the algorithm's kind of loop says what it is. -/
theorem chainAfterCommand : Obligations.ChainAfterCommand := by
  intro a decrypt d s hm hr
  refine ⟨_, (exec_cipherInstr a decrypt d s).trans (runCipher_of_runs (blockFn_length a decrypt _) hr),
    ?ecb, fun ha => ?valid, ?counter, ?encrypt, ?decrypt⟩
  case ecb =>
    rintro rfl
    exact ⟨cipherFold_chain_const (fun _ _ => by cases decrypt <;> rfl) .., Bool.or_false _⟩
  case valid =>
    refine chainValid_of_runs _ hr ?_
    cases a with
    | ecb => exact absurd rfl ha
    | _ => rfl
  case counter =>
    rintro (rfl | rfl)
    · exact cipherFold_chain_counter (fun _ _ => rfl) ..
    · exact cipherFold_chain_counter (fun _ _ => rfl) ..
  case encrypt =>
    rintro rfl rfl ha
    exact chain_cbcEnc hm hr ha
  case decrypt =>
    rintro rfl rfl ha
    exact chain_cbcDec hm hr ha

end Sys2Proof.Proofs.Chain

/-! The proofs of the family 20_memory, one access: what a read and a write of the DMA space answer, and how a run
of accesses goes by the first that is turned away. -/

namespace Sys2Proof.Proofs.Dma

open Sys2Proof Sys2Proof.Machine Sys2Proof.Laws

/-! ### One access (20_memory.md R83, R84) -/

/-- What an access of a range answers: past the end of the space it is turned away, outside the backed ranges it is
not done, else it gives its value. -/
def access {α : Type} (p : Params) (a n : Nat) (x : α) : Acc α :=
  if Config.dmaEnd < a + n then .wrap else if dmaOk p a n then .ok x else .unbacked

theorem memRead_eq_access (p : Params) (m : Memory) (a n : Nat) :
    memRead p m a n = access p a n (Memory.readBytes m a n) := rfl

theorem memWrite_eq_access (p : Params) (m : Memory) (a : Nat) (v : List Byte) :
    memWrite p m a v = access p a v.length (Memory.writeBytes m a v) := rfl

section
variable {α : Type} {p : Params} {a n : Nat} (x : α)

theorem access_wrap (h : Config.dmaEnd < a + n) : access p a n x = .wrap := if_pos h

theorem access_unbacked (h : a + n ≤ Config.dmaEnd) (hd : dmaOk p a n = false) : access p a n x = .unbacked :=
  (if_neg (Nat.not_lt.2 h)).trans (if_neg (by simp [hd]))

theorem access_ok (h : a + n ≤ Config.dmaEnd) (hd : dmaOk p a n = true) : access p a n x = .ok x :=
  (if_neg (Nat.not_lt.2 h)).trans (if_pos hd)

end

/-- A range read is the list of its bytes. -/
theorem readBytes_eq_map (m : Memory) (a n : Nat) :
    Memory.readBytes m a n = (List.range n).map fun i => Memory.byte m (a + i) :=
  List.ext_getElem (by simp) fun i h _ => by simp [Memory.readBytes_getElem m a n i h]

/-- A byte after a write: the written one inside the range, the old one elsewhere. -/
theorem byte_writeBytes_getD {m : Memory} (hm : Memory.wf m = true) {a : Nat} {v : List Byte}
    (h : a + v.length ≤ Config.dmaEnd) (c : Nat) :
    Memory.byte (Memory.writeBytes m a v) c =
      if Claims.In c a v.length then v.getD (c - a) 0 else Memory.byte m c := by
  rw [Memory.byte_writeBytes hm h]
  by_cases hc : Claims.In c a v.length
  · rw [dif_pos hc, if_pos hc, List.getD_eq_getElem]
  · rw [dif_neg hc, if_neg hc]

/-- Settles O24: a read and a write are each one `access`, whose three answers are exclusive; the bytes are those of
`readBytes_eq_map` and `byte_writeBytes_getD`. -/
theorem dmaReadAndWrite : Obligations.DmaReadAndWrite := by
  intro p m a n v hm
  rw [show (2 : Nat) ^ 32 = Config.dmaEnd from rfl, memRead_eq_access, memWrite_eq_access]
  refine ⟨access_wrap _, access_wrap _, access_unbacked _, access_unbacked _, fun h hd => ?_, fun h hd => ?_⟩
  · rw [access_ok _ h hd, readBytes_eq_map]
  · exact ⟨_, access_ok _ h hd, Memory.writeBytes_wf hm h, byte_writeBytes_getD hm h⟩

/-! ### A run of accesses -/

/-- How an access went, without the value it gave. -/
def outcome {α : Type} (x : Acc α) : Acc Unit := x.bind fun _ => .ok ()

/-- How accesses of these ranges go, one after the other, up to the first that is turned away. -/
def verdict (p : Params) : List (Nat × Nat) → Acc Unit
  | [] => .ok ()
  | r :: l => (access p r.1 r.2 ()).bind fun _ => verdict p l

@[simp] theorem outcome_ok {α : Type} (a : α) : outcome (.ok a) = .ok () := rfl

@[simp] theorem outcome_wrap {α : Type} : outcome (.wrap : Acc α) = .wrap := rfl

@[simp] theorem outcome_unbacked {α : Type} : outcome (.unbacked : Acc α) = .unbacked := rfl

theorem outcome_eq_wrap {α : Type} {x : Acc α} : outcome x = .wrap ↔ x = .wrap := by
  cases x <;> simp

theorem outcome_eq_unbacked {α : Type} {x : Acc α} : outcome x = .unbacked ↔ x = .unbacked := by
  cases x <;> simp

@[simp] theorem verdict_nil (p : Params) : verdict p [] = .ok () := rfl

theorem verdict_cons (p : Params) (r : Nat × Nat) (l : List (Nat × Nat)) :
    verdict p (r :: l) = (access p r.1 r.2 ()).bind fun _ => verdict p l := rfl

theorem verdict_append (p : Params) (l k : List (Nat × Nat)) :
    verdict p (l ++ k) = (verdict p l).bind fun _ => verdict p k := by
  induction l with
  | nil => rfl
  | cons r l ih =>
    rw [List.cons_append, verdict_cons, verdict_cons, ih, Acc.bind_assoc]

/-- One access goes as its range says. -/
theorem outcome_access {α : Type} (p : Params) (a n : Nat) (x : α) :
    outcome (access p a n x) = verdict p [(a, n)] := by
  rw [verdict_cons, verdict_nil]
  by_cases h : Config.dmaEnd < a + n
  · rw [access_wrap x h, access_wrap () h, outcome_wrap, Acc.wrap_bind]
  · have hle : a + n ≤ Config.dmaEnd := Nat.not_lt.1 h
    cases hd : dmaOk p a n with
    | true => rw [access_ok x hle hd, access_ok () hle hd, outcome_ok, Acc.ok_bind]
    | false => rw [access_unbacked x hle hd, access_unbacked () hle hd, outcome_unbacked, Acc.unbacked_bind]

theorem outcome_memRead (p : Params) (m : Memory) (a n : Nat) :
    outcome (memRead p m a n) = verdict p [(a, n)] := outcome_access ..

theorem outcome_memWrite (p : Params) (m : Memory) (a : Nat) (v : List Byte) :
    outcome (memWrite p m a v) = verdict p [(a, v.length)] := outcome_access ..

/-- What follows an access adds its own accesses to the run. -/
theorem outcome_bind {α β : Type} {p : Params} {x : Acc α} {f : α → Acc β} {l k : List (Nat × Nat)}
    (hx : outcome x = verdict p l) (hf : ∀ a, x = .ok a → outcome (f a) = verdict p k) :
    outcome (x.bind f) = verdict p (l ++ k) := by
  rw [verdict_append, ← hx]
  cases x with
  | ok a => exact hf a rfl
  | wrap => rfl
  | unbacked => rfl

/-- What follows an access without one of its own leaves the run as it is. -/
theorem outcome_bind_ok {α β : Type} (x : Acc α) (f : α → β) : outcome (x.bind fun a => .ok (f a)) = outcome x := by
  cases x <;> rfl

/-- Accesses that all reach their ranges are all done. -/
theorem verdict_of_reach {s : State} {l : List (Nat × Nat)} (h : ∀ x ∈ l, Reach s x.1 x.2) :
    verdict s.params l = .ok () := by
  induction l with
  | nil => rfl
  | cons r l ih =>
    obtain ⟨⟨hr, hd⟩, hl⟩ := List.forall_mem_cons.1 h
    rw [verdict_cons, access_ok _ hr hd, Acc.ok_bind, ih hl]

/-- The first access that is turned away decides how the run goes. -/
theorem verdict_of_first {s : State} {pre post : List (Nat × Nat)} {r : Nat × Nat} {x : Acc Unit}
    (hp : ∀ y ∈ pre, Reach s y.1 y.2) (hr : access s.params r.1 r.2 () = x) :
    verdict s.params (pre ++ r :: post) = x.bind fun _ => verdict s.params post := by
  rw [verdict_append, verdict_of_reach hp, ← hr]
  rfl

/-- A step whose accesses run over these ranges is turned away at the first that is not reached, when it answers the
two ways of being turned away as 20_memory.md R83 and R84 say. -/
theorem turnsAway_of_outcome {α : Type} {s stuck : State} {pre post : List (Nat × Nat)} {r : Nat × Nat} {x : Acc α}
    {o : Step} {l : List (Nat × Nat)} (hx : outcome x = verdict s.params l) (hl : l = pre ++ r :: post)
    (hp : ∀ y ∈ pre, Reach s y.1 y.2) (hu : x = .unbacked → o = .next stuck)
    (hw : x = .wrap → o = .refused .dmaWrap) : Claims.TurnsAway s r o stuck := by
  refine ⟨fun h hd => hu (outcome_eq_unbacked.1 ?_), fun h => hw (outcome_eq_wrap.1 ?_)⟩
  · rw [hx, hl, verdict_of_first hp (access_unbacked () h hd), Acc.unbacked_bind]
  · rw [hx, hl, verdict_of_first hp (access_wrap () h), Acc.wrap_bind]

/-- A step of one access. -/
theorem turnsAway_of_access {α : Type} {s stuck : State} {r : Nat × Nat} {x : Acc α} {o : Step}
    (hx : outcome x = verdict s.params [r]) (hu : x = .unbacked → o = .next stuck)
    (hw : x = .wrap → o = .refused .dmaWrap) : Claims.TurnsAway s r o stuck :=
  turnsAway_of_outcome (pre := []) hx rfl (List.forall_mem_nil _) hu hw

end Sys2Proof.Proofs.Dma

/-! The proofs of the family 20_memory, accesses turned away: the accesses of each agent's step as a run, in the order
the statements list them. -/

namespace Sys2Proof.Proofs.TurnedAway

open Sys2Proof Sys2Proof.Machine Sys2Proof.Laws Sys2Proof.Proofs.Dma

/-! ### The accesses of the common procedures (41_descriptor_commands.md R201, R205, R220, 40_ring.md R173) -/

/-- The fetch is one access of 32 bytes at DQ (40_ring.md R170). -/
theorem outcome_fetch (s : State) (e : EngineId) :
    outcome (fetch s e) = verdict s.params [((s.engine e).dq.toNat, 32)] := by
  rw [fetch, outcome_bind_ok, outcome_memRead, Config.trbBytes]

/-- The completion is one access of the byte at DQ (40_ring.md R173). -/
theorem outcome_complete (d : Trb) (cc : BitVec 7) (s : State) :
    outcome (complete d cc s) = verdict s.params [((s.engine s.cur).dq.toNat, 1)] := by
  rw [complete, outcome_bind_ok, outcome_memWrite, List.length_singleton]

/-- The IV is accessed when it is loaded (41_descriptor_commands.md R205). -/
theorem outcome_loadChain (a : CipherAlg) (d : Trb) (s : State) :
    outcome (loadChain a d s) =
      verdict s.params (if a.usesIV = true ∧ d.iptr ≠ 0 then [(d.iptr.toNat, 16)] else []) := by
  have hb : (a.usesIV && d.iptr != 0) = true ↔ a.usesIV = true ∧ d.iptr ≠ 0 := by simp
  by_cases h : a.usesIV = true ∧ d.iptr ≠ 0
  · rw [loadChain, if_pos (hb.2 h), if_pos h, outcome_bind_ok, outcome_memRead]
  · rw [loadChain, if_neg (mt hb.1 h), if_neg h, outcome_ok, verdict_nil]

/-- Each block of a cipher command is read and then written, before the next (20_memory.md R100). -/
theorem outcome_cipherBlocks {p : Params} {bs : Nat} {blk : BlockFn} (hl : ∀ ch x, (blk ch x).1.length = bs)
    (n src dst : Nat) (m : Memory) (ch : Block) :
    outcome (cipherBlocks p bs blk n src dst m ch) =
      verdict p ((List.range n).flatMap fun i => [(src + i * bs, bs), (dst + i * bs, bs)]) := by
  induction n generalizing src dst m ch with
  | zero => rfl
  | succ n ih =>
    have htail : ((List.range (n + 1)).flatMap fun i => [(src + i * bs, bs), (dst + i * bs, bs)]) =
        [(src, bs)] ++ ([(dst, bs)] ++
          (List.range n).flatMap fun i => [(src + bs + i * bs, bs), (dst + bs + i * bs, bs)]) := by
      simp [List.range_succ_eq_map, List.flatMap_map, Nat.succ_mul, Nat.add_comm bs, Nat.add_assoc]
    rw [htail, cipherBlocks]
    refine outcome_bind (outcome_memRead ..) fun x _ => outcome_bind ?_ fun m' _ => ih ..
    rw [outcome_memWrite, hl]

/-- Each block of a hash command is read in turn (41_descriptor_commands.md R220). -/
theorem outcome_hashBlocks (p : Params) (m : Memory) (bs : Nat) (f : List Byte → List Byte → List Byte)
    (n src : Nat) (st : List Byte) :
    outcome (hashBlocks p m bs f n src st) = verdict p ((List.range n).map fun i => (src + i * bs, bs)) := by
  induction n generalizing src st with
  | zero => rfl
  | succ n ih =>
    have htail : ((List.range (n + 1)).map fun i => (src + i * bs, bs)) =
        [(src, bs)] ++ (List.range n).map fun i => (src + bs + i * bs, bs) := by
      simp [List.range_succ_eq_map, Nat.succ_mul, Nat.add_comm bs, Nat.add_assoc]
    rw [htail, hashBlocks]
    exact outcome_bind (outcome_memRead ..) fun x _ => ih ..

/-- Only GHASH accesses a sub-key (41_descriptor_commands.md R220). -/
theorem outcome_loadSubKey (a : HashAlg) (d : Trb) (s : State) :
    outcome (loadSubKey a d s) = verdict s.params (if a = .ghash then [(d.kptr.toNat, 16)] else []) := by
  by_cases h : a = .ghash
  · rw [loadSubKey, if_pos h, if_pos h, outcome_memRead]
  · rw [loadSubKey, if_neg h, if_neg h, outcome_ok, verdict_nil]

/-- The data operation and the completion of a cipher command (41_descriptor_commands.md R201, 40_ring.md R173). -/
theorem outcome_cipher {a : CipherAlg} {d : Trb} {blk : List Byte → BlockFn} {s : State} (hc : s.cur = .aes)
    (hl : ∀ key ch x, (blk key ch x).1.length = a.blockSize) :
    outcome ((cipherData a d blk s).bind (complete d ccSuccess)) =
      verdict s.params (Claims.cipherAccesses a d s) := by
  refine outcome_bind (l := _ :: (_ ++ _)) (k := [_]) ?data fun u hu => ?completion
  case data =>
    rw [cipherData]
    refine outcome_bind (l := [_]) (outcome_memRead ..) fun key _ =>
      outcome_bind (outcome_loadChain a d s) fun cv _ => ?_
    rw [outcome_bind_ok, outcome_cipherBlocks (hl key)]
  case completion =>
    obtain ⟨key, cv, r, -, -, -, rfl⟩ := cipherData_ok hu
    rw [outcome_complete, show (State.engine _ _).dq = s.aes.dq by rw [hc]; rfl]

/-- The accesses of a hash command with the completion's apart from the others. -/
theorem hashAccesses_eq (a : HashAlg) (d : Trb) (s : State) :
    Claims.hashAccesses a d s =
      [(d.iptr.toNat, a.stateLen)] ++ ((if a = .ghash then [(d.kptr.toNat, 16)] else []) ++
        ((List.range (d.size.toNat / a.blockSize)).map (fun i => (d.sptr.toNat + i * a.blockSize, a.blockSize)) ++
          [(d.dptr.toNat, a.stateLen)])) ++ [(s.hash.dq.toNat, 1)] := by
  simp [Claims.hashAccesses]

/-- The data operation and the completion of a hash command (41_descriptor_commands.md R220, 40_ring.md R173). -/
theorem outcome_hash {a : HashAlg} {d : Trb} {f : CompressFn} {s : State} (hc : s.cur = .hash)
    (hf : ∀ st x key, (f st x key).length = a.stateLen) :
    outcome ((hashData a d f s).bind (complete d ccSuccess)) = verdict s.params (Claims.hashAccesses a d s) := by
  rw [hashAccesses_eq]
  refine outcome_bind ?data fun u hu => ?completion
  case data =>
    rw [hashData]
    refine outcome_bind (outcome_memRead ..) fun st hst => outcome_bind (outcome_loadSubKey a d s) fun key _ =>
      outcome_bind (outcome_hashBlocks ..) fun st' hst' => ?_
    obtain ⟨-, -, rfl⟩ := memRead_eq_ok.1 hst
    rw [outcome_bind_ok, outcome_memWrite, hashBlocks_length hst' (fun _ _ => hf _ _ _) (Memory.readBytes_length _ _ _)]
  case completion =>
    obtain ⟨_, _, _, m, -, -, -, -, rfl⟩ := hashData_ok hu
    rw [outcome_complete, State.cur_setMem, State.engine_setMem, State.params_setMem, hc]
    rfl

/-! ### The hash commands -/

/-- The compression function a hash command gives to the common procedure. -/
def compressFn : HashAlg → CompressFn
  | .md5 => md5Block
  | .ghash => ghashBlock
  | a => keccakBlock a.blockSize

/-- Every hash command is the common procedure with its compression function. -/
theorem exec_hashInstr (a : HashAlg) (dir : Bool) (d : Trb) (s : State) :
    exec (Claims.hashInstr a dir d) s = runHash a d (compressFn a) s := by
  cases a <;> rfl

/-- A compression gives a state of the algorithm's length. -/
theorem compressFn_length (a : HashAlg) (st x key : List Byte) : (compressFn a st x key).length = a.stateLen := by
  cases a <;> exact bytesOf_length _ _

/-! ### The steps that are turned away -/

/-- An engine's access that is turned away ends its step (20_memory.md R83, R84). -/
theorem engineOutcome_turnsAway {s : State} {pre post l : List (Nat × Nat)} {r : Nat × Nat} {x : Acc State}
    (hx : outcome x = verdict s.params l) (hl : l = pre ++ r :: post) (hp : ∀ y ∈ pre, Reach s y.1 y.2) :
    Claims.TurnsAway s r (engineOutcome s x) (s.stickEngine s.cur) :=
  turnsAway_of_outcome hx hl hp (fun h => by rw [h]; rfl) (fun h => by rw [h]; rfl)

/-- A host thread's access that is turned away ends its step (20_memory.md R83, R84). -/
theorem hostAccess_turnsAway {α : Type} {s : State} (t : ThreadId) {r : Nat × Nat} {x : Acc α} (f : α → Step)
    (hx : outcome x = verdict s.params [r]) : Claims.TurnsAway s r (hostAccess s t x f) (s.stickThread t) :=
  turnsAway_of_access hx (fun h => by rw [h]; rfl) (fun h => by rw [h]; rfl)

/-- SIZE passes the third check (41_descriptor_commands.md R200). -/
theorem sizeOk_of_multiple {a : Alg} {d : Trb} (h0 : d.size ≠ 0) (h : d.size.toNat % a.blockSize = 0) :
    sizeOk a d = true := by
  simpa [sizeOk, h] using h0

/-- A cipher command that passes its checks, at its first access that is turned away. -/
theorem cipher_turnsAway {a : CipherAlg} {decrypt : Bool} {d : Trb} {s : State} {pre post : List (Nat × Nat)}
    {r : Nat × Nat} (hc : s.cur = .aes) (hk : Claims.KeyszValid s.params (.cipher a) d.keysz) (h0 : d.size ≠ 0)
    (hm : d.size.toNat % a.blockSize = 0) (hv : a.usesIV = true → d.iptr = 0 → s.chainValid = true)
    (hl : Claims.cipherAccesses a d s = pre ++ r :: post) (hp : ∀ x ∈ pre, Reach s x.1 x.2) :
    Claims.TurnsAway s r (exec (Claims.cipherInstr a decrypt d) s) (s.stickEngine s.cur) := by
  have hset : chainUnset (.cipher a) d s = false := by simpa [chainUnset, Alg.usesIV] using hv
  rw [Chain.exec_cipherInstr, runCipher,
    runCommand_of_checks hc ((Chain.validKeysz_iff _ _ _).2 hk) (sizeOk_of_multiple h0 hm) hset]
  exact engineOutcome_turnsAway (outcome_cipher hc (Chain.blockFn_length a decrypt _)) hl hp

/-- A hash command that passes its checks, at its first access that is turned away. -/
theorem hash_turnsAway {a : HashAlg} {dir : Bool} {d : Trb} {s : State} {pre post : List (Nat × Nat)}
    {r : Nat × Nat} (hc : s.cur = .hash) (hk : Claims.KeyszValid s.params (.hash a) d.keysz) (h0 : d.size ≠ 0)
    (hm : d.size.toNat % a.blockSize = 0) (hl : Claims.hashAccesses a d s = pre ++ r :: post)
    (hp : ∀ x ∈ pre, Reach s x.1 x.2) :
    Claims.TurnsAway s r (exec (Claims.hashInstr a dir d) s) (s.stickEngine s.cur) := by
  rw [exec_hashInstr, runHash,
    runCommand_of_checks hc ((Chain.validKeysz_iff _ _ _).2 hk) (sizeOk_of_multiple h0 hm) rfl]
  exact engineOutcome_turnsAway (outcome_hash hc (compressFn_length a)) hl hp

/-- An engine that may fetch, at its fetch (40_ring.md R170). -/
theorem engineStep_turnsAway {s : State} {e : EngineId} (hb : (s.engine e).busy = true)
    (hs : (s.engine e).stuck = false) (hq : (s.engine e).stopReq = false) :
    Claims.TurnsAway s ((s.engine e).dq.toNat, 32) (engineStep e s) (s.stickEngine e) :=
  turnsAway_of_access (outcome_fetch s e) (fun h => by simp [engineStep, hb, hs, hq, h])
    (fun h => by simp [engineStep, hb, hs, hq, h])

/-- The release of a slot, at the read of the slot (40_ring.md R182). -/
theorem release_turnsAway (r : EngineId) (s : State) :
    Claims.TurnsAway s ((s.ring r).base.toNat + 32 * (s.ring r).head, 32) (release r s)
      { s with dispatcher := { s.dispatcher with stuck := true } } :=
  turnsAway_of_access (outcome_memRead s.params s.mem _ 32)
    (fun h => by rw [release, slotAddr, h]) (fun h => by rw [release, slotAddr, h])

/-- The dispatcher inside a dispatch releases a slot of the ring it drains, AES before hash (40_ring.md R182). -/
theorem dispatcherStep_drains {s : State} {r : EngineId}
    (hd : s.dispatcher = ⟨true, r == .aes, s.dispatcher.drainHash, false⟩)
    (hr : r = .hash → s.dispatcher.drainHash = true) : dispatcherStep s = release r s := by
  unfold dispatcherStep
  rw [hd]
  cases r with
  | aes => rfl
  | hash => simp [hr rfl]

/-- Taking a listed event off the list leaves both rings. -/
@[simp] theorem ring_rest (s : State) (r : EngineId) : (Claims.rest s).ring r = s.ring r := by cases r <;> rfl

/-- Settles O23: each agent's step is the run of the accesses listed, and `turnsAway_of_outcome` says where such a run
ends. -/
theorem unbackedAccessSticks : Obligations.UnbackedAccessSticks := by
  refine ⟨fun s e hl hb hs hq => ?engine, fun a decrypt d s pre post r hc hk h0 hm hv hl hp => ?cipher,
    fun a dir d s pre post r hc hk h0 hm hl hp => ?hash, fun s t addr n v => ⟨fun h => ?load, fun h => ?store⟩,
    fun s r hl hd hr => ?dispatcher⟩
  case engine =>
    have haway := engineStep_turnsAway (s := Claims.rest s) (e := e)
    simp only [Writers.engine_rest, State.stickEngine] at haway
    rw [step_of_listed hl]
    exact haway hb hs hq
  case cipher =>
    have haway := cipher_turnsAway (decrypt := decrypt) hc hk h0 hm hv hl hp
    rwa [hc] at haway
  case hash =>
    have haway := hash_turnsAway (dir := dir) hc hk h0 hm hl hp
    rwa [hc] at haway
  case load =>
    rw [Registers.step_of_hostAt h]
    exact hostAccess_turnsAway (s := Claims.rest s) t _ (outcome_memRead ..)
  case store =>
    rw [Registers.step_of_hostAt h]
    exact hostAccess_turnsAway (s := Claims.rest s) t _ (outcome_memWrite ..)
  case dispatcher =>
    have hstep : step s = release r (Claims.rest s) :=
      (step_of_listed hl).trans (dispatcherStep_drains (s := Claims.rest s) hd hr)
    have haway := release_turnsAway r (Claims.rest s)
    rw [ring_rest] at haway
    rw [hstep]
    exact haway

end Sys2Proof.Proofs.TurnedAway

/-! The proofs of the family 20_memory, operation in place: a cipher command's output as a function of the input it
finds, whatever the destination is. -/

namespace Sys2Proof.Proofs.InPlace

open Sys2Proof Sys2Proof.Machine Sys2Proof.Laws Sys2Proof.Proofs.Chain

/-- The output and the CHAIN of `n` blocks that all read their input from the memory `m`. -/
def cipherStream (bs : Nat) (blk : BlockFn) (src : Nat) (m : Memory) (ch : Block) : Nat → List Byte × Block
  | 0 => ([], ch)
  | n + 1 =>
    let r := cipherStream bs blk src m ch n
    let o := blk r.2 (Memory.readBytes m (src + n * bs) bs)
    (r.1 ++ o.1, o.2)

/-- When no block's input is overwritten by the output of the blocks before it, the block loop leaves in the
destination and in CHAIN what the input as it was at the start gives (20_memory.md R100). -/
theorem cipherFold_eq_stream {s : State} {bs : Nat} {blk : BlockFn} (hl : ∀ ch x, (blk ch x).1.length = bs)
    {n src dst : Nat} {m : Memory} (ch : Block) (hr : BlocksReach s bs src dst n) (hm : Memory.wf m = true)
    (hi : ∀ i < n, Claims.Apart (src + i * bs) bs dst (i * bs)) :
    let r := Claims.cipherFold bs blk src dst n m ch
    Memory.readBytes r.1 dst (n * bs) = (cipherStream bs blk src m ch n).1 ∧
      r.2 = (cipherStream bs blk src m ch n).2 := by
  induction n with
  | zero => exact ⟨by simp [cipherStream], rfl⟩
  | succ n ih =>
    have hr' := hr.mono (Nat.le_succ n)
    obtain ⟨hout, hch⟩ := ih hr' fun i h => hi i (by omega)
    obtain ⟨hwf, hkept⟩ := cipherFold_memory hl ch hr' hm
    obtain ⟨-, hend, -⟩ := hr n (Nat.lt_succ_self n)
    have hin := hi n (Nat.lt_succ_self n)
    have hread : Memory.readBytes (Claims.cipherFold bs blk src dst n m ch).1 (src + n * bs) bs =
        Memory.readBytes m (src + n * bs) bs :=
      Memory.readBytes_congr _ _ _ _ fun c _ _ => hkept c (by omega)
    simp only [cipherFold_succ, cipherStream]
    rw [hread, hch]
    generalize ho : blk (cipherStream bs blk src m ch n).2 (Memory.readBytes m (src + n * bs) bs) = o
    have hlen : o.1.length = bs := ho ▸ hl _ _
    rw [← hlen] at hend
    refine ⟨?_, rfl⟩
    have hsame := Memory.readBytes_writeBytes_same hwf hend
    rw [hlen] at hsame hend
    rw [Nat.succ_mul, Memory.readBytes_add, hsame, ← hout,
      Memory.readBytes_writeBytes_apart hwf (hlen ▸ hend) (.inl (Nat.le_refl _))]

/-- The output and the CHAIN of a cipher command that runs, when no block's input is overwritten by the output of the
blocks before it and the completion byte is apart from the destination. -/
theorem cipherNext_eq_stream {a : CipherAlg} {blk : BlockFn} (hl : ∀ ch x, (blk ch x).1.length = a.blockSize)
    {d : Trb} {s : State} (hm : Memory.wf s.mem = true) (hr : Claims.CipherRuns a d s)
    (hi : ∀ i < d.size.toNat / a.blockSize,
      Claims.Apart (d.sptr.toNat + i * a.blockSize) a.blockSize d.dptr.toNat (i * a.blockSize))
    (hdq : Claims.Apart s.aes.dq.toNat 1 d.dptr.toNat d.size.toNat) :
    let t := Claims.cipherNext a blk d s
    (Memory.readBytes t.mem d.dptr.toNat d.size.toNat, t.chain) =
      cipherStream a.blockSize blk d.sptr.toNat s.mem (Claims.chainIn a d s) (d.size.toNat / a.blockSize) := by
  obtain ⟨-, -, -, hmul, -, -, -, hblocks, hdqEnd, -⟩ := hr
  have hsize : d.size.toNat / a.blockSize * a.blockSize = d.size.toNat :=
    Nat.div_mul_cancel (Nat.dvd_of_mod_eq_zero hmul)
  have hwf := (cipherFold_memory hl (Claims.chainIn a d s) hblocks hm).1
  obtain ⟨hout, hch⟩ := cipherFold_eq_stream hl (Claims.chainIn a d s) hblocks hm hi
  rw [hsize] at hout
  have hdqOut : ¬Claims.In s.aes.dq.toNat d.dptr.toNat d.size.toNat := by omega
  exact Prod.ext ((readBytes_completed_aes (s := cipherRan a blk d s) hwf hdqEnd hdqOut).trans hout) hch

/-- Settles O22: in place each block's input is overwritten only after it is read, apart it is never; so both runs
leave the stream of the source as it was at the start (`cipherNext_eq_stream`). -/
theorem inPlaceEqualsDisjoint : Obligations.InPlaceEqualsDisjoint := by
  intro a decrypt d q s t u hm n inPlace disjoint hsq hdqs hdqq hrt ht hru hu
  have hl := blockFn_length a decrypt s.params.ctrEndian
  rw [exec_cipherInstr, runCipher_of_runs hl hrt] at ht
  rw [exec_cipherInstr, runCipher_of_runs hl hru] at hu
  cases ht
  cases hu
  have hl' := hl (Memory.readBytes s.mem d.kptr.toNat (keyBytes d.keysz))
  have hin := cipherNext_eq_stream hl' hm hrt (fun i _ => .inr (Nat.le_refl _)) hdqs
  suffices hapart : ∀ i < n / a.blockSize,
      Claims.Apart (d.sptr.toNat + i * a.blockSize) a.blockSize q.toNat (i * a.blockSize) from
    Prod.mk.inj (hin.trans (cipherNext_eq_stream hl' hm hru hapart hdqq).symm)
  intro i hi
  have hle : (i + 1) * a.blockSize ≤ n := (Nat.mul_le_mul_right _ hi).trans (Nat.div_mul_le_self _ _)
  rw [Nat.succ_mul] at hle
  omega

end Sys2Proof.Proofs.InPlace

/-! The proofs of the family 30_encoding: the words of a descriptor as their fields, decoding by the algorithm of the
`ALG` code, the opcode table, and what an engine makes of a descriptor it owns. -/

namespace Sys2Proof.Proofs.Encoding

open Sys2Proof Sys2Proof.Machine Sys2Proof.Laws

/-! ### Words and their fields (30_encoding.md R112, R120) -/

/-- One bit of a word is a field of width 1. -/
theorem ofBool_getLsbD {n : Nat} (w : BitVec n) (i : Nat) : BitVec.ofBool (w.getLsbD i) = w.extractLsb' i 1 :=
  BitVec.eq_of_getLsbD_eq fun j hj => by
    obtain rfl : j = 0 := by omega
    simp

/-- Two adjacent fields are one field. -/
theorem field_append_field {n : Nat} (w : BitVec n) (i k l : Nat) :
    w.extractLsb' (i + k) l ++ w.extractLsb' i k = w.extractLsb' i (l + k) :=
  BitVec.extractLsb'_append_extractLsb'_eq_extractLsb' rfl

/-- A word of the fields of word 0 and its reserved bits 15:12 (30_encoding.md R112). -/
theorem word_eq_ctrl_fields (w : Word) : w = w.extractLsb' 16 16 ++ (w.extractLsb' 12 4 ++ (w.extractLsb' 10 2 ++
    (BitVec.ofBool (w.getLsbD 9) ++ (BitVec.ofBool (w.getLsbD 8) ++
      (w.extractLsb' 1 7 ++ BitVec.ofBool (w.getLsbD 0)))))) := by
  simp only [ofBool_getLsbD]
  rw [field_append_field w 0 1 7, field_append_field w 0 8 1, field_append_field w 0 9 1,
    field_append_field w 0 10 2, field_append_field w 0 12 4, field_append_field w 0 16 16]
  exact BitVec.extractLsb'_eq_self.symm

/-- A word of the fields of word 3 and its reserved bits 31:8 (30_encoding.md R120). -/
theorem word_eq_mode_fields (w : Word) : w = w.extractLsb' 8 24 ++ (BitVec.ofBool (w.getLsbD 7) ++
    (w.extractLsb' 5 2 ++ (BitVec.ofBool (w.getLsbD 4) ++ w.extractLsb' 0 4))) := by
  simp only [ofBool_getLsbD]
  rw [field_append_field w 0 4 1, field_append_field w 0 5 2, field_append_field w 0 7 1,
    field_append_field w 0 8 24]
  exact BitVec.extractLsb'_eq_self.symm

/-- Masking word 0 masks its fields and clears the reserved bits. -/
theorem and_ctrlWord (w : Word) (c : Bool) (cc : BitVec 7) (tc ioc : Bool) (ty : BitVec 2) (size : BitVec 16) :
    w &&& ctrlWord c cc tc ioc ty size =
      ctrlWord (w.getLsbD 0 && c) (w.extractLsb' 1 7 &&& cc) (w.getLsbD 8 && tc) (w.getLsbD 9 && ioc)
        (w.extractLsb' 10 2 &&& ty) (w.extractLsb' 16 16 &&& size) := by
  conv_lhs => rw [word_eq_ctrl_fields w]
  refine (BitVec.and_append (w := 16)).trans ?_
  simp only [ctrlWord, BitVec.and_append, BitVec.ofBool_and_ofBool, BitVec.ofNat_eq_ofNat, BitVec.and_zero]

/-- Masking word 3 masks its fields and clears the reserved bits. -/
theorem and_modeWord (w : Word) (a : BitVec 4) (dir : Bool) (k : BitVec 2) (f : Bool) :
    w &&& modeWord a dir k f = modeWord (w.extractLsb' 0 4 &&& a) (w.getLsbD 4 && dir) (w.extractLsb' 5 2 &&& k)
      (w.getLsbD 7 && f) := by
  conv_lhs => rw [word_eq_mode_fields w]
  refine (BitVec.and_append (w := 24)).trans ?_
  simp only [modeWord, BitVec.and_append, BitVec.ofBool_and_ofBool, BitVec.ofNat_eq_ofNat, BitVec.and_zero]

/-- The two halves of a back-reference (30_encoding.md R111). -/
theorem owner_halves (d : Descriptor) : d.owner.extractLsb' 0 32 = d.w6 ∧ d.owner.extractLsb' 32 32 = d.w7 :=
  ⟨BitVec.extractLsb'_append_eq_right, BitVec.extractLsb'_append_eq_left⟩

/-! ### The algorithm of an `ALG` code (30_encoding.md R121) -/

theorem ofCode_eq_some {c : BitVec 4} {a : Alg} : Alg.ofCode c = some a ↔ a.code = c := by
  refine ⟨fun h => ?_, fun h => h ▸ ofCode_code a⟩
  have hall : ∀ c, (Alg.ofCode c).all (fun a => a.code == c) = true := by decide
  simpa [h] using hall c

/-- The codes 10 to 15 are reserved (30_encoding.md R121). -/
theorem ofCode_eq_none {c : BitVec 4} : Alg.ofCode c = none ↔ 10 ≤ c.toNat := by
  revert c; decide

/-- A code below 10 is some algorithm's (30_encoding.md R121). -/
theorem exists_code {c : BitVec 4} (h : c.toNat < 10) : ∃ a : Alg, a.code = c := by
  cases ha : Alg.ofCode c with
  | none => exact absurd (ofCode_eq_none.1 ha) (by omega)
  | some a => exact ⟨a, ofCode_eq_some.1 ha⟩

/-- The codes 0 to 3 belong to the AES ring, the codes 4 to 9 to the hash ring (30_encoding.md R121). -/
theorem engine_eq_aes_iff (a : Alg) : a.engine = .aes ↔ a.code.toNat ≤ 3 := by
  cases a with
  | cipher a => cases a <;> decide
  | hash a => cases a <;> decide

/-! ### Decoding by the algorithm (30_encoding.md R130) -/

/-- The command of an algorithm. -/
def algInstr (a : Alg) (dir : Bool) (t : Trb) : Instr :=
  match a with
  | .cipher a => Claims.cipherInstr a dir t
  | .hash a => Claims.hashInstr a dir t

theorem decodeAlg_eq (d : Descriptor) :
    decodeAlg d = (Alg.ofCode d.alg).map fun a => algInstr a d.dir d.trb := by
  unfold decodeAlg Alg.ofCode
  split <;> rfl

theorem encodeDescriptor_algInstr (a : Alg) (dir : Bool) (t : Trb) :
    encodeDescriptor (algInstr a dir t) = encodeTrb a.code dir t := by
  cases a with
  | cipher a => cases a <;> cases dir <;> rfl
  | hash a => cases a <;> rfl

/-- The command the statements name is the command of the algorithm. -/
theorem command_eq {d : Descriptor} {a : Alg} (h : a.code = d.alg) : Claims.command d = algInstr a d.dir d.trb := by
  unfold Claims.command
  rw [← h]
  cases a with
  | cipher a => cases a <;> rfl
  | hash a => cases a <;> rfl

/-- The four types of a descriptor (30_encoding.md R112). -/
theorem type_cases (x : BitVec 2) : x = 0 ∨ x = 1 ∨ x = 2 ∨ x = 3 := by
  revert x; decide

theorem decodeDescriptor_link {d : Descriptor} (h : d.type = 1) :
    decodeDescriptor d = .ok (.link d.cycle d.tc d.w2) := if_pos h

theorem decodeDescriptor_reservedType {d : Descriptor} (h : d.type = 2 ∨ d.type = 3) :
    decodeDescriptor d = .error .reservedType :=
  (if_neg (by rcases h with h | h <;> simp [h])).trans (if_neg (by rcases h with h | h <;> simp [h]))

/-- A normal descriptor decodes by its ALG code (30_encoding.md R130). -/
theorem decodeDescriptor_of_type_zero {d : Descriptor} (h : d.type = 0) :
    decodeDescriptor d = (Alg.ofCode d.alg).elim (.error .reservedAlg) fun a => .ok (algInstr a d.dir d.trb) := by
  simp only [decodeDescriptor, h, decodeAlg_eq]
  cases Alg.ofCode d.alg <;> rfl

theorem decodeDescriptor_normal {d : Descriptor} {a : Alg} (ht : d.type = 0) (ha : a.code = d.alg) :
    decodeDescriptor d = .ok (algInstr a d.dir d.trb) := by
  rw [decodeDescriptor_of_type_zero ht, ofCode_eq_some.2 ha, Option.elim_some]

theorem decodeDescriptor_reservedAlg {d : Descriptor} (ht : d.type = 0) (ha : 10 ≤ d.alg.toNat) :
    decodeDescriptor d = .error .reservedAlg := by
  rw [decodeDescriptor_of_type_zero ht, ofCode_eq_none.2 ha, Option.elim_none]

/-- All a descriptor can decode to. -/
theorem decodeDescriptor_ok {d : Descriptor} {i : Instr} (h : decodeDescriptor d = .ok i) :
    (d.type = 1 ∧ i = .link d.cycle d.tc d.w2) ∨
      (d.type = 0 ∧ ∃ a : Alg, a.code = d.alg ∧ i = algInstr a d.dir d.trb) := by
  rcases type_cases d.type with ht | ht | ht
  · refine .inr ⟨ht, ?_⟩
    by_cases ha : d.alg.toNat < 10
    · obtain ⟨a, ha⟩ := exists_code ha
      rw [decodeDescriptor_normal ht ha] at h
      exact ⟨a, ha, (Except.ok.inj h).symm⟩
    · rw [decodeDescriptor_reservedAlg ht (Nat.not_lt.1 ha)] at h
      cases h
  · rw [decodeDescriptor_link ht] at h
    exact .inl ⟨ht, (Except.ok.inj h).symm⟩
  · rw [decodeDescriptor_reservedType ht] at h
    cases h

/-! ### The encoding of what a descriptor decodes to (30_encoding.md R127, R131) -/

theorem significant_link {d : Descriptor} (h : d.type = 1) :
    Claims.significant d = ⟨d.w0 &&& 0x00000D01, 0, d.w2, 0, 0, 0, 0, 0⟩ := if_pos h

theorem significant_normal {d : Descriptor} (h : d.type = 0) :
    Claims.significant d = { d with w0 := d.w0 &&& 0xFFFF0FFF, w3 := d.w3 &&& 0x000000FF } :=
  if_neg (by simp [h])

/-- The words of a link keep C, TC, TYPE and DPTR alone (30_encoding.md R127). -/
theorem encodeDescriptor_link {d : Descriptor} (h : d.type = 1) :
    encodeDescriptor (.link d.cycle d.tc d.w2) = Claims.significant d := by
  have hw : d.w0 &&& 0x00000D01 = ctrlWord d.cycle 0 d.tc false 1 0 := by
    rw [show (0x00000D01 : Word) = ctrlWord true 0 true false 3 0 from rfl, and_ctrlWord,
      show d.w0.extractLsb' 10 2 = 1 from h]
    simp [Descriptor.cycle, Descriptor.tc]
  rw [significant_link h, hw, encodeDescriptor]

/-- The words of a normal command keep everything but the reserved bits of words 0 and 3 (30_encoding.md R131). -/
theorem encodeTrb_fields {d : Descriptor} (h : d.type = 0) :
    encodeTrb d.alg d.dir d.trb = Claims.significant d := by
  have h0 : d.w0 &&& 0xFFFF0FFF = ctrlWord d.cycle d.cc d.tc d.ioc 0 d.size := by
    rw [show (0xFFFF0FFF : Word) = ctrlWord true (BitVec.allOnes 7) true true 3 (BitVec.allOnes 16) from rfl,
      and_ctrlWord, show d.w0.extractLsb' 10 2 = 0 from h]
    simp only [BitVec.ofNat_eq_ofNat, BitVec.zero_and, BitVec.and_allOnes, Bool.and_true, Descriptor.cycle,
      Descriptor.cc, Descriptor.tc, Descriptor.ioc, Descriptor.size]
  have h3 : d.w3 &&& 0x000000FF = modeWord d.alg d.dir d.keysz d.final := by
    rw [show (0x000000FF : Word) = modeWord (BitVec.allOnes 4) true (BitVec.allOnes 2) true from rfl, and_modeWord]
    simp only [BitVec.and_allOnes, Bool.and_true, Descriptor.alg, Descriptor.dir, Descriptor.keysz, Descriptor.final]
  obtain ⟨h6, h7⟩ := owner_halves d
  rw [significant_normal h, h0, h3]
  simp only [encodeTrb, Descriptor.trb, h6, h7]

/-- Settles O2: a link keeps the bits of `encodeDescriptor_link`, a normal command those of `encodeTrb_fields`. -/
theorem encodeDecodeAgree : Obligations.EncodeDecodeAgree := by
  intro d i h
  rcases decodeDescriptor_ok h with ⟨ht, rfl⟩ | ⟨ht, a, ha, rfl⟩
  · exact encodeDescriptor_link ht
  · rw [encodeDescriptor_algInstr, ha, encodeTrb_fields ht]

/-! ### The encoding examples (30_encoding.md R136) -/

/-- The words a command encodes to decode to it. -/
theorem decodeDescriptor_of_encodes {d : Descriptor} {i : Instr} (h : encodeDescriptor i = d) :
    decodeDescriptor d = .ok i := h ▸ Scope.decodeDescriptor_encodeDescriptor i

/-- The words of a normal command once its words 0 and 3 are known (30_encoding.md R111). -/
theorem encodeTrb_mk {c tc ioc dir f : Bool} {a : BitVec 4} {k : BitVec 2} {cc : BitVec 7} {size : BitVec 16}
    {w0 w3 : Word} (p q iv kp : Word) (o : Handle) (h0 : ctrlWord c cc tc ioc 0 size = w0)
    (h3 : modeWord a dir k f = w3) :
    encodeTrb a dir ⟨c, cc, tc, ioc, size, p, q, k, f, iv, kp, o⟩ =
      ⟨w0, p, q, w3, iv, kp, o.extractLsb' 0 32, o.extractLsb' 32 32⟩ := by
  rw [← h0, ← h3, encodeTrb]

/-- Settles O4: words 0 and 3 of each command are those of its example by evaluation, and they decode to it. -/
theorem exampleWordsDecode : Obligations.ExampleWordsDecode := by
  intro p q iv k o d1 d2 d3 d4 i1 i2 i3 i4
  have md5 : encodeDescriptor i1 = d1 := encodeTrb_mk p q iv k o (by decide) (by decide)
  have cbc : encodeDescriptor i2 = d2 := encodeTrb_mk p q iv k o (by decide) (by decide)
  have link : encodeDescriptor i3 = d3 := by decide
  have sha3 : encodeDescriptor i4 = d4 := encodeTrb_mk p q iv k o (by decide) (by decide)
  exact ⟨decodeDescriptor_of_encodes md5, md5, decodeDescriptor_of_encodes cbc, cbc,
    decodeDescriptor_of_encodes link, link, decodeDescriptor_of_encodes sha3, sha3⟩

/-! ### The mode codec (30_encoding.md R125) -/

/-- A mode word is its fields, each shifted to its place (30_encoding.md R120). -/
theorem modeWord_eq_or (a : BitVec 4) (dir : Bool) (k : BitVec 2) (f : Bool) :
    modeWord a dir k f = a.setWidth 32 ||| ((BitVec.ofBool dir).setWidth 32 <<< 4) ||| (k.setWidth 32 <<< 5) |||
      ((BitVec.ofBool f).setWidth 32 <<< 7) := by
  rw [← BitVec.setWidth_eq (modeWord a dir k f), modeWord]
  simp only [BitVec.setWidth_append_eq_shiftLeft_setWidth_or, BitVec.ofNat_eq_ofNat, BitVec.setWidth_zero,
    BitVec.zero_shiftLeft, BitVec.zero_or]
  ac_rfl

/-- A word whose ALG field is a code reads as the mode of its fields. -/
theorem decodeMode_of_code {w : Word} {a : Alg} (h : a.code = w.extractLsb' 0 4) :
    decodeMode w = some ⟨a, w.getLsbD 4, w.extractLsb' 5 2, w.getLsbD 7⟩ :=
  congrArg (Option.map _) (ofCode_eq_some.2 h)

theorem decodeMode_reserved {w : Word} (h : 10 ≤ (w.extractLsb' 0 4).toNat) : decodeMode w = none :=
  congrArg (Option.map _) (ofCode_eq_none.2 h)

theorem decodeMode_encodeMode (m : Mode) : decodeMode (encodeMode m) = some m := by
  have ha : m.alg.code = (encodeMode m).extractLsb' 0 4 := (modeWord_alg ..).symm
  rw [decodeMode_of_code ha, encodeMode, modeWord_dir, modeWord_keysz, modeWord_final]

/-- Settles O5: the bits are those of `modeWord_eq_or`, reading gives back the fields written, and a codec of the model
is undone first (`ModeCodec.read_write`). -/
theorem modeCodecAgrees : Obligations.ModeCodecAgrees := by
  refine ⟨fun m => modeWord_eq_or .., fun w => decodeMode_reserved, fun w hw => ?_, decodeMode_encodeMode,
    fun c m => ⟨fun hc => ?_, fun hc => ?_⟩⟩
  · obtain ⟨a, ha⟩ := exists_code hw
    exact ⟨a, ha, decodeMode_of_code ha⟩
  · rw [hc, ModeCodec.encodeMode, ModeCodec.write_default]
  · rw [ModeCodec.decodeMode, ModeCodec.encodeMode, ModeCodec.read_write hc, decodeMode_encodeMode]

/-! ### The opcode table (30_encoding.md R129) -/

theorem key_eq_append (d : Descriptor) : d.key = d.w3 ++ d.w0 := rfl

/-- The fields of word 0 stand at their own places of the decode key. -/
theorem key_extract_w0 (d : Descriptor) {i n : Nat} (h : i + n ≤ 32) :
    d.key.extractLsb' i n = d.w0.extractLsb' i n := BitVec.extractLsb'_append_eq_of_add_le h

/-- The fields of word 3 stand 32 places higher. -/
theorem key_extract_w3 (d : Descriptor) (i n : Nat) :
    d.key.extractLsb' (32 + i) n = d.w3.extractLsb' i n := by
  rw [key_eq_append, BitVec.extractLsb'_append_eq_of_le (Nat.le_add_right 32 i), Nat.add_sub_cancel_left]

theorem key_getLsbD_w0 (d : Descriptor) {i : Nat} (h : i < 32) : d.key.getLsbD i = d.w0.getLsbD i := by
  rw [key_eq_append, BitVec.getLsbD_append, if_pos h]

theorem key_getLsbD_w3 (d : Descriptor) (i : Nat) : d.key.getLsbD (32 + i) = d.w3.getLsbD i := by
  rw [key_eq_append, BitVec.getLsbD_append, if_neg (by omega), Nat.add_sub_cancel_left]

/-- The decode key as the rule writes it (30_encoding.md R129). -/
theorem key_eq_or (d : Descriptor) : d.key = (d.w3.setWidth 64 <<< 32) ||| d.w0.setWidth 64 := by
  rw [← BitVec.setWidth_append_eq_shiftLeft_setWidth_or, key_eq_append, BitVec.setWidth_eq]

theorem selects_iff (r : OpcodeRow) (d : Descriptor) : r.selects d = true ↔ d.key &&& r.mask = r.pattern := beq_iff_eq

/-- A row selects by the bits of its mask alone. -/
theorem selects_of_key_and {r : OpcodeRow} {d e : Descriptor} {m : BitVec 64} (hk : e.key = d.key &&& m)
    (hm : m &&& r.mask = r.mask) (h : r.selects e = true) : r.selects d = true := by
  rw [selects_iff, hk, BitVec.and_assoc, hm] at h
  exact (selects_iff r d).2 h

/-- A field inside the mask of a row that selects a descriptor has the row's value. -/
theorem field_of_selects {r : OpcodeRow} {d : Descriptor} {i n : Nat} (h : r.selects d = true)
    (hm : r.mask.extractLsb' i n = BitVec.allOnes n) : d.key.extractLsb' i n = r.pattern.extractLsb' i n := by
  rw [← (selects_iff r d).1 h, BitVec.extractLsb'_and, hm, BitVec.and_allOnes]

/-- Every row tests TYPE: the link's asks for 1, every other for 0 and an ALG code below 10. -/
theorem row_fields : ∀ r ∈ opcodeTable, r.mask.extractLsb' 10 2 = BitVec.allOnes 2 ∧
    (r.pattern.extractLsb' 10 2 = 1 ∨ r.pattern.extractLsb' 10 2 = 0 ∧
      r.mask.extractLsb' 32 4 = BitVec.allOnes 4 ∧ (r.pattern.extractLsb' 32 4).toNat < 10) := by
  decide

/-- No mask has a reserved bit, and the link's has none of a field a link ignores (30_encoding.md R127, R129). -/
theorem row_masks : ∀ r ∈ opcodeTable, (0x000000FFFFFF0FFF : BitVec 64) &&& r.mask = r.mask ∧
    (r.mnemonic = "LINK" → (0x0000000000000D01 : BitVec 64) &&& r.mask = r.mask) := by
  decide

/-- Two different rows ask for different values of some bit both test. -/
theorem rows_disjoint : ∀ r ∈ opcodeTable, ∀ q ∈ opcodeTable,
    r.pattern &&& q.mask = q.pattern &&& r.mask → r = q := by
  decide

theorem rows_named_apart : ∀ r ∈ opcodeTable, ∀ q ∈ opcodeTable, r.mnemonic = q.mnemonic → r = q := by
  decide

/-- At most one row selects a descriptor. -/
theorem row_unique {r q : OpcodeRow} {d : Descriptor} (hr : r ∈ opcodeTable) (hq : q ∈ opcodeTable)
    (h : r.selects d = true) (k : q.selects d = true) : r = q := by
  refine rows_disjoint r hr q hq ?_
  rw [← (selects_iff r d).1 h, ← (selects_iff q d).1 k, BitVec.and_assoc, BitVec.and_assoc, BitVec.and_comm r.mask]

/-- What a row selects is decoded. -/
theorem decodes_of_selects {r : OpcodeRow} {d : Descriptor} (hr : r ∈ opcodeTable) (h : r.selects d = true) :
    ∃ i, decodeDescriptor d = .ok i := by
  obtain ⟨hm, hrow⟩ := row_fields r hr
  have ht : d.type = r.pattern.extractLsb' 10 2 :=
    (key_extract_w0 d (by decide)).symm.trans (field_of_selects h hm)
  rcases hrow with hp | ⟨hp, hma, hpa⟩
  · exact ⟨_, decodeDescriptor_link (ht.trans hp)⟩
  · have halg : d.alg = r.pattern.extractLsb' 32 4 := (key_extract_w3 d 0 4).symm.trans (field_of_selects h hma)
    obtain ⟨a, ha⟩ := exists_code hpa
    exact ⟨_, decodeDescriptor_normal (ht.trans hp) (ha.trans halg.symm)⟩

/-- The encoding of every command is selected by a row of its name. -/
theorem encoding_selected (i : Instr) : Selected.Statement i := by
  cases i with
  | link c tc dptr => exact Selected.link c tc dptr
  | aesEcbEnc d => exact Selected.aesEcbEnc d
  | aesEcbDec d => exact Selected.aesEcbDec d
  | aesCbcEnc d => exact Selected.aesCbcEnc d
  | aesCbcDec d => exact Selected.aesCbcDec d
  | aesCtr dir d => exact Selected.aesCtr dir d
  | chacha20 dir d => exact Selected.chacha20 dir d
  | md5 dir d => exact Selected.md5 dir d
  | sha3_224 dir d => exact Selected.sha3_224 dir d
  | sha3_256 dir d => exact Selected.sha3_256 dir d
  | sha3_384 dir d => exact Selected.sha3_384 dir d
  | sha3_512 dir d => exact Selected.sha3_512 dir d
  | ghash dir d => exact Selected.ghash dir d

/-- The key of the descriptor without its ignored bits. -/
theorem key_significant_link {d : Descriptor} (h : d.type = 1) :
    (Claims.significant d).key = d.key &&& 0x0000000000000D01 := by
  rw [significant_link h]
  exact (congrArg (· ++ _) BitVec.and_zero.symm).trans
    (BitVec.and_append (x₁ := d.w3) (y₁ := d.w0) (x₂ := 0) (y₂ := 0x00000D01)).symm

theorem key_significant_normal {d : Descriptor} (h : d.type = 0) :
    (Claims.significant d).key = d.key &&& 0x000000FFFFFF0FFF := by
  rw [significant_normal h]
  exact (BitVec.and_append (w := 32) (x₂ := 0x000000FF) (y₂ := 0xFFFF0FFF)).symm

/-- A descriptor that decodes to a command is selected by the row of its name: the row selects the encoding of the
command, which is the descriptor without bits the row does not test. -/
theorem selects_of_decodes {d : Descriptor} {i : Instr} (h : decodeDescriptor d = .ok i) :
    ∃ r ∈ opcodeTable, r.mnemonic = i.mnemonic ∧ r.selects d = true := by
  obtain ⟨r, hr, hn, hs⟩ := encoding_selected i
  obtain ⟨hmask, hlink⟩ := row_masks r hr
  rw [encodeDecodeAgree d i h] at hs
  refine ⟨r, hr, hn, ?_⟩
  rcases decodeDescriptor_ok h with ⟨ht, rfl⟩ | ⟨ht, -⟩
  · exact selects_of_key_and (key_significant_link ht) (hlink hn) hs
  · exact selects_of_key_and (key_significant_normal ht) hmask hs

/-- A row selects a descriptor exactly when it decodes to the row's command (30_encoding.md R129). -/
theorem selects_iff_decodes {r : OpcodeRow} (hr : r ∈ opcodeTable) (d : Descriptor) :
    r.selects d = true ↔ ∃ i, decodeDescriptor d = .ok i ∧ i.mnemonic = r.mnemonic := by
  constructor
  · intro h
    obtain ⟨i, hi⟩ := decodes_of_selects hr h
    obtain ⟨q, hq, hn, hs⟩ := selects_of_decodes hi
    exact ⟨i, hi, row_unique hq hr hs h ▸ hn.symm⟩
  · rintro ⟨i, hi, hn⟩
    obtain ⟨q, hq, hqn, hs⟩ := selects_of_decodes hi
    exact rows_named_apart q hq r hr (hqn.trans hn) ▸ hs

/-- A descriptor is refused exactly when no row selects it (30_encoding.md R129, R130). -/
theorem refused_iff_not_selected (d : Descriptor) :
    (∃ x, decodeDescriptor d = .error x) ↔ ∀ r ∈ opcodeTable, r.selects d = false := by
  constructor
  · rintro ⟨x, hx⟩ r hr
    refine Bool.eq_false_iff.2 fun hs => ?_
    obtain ⟨i, hi⟩ := decodes_of_selects hr hs
    cases hx.symm.trans hi
  · intro h
    cases hd : decodeDescriptor d with
    | error x => exact ⟨x, rfl⟩
    | ok i =>
      obtain ⟨r, hr, -, hs⟩ := selects_of_decodes hd
      cases (h r hr).symm.trans hs

/-- Settles O3: the fields by their places in the key, the rows by `selects_iff_decodes` and
`refused_iff_not_selected`. -/
theorem opcodeTableSelects : Obligations.OpcodeTableSelects := by
  intro d
  have hreserved : ∀ r ∈ opcodeTable, r.mask &&& 0xFFFFFF000000F000 = 0 := by decide
  exact ⟨key_eq_or d, key_getLsbD_w0 d (by decide), key_extract_w0 d (by decide), key_getLsbD_w0 d (by decide),
    key_getLsbD_w0 d (by decide), key_extract_w0 d (by decide), key_extract_w0 d (by decide), key_extract_w3 d 0 4,
    key_getLsbD_w3 d 4, key_extract_w3 d 5 2, key_getLsbD_w3 d 7,
    fun r hr => ⟨hreserved r hr, selects_iff r d, selects_iff_decodes hr d⟩, refused_iff_not_selected d⟩

/-! ### What an engine makes of a descriptor it owns (30_encoding.md R130) -/

/-- An engine that may fetch latches what it fetches (40_ring.md R170). -/
theorem engineStep_of_fetch {s : State} {e : EngineId} {d : Descriptor} (hb : (s.engine e).busy = true)
    (hs : (s.engine e).stuck = false) (hq : (s.engine e).stopReq = false) (hf : fetch s e = .ok d) :
    engineStep e s = latchStep e d s := by
  simp [engineStep, hb, hs, hq, hf]

/-- An engine runs a descriptor it owns (40_ring.md R170). -/
theorem latchStep_of_owned {s : State} {e : EngineId} {d : Descriptor} (h : d.cycle = (s.engine e).ccs) :
    latchStep e d s = runLatched e (s.setEngine e { s.engine e with latch := d }) :=
  if_neg (not_not_intro h)

/-- A step that fetches an owned descriptor runs it in the state where it is latched. -/
theorem step_of_fetches {s : State} {e : EngineId} (h : Claims.Fetches s e) :
    step s = runLatched e (Claims.latched s e) := by
  obtain ⟨⟨hl, hb, hs, hq, hr⟩, hc⟩ := h
  have heng : (Claims.rest s).engine e = s.engine e := Writers.engine_rest s e
  rw [← heng] at hb hs hq hr hc
  have hf : fetch (Claims.rest s) e = .ok (Claims.rawAtDq s e) :=
    (fetch_ok (s := Claims.rest s) hr).trans (by rw [heng]; rfl)
  calc step s = engineStep e (Claims.rest s) := step_of_listed hl
    _ = latchStep e (Claims.rawAtDq s e) (Claims.rest s) := engineStep_of_fetch hb hs hq hf
    _ = runLatched e ((Claims.rest s).setEngine e { (Claims.rest s).engine e with latch := Claims.rawAtDq s e }) :=
      latchStep_of_owned hc
    _ = runLatched e (Claims.latched s e) := by rw [heng]; cases e <;> rfl

/-- The latched descriptor read by the codec is the one at DQ (30_encoding.md R120). -/
theorem latched_normal (s : State) (e : EngineId) :
    ((Claims.latched s e).engine e).latch.normal (Claims.latched s e).params.codec = Claims.atDq s e := by
  cases e <;> rfl

/-- What an engine runs when it fetches a descriptor it owns: the command, or the decoder's refusal. -/
theorem step_of_decode {s : State} {e : EngineId} (h : Claims.Fetches s e) :
    (∀ i, decodeDescriptor (Claims.atDq s e) = .ok i → step s = exec i (Claims.latched s e)) ∧
      ∀ x, decodeDescriptor (Claims.atDq s e) = .error x → step s = .refused (decodeRefusal x) := by
  rw [step_of_fetches h, runLatched, latched_normal]
  exact ⟨fun i hi => by rw [hi]; rfl, fun x hx => by rw [hx]⟩

/-- A command on the wrong ring is refused (30_encoding.md R130). -/
theorem exec_algInstr_wrongRing {a : Alg} {dir : Bool} {t : Trb} {s : State} (h : s.cur ≠ a.engine) :
    exec (algInstr a dir t) s = .refused .wrongRing := by
  cases a with
  | cipher a => exact (Chain.exec_cipherInstr a dir t s).trans (if_pos h)
  | hash a => exact (TurnedAway.exec_hashInstr a dir t s).trans (if_pos h)

/-- The two cases of the wrong ring are one: the ring of the algorithm is not the engine. -/
theorem wrongRing_iff (e : EngineId) (a : Alg) :
    a.engine ≠ e ↔ (e = .aes ∧ 4 ≤ a.code.toNat) ∨ (e = .hash ∧ a.code.toNat ≤ 3) := by
  cases e with
  | aes => simp [engine_eq_aes_iff, Nat.lt_iff_add_one_le]
  | hash =>
    have hother : a.engine ≠ .hash ↔ a.engine = .aes := by cases a.engine <;> decide
    simp [hother, engine_eq_aes_iff]

/-- A normal descriptor with an ALG code of an algorithm, on the ring of the algorithm and on the other. -/
theorem step_of_normal {s : State} {e : EngineId} {a : Alg} (h : Claims.Fetches s e)
    (ht : (Claims.atDq s e).type = 0) (ha : a.code = (Claims.atDq s e).alg) :
    step s = if a.engine ≠ e then .refused .wrongRing
      else exec (Claims.command (Claims.atDq s e)) (Claims.latched s e) := by
  rw [(step_of_decode h).1 _ (decodeDescriptor_normal ht ha), command_eq ha]
  split
  · next hr => exact exec_algInstr_wrongRing (Ne.symm hr)
  · rfl

/-- Settles O6: the type first, then the ALG code; the ring check is that of `step_of_normal`. -/
theorem engineDecodes : Obligations.EngineDecodes := by
  intro s e h d
  obtain ⟨decoded, refused⟩ := step_of_decode h
  rcases type_cases d.type with ht | ht | ht
  · rw [if_neg (by simp [ht]), if_neg (by simp [ht])]
    by_cases hr : 10 ≤ d.alg.toNat
    · rw [if_pos hr]
      exact refused _ (decodeDescriptor_reservedAlg ht hr)
    · obtain ⟨a, ha⟩ := exists_code (Nat.not_le.1 hr)
      rw [if_neg hr, step_of_normal h ht ha, ← ite_or, ← ha]
      exact if_congr (wrongRing_iff e a) rfl rfl
  · rw [if_pos ht]
    exact decoded _ (decodeDescriptor_link ht)
  · rw [if_neg (by rcases ht with ht | ht <;> simp [ht]), if_pos ht]
    exact refused _ (decodeDescriptor_reservedType ht)

end Sys2Proof.Proofs.Encoding

/-! The proofs of the family 40_ring, the engine's side: a step that executes nothing, the link, and the completion of
a normal command. -/

namespace Sys2Proof.Proofs.RingEngine

open Sys2Proof Sys2Proof.Machine Sys2Proof.Laws

/-! ### Steps that execute nothing, and the step that executes (40_ring.md R170, R174, R175) -/

/-- An engine that is idle or stuck takes no step (40_ring.md R170, 20_memory.md R84). -/
theorem engineStep_disabled {s : State} {e : EngineId} (h : (s.engine e).busy = false ∨ (s.engine e).stuck = true) :
    engineStep e s = .next s :=
  if_pos (by rcases h with h | h <;> simp [h])

/-- A stop request is honoured before the fetch (40_ring.md R175). -/
theorem engineStep_stop {s : State} {e : EngineId} (hb : (s.engine e).busy = true) (hs : (s.engine e).stuck = false)
    (hq : (s.engine e).stopReq = true) :
    engineStep e s = .next (s.setEngine e { s.engine e with stopReq := false, busy := false }) := by
  simp [engineStep, hb, hs, hq]

/-- A descriptor that is not owned makes the engine idle (40_ring.md R174). -/
theorem latchStep_of_not_owned {s : State} {e : EngineId} {d : Descriptor} (h : d.cycle ≠ (s.engine e).ccs) :
    latchStep e d s = .next (s.setEngine e { s.engine e with latch := d, busy := false }) :=
  if_pos h

/-- Settles O8: each clause is the engine's step in the state without the event, at the branch its hypotheses
name. -/
theorem engineStepsThatExecuteNothing : Obligations.EngineStepsThatExecuteNothing := by
  intro s e hl x
  have heng : (Claims.rest s).engine e = x := Writers.engine_rest s e
  have hstep : step s = engineStep e (Claims.rest s) := step_of_listed hl
  rw [hstep]
  refine ⟨fun h => engineStep_disabled (heng ▸ h), fun hb hs hq => ?_, fun ⟨_, hb, hs, hq, hr⟩ hc => ?_⟩
  · rw [engineStep_stop (heng ▸ hb) (heng ▸ hs) (heng ▸ hq), heng]
  · have hf : fetch (Claims.rest s) e = .ok (Claims.rawAtDq s e) :=
      (fetch_ok (s := Claims.rest s) (heng ▸ hr)).trans (by rw [heng]; rfl)
    rw [Encoding.engineStep_of_fetch (heng ▸ hb) (heng ▸ hs) (heng ▸ hq) hf, latchStep_of_not_owned (heng ▸ hc),
      heng]

/-- The 32 bytes at DQ decode to what the engine decodes. -/
theorem decodeIn_atDq (s : State) (e : EngineId) :
    decodeIn s.params.codec (Memory.readBytes s.mem (s.engine e).dq.toNat 32) =
      decodeDescriptor (Claims.atDq s e) :=
  if_neg (by simp [Config.trbBytes])

/-- Settles O7: what the bytes at DQ decode to is what the engine runs (`Encoding.step_of_decode`). -/
theorem stepRunsDecodedCommand : Obligations.StepRunsDecodedCommand := by
  intro s e i h hd _
  exact (Encoding.step_of_decode h).1 i (decodeIn_atDq s e ▸ hd)

/-! ### The link (40_ring.md R172) -/

/-- Settles O9: the state `execLink` writes out. -/
theorem linkFollowsPointer : Obligations.LinkFollowsPointer := by
  intro c tc dptr s
  refine ⟨_, rfl, ?_, ?_, ?_⟩
  · rw [State.engine_setEngine_same]
    rfl
  · rw [State.engine_setEngine_same]
    cases tc <;> simp
  · rw [State.engine_setEngine_same]

/-! ### The completion of a normal command (40_ring.md R173) -/

/-- What a data operation leaves of the state it starts from: all but memory, which stays canonical, and CHAIN. -/
def DataOnly (s u : State) : Prop :=
  ∃ m ch cv, Memory.wf m = true ∧ u = { s with mem := m, chain := ch, chainValid := cv }

theorem dataOnly_refl {s : State} (hm : Memory.wf s.mem = true) : DataOnly s s := ⟨_, _, _, hm, rfl⟩

theorem cipherData_dataOnly {a : CipherAlg} {d : Trb} {blk : List Byte → BlockFn} {s u : State}
    (hl : ∀ key ch x, (blk key ch x).1.length = a.blockSize) (hm : Memory.wf s.mem = true)
    (h : cipherData a d blk s = .ok u) : DataOnly s u := by
  obtain ⟨key, cv, ⟨m, ch⟩, -, -, hr, rfl⟩ := cipherData_ok h
  exact ⟨_, _, _, (cipherBlocks_ok hr (hl key) hm).1, rfl⟩

theorem hashData_dataOnly {a : HashAlg} {d : Trb} {f : CompressFn} {s u : State} (hm : Memory.wf s.mem = true)
    (h : hashData a d f s = .ok u) : DataOnly s u := by
  obtain ⟨_, _, _, m, -, -, -, hw, rfl⟩ := hashData_ok h
  exact ⟨_, _, _, memWrite_wf hw hm, rfl⟩

/-- Every normal command is the command of its algorithm. -/
theorem eq_algInstr_of_normalOf {i : Instr} {a : Alg} {d : Trb} (h : Claims.normalOf i = some (a, d)) :
    ∃ dir, i = Encoding.algInstr a dir d := by
  cases i with
  | link => cases h
  | aesEcbEnc d | aesCbcEnc d =>
    cases h
    exact ⟨false, rfl⟩
  | aesEcbDec d | aesCbcDec d =>
    cases h
    exact ⟨true, rfl⟩
  | aesCtr dir d | chacha20 dir d | md5 dir d | sha3_224 dir d | sha3_256 dir d | sha3_384 dir d | sha3_512 dir d
  | ghash dir d =>
    cases h
    exact ⟨dir, rfl⟩

/-- Every normal command is the checks of 41_descriptor_commands.md R200 around a data operation. -/
theorem exec_eq_runCommand {i : Instr} {a : Alg} {d : Trb} {s : State} (h : Claims.normalOf i = some (a, d))
    (hm : Memory.wf s.mem = true) :
    ∃ data, exec i s = runCommand a d data s ∧ ∀ u, data s = .ok u → DataOnly s u := by
  obtain ⟨dir, rfl⟩ := eq_algInstr_of_normalOf h
  cases a with
  | cipher a =>
    exact ⟨_, Chain.exec_cipherInstr a dir d s, fun u => cipherData_dataOnly (Chain.blockFn_length a dir _) hm⟩
  | hash a => exact ⟨_, TurnedAway.exec_hashInstr a dir d s, fun u => hashData_dataOnly hm⟩

/-- A normal command that leads to a next state and does not stick has completed, with code 1 or 2. -/
theorem runCommand_completes {a : Alg} {d : Trb} {data : State → Acc State} {s t : State}
    (h : runCommand a d data s = .next t) (hn : (t.engine s.cur).stuck = false) (hm : Memory.wf s.mem = true)
    (hd : ∀ u, data s = .ok u → DataOnly s u) :
    ∃ u cc, DataOnly s u ∧ (cc = ccSuccess ∨ cc = ccBadKeyLength) ∧ complete d cc u = .ok t := by
  obtain ⟨-, ⟨-, hc⟩ | ⟨-, -, -, u, hu, hc⟩ | rfl⟩ := runCommand_next h
  · exact ⟨s, _, dataOnly_refl hm, .inr rfl, hc⟩
  · exact ⟨u, _, hd u hu, .inl rfl, hc⟩
  · simp [State.stickEngine] at hn

/-- Byte 0 of a completed descriptor is its code over C (40_ring.md R173). -/
theorem statusByte_completion {cc : BitVec 7} (h : cc = ccSuccess ∨ cc = ccBadKeyLength) (c : Bool) :
    ∃ n : Nat, (n = 1 ∨ n = 2) ∧ statusByte cc c = BitVec.ofNat 8 (2 * n + c.toNat) := by
  rcases h with rfl | rfl
  · exact ⟨1, .inl rfl, by cases c <;> rfl⟩
  · exact ⟨2, .inr rfl, by cases c <;> rfl⟩

/-- What the completion leaves of the state a data operation started from. -/
theorem complete_of_dataOnly {d : Trb} {cc : BitVec 7} {s u t : State} (hu : DataOnly s u)
    (h : complete d cc u = .ok t) :
    Memory.byte t.mem (s.engine s.cur).dq.toNat = statusByte cc d.c ∧
      t.intFlag = (if d.ioc then s.intFlag ||| doneBit s.cur else s.intFlag) ∧
      t.engine s.cur = { s.engine s.cur with dq := (s.engine s.cur).dq + 32 } := by
  obtain ⟨m, ch, cv, hm, rfl⟩ := hu
  obtain ⟨⟨hend, -⟩, rfl⟩ := complete_eq_ok.1 h
  have heng : (State.engine { s with mem := m, chain := ch, chainValid := cv } s.cur) = s.engine s.cur := by
    cases s.cur <;> rfl
  rw [heng] at hend
  simp only [completedState, State.mem_setEngine, State.intFlag_setEngine, State.engine_setEngine_same, heng]
  refine ⟨?_, trivial, trivial⟩
  rw [Memory.byte_writeBytes hm hend, dif_pos (by simp)]
  simp

/-- Settles O16: a command that does not stick has completed (`runCommand_completes`) over what its data operation
left. -/
theorem completionWritesCode : Obligations.CompletionWritesCode := by
  intro i a d s t hi hm h hn
  obtain ⟨data, hrun, hdata⟩ := exec_eq_runCommand hi hm
  obtain ⟨u, cc, hu, hcc, hc⟩ := runCommand_completes (hrun ▸ h) hn hm hdata
  obtain ⟨hbyte, hflag, heng⟩ := complete_of_dataOnly hu hc
  obtain ⟨n, hn, hs⟩ := statusByte_completion hcc d.c
  refine ⟨⟨n, hn, hbyte.trans hs⟩, hflag.trans ?_, heng⟩
  cases s.cur <;> rfl

end Sys2Proof.Proofs.RingEngine

/-! The proofs of the family 40_ring, the completion dispatcher: its entry, the order of its drains, and the release of
a slot. -/

namespace Sys2Proof.Proofs.RingDispatch

open Sys2Proof Sys2Proof.Machine Sys2Proof.Laws

/-! ### The dispatch entry (40_ring.md R181) -/

/-- The bit of `DONE[e]` in INT_FLAG (10_state.md R35). -/
def doneIndex : EngineId → Nat
  | .aes => 0
  | .hash => 1

/-- Testing the DONE flag of a ring is testing its bit. -/
theorem and_doneBit_ne_zero (x : Word) (e : EngineId) : (x &&& doneBit e != 0) = x.getLsbD (doneIndex e) := by
  have hbit : doneBit e = BitVec.twoPow 32 (doneIndex e) := by cases e <;> rfl
  have hne : doneBit e ≠ 0 := by cases e <;> decide
  rw [hbit] at hne ⊢
  rw [BitVec.and_twoPow]
  cases x.getLsbD (doneIndex e) with
  | false => rfl
  | true => simpa using hne

/-- A word without bits outside a mask is the word masked. -/
theorem and_eq_self_of_and_not {n : Nat} {x m : BitVec n} (h : x &&& ~~~m = 0) : x &&& m = x := by
  have hsplit : x &&& (m ||| ~~~m) = (x &&& m) ||| (x &&& ~~~m) := BitVec.and_or_distrib_left
  rw [h] at hsplit
  simpa using hsplit.symm

/-- Every pending enabled flag is in scope when INT_EN has no other bits (10_state.md R34). -/
theorem pending_in_scope {s : State} (h : s.intEn &&& ~~~intScope = 0) :
    s.intFlag &&& s.intEn &&& intScope = s.intFlag &&& s.intEn := by
  rw [BitVec.and_assoc, and_eq_self_of_and_not h]

theorem dispatcherStep_entry {s : State} (hs : s.dispatcher.stuck = false) (ha : s.dispatcher.active = false)
    (hi : s.irq = true) : dispatcherStep s = .next (dispatchEntry s) := by
  rw [dispatcherStep, if_neg (Bool.eq_false_iff.1 hs), if_neg (Bool.eq_false_iff.1 ha), if_pos hi]

/-- Settles O44: the entry is `dispatchEntry`, whose pending flags need no mask under INT_EN in scope. -/
theorem dispatchEntryAcknowledges : Obligations.DispatchEntryAcknowledges := by
  intro s hl hs ha hi he pend served
  have hstep : step s = .next (dispatchEntry (Claims.rest s)) :=
    (step_of_listed hl).trans (dispatcherStep_entry (s := Claims.rest s) hs ha hi)
  have hpend : (Claims.rest s).intFlag &&& (Claims.rest s).intEn &&& intScope = pend :=
    pending_in_scope (s := Claims.rest s) he
  have hstuck : (Claims.rest s).dispatcher.stuck = false := hs
  rw [hstep, dispatchEntry]
  simp only [hpend, and_doneBit_ne_zero, hstuck]
  rfl

/-! ### The order of the drains (40_ring.md R180, R182, R183) -/

/-- A slot that is not completed ends the drain of its ring (40_ring.md R182). -/
theorem release_of_not_completed {r : EngineId} {s : State}
    (hr : Reach s (slotAddr (s.ring r) (s.ring r).head) 32)
    (hc : (Descriptor.ofBytes (Memory.readBytes s.mem (slotAddr (s.ring r) (s.ring r).head) 32)).cc = ccNone) :
    release r s = .next (endDrain s r) := by
  simp [release, memRead_ok hr.1 hr.2, hc]

section
variable {s : State} (hs : s.dispatcher.stuck = false) (ha : s.dispatcher.active = true)
include hs ha

/-- Inside a dispatch the AES ring comes first, whether or not an interrupt is pending (40_ring.md R180, R183). -/
theorem dispatcherStep_aes (hd : s.dispatcher.drainAes = true) : dispatcherStep s = release .aes s := by
  rw [dispatcherStep, if_neg (Bool.eq_false_iff.1 hs), if_pos ha, if_pos hd]

theorem dispatcherStep_hash (hd : s.dispatcher.drainAes = false) (hh : s.dispatcher.drainHash = true) :
    dispatcherStep s = release .hash s := by
  rw [dispatcherStep, if_neg (Bool.eq_false_iff.1 hs), if_pos ha, if_neg (Bool.eq_false_iff.1 hd), if_pos hh]

theorem dispatcherStep_exit (hd : s.dispatcher.drainAes = false) (hh : s.dispatcher.drainHash = false) :
    dispatcherStep s = .next (dispatchExit s) := by
  rw [dispatcherStep, if_neg (Bool.eq_false_iff.1 hs), if_pos ha, if_neg (Bool.eq_false_iff.1 hd),
    if_neg (Bool.eq_false_iff.1 hh)]

end

/-- With both drains ended the exit only leaves the dispatch (40_ring.md R183). -/
theorem dispatchExit_of_drained {s : State} (hd : s.dispatcher.drainAes = false) (hh : s.dispatcher.drainHash = false) :
    dispatchExit s = { s with dispatcher := { s.dispatcher with active := false } } := by
  simp [dispatchExit, hd, hh]

/-- Settles O45: the three branches of a dispatch, the first two at a slot that is not completed. -/
theorem dispatcherOrder : Obligations.DispatcherOrder := by
  intro s hl hs ha slot cc
  have hstep : step s = dispatcherStep (Claims.rest s) := step_of_listed hl
  rw [hstep]
  refine ⟨fun hd hr hc => ?_, fun hd hh hr hc => ?_, fun hd hh => ?_⟩
  · rw [dispatcherStep_aes (s := Claims.rest s) hs ha hd,
      release_of_not_completed (r := .aes) (s := Claims.rest s) hr hc]
    rfl
  · rw [dispatcherStep_hash (s := Claims.rest s) hs ha hd hh,
      release_of_not_completed (r := .hash) (s := Claims.rest s) hr hc]
    rfl
  · rw [dispatcherStep_exit (s := Claims.rest s) hs ha hd hh, dispatchExit_of_drained (s := Claims.rest s) hd hh]
    rfl

/-! ### The release of a slot (40_ring.md R182) -/

/-- What the release of the completed descriptor `d` at the head of a ring leaves. -/
def released (r : EngineId) (d : Descriptor) (s : State) : State :=
  (((s.setMem (Memory.writeBytes s.mem (slotAddr (s.ring r) (s.ring r).head) [statusByte ccNone d.cycle])).setRing r
    ((s.ring r).afterRelease (s.slots r))).updCtx d.owner fun c => c.afterRelease d)

theorem released_eq (r : EngineId) (d : Descriptor) (s : State) : released r d s =
    (((s.setMem (Memory.writeBytes s.mem (slotAddr (s.ring r) (s.ring r).head) [statusByte ccNone d.cycle])).setRing r
      ((s.ring r).afterRelease (s.slots r))).updCtx d.owner fun c => c.afterRelease d) := rfl

/-- A completed slot with an owner is released. -/
theorem release_of_completed {r : EngineId} {s : State} {d : Descriptor} {c : Ctx}
    (hr : Reach s (slotAddr (s.ring r) (s.ring r).head) 32)
    (hd : Descriptor.ofBytes (Memory.readBytes s.mem (slotAddr (s.ring r) (s.ring r).head) 32) = d)
    (hcc : d.cc ≠ ccNone) (hc : s.ctx d.owner = some c) : release r s = .next (released r d s) := by
  have hw := hr.sub (b := slotAddr (s.ring r) (s.ring r).head) (k := 1) (by decide) (Nat.le_refl _) (by omega)
  have hwrite := memWrite_ok (m := s.mem) (v := [statusByte ccNone d.cycle]) hw.1 hw.2
  simp [release, memRead_ok hr.1 hr.2, hd, hcc, hc, hwrite, released_eq]

/-- The context of an identity after a release: the owner's is updated, every other is kept. -/
theorem ctx_released (r : EngineId) (d : Descriptor) (s : State) (h : Handle) :
    (released r d s).ctx h = (s.ctx h).map fun c => if h = d.owner then c.afterRelease d else c := by
  rw [released_eq, ctx_updCtx, ctx_setRing, ctx_setMem]

/-- A release changes memory, its ring and the sessions only. -/
theorem released_fields (r : EngineId) (d : Descriptor) (s : State) :
    released r d s = { s with
      mem := (released r d s).mem
      aesRing := (released r d s).aesRing
      hashRing := (released r d s).hashRing
      hashSessions := (released r d s).hashSessions
      cipherSessions := (released r d s).cipherSessions } := by
  cases r <;> rfl

/-- The byte 0 of a released slot: CC is cleared and C kept. -/
theorem statusByte_none (c : Bool) : statusByte ccNone c = BitVec.ofNat 8 c.toNat := by cases c <;> rfl

/-- Settles O46: the step is the release of the drained ring's head, and each part of `released` is read off. -/
theorem releaseRetiresSlot : Obligations.ReleaseRetiresSlot := by
  intro s r c hl hm hd hdrain x n a d hr hcc hc
  have hring : (Claims.rest s).ring r = x := TurnedAway.ring_rest s r
  have hstep : step s = .next (released r d (Claims.rest s)) := by
    rw [step_of_listed hl]
    refine (TurnedAway.dispatcherStep_drains (s := Claims.rest s) hd hdrain).trans ?_
    refine release_of_completed ?_ ?_ hcc hc
    · rw [hring]
      exact hr
    · rw [hring]
      rfl
  have hend : a + 1 ≤ Config.dmaEnd := by have := hr.1; omega
  have hmem : (released r d (Claims.rest s)).mem = Memory.writeBytes s.mem a [statusByte ccNone d.cycle] := by
    simp only [released_eq, State.mem_updCtx, State.mem_setRing, State.mem_setMem, hring]
    rfl
  refine ⟨_, hstep, ?byte, fun b hb => ?frame, ?ring, ?owner, fun h hh => ?others, fun f hf => ?otherRing, ?rest⟩
  case byte =>
    rw [hmem, Memory.byte_writeBytes hm hend, dif_pos (by simp)]
    simp [statusByte_none]
  case frame =>
    rw [hmem, Memory.byte_writeBytes_outside hm hend]
    simp only [List.length_singleton]
    omega
  case ring =>
    simp only [released_eq, State.ring_updCtx, State.ring_setRing_same, hring]
    rfl
  case owner =>
    rw [ctx_released, show (Claims.rest s).ctx d.owner = some c from hc, Option.map_some, if_pos rfl]
    rfl
  case others =>
    rw [ctx_released]
    simp only [hh, if_false, Option.map_id']
    rfl
  case otherRing =>
    simp [released_eq, State.ring_setRing, hf]
  case rest => exact released_fields r d (Claims.rest s)

end Sys2Proof.Proofs.RingDispatch

/-! The proofs of the family 40_ring, the enqueue side: the ring reset, the phases of a QUEUE, and EXECUTE with its
wait. -/

namespace Sys2Proof.Proofs.RingEnqueue

open Sys2Proof Sys2Proof.Machine Sys2Proof.Laws

/-! ### The ring reset (40_ring.md R150) -/

/-- Taking a listed event off the list leaves whether a ring is quiet. -/
theorem ringQuiet_rest (s : State) (t : ThreadId) (r : EngineId) : (Claims.rest s).ringQuiet t r = s.ringQuiet t r := by
  cases r <;> rfl

/-- Traffic on a ring: a busy engine, another thread in QUEUE or EXECUTE, slots still out on a live ring
(40_ring.md R150, 70_reset_and_hazards.md R403). -/
theorem ringQuiet_of_traffic {s : State} {t : ThreadId} {r : EngineId}
    (h : (s.engine r).busy = true ∨
      (∃ x ∈ s.threads, x.id ≠ t ∧ ∃ k, x.task = some k ∧ k.queuesOn s r = true) ∨
      ((s.ring r).live = true ∧ (s.ring r).sem ≠ s.params.slots r - 2)) : s.ringQuiet t r = false := by
  rcases h with hb | ⟨x, hx, hid, k, hk, hq⟩ | ⟨hl, hsem⟩
  · simp [State.ringQuiet, hb]
  · have hother : s.otherTask t (Task.queuesOn s r) = true :=
      List.any_eq_true.2 ⟨x, hx, by simp [hid, hk, hq]⟩
    simp [State.ringQuiet, hother]
  · simp [State.ringQuiet, hl, State.slots, hsem]

theorem step_ringReset {s : State} {t : ThreadId} {r : EngineId} {base : Word}
    (h : Claims.HostAt s t ⟨.ringReset r base, none, none⟩) : step s = ringReset t r base (Claims.rest s) :=
  (Registers.step_of_hostAt h).trans rfl

theorem ringReset_of_traffic {s : State} {t : ThreadId} {r : EngineId} {base : Word}
    (h : s.ringQuiet t r = false) : ringReset t r base s = .fault .resetDuringTraffic :=
  if_pos h

/-- What a ring reset leaves over the ring's new memory. -/
def ringWasReset (t : ThreadId) (r : EngineId) (base : Word) (m : Memory) (s : State) : State :=
  ((((s.setMem m).setRing r (freshRing (s.slots r) base)).setEngine r
    (writeRingBase base (writeRingCtrl 0x4 (s.engine r)))).updRingCtxs r
      fun c => { c with outstanding := 0 }).finish t .ok

theorem ringWasReset_eq (t : ThreadId) (r : EngineId) (base : Word) (m : Memory) (s : State) :
    ringWasReset t r base m s =
      ((((s.setMem m).setRing r (freshRing (s.slots r) base)).setEngine r
        (writeRingBase base (writeRingCtrl 0x4 (s.engine r)))).updRingCtxs r
          fun c => { c with outstanding := 0 }).finish t .ok := rfl

theorem ringReset_of_quiet {s : State} {t : ThreadId} {r : EngineId} {base : Word} {m : Memory}
    (hq : s.ringQuiet t r = true) (hb : base &&& 0x1F = 0)
    (hm : ringMemory s.params (s.slots r) base s.mem = .ok m) :
    ringReset t r base s = .next (ringWasReset t r base m s) := by
  rw [ringReset, if_neg (by simp [hq]), if_neg (not_not_intro hb), hm]
  rfl

/-- A base that is 32-byte aligned is stored as it is (10_state.md R32). -/
theorem alignBase_of_aligned {base : Word} (h : base &&& 0x1F = 0) : alignBase base = base :=
  RingDispatch.and_eq_self_of_and_not h

/-- RING_CTRL without RUN and STOP and then RING_BASE, as a ring reset writes them (40_ring.md R150). -/
theorem writeRingBase_writeRingCtrl {base : Word} (h : base &&& 0x1F = 0) (x : Engine) :
    writeRingBase base (writeRingCtrl 0x4 x) = { x with ringBase := base, rcs := true, dq := base, ccs := true } := by
  rw [Registers.writeRingCtrl_eq, writeRingBase, alignBase_of_aligned h]
  rfl

/-- Settles O35: traffic makes the ring not quiet; on a quiet ring `ringMemory_ok` gives the memory, and the rest of
`ringWasReset` is read off. -/
theorem ringResetInitialises : Obligations.RingResetInitialises := by
  intro s t r base h hm n
  refine ⟨fun htraffic => ?_, fun hq hn hb hr => ?_⟩
  · rw [step_ringReset h]
    exact ringReset_of_traffic ((ringQuiet_rest s t r).trans (ringQuiet_of_traffic htraffic))
  · obtain ⟨m, hmem, hslots, hlink, hframe⟩ := ringMemory_ok s.params n base s.mem hm hn fun i hi => hr i hi
    have hstep : step s = .next (ringWasReset t r base m (Claims.rest s)) :=
      (step_ringReset h).trans (ringReset_of_quiet ((ringQuiet_rest s t r).trans hq) hb hmem)
    have humem : (ringWasReset t r base m (Claims.rest s)).mem = m := by simp [ringWasReset_eq, State.finish_eq]
    refine ⟨_, hstep, ?_, ?_, ?_, ?_, ?_, ?_, ?_⟩
    · simp only [ringWasReset_eq, State.finish_eq, State.ring_setThread, State.ring_updRingCtxs, State.ring_setEngine,
        State.ring_setRing_same]
      rfl
    · simp only [ringWasReset_eq, State.finish_eq, State.engine_setThread, State.engine_updRingCtxs,
        State.engine_setEngine_same, Writers.engine_rest]
      exact writeRingBase_writeRingCtrl hb _
    · rwa [humem]
    · rwa [humem]
    · rwa [humem]
    · rw [ringWasReset_eq, State.thread_finish]
    · rw [ringWasReset_eq, State.thread_finish]

/-! ### A step of a QUEUE or an EXECUTE, a signal and a timeout -/

section
variable {s : State} {t : ThreadId} {k : Task}

theorem taskStep_queue {q : QueueCall} {ph : QueuePhase} (hk : k.sub = some (.queue q ph)) :
    taskStep t k s = queueStep t k q ph s := by
  cases k
  cases hk
  rfl

theorem taskStep_execute {h : Handle} {ph : ExecPhase} (hk : k.sub = some (.exec h ph)) :
    taskStep t k s = execStep t k h ph s := by
  cases k
  cases hk
  rfl

/-- A thread inside a QUEUE takes the step of its phase on the ring of the context. -/
theorem step_of_queue {q : QueueCall} {c : Ctx} {ph : QueuePhase} (h : Claims.HostAt s t k)
    (hk : k.sub = some (.queue q ph)) (hc : s.ctx q.ctx = some c) :
    step s = queuePhase t k q c c.ring (Claims.rest s) ph := by
  have hc' : (Claims.rest s).ctx q.ctx = some c := hc
  rw [Registers.step_of_hostAt h, taskStep_queue hk, queueStep, hc']

/-- A thread inside an EXECUTE takes the step of its position. -/
theorem step_of_execute {h : Handle} {ph : ExecPhase} (ha : Claims.HostAt s t k) (hk : k.sub = some (.exec h ph)) :
    step s = execStep t k h ph (Claims.rest s) :=
  (Registers.step_of_hostAt ha).trans (taskStep_execute hk)

variable (hs : (s.thread t).stuck = false) (hk : (s.thread t).task = some k)
include hs hk

/-- What reaches a thread in an operation from outside. -/
theorem interruptThread_of_task (f : Task → State → State) :
    interruptThread t f (Claims.rest s) = f k (Claims.rest s) := by
  have hs' : ((Claims.rest s).thread t).stuck = false := hs
  have hk' : ((Claims.rest s).thread t).task = some k := hk
  simp [interruptThread, hs', hk']

theorem step_of_signal (hl : Claims.Listed s (.signal t)) : step s = .next (signalThread t k (Claims.rest s)) := by
  rw [step_of_listed hl]
  exact congrArg _ (interruptThread_of_task hs hk (signalThread t))

theorem step_of_timeout (hl : Claims.Listed s (.timeout t)) : step s = .next (timeoutThread t k (Claims.rest s)) := by
  rw [step_of_listed hl]
  exact congrArg _ (interruptThread_of_task hs hk (timeoutThread t))

end

section
variable (s : State) (t : ThreadId) (k : Task)

/-- The two holds a signal may end: the one on the semaphore while there is no unit, and the wait of a cipher
(60_exceptions.md R355). -/
theorem signalThread_hold :
    (∀ q c, k.sub = some (.queue q .down) → s.ctx q.ctx = some c →
      signalThread t k s = if (s.ring c.ring).sem = 0 then s.retSub t k (.failed .interrupted) else s) ∧
    ∀ h c, k.sub = some (.exec h .wait) → s.ctx h = some c →
      signalThread t k s = if c.ring = .aes then
        (s.updCtx h fun c => { c with waiter := none }).retSub t k (.failed .interrupted) else s := by
  unfold signalThread
  exact ⟨fun q c hk hc => by simp only [hk, hc], fun h c hk hc => by simp only [hk, hc]⟩

/-- The one hold a timeout may end: the wait of a cipher (40_ring.md R166). -/
theorem timeoutThread_wait {h : Handle} {c : Ctx} (hk : k.sub = some (.exec h .wait)) (hc : s.ctx h = some c) :
    timeoutThread t k s = if c.ring = .aes then
      (s.updCtx h fun c => { c with waiter := none }).retSub t k (.failed .timeout) else s := by
  simp only [timeoutThread, hk, hc]

end

/-! ### The phases of a QUEUE before the slot (40_ring.md R151, R153) -/

section
variable {s : State} {t : ThreadId} {k : Task} {q : QueueCall} {c : Ctx} {r : EngineId}

theorem queuePhase_enter (hl : (s.ring r).live = true) (hn : q.len ≤ Config.sizeMax) :
    queuePhase t k q c r s .enter = .next (s.goSub t k (.queue q (if q.len = 0 then .zeroLock else .down))) :=
  (if_neg (Bool.ne_false_iff.2 hl)).trans (if_neg (Nat.not_lt.2 hn))

theorem queuePhase_enter_tooLarge (hl : (s.ring r).live = true) (hn : Config.sizeMax < q.len) :
    queuePhase t k q c r s .enter = .refused .sizeTooLarge :=
  (if_neg (Bool.ne_false_iff.2 hl)).trans (if_pos hn)

theorem queuePhase_down_hold (h : (s.ring r).sem = 0) : queuePhase t k q c r s .down = .next s := if_pos h

theorem queuePhase_down (h : 0 < (s.ring r).sem) :
    queuePhase t k q c r s .down =
      .next ((s.setRing r { s.ring r with sem := (s.ring r).sem - 1 }).goSub t k (.queue q .lock)) :=
  if_neg (Nat.ne_of_gt h)

/-- The ring mutex is taken when it is free, kept when the thread holds it, and waited for when another does
(40_ring.md R153). -/
theorem lockRing_eq (s : State) (t : ThreadId) (r : EngineId) :
    s.lockRing t r = (s.ring r).mutex.elim (some (s.setRing r { s.ring r with mutex := some t }, false))
      fun o => if o = t then some (s, true) else none := by
  unfold State.lockRing
  cases (s.ring r).mutex <;> rfl

theorem lockRing_free (h : (s.ring r).mutex = none) :
    s.lockRing t r = some (s.setRing r { s.ring r with mutex := some t }, false) := by
  rw [lockRing_eq, h, Option.elim_none]

theorem lockRing_mine (h : (s.ring r).mutex = some t) : s.lockRing t r = some (s, true) := by
  rw [lockRing_eq, h, Option.elim_some, if_pos rfl]

theorem lockRing_other {o : ThreadId} (h : (s.ring r).mutex = some o) (ho : o ≠ t) : s.lockRing t r = none := by
  rw [lockRing_eq, h, Option.elim_some, if_neg ho]

theorem queuePhase_lock_eq :
    queuePhase t k q c r s .lock =
      (s.lockRing t r).elim (.next s) fun x => .next (x.1.goSub t k (.queue q (.take x.2))) := by
  simp only [queuePhase]
  cases s.lockRing t r <;> rfl

theorem queuePhase_lock {u : State} {held : Bool} (h : s.lockRing t r = some (u, held)) :
    queuePhase t k q c r s .lock = .next (u.goSub t k (.queue q (.take held))) := by
  rw [queuePhase_lock_eq, h, Option.elim_some]

theorem queuePhase_lock_hold (h : s.lockRing t r = none) : queuePhase t k q c r s .lock = .next s := by
  rw [queuePhase_lock_eq, h, Option.elim_none]

end

/-- Settles O36: each clause is the phase's lemma at the test its hypotheses decide. -/
theorem acquireSemaphoreAndMutex : Obligations.AcquireSemaphoreAndMutex := by
  intro s t k q c hc r x
  have hring : (Claims.rest s).ring r = x := TurnedAway.ring_rest s r
  refine ⟨fun h hk hl hn => ?enter, fun h hk hl hn => ?tooLarge, fun h hk hsem => ?hold, fun h hk hsem => ?down,
    fun hl hs ht hk hsem => ?signal, fun h hk => ⟨fun hx => ?free, fun hx => ?mine, fun o hx ho => ?other⟩⟩
  case enter => rw [step_of_queue h hk hc, queuePhase_enter (hring ▸ hl) hn]
  case tooLarge => rw [step_of_queue h hk hc, queuePhase_enter_tooLarge (hring ▸ hl) hn]
  case hold => rw [step_of_queue h hk hc, queuePhase_down_hold (hring ▸ hsem)]
  case down => rw [step_of_queue h hk hc, queuePhase_down (hring ▸ hsem), hring]
  case signal =>
    rw [step_of_signal hs ht hl, (signalThread_hold (Claims.rest s) t k).1 q c hk hc, if_pos (hring ▸ hsem)]
  case free => rw [step_of_queue h hk hc, queuePhase_lock (lockRing_free (hring ▸ hx)), hring]
  case mine => rw [step_of_queue h hk hc, queuePhase_lock (lockRing_mine (hring ▸ hx))]
  case other => rw [step_of_queue h hk hc, queuePhase_lock_hold (lockRing_other (hring ▸ hx) ho)]

/-! ### The slot step of a QUEUE (40_ring.md R151, R154, R156) -/

theorem advanceTail_eq (n : Nat) (x : Ring) :
    x.advanceTail n = { x with tail := nextSlot n x.tail, pcs := if x.tail = n - 2 then !x.pcs else x.pcs } := rfl

/-- Away from the last usable slot the tail advances and PCS stays. -/
theorem advanceTail_of_ne {n : Nat} {x : Ring} (h : x.tail ≠ n - 2) :
    x.advanceTail n = { x with tail := if x.tail < n - 2 then x.tail + 1 else 0 } := by
  rw [advanceTail_eq, if_neg h]
  rfl

/-- At the last usable slot the tail wraps and PCS inverts. -/
theorem advanceTail_of_wrap {n : Nat} {x : Ring} (h : x.tail = n - 2) :
    x.advanceTail n = { x with tail := 0, pcs := !x.pcs } := by
  have hn : nextSlot n x.tail = 0 := if_neg (by omega)
  rw [advanceTail_eq, if_pos h, hn]

section
variable {s : State} {t : ThreadId} {k : Task} {q : QueueCall} {c : Ctx} {r : EngineId}

/-- A slot is taken once the link is written as the wrap asks. -/
theorem takeSlot_of_link {m : Memory} (h : linkMemory s.params (s.slots r) (s.ring r) s.mem = .ok m) :
    takeSlot s r = .ok ((s.setMem m).setRing r ((s.ring r).advanceTail (s.slots r))) := by
  rw [takeSlot, h, Acc.ok_bind]

theorem takeSlot_of_ne (h : (s.ring r).tail ≠ s.slots r - 2) :
    takeSlot s r = .ok (s.setRing r ((s.ring r).advanceTail (s.slots r))) :=
  takeSlot_of_link (if_neg h)

/-- At a wrap the link's byte 0 gets C = PCS (40_ring.md R151). -/
theorem takeSlot_of_wrap (h : (s.ring r).tail = s.slots r - 2)
    (hr : Reach s (slotAddr (s.ring r) (s.slots r - 1)) 1) :
    takeSlot s r = .ok ((s.setMem (Memory.writeBytes s.mem (slotAddr (s.ring r) (s.slots r - 1))
      [statusByte ccNone (s.ring r).pcs])).setRing r ((s.ring r).advanceTail (s.slots r))) :=
  takeSlot_of_link ((if_pos h).trans (memWrite_ok hr.1 hr.2))

/-- A descriptor interrupts when it was asked to or when it takes the last unit (40_ring.md R154). -/
theorem iocEff_eq (ioc : Bool) (n : Nat) : (ioc || n == 0) = if n = 0 then true else ioc := by
  by_cases h : n = 0 <;> simp [h]

theorem queuePhase_take_fault {held : Bool} (hi : (q.ioc || (s.ring r).sem == 0) = true) (hd : c.done = false) :
    queuePhase t k q c r s (.take held) = .fault .secondOutstandingIoc :=
  if_pos (by simp [hi, hd])

theorem queuePhase_take {u : State} {held ioc : Bool} (hi : (q.ioc || (s.ring r).sem == 0) = ioc)
    (hd : ioc = false ∨ c.done = true) (hu : takeSlot s r = .ok u) :
    queuePhase t k q c r s (.take held) =
      .next (u.goSub t k (.queue q (.publish held (s.ring r).tail (s.ring r).pcs ioc 0))) := by
  have hok : ¬(ioc && !c.done) = true := by rcases hd with h | h <;> simp [h]
  simp only [queuePhase, hi, hok, hu, hostAccess_ok]
  rfl

end

/-- Settles O37: the fault first, then the slot is taken with or without a wrap. -/
theorem acquireTakesSlot : Obligations.AcquireTakesSlot := by
  intro s t k q c held hc h hk r x n ioc next
  have hring : (Claims.rest s).ring r = x := TurnedAway.ring_rest s r
  have hioc : (q.ioc || ((Claims.rest s).ring r).sem == 0) = ioc := by
    rw [hring]
    exact iocEff_eq _ _
  rw [step_of_queue h hk hc]
  refine ⟨fun hi hd => ?_, fun hd ht => ?_, fun hd ht hr => ?_⟩
  · exact queuePhase_take_fault (hioc.trans hi) hd
  · rw [queuePhase_take hioc hd (takeSlot_of_ne (hring ▸ ht)), hring, ← advanceTail_of_ne ht]
    rfl
  · rw [queuePhase_take hioc hd (takeSlot_of_wrap (hring ▸ ht) (hring ▸ hr)), hring, ← advanceTail_of_wrap ht,
      RingDispatch.statusByte_none]
    rfl

/-! ### The end of a QUEUE

Both kinds of QUEUE end alike: memory and the context updated, the mutex given up, and the return. -/

section
variable (s : State) (t : ThreadId) (k : Task) (h : Handle) (f : Ctx → Ctx) (r : EngineId) (held : Bool) (m : Memory)
  (x : SubRet)

/-- What the last step of a QUEUE leaves (40_ring.md R153, R158). -/
def queueEnded : State := (((s.setMem m).updCtx h f).unlockRing r held).retSub t k x

theorem queueEnded_eq :
    queueEnded s t k h f r held m x = (((s.setMem m).updCtx h f).unlockRing r held).retSub t k x := rfl

theorem mem_queueEnded : (queueEnded s t k h f r held m x).mem = m := by
  simp only [queueEnded_eq, State.retSub_eq, State.setTask_eq, State.mem_setThread, mem_unlockRing, State.mem_updCtx,
    State.mem_setMem]

theorem ctx_queueEnded (g : Handle) :
    (queueEnded s t k h f r held m x).ctx g = (s.ctx g).map fun c => if g = h then f c else c := by
  rw [queueEnded_eq, State.retSub_eq, State.setTask_eq, ctx_setThread, ctx_unlockRing, ctx_updCtx, ctx_setMem]

theorem ctx_queueEnded_same {c : Ctx} (hc : s.ctx h = some c) :
    (queueEnded s t k h f r held m x).ctx h = some (f c) := by
  rw [ctx_queueEnded, hc, Option.map_some, if_pos rfl]

theorem ctx_queueEnded_other {g : Handle} (hg : g ≠ h) : (queueEnded s t k h f r held m x).ctx g = s.ctx g := by
  rw [ctx_queueEnded]
  simp only [hg, if_false, Option.map_id']

theorem ring_queueEnded : (queueEnded s t k h f r held m x).ring r = Claims.unlocked held (s.ring r) := by
  rw [queueEnded_eq, State.retSub_eq, State.setTask_eq, State.ring_setThread, ring_unlockRing, State.ring_updCtx,
    State.ring_setMem, Claims.unlocked]

theorem thread_queueEnded :
    (queueEnded s t k h f r held m x).thread t =
      { s.thread t with task := some { k with sub := none, ret := some x } } := by
  rw [queueEnded_eq, State.retSub_eq, State.thread_setTask, thread_unlockRing]
  rfl

end

/-! ### The publishing steps of a QUEUE (40_ring.md R153, R155) -/

/-- Memory after write `n` of PUBLISH for the slot at `a`. -/
def publishMemory (mc : ModeCodec) (q : QueueCall) (a : Nat) (cyc ioc : Bool) (n : Nat) (m : Memory) : Memory :=
  match publishWrite mc q a cyc ioc n with
  | some w => Memory.writeBytes m w.1 w.2
  | none => m

section
variable {mc : ModeCodec} {q : QueueCall} {a n : Nat} {cyc ioc : Bool} {m : Memory}

theorem publishMemory_of_some {w : Nat × List Byte} (h : publishWrite mc q a cyc ioc n = some w) :
    publishMemory mc q a cyc ioc n m = Memory.writeBytes m w.1 w.2 := by
  simp only [publishMemory, h]

/-- Every step of PUBLISH but the barrier writes. -/
theorem publishWrite_eq_none (h : publishWrite mc q a cyc ioc n = none) : n = 7 := by
  unfold publishWrite at h
  split at h <;> cases h
  rfl

end

section
variable {s : State} {t : ThreadId} {k : Task} {q : QueueCall} {r : EngineId} {held cyc ioc : Bool} {slot n : Nat}

/-- The memory after a write of PUBLISH to a slot of the ring. -/
abbrev slotPublished (s : State) (q : QueueCall) (r : EngineId) (slot : Nat) (cyc ioc : Bool) (n : Nat) : Memory :=
  publishMemory s.params.codec q (slotAddr (s.ring r) slot) cyc ioc n s.mem

/-- A write of PUBLISH but the last is the write alone; the last also updates the context and gives up the mutex
(40_ring.md R153). -/
theorem publishStep_eq
    (hr : ∀ w, publishWrite s.params.codec q (slotAddr (s.ring r) slot) cyc ioc n = some w →
      Reach s w.1 w.2.length) :
    publishStep t k q r held slot cyc ioc n s =
      if n < 8 then
        .next ((s.setMem (slotPublished s q r slot cyc ioc n)).goSub t k
          (.queue q (.publish held slot cyc ioc (n + 1))))
      else .next (queueEnded s t k q.ctx (fun c => c.afterQueue slot ioc q.mode) r held
        (slotPublished s q r slot cyc ioc n) (.queued slot ioc)) := by
  rw [publishStep]
  cases hw : publishWrite s.params.codec q (slotAddr (s.ring r) slot) cyc ioc n with
  | none =>
    obtain rfl := publishWrite_eq_none hw
    rfl
  | some w =>
    obtain ⟨hend, hback⟩ := hr w hw
    simp only [memWrite_ok hend hback, hostAccess_ok, slotPublished, publishMemory_of_some hw]
    rfl

end

/-- Settles O39: the step is `publishStep`, whose last write ends the QUEUE. -/
theorem queuePublishes : Obligations.QueuePublishes := by
  intro s t k q c held cyc ioc slot n hc h hk hn r a hr m
  have hring : (Claims.rest s).ring r = s.ring r := TurnedAway.ring_rest s r
  have haddr : slotAddr ((Claims.rest s).ring r) slot = a := by rw [hring, slotAddr]
  have hmem : slotPublished (Claims.rest s) q r slot cyc ioc n = m := by
    rw [slotPublished, haddr]
    rfl
  have hreach : ∀ w, publishWrite (Claims.rest s).params.codec q (slotAddr ((Claims.rest s).ring r) slot) cyc ioc n =
      some w → Reach (Claims.rest s) w.1 w.2.length := by
    rw [haddr]
    exact hr
  have hstep : step s = publishStep t k q r held slot cyc ioc n (Claims.rest s) := step_of_queue h hk hc
  refine ⟨fun hlt => ?_, ?_⟩
  · rw [hstep, publishStep_eq hreach, if_pos hlt, hmem]
    rfl
  · rintro rfl
    refine ⟨_, (hstep.trans (publishStep_eq hreach)).trans (if_neg (by decide)), (mem_queueEnded ..).trans hmem,
      ?_, fun g hg => ?_, ?_, ?_⟩
    · exact ctx_queueEnded_same (Claims.rest s) (hc := hc) ..
    · exact ctx_queueEnded_other (Claims.rest s) (hg := hg) ..
    · rw [ring_queueEnded, hring]
    · exact thread_queueEnded (Claims.rest s) ..

/-! ### The zero-length QUEUE (40_ring.md R158) -/

section
variable {s : State} {t : ThreadId} {k : Task} {q : QueueCall} {c : Ctx} {r : EngineId} {held : Bool} {slot : Nat}

/-- Nothing is pending without a last slot or after an interrupting descriptor. -/
theorem pendingSlot_eq_none (h : c.last = none ∨ c.pendingNonIoc = false) : c.pendingSlot = none := by
  rcases h with h | h <;> simp [Ctx.pendingSlot, h]

theorem pendingSlot_eq_some (hl : c.last = some slot) (hp : c.pendingNonIoc = true) : c.pendingSlot = some slot :=
  (if_pos hp).trans hl

theorem queuePhase_zeroMode_nothing (h : c.pendingSlot = none) :
    queuePhase t k q c r s (.zeroMode held) = .next ((s.unlockRing r held).retSub t k .updated) := by
  simp only [queuePhase, h]

theorem queuePhase_zeroMode (h : c.pendingSlot = some slot) (hr : Reach s (slotAddr (s.ring r) slot + 12) 4) :
    queuePhase t k q c r s (.zeroMode held) =
      .next ((s.setMem (Memory.writeBytes s.mem (slotAddr (s.ring r) slot + 12)
        (toLe32 (s.params.codec.encodeMode q.mode)))).goSub t k (.queue q (.zeroFlags held slot))) := by
  simp only [queuePhase, h, memWrite_ok (v := toLe32 _) hr.1 hr.2, hostAccess_ok]

/-- The second step rewrites byte 1 of the slot and ends the QUEUE. -/
theorem queuePhase_zeroFlags (hr : Reach s (slotAddr (s.ring r) slot + 1) 1) :
    queuePhase t k q c r s (.zeroFlags held slot) =
      .next (queueEnded s t k q.ctx (fun c => c.afterZeroQueue q.mode q.ioc) r held
        (Memory.writeBytes s.mem (slotAddr (s.ring r) slot + 1)
          [withIoc (Memory.byte s.mem (slotAddr (s.ring r) slot + 1)) q.ioc]) .updated) := by
  have hw := memWrite_ok (m := s.mem) (v := [withIoc (Memory.byte s.mem (slotAddr (s.ring r) slot + 1)) q.ioc])
    hr.1 hr.2
  simp only [queuePhase, memRead_ok hr.1 hr.2, Acc.ok_bind, Memory.readBytes_succ, Memory.readBytes_zero,
    List.map_cons, List.map_nil, hw, hostAccess_ok]
  rfl

end

/-- Settles O40: the first step tests `pendingSlot`, the second rewrites the IOC bit of byte 1 (`withIoc_bits`). -/
theorem zeroLengthQueue : Obligations.ZeroLengthQueue := by
  intro s t k q c held hc r
  have hring : (Claims.rest s).ring r = s.ring r := TurnedAway.ring_rest s r
  refine ⟨fun h hk => ⟨fun hp => ?nothing, fun slot hl hp => ?mode⟩, fun slot h hk => ?flags⟩
  case nothing =>
    rw [step_of_queue h hk hc, queuePhase_zeroMode_nothing (pendingSlot_eq_none hp), unlock_eq, hring]
    rfl
  case mode =>
    intro a hr
    have haddr : slotAddr ((Claims.rest s).ring r) slot + 12 = a := by rw [hring, slotAddr]
    rw [step_of_queue h hk hc, queuePhase_zeroMode (pendingSlot_eq_some hl hp) (haddr ▸ hr), haddr]
    rfl
  case flags =>
    intro a hr hm
    have haddr : slotAddr ((Claims.rest s).ring r) slot + 1 = a := by rw [hring, slotAddr]
    have hstep := (step_of_queue h hk hc).trans (queuePhase_zeroFlags (s := Claims.rest s) (haddr ▸ hr))
    rw [haddr] at hstep
    have hend : a + [withIoc (Memory.byte s.mem a) q.ioc].length ≤ Config.dmaEnd := hr.1
    refine ⟨_, hstep, fun b hb => ?_, fun i hi => ?_, ?_, fun g hg => ?_, ?_, ?_⟩
    · rw [mem_queueEnded]
      refine Memory.byte_writeBytes_outside hm hend ?_
      rw [List.length_singleton]
      omega
    · rw [mem_queueEnded, ← withIoc_bits _ _ _ hi]
      refine congrArg (BitVec.getLsbD · i) ((Memory.byte_writeBytes hm hend a).trans ?_)
      simp
    · exact ctx_queueEnded_same (Claims.rest s) (hc := hc) ..
    · exact ctx_queueEnded_other (Claims.rest s) (hg := hg) ..
    · rw [ring_queueEnded, hring]
    · exact thread_queueEnded (Claims.rest s) ..

/-! ### EXECUTE (40_ring.md R160, R161, R163) -/

/-- The context reported and its recorded status reset (40_ring.md R160). -/
def reportedState (s : State) (h : Handle) : State :=
  s.updCtx h fun c => { c with status := ccSuccess, waiter := none }

section
variable {s : State} {t : ThreadId} {k : Task} {h : Handle} {c : Ctx}

theorem finishExecute_eq :
    finishExecute t k h c s =
      if c.status = ccBadKeyLength then .next ((reportedState s h).retSub t k (.failed .badKeyLength))
      else if c.status = ccSuccess then .next ((reportedState s h).retSub t k .executed)
      else .fault .reservedCompletionCode := rfl

theorem finishExecute_success (hc : c.status = ccSuccess) :
    finishExecute t k h c s = .next ((reportedState s h).retSub t k .executed) := by
  rw [finishExecute_eq, if_neg (by rw [hc]; decide), if_pos hc]

theorem finishExecute_badKey (hc : c.status = ccBadKeyLength) :
    finishExecute t k h c s = .next ((reportedState s h).retSub t k (.failed .badKeyLength)) := by
  rw [finishExecute_eq, if_pos hc]

theorem finishExecute_fault (h1 : c.status ≠ ccSuccess) (h2 : c.status ≠ ccBadKeyLength) :
    finishExecute t k h c s = .fault .reservedCompletionCode := by
  rw [finishExecute_eq, if_neg h2, if_neg h1]

/-- The two positions of an EXECUTE on a context that exists (40_ring.md R160, R163). -/
theorem execStep_eq (hc : s.ctx h = some c) :
    execStep t k h .trigger s =
        (if (s.ring c.ring).live = false then .refused .ringNotReset
        else if c.done then finishExecute t k h c s
        else .next ((((s.setRing c.ring { s.ring c.ring with
            triggerCount := (s.ring c.ring).triggerCount + 1 }).setEngine c.ring
          (writeRingCtrl (triggerValue (s.engine c.ring)) (s.engine c.ring))).updCtx h
            fun c => { c with waiter := some t }).goSub t k (.exec h .wait))) ∧
      execStep t k h .wait s = if c.done then finishExecute t k h c s else .next s := by
  simp only [execStep, hc, and_self]

/-- A context that is done is reported, before a trigger and in the wait (40_ring.md R160). -/
theorem execStep_done {ph : ExecPhase} (hc : s.ctx h = some c) (hl : ph = .trigger → (s.ring c.ring).live = true)
    (hd : c.done = true) : execStep t k h ph s = finishExecute t k h c s := by
  cases ph with
  | trigger => rw [(execStep_eq hc).1, if_neg (by simp [hl rfl]), if_pos hd]
  | wait => rw [(execStep_eq hc).2, if_pos hd]

theorem execStep_hold (hc : s.ctx h = some c) (hd : c.done = false) : execStep t k h .wait s = .next s := by
  rw [(execStep_eq hc).2, if_neg (by simp [hd])]

/-- RUN written with RCS as it reads sets BUSY alone (10_state.md R33, 40_ring.md R160). -/
theorem writeRingCtrl_triggerValue (x : Engine) : writeRingCtrl (triggerValue x) x = { x with busy := true } := by
  have hv : (triggerValue x).getLsbD 0 = true ∧ (triggerValue x).getLsbD 1 = false ∧
      (triggerValue x).getLsbD 2 = x.rcs := by
    unfold triggerValue
    cases x.rcs <;> decide
  obtain ⟨hrun, hstop, hrcs⟩ := hv
  rw [Registers.writeRingCtrl_eq, if_pos hrun, hstop, hrcs]
  simp

/-- A context that is not done is triggered once and waited for (40_ring.md R160, R161). -/
theorem execStep_trigger (hc : s.ctx h = some c) (hl : (s.ring c.ring).live = true) (hd : c.done = false) :
    execStep t k h .trigger s =
      .next ((((s.setRing c.ring { s.ring c.ring with
          triggerCount := (s.ring c.ring).triggerCount + 1 }).setEngine c.ring
        { s.engine c.ring with busy := true }).updCtx h fun c => { c with waiter := some t }).goSub t k
          (.exec h .wait)) := by
  rw [(execStep_eq hc).1, if_neg (by simp [hl]), if_neg (by simp [hd]), writeRingCtrl_triggerValue]

end

/-- Settles O41: the report, the trigger and the hold are the branches of `execStep`. -/
theorem executeTriggersOrReports : Obligations.ExecuteTriggersOrReports := by
  intro s t k h c hc ha r reported
  have hring : (Claims.rest s).ring r = s.ring r := TurnedAway.ring_rest s r
  refine ⟨fun hk hd => ?report, fun hk hl hd => ?trigger, fun hk hd => ?hold⟩
  case report =>
    have hstep : step s = finishExecute t k h c (Claims.rest s) := by
      rcases hk with ⟨hk, hl⟩ | hk
      · exact (step_of_execute ha hk).trans (execStep_done (s := Claims.rest s) hc (fun _ => hring ▸ hl) hd)
      · exact (step_of_execute ha hk).trans (execStep_done (s := Claims.rest s) hc (fun e => nomatch e) hd)
    rw [hstep]
    exact ⟨finishExecute_success, finishExecute_badKey, finishExecute_fault⟩
  case trigger =>
    have hl' : ((Claims.rest s).ring r).live = true := hring ▸ hl
    rw [step_of_execute ha hk, execStep_trigger (s := Claims.rest s) hc hl' hd, hring, Writers.engine_rest]
  case hold => rw [step_of_execute ha hk, execStep_hold (s := Claims.rest s) hc hd]

/-! ### The endings of the wait (40_ring.md R165, R166) -/

/-- Settles O42: the event reaches the thread's task, and the ring of the context decides. -/
theorem waitEndings : Obligations.WaitEndings := by
  intro s t k h c hc hs ht hk ended
  have hsignal := (signalThread_hold (Claims.rest s) t k).2 h c hk hc
  have htimeout := timeoutThread_wait (Claims.rest s) t k hk hc
  refine ⟨fun hr hl => ?_, fun hr hl => ?_, fun hr hl => ?_⟩
  · have hn : ¬c.ring = .aes := by simp [hr]
    rcases hl with hl | hl
    · rw [step_of_signal hs ht hl, hsignal, if_neg hn]
    · rw [step_of_timeout hs ht hl, htimeout, if_neg hn]
  · rw [step_of_signal hs ht hl, hsignal, if_pos hr]
  · rw [step_of_timeout hs ht hl, htimeout, if_pos hr]

end Sys2Proof.Proofs.RingEnqueue

/-! The proofs of the family 40_ring, the writes of PUBLISH: what each of them reaches, and the slot after the last. -/

namespace Sys2Proof.Proofs.RingPublish

open Sys2Proof Sys2Proof.Machine Sys2Proof.Laws Sys2Proof.Proofs.RingEnqueue

/-! ### The writes stay in the slot (40_ring.md R155) -/

section
variable {mc : ModeCodec} {q : QueueCall} {a : Nat} {cyc ioc : Bool} {n : Nat} {m : Memory}

/-- Every write is inside the slot, and the first six are above word 0. -/
theorem publishWrite_within {w : Nat × List Byte} (h : publishWrite mc q a cyc ioc n = some w) :
    a ≤ w.1 ∧ w.1 + w.2.length ≤ a + 32 ∧ (n < 6 → a + 4 ≤ w.1) := by
  unfold publishWrite at h
  split at h <;> cases h <;> simp
  grind

/-- The writes of PUBLISH one after the other. -/
theorem published_succ :
    Claims.published mc q a cyc ioc (n + 1) m =
      publishMemory mc q a cyc ioc n (Claims.published mc q a cyc ioc n m) := by
  rw [Claims.published, List.range_succ, List.foldl_append]
  rfl

/-- A step of PUBLISH that writes is the write. -/
theorem published_of_write {b : Nat} {v : List Byte} (h : publishWrite mc q a cyc ioc n = some (b, v)) :
    Claims.published mc q a cyc ioc (n + 1) m =
      Memory.writeBytes (Claims.published mc q a cyc ioc n m) b v := by
  rw [published_succ, publishMemory_of_some h]

variable (hm : Memory.wf m = true) (ha : a + 32 ≤ Config.dmaEnd)
include hm ha

/-- One write keeps canonical memory and every byte outside its range. -/
theorem publishMemory_frame :
    Memory.wf (publishMemory mc q a cyc ioc n m) = true ∧
      ∀ c, ¬Claims.In c a 32 ∨ (n < 6 ∧ c < a + 4) →
        Memory.byte (publishMemory mc q a cyc ioc n m) c = Memory.byte m c := by
  cases hw : publishWrite mc q a cyc ioc n with
  | none =>
    obtain rfl := publishWrite_eq_none hw
    exact ⟨hm, fun _ _ => rfl⟩
  | some w =>
    obtain ⟨hlow, hhigh, hsix⟩ := publishWrite_within hw
    rw [publishMemory_of_some hw]
    refine ⟨Memory.writeBytes_wf hm (by omega), fun c hc => Memory.byte_writeBytes_outside hm (by omega) ?_⟩
    rcases hc with hc | ⟨hn, hc⟩
    · omega
    · have := hsix hn
      omega

/-- The writes keep canonical memory and every byte outside the slot. -/
theorem published_frame (n : Nat) :
    Memory.wf (Claims.published mc q a cyc ioc n m) = true ∧
      ∀ c, ¬Claims.In c a 32 → Memory.byte (Claims.published mc q a cyc ioc n m) c = Memory.byte m c := by
  induction n with
  | zero => exact ⟨hm, fun _ _ => rfl⟩
  | succ n ih =>
    obtain ⟨hwf, hframe⟩ := ih
    obtain ⟨hwf', hframe'⟩ := publishMemory_frame (mc := mc) (q := q) (cyc := cyc) (ioc := ioc) (n := n) hwf ha
    rw [published_succ]
    exact ⟨hwf', fun c hc => (hframe' c (.inl hc)).trans (hframe c hc)⟩

/-- The first six writes leave byte 0 of the slot. -/
theorem byte_published_fields (hn : n ≤ 6) :
    Memory.byte (Claims.published mc q a cyc ioc n m) a = Memory.byte m a := by
  induction n with
  | zero => rfl
  | succ n ih =>
    rw [published_succ, ← ih (by omega)]
    exact (publishMemory_frame (published_frame hm ha n).1 ha).2 a (.inr ⟨hn, by omega⟩)

end

/-! ### Byte 0 of the slot before the last write (20_memory.md R92) -/

/-- Bit 0 of a word is bit 0 of its first byte. -/
theorem byte_writeBytes_toLe32 {m : Memory} {a : Nat} (hm : Memory.wf m = true) (ha : a + 4 ≤ Config.dmaEnd)
    (w : Word) : (Memory.byte (Memory.writeBytes m a (toLe32 w)) a).getLsbD 0 = w.getLsbD 0 := by
  have hhead : (toLe32 w)[0]'(by simp) = BitVec.ofNat 8 w.toNat := rfl
  rw [Memory.byte_writeBytes hm (by simpa using ha), dif_pos (by simp)]
  simp only [Nat.sub_self, hhead]
  simp

section
variable {mc : ModeCodec} {q : QueueCall} {a : Nat} {cyc ioc : Bool} {m : Memory}

/-- The write of word 0 not yet owned is the seventh; the eighth is the barrier. -/
theorem published_unowned :
    Claims.published mc q a cyc ioc 7 m = Memory.writeBytes (Claims.published mc q a cyc ioc 6 m) a
        (toLe32 (ctrlWord (!cyc) ccNone false ioc 0 (BitVec.ofNat 16 q.len))) ∧
      Claims.published mc q a cyc ioc 8 m = Claims.published mc q a cyc ioc 7 m :=
  ⟨published_of_write rfl, published_succ⟩

/-- The last write is word 0 with the ownership. -/
theorem published_owned :
    Claims.published mc q a cyc ioc 9 m = Memory.writeBytes (Claims.published mc q a cyc ioc 8 m) a
      (toLe32 (ctrlWord cyc ccNone false ioc 0 (BitVec.ofNat 16 q.len))) :=
  published_of_write rfl

/-- Until the last write the slot's C is not the cycle value of the queue. -/
theorem cycle_published {k : Nat} (hm : Memory.wf m = true) (ha : a + 32 ≤ Config.dmaEnd)
    (hc : (Memory.byte m a).getLsbD 0 = !cyc) (hk : k ≤ 8) :
    (Memory.byte (Claims.published mc q a cyc ioc k m) a).getLsbD 0 = !cyc := by
  have hseven : (Memory.byte (Claims.published mc q a cyc ioc 7 m) a).getLsbD 0 = !cyc := by
    rw [published_unowned.1, byte_writeBytes_toLe32 (published_frame hm ha 6).1 (by omega), ctrlWord_c]
  rcases (by omega : k ≤ 6 ∨ k = 7 ∨ k = 8) with h | rfl | rfl
  · rw [byte_published_fields hm ha h, hc]
  · exact hseven
  · rw [published_unowned.2, hseven]

end

/-! ### The slot after the last write (40_ring.md R155, 30_encoding.md R112) -/

/-- Words 1 to 7 of the slot as PUBLISH writes them. -/
def fieldBytes (mc : ModeCodec) (q : QueueCall) : List Byte :=
  toLe32 q.src ++ (toLe32 q.dst ++ (toLe32 (mc.encodeMode q.mode) ++ (toLe32 q.iv ++ (toLe32 q.key ++
    leBytes 8 q.ctx.toNat))))

theorem fieldBytes_eq (mc : ModeCodec) (q : QueueCall) : fieldBytes mc q =
    toLe32 q.src ++ (toLe32 q.dst ++ (toLe32 (mc.encodeMode q.mode) ++ (toLe32 q.iv ++ (toLe32 q.key ++
      leBytes 8 q.ctx.toNat)))) := rfl

@[simp] theorem fieldBytes_length (mc : ModeCodec) (q : QueueCall) : (fieldBytes mc q).length = 28 := by
  simp [fieldBytes_eq]

/-- The first six writes are one write of words 1 to 7. -/
theorem published_fields (mc : ModeCodec) (q : QueueCall) (a : Nat) (cyc ioc : Bool) (m : Memory) :
    Claims.published mc q a cyc ioc 6 m = Memory.writeBytes m (a + 4) (fieldBytes mc q) := by
  rw [published_of_write (n := 5) rfl, published_of_write (n := 4) rfl, published_of_write (n := 3) rfl,
    published_of_write (n := 2) rfl, published_of_write (n := 1) rfl, published_of_write (n := 0) rfl]
  simp only [fieldBytes_eq, Memory.writeBytes_append, toLe32_length, Nat.add_assoc, Nat.reduceAdd]
  rfl

/-- The two words of a back-reference are its eight bytes (30_encoding.md R111). -/
theorem leBytes_owner (h : Handle) :
    leBytes 8 h.toNat = toLe32 (h.extractLsb' 0 32) ++ toLe32 (h.extractLsb' 32 32) := by
  have hword (w : Word) : leNat (toLe32 w) = w.toNat := by
    rw [toLe32, leNat_leBytes]
    exact Nat.mod_eq_of_lt w.isLt
  have hvalue : leNat (toLe32 (h.extractLsb' 0 32) ++ toLe32 (h.extractLsb' 32 32)) = h.toNat := by
    have := h.isLt
    rw [leNat_append, hword, hword, toLe32_length, BitVec.extractLsb'_toNat, BitVec.extractLsb'_toNat,
      Nat.shiftRight_zero, Nat.shiftRight_eq_div_pow]
    omega
  have hbytes := leBytes_leNat (toLe32 (h.extractLsb' 0 32) ++ toLe32 (h.extractLsb' 32 32))
  rwa [hvalue, List.length_append, toLe32_length, toLe32_length] at hbytes

/-- The operands of the command a QUEUE publishes (40_ring.md R155). -/
def queuedTrb (q : QueueCall) (cyc ioc : Bool) : Trb where
  c := cyc
  cc := ccNone
  tc := false
  ioc := ioc
  size := BitVec.ofNat 16 q.len
  sptr := q.src
  dptr := q.dst
  keysz := q.mode.keysz
  final := q.mode.final
  iptr := q.iv
  kptr := q.key
  owner := q.ctx

/-- The queued command is the command of the mode's algorithm and direction. -/
theorem queuedCommand_eq (q : QueueCall) (cyc ioc : Bool) :
    Claims.queuedCommand q cyc ioc = Encoding.algInstr q.mode.alg q.mode.dir (queuedTrb q cyc ioc) := by
  unfold Claims.queuedCommand
  cases q.mode.alg <;> rfl

/-- The bytes of a normal command in an implementation's layout: only the mode word goes through the codec. -/
theorem encodeIn_algInstr (mc : ModeCodec) (a : Alg) (dir : Bool) (d : Trb) :
    encodeIn mc (Encoding.algInstr a dir d) =
      { encodeTrb a.code dir d with w3 := mc.write (encodeTrb a.code dir d).w3 : Descriptor }.bytes := by
  rw [encodeIn, Encoding.encodeDescriptor_algInstr, Descriptor.inLayout, if_pos (encodeTrb_type ..)]

/-- The bytes of the queued command: word 0 with the ownership, and then words 1 to 7. -/
theorem encodeIn_queuedCommand (mc : ModeCodec) (q : QueueCall) (cyc ioc : Bool) :
    encodeIn mc (Claims.queuedCommand q cyc ioc) =
      toLe32 (ctrlWord cyc ccNone false ioc 0 (BitVec.ofNat 16 q.len)) ++ fieldBytes mc q := by
  rw [queuedCommand_eq, encodeIn_algInstr, Descriptor.bytes, fieldBytes_eq, leBytes_owner]
  simp only [List.append_assoc]
  rfl

/-- What the slot reads after the last write: word 0 over the words written before it. -/
theorem readBytes_published {mc : ModeCodec} {q : QueueCall} {a : Nat} {cyc ioc : Bool} {m : Memory}
    (hm : Memory.wf m = true) (ha : a + 32 ≤ Config.dmaEnd) :
    Memory.readBytes (Claims.published mc q a cyc ioc 9 m) a 32 =
      toLe32 (ctrlWord cyc ccNone false ioc 0 (BitVec.ofNat 16 q.len)) ++ fieldBytes mc q := by
  have hword {m : Memory} (hm : Memory.wf m = true) (w : Word) :
      Memory.readBytes (Memory.writeBytes m a (toLe32 w)) a 4 = toLe32 w :=
    Memory.readBytes_writeBytes_same hm (by rw [toLe32_length]; omega)
  have hapart {m : Memory} (hm : Memory.wf m = true) (w : Word) :
      Memory.readBytes (Memory.writeBytes m a (toLe32 w)) (a + 4) 28 = Memory.readBytes m (a + 4) 28 :=
    Memory.readBytes_writeBytes_apart hm (by rw [toLe32_length]; omega) (.inr (by rw [toLe32_length]))
  have hfields : Memory.readBytes (Claims.published mc q a cyc ioc 6 m) (a + 4) 28 = fieldBytes mc q := by
    rw [published_fields, ← fieldBytes_length mc q]
    exact Memory.readBytes_writeBytes_same hm (by rw [fieldBytes_length]; omega)
  have hwf n := (published_frame (mc := mc) (q := q) (cyc := cyc) (ioc := ioc) hm ha n).1
  rw [published_owned, Memory.readBytes_add _ a 4 28, hword (hwf 8), hapart (hwf 8), published_unowned.2,
    published_unowned.1, hapart (hwf 6), hfields]

/-- Settles O38: the C bit by `cycle_published`, the slot by `readBytes_published` against the command's own bytes. -/
theorem publishOwnershipLast : Obligations.PublishOwnershipLast := by
  intro mc q a cyc ioc m hm ha _ _ hc
  refine ⟨fun k hk => cycle_published hm ha hc hk, ?_, fun k _ => (published_frame hm ha k).2⟩
  rw [readBytes_published hm ha, encodeIn_queuedCommand]

end Sys2Proof.Proofs.RingPublish

/-! The proofs of the family 41_descriptor_commands, the commands: what each cipher and each hash command that runs
leaves. -/

namespace Sys2Proof.Proofs.Commands

open Sys2Proof Sys2Proof.Machine Sys2Proof.Laws Sys2Proof.Proofs.Chain Sys2Proof.Proofs.TurnedAway

/-! ### The cipher commands (41_descriptor_commands.md R210 to R215) -/

/-- A command with a valid key size gives the common procedure the block function the statements name. CHACHA20 reads
its key at the length of the one code it accepts (41_descriptor_commands.md R203). -/
theorem blockFn_eq_blockOf {a : CipherAlg} (decrypt : Bool) {d : Trb} {s : State}
    (hk : Claims.KeyszValid s.params (.cipher a) d.keysz) :
    blockFn a decrypt s.params.ctrEndian (Memory.readBytes s.mem d.kptr.toNat (keyBytes d.keysz)) =
      Claims.blockOf a decrypt d s := by
  cases a with
  | ecb | cbc => cases decrypt <;> rfl
  | ctr => rfl
  | chacha20 =>
    have hlen : keyBytes d.keysz = 32 := congrArg keyBytes hk
    rw [hlen]
    rfl

/-- A cipher command that runs. -/
theorem exec_cipherInstr_of_runs {a : CipherAlg} (decrypt : Bool) {d : Trb} {s : State}
    (hr : Claims.CipherRuns a d s) :
    exec (Claims.cipherInstr a decrypt d) s = .next (Claims.cipherNext a (Claims.blockOf a decrypt d s) d s) := by
  rw [exec_cipherInstr, runCipher_of_runs (blockFn_length a decrypt _) hr]
  obtain ⟨-, hkeysz, -⟩ := hr
  rw [blockFn_eq_blockOf decrypt hkeysz]

/-- Settles O11: ECB in each direction. -/
theorem ecbCommandsComplete : Obligations.EcbCommandsComplete := fun _ _ hr =>
  ⟨exec_cipherInstr_of_runs false hr, exec_cipherInstr_of_runs true hr⟩

/-- Settles O12: CBC in each direction. -/
theorem cbcCommandsComplete : Obligations.CbcCommandsComplete := fun _ _ hr =>
  ⟨exec_cipherInstr_of_runs false hr, exec_cipherInstr_of_runs true hr⟩

/-- Settles O13: the two stream ciphers, whose block function does not read DIR. -/
theorem streamCommandsComplete : Obligations.StreamCommandsComplete := fun dir _ _ =>
  ⟨fun hr => exec_cipherInstr_of_runs dir hr, fun hr => exec_cipherInstr_of_runs dir hr⟩

/-! ### The hash commands (41_descriptor_commands.md R220 to R228) -/

/-- The state after `n` blocks of a memory from an address up (41_descriptor_commands.md R220). -/
def absorbBlocks (m : Memory) (bs : Nat) (f : List Byte → List Byte → List Byte) (src n : Nat) (st : List Byte) :
    List Byte :=
  (List.range n).foldl (fun st i => f st (Memory.readBytes m (src + i * bs) bs)) st

/-- The state a hash command computes is that of its blocks from the state at IPTR. -/
theorem hashFold_eq (a : HashAlg) (f : List Byte → List Byte → List Byte) (d : Trb) (s : State) :
    Claims.hashFold a f d s = absorbBlocks s.mem a.blockSize f d.sptr.toNat (d.size.toNat / a.blockSize)
      (Memory.readBytes s.mem d.iptr.toNat a.stateLen) := rfl

section
variable {m m' : Memory} {bs : Nat} {f : List Byte → List Byte → List Byte}

/-- The blocks of one run are those of its first part and then those of the rest (41_descriptor_commands.md R222). -/
theorem absorbBlocks_add (src i j : Nat) (st : List Byte) :
    absorbBlocks m bs f src (i + j) st = absorbBlocks m bs f (src + i * bs) j (absorbBlocks m bs f src i st) := by
  simp only [absorbBlocks, List.range_add, List.foldl_append, List.foldl_map, Nat.add_mul, Nat.add_assoc]

theorem absorbBlocks_cons (src n : Nat) (st : List Byte) :
    absorbBlocks m bs f src (n + 1) st =
      absorbBlocks m bs f (src + bs) n (f st (Memory.readBytes m src bs)) := by
  rw [Nat.add_comm n 1, absorbBlocks_add, Nat.one_mul]
  simp [absorbBlocks]

/-- Memories that read the same over the payload give the same state. -/
theorem absorbBlocks_congr {src n : Nat} (h : Memory.readBytes m src (n * bs) = Memory.readBytes m' src (n * bs))
    (st : List Byte) : absorbBlocks m bs f src n st = absorbBlocks m' bs f src n st := by
  induction n generalizing src st with
  | zero => rfl
  | succ n ih =>
    rw [Nat.succ_mul, Nat.add_comm, Memory.readBytes_add, Memory.readBytes_add] at h
    obtain ⟨hfirst, hrest⟩ := List.append_inj h (by simp)
    rw [absorbBlocks_cons, absorbBlocks_cons, hfirst, ih hrest]

/-- The state keeps its length when the compression does. -/
theorem absorbBlocks_length {k : Nat} (hf : ∀ st x, (f st x).length = k) {src n : Nat} {st : List Byte}
    (hst : st.length = k) : (absorbBlocks m bs f src n st).length = k := by
  induction n generalizing src st with
  | zero => exact hst
  | succ n ih =>
    rw [absorbBlocks_cons]
    exact ih (hf _ _)

/-- A block loop whose blocks are all inside the backed space is done. -/
theorem hashBlocks_eq {s : State} {src n : Nat} (hr : ∀ i < n, Reach s (src + i * bs) bs) (st : List Byte) :
    hashBlocks s.params m bs f n src st = .ok (absorbBlocks m bs f src n st) := by
  induction n generalizing src st with
  | zero => rfl
  | succ n ih =>
    obtain ⟨hsrc, hbacked⟩ := hr 0 (Nat.succ_pos n)
    rw [Nat.zero_mul, Nat.add_zero] at hsrc hbacked
    have htail : ∀ i < n, Reach s (src + bs + i * bs) bs := fun i hi => by
      have h := hr (i + 1) (Nat.succ_lt_succ hi)
      rwa [Nat.succ_mul, Nat.add_comm (i * bs), ← Nat.add_assoc] at h
    rw [hashBlocks, memRead_ok hsrc hbacked, Acc.ok_bind, ih htail, absorbBlocks_cons]

end

/-- The sub-key a hash command reads: that at KPTR for GHASH, none for the others (41_descriptor_commands.md R220). -/
def subKeyAt (a : HashAlg) (d : Trb) (s : State) : List Byte :=
  if a = .ghash then Memory.readBytes s.mem d.kptr.toNat 16 else []

theorem loadSubKey_eq {a : HashAlg} {d : Trb} {s : State} (h : a = .ghash → Reach s d.kptr.toNat 16) :
    loadSubKey a d s = .ok (subKeyAt a d s) := by
  by_cases ha : a = .ghash
  · rw [loadSubKey, subKeyAt, if_pos ha, if_pos ha, memRead_ok (h ha).1 (h ha).2]
  · rw [loadSubKey, subKeyAt, if_neg ha, if_neg ha]

/-- The compression a command gives to the common procedure is the one the statements name. -/
theorem compressFn_eq_compressOf (a : HashAlg) (d : Trb) (s : State) (st x : List Byte) :
    compressFn a st x (subKeyAt a d s) = Claims.compressOf a d s st x := by
  cases a <;> rfl

theorem compressOf_length (a : HashAlg) (d : Trb) (s : State) (st x : List Byte) :
    (Claims.compressOf a d s st x).length = a.stateLen := by
  rw [← compressFn_eq_compressOf, compressFn_length]

/-- A hash command computes a state of the algorithm's length. -/
theorem hashFold_length (a : HashAlg) (d : Trb) (s : State) :
    (Claims.hashFold a (Claims.compressOf a d s) d s).length = a.stateLen := by
  rw [hashFold_eq]
  exact absorbBlocks_length (compressOf_length a d s) (Memory.readBytes_length _ _ _)

/-- What the data operation of a hash command leaves (41_descriptor_commands.md R220). -/
def hashRan (a : HashAlg) (d : Trb) (s : State) : State :=
  s.setMem (Memory.writeBytes s.mem d.dptr.toNat (Claims.hashFold a (Claims.compressOf a d s) d s))

/-- The state the statements name is the data operation completed with code 1. -/
theorem hashNext_eq (a : HashAlg) (d : Trb) (s : State) :
    Claims.hashNext a (Claims.compressOf a d s) d s = Claims.completed .hash d 1 (hashRan a d s) := rfl

/-- The data operation of a command that runs is done. -/
theorem hashData_of_runs {a : HashAlg} {d : Trb} {s : State} (hr : Claims.HashRuns a d s) :
    hashData a d (compressFn a) s = .ok (hashRan a d s) := by
  obtain ⟨-, -, -, -, ⟨hst, hstb⟩, hkey, hblocks, ⟨hd, hdb⟩, -⟩ := hr
  rw [← hashFold_length a d s] at hd hdb
  have hf : (fun st x => compressFn a st x (subKeyAt a d s)) = Claims.compressOf a d s :=
    funext₂ (compressFn_eq_compressOf a d s)
  rw [hashData, memRead_ok hst hstb, Acc.ok_bind, loadSubKey_eq hkey, Acc.ok_bind, hf, hashBlocks_eq hblocks,
    Acc.ok_bind, ← hashFold_eq, memWrite_ok hd hdb, Acc.ok_bind, hashRan]

/-- A hash command that runs. -/
theorem exec_hashInstr_of_runs {a : HashAlg} (dir : Bool) {d : Trb} {s : State} (hr : Claims.HashRuns a d s) :
    exec (Claims.hashInstr a dir d) s = .next (Claims.hashNext a (Claims.compressOf a d s) d s) := by
  have hdata := hashData_of_runs hr
  obtain ⟨hcur, hkeysz, hsize, hmul, -, -, -, -, hdq⟩ := hr
  have hcur' : (hashRan a d s).cur = .hash := hcur
  have hc : complete d ccSuccess (hashRan a d s) = .ok (Claims.completed .hash d 1 (hashRan a d s)) :=
    complete_eq_ok.2 ⟨by rw [hcur']; exact hdq, by rw [completedState_success, hcur']⟩
  rw [exec_hashInstr, runHash, runCommand_of_checks hcur ((validKeysz_iff _ _ _).2 hkeysz)
    (sizeOk_of_multiple hsize hmul) rfl, hdata, Acc.ok_bind, hc, engineOutcome_ok, hashNext_eq]

/-- Settles O14: MD5, and GHASH with its sub-key. -/
theorem md5AndGhashComplete : Obligations.Md5AndGhashComplete := fun dir _ _ =>
  ⟨fun hr => exec_hashInstr_of_runs dir hr, fun hr => exec_hashInstr_of_runs dir hr⟩

/-- Settles O15: SHA3 at each of its rates, which is the block size. -/
theorem sha3CommandsComplete : Obligations.Sha3CommandsComplete := fun dir _ _ =>
  ⟨fun hr => exec_hashInstr_of_runs dir hr, fun hr => exec_hashInstr_of_runs dir hr,
    fun hr => exec_hashInstr_of_runs dir hr, fun hr => exec_hashInstr_of_runs dir hr⟩

end Sys2Proof.Proofs.Commands

/-! The proofs of the family 41_descriptor_commands, the checks: what passes them, all a normal command can do, and the
order in which a step tests them. -/

namespace Sys2Proof.Proofs.CheckOrder

open Sys2Proof Sys2Proof.Machine Sys2Proof.Laws Sys2Proof.Proofs.Chain Sys2Proof.Proofs.Dma
open Sys2Proof.Proofs.TurnedAway Sys2Proof.Proofs.Encoding

/-! ### The checks and the accesses of a normal command (41_descriptor_commands.md R200) -/

/-- A normal command passes its checks: it is on the ring of its algorithm, its key size is valid, its size a positive
block multiple, and there is a CHAIN to start from. -/
def Checked (a : Alg) (d : Trb) (s : State) : Prop :=
  s.cur = a.engine ∧ Claims.KeyszValid s.params a d.keysz ∧ d.size ≠ 0 ∧ d.size.toNat % a.blockSize = 0 ∧
    (a.usesIV = true → d.iptr = 0 → s.chainValid = true)

theorem sizeOk_iff {a : Alg} {d : Trb} : sizeOk a d = true ↔ d.size ≠ 0 ∧ d.size.toNat % a.blockSize = 0 := by
  simp [sizeOk]

theorem chainUnset_iff {a : Alg} {d : Trb} {s : State} :
    chainUnset a d s = true ↔ a.usesIV = true ∧ d.iptr = 0 ∧ s.chainValid = false := by
  simp [chainUnset, and_assoc]

theorem chainUnset_eq_false_iff {a : Alg} {d : Trb} {s : State} :
    chainUnset a d s = false ↔ (a.usesIV = true → d.iptr = 0 → s.chainValid = true) := by
  simp [chainUnset]

/-- The checks are what the engine tests. -/
theorem checked_iff {a : Alg} {d : Trb} {s : State} : Checked a d s ↔
    s.cur = a.engine ∧ validKeysz s.params a d.keysz = true ∧ sizeOk a d = true ∧ chainUnset a d s = false := by
  rw [Checked, validKeysz_iff, sizeOk_iff, chainUnset_eq_false_iff, and_assoc]

/-- The ranges a normal command accesses, in their order. -/
def accesses (a : Alg) (d : Trb) (s : State) : List (Nat × Nat) :=
  match a with
  | .cipher a => Claims.cipherAccesses a d s
  | .hash a => Claims.hashAccesses a d s

/-- The data operation of a normal command, with the byte order of the counter. -/
def dataOf (a : Alg) (dir : Bool) (e : Endian) (d : Trb) : State → Acc State :=
  match a with
  | .cipher a => cipherData a d (blockFn a dir e)
  | .hash a => hashData a d (compressFn a)

/-- The data operation and the completion go as the command's accesses do. -/
theorem outcome_dataOf {a : Alg} {d : Trb} {s : State} (dir : Bool) (e : Endian) (hc : s.cur = a.engine) :
    outcome ((dataOf a dir e d s).bind (complete d ccSuccess)) = verdict s.params (accesses a d s) := by
  cases a with
  | cipher a => exact outcome_cipher hc (blockFn_length a dir e)
  | hash a => exact outcome_hash hc (compressFn_length a)

/-- An access that is done reaches its range. -/
theorem reach_of_access {α : Type} {s : State} {a n : Nat} {x y : α} (h : access s.params a n x = .ok y) :
    Reach s a n := by
  have hend : a + n ≤ Config.dmaEnd := Nat.not_lt.1 fun hlt => nomatch (access_wrap x hlt).symm.trans h
  exact ⟨hend, Bool.eq_true_of_not_eq_false fun hd => nomatch (access_unbacked x hend hd).symm.trans h⟩

/-- A run of accesses is done only when each of them reaches its range. -/
theorem reach_of_verdict {s : State} {l : List (Nat × Nat)} (h : verdict s.params l = .ok ()) :
    ∀ x ∈ l, Reach s x.1 x.2 := by
  induction l with
  | nil => exact List.forall_mem_nil _
  | cons r l ih =>
    rw [verdict_cons] at h
    obtain ⟨_, hr, hl⟩ := Acc.bind_eq_ok.1 h
    exact List.forall_mem_cons.2 ⟨reach_of_access hr, ih hl⟩

/-- The source and the destination of each block are among the accesses of a cipher command. -/
theorem mem_cipherAccesses_of_block {a : CipherAlg} {d : Trb} (s : State) {i : Nat}
    (hi : i < d.size.toNat / a.blockSize) {r : Nat × Nat} (hr : r ∈ [(d.sptr.toNat + i * a.blockSize, a.blockSize),
      (d.dptr.toNat + i * a.blockSize, a.blockSize)]) : r ∈ Claims.cipherAccesses a d s :=
  List.mem_cons_of_mem _ (List.mem_append_left _ (List.mem_append_right _
    (List.mem_flatMap.2 ⟨i, List.mem_range.2 hi, hr⟩)))

/-- A cipher command that passes its checks and reaches all it accesses runs. -/
theorem cipherRuns_of_reach {a : CipherAlg} {d : Trb} {s : State} (hc : Checked (.cipher a) d s)
    (hr : ∀ r ∈ Claims.cipherAccesses a d s, Reach s r.1 r.2) : Claims.CipherRuns a d s := by
  obtain ⟨hcur, hkeysz, hsize, hmul, hvalid⟩ := hc
  refine ⟨hcur, hkeysz, hsize, hmul, hvalid, ?key, fun hu hi => ?iv, fun i hi => ⟨?source, ?dest⟩, ?completion⟩
  case key => exact hr (_, _) List.mem_cons_self
  case iv =>
    refine hr (_, _) (List.mem_cons_of_mem _ (List.mem_append_left _ (List.mem_append_left _ ?_)))
    rw [if_pos ⟨hu, hi⟩]
    exact List.mem_cons_self
  case source => exact hr (_, _) (mem_cipherAccesses_of_block s hi List.mem_cons_self)
  case dest => exact hr (_, _) (mem_cipherAccesses_of_block s hi (List.mem_cons_of_mem _ List.mem_cons_self))
  case completion => exact hr (_, _) (by simp [Claims.cipherAccesses])

/-- A hash command that passes its checks and reaches all it accesses runs. -/
theorem hashRuns_of_reach {a : HashAlg} {d : Trb} {s : State} (hc : Checked (.hash a) d s)
    (hr : ∀ r ∈ Claims.hashAccesses a d s, Reach s r.1 r.2) : Claims.HashRuns a d s := by
  obtain ⟨hcur, hkeysz, hsize, hmul, -⟩ := hc
  refine ⟨hcur, hkeysz, hsize, hmul, ?state, fun ha => ?key, fun i hi => ?block, ?dest, ?completion⟩
  case state => exact hr (_, _) List.mem_cons_self
  case key => exact hr (_, _) (by simp [Claims.hashAccesses, ha])
  case block =>
    exact hr (_, _) (List.mem_cons_of_mem _ (List.mem_append_left _ (List.mem_append_right _
      (List.mem_map.2 ⟨i, List.mem_range.2 hi, rfl⟩))))
  case dest => exact hr (d.dptr.toNat, a.stateLen) (by simp [Claims.hashAccesses])
  case completion => exact hr (_, _) (by simp [Claims.hashAccesses])

/-- A normal command that passes its checks and reaches all it accesses runs. -/
theorem runs_of_reach {a : Alg} {d : Trb} {s : State} (hc : Checked a d s)
    (hr : ∀ r ∈ accesses a d s, Reach s r.1 r.2) : Claims.Runs a d s := by
  cases a with
  | cipher a => exact cipherRuns_of_reach hc hr
  | hash a => exact hashRuns_of_reach hc hr

/-! ### All a normal command can do (41_descriptor_commands.md R200) -/

/-- Every normal command is the checks around its data operation. -/
theorem exec_algInstr (a : Alg) (dir : Bool) (d : Trb) (s : State) :
    exec (algInstr a dir d) s = runCommand a d (dataOf a dir s.params.ctrEndian d) s := by
  cases a with
  | cipher a => exact Chain.exec_cipherInstr a dir d s
  | hash a => exact TurnedAway.exec_hashInstr a dir d s

/-- A normal command that runs. -/
theorem exec_of_runs {a : Alg} (dir : Bool) {d : Trb} {s : State} (hr : Claims.Runs a d s) :
    exec (algInstr a dir d) s = .next (Claims.ran a dir d s) := by
  cases a with
  | cipher a => exact Commands.exec_cipherInstr_of_runs dir hr
  | hash a => exact Commands.exec_hashInstr_of_runs dir hr

/-- A command that passes its checks, and whose data operation and completion are done, runs. -/
theorem runs_of_done {a : Alg} {dir : Bool} {e : Endian} {d : Trb} {s t : State} (hc : Checked a d s)
    (h : (dataOf a dir e d s).bind (complete d ccSuccess) = .ok t) : Claims.Runs a d s := by
  refine runs_of_reach hc (reach_of_verdict ?_)
  rw [← outcome_dataOf dir e hc.1, h, outcome_ok]

/-- Completion with code 2 leaves the state the statements name (40_ring.md R173). -/
theorem completedState_badKey (d : Trb) (s : State) :
    completedState d ccBadKeyLength s = Claims.completed s.cur d 2 s := by
  have hb : statusByte ccBadKeyLength d.c = BitVec.ofNat 8 (2 * 2 + d.c.toNat) := by cases d.c <;> rfl
  unfold completedState Claims.completed
  rw [hb]
  cases s.cur <;> rfl

/-- A command that passes its checks but does not run: an access of it is turned away (20_memory.md R83, R84). -/
theorem exec_of_not_runs {a : Alg} {dir : Bool} {d : Trb} {s : State} (hc : Checked a d s)
    (hr : ¬Claims.Runs a d s) :
    exec (algInstr a dir d) s = .refused .dmaWrap ∨ exec (algInstr a dir d) s = .next (s.stickEngine s.cur) := by
  obtain ⟨hcur, hkeysz, hsize, hset⟩ := checked_iff.1 hc
  rw [exec_algInstr, runCommand_of_checks hcur hkeysz hsize hset]
  cases hx : (dataOf a dir s.params.ctrEndian d s).bind (complete d ccSuccess) with
  | ok t => exact absurd (runs_of_done hc hx) hr
  | wrap => exact .inl rfl
  | unbacked => exact .inr rfl

/-- All a normal command can do when it leads to a next state: an invalid key size is completed with code 2, the
command runs, or its engine is stuck. -/
theorem exec_algInstr_next {a : Alg} {dir : Bool} {d : Trb} {s t : State} (h : exec (algInstr a dir d) s = .next t) :
    s.cur = a.engine ∧
      ((Reach s (s.engine s.cur).dq.toNat 1 ∧ t = Claims.completed s.cur d 2 s) ∨
        (Claims.Runs a d s ∧ t = Claims.ran a dir d s) ∨ t = s.stickEngine s.cur) := by
  have hrun := exec_algInstr a dir d s ▸ h
  obtain ⟨hcur, ⟨-, hc⟩ | ⟨hkeysz, hsize, hset, u, hu, hc⟩ | hstuck⟩ := runCommand_next hrun
  · obtain ⟨hdq, ht⟩ := complete_eq_ok.1 hc
    exact ⟨hcur, .inl ⟨hdq, ht.trans (completedState_badKey d s)⟩⟩
  · have hr : Claims.Runs a d s :=
      runs_of_done (checked_iff.2 ⟨hcur, hkeysz, hsize, hset⟩) (Acc.bind_eq_ok.2 ⟨u, hu, hc⟩)
    rw [exec_of_runs dir hr] at h
    exact ⟨hcur, .inr (.inl ⟨hr, (Host.Outcome.next.inj h).symm⟩)⟩
  · exact ⟨hcur, .inr (.inr hstuck)⟩

/-- The first check that fails decides what the command does (41_descriptor_commands.md R200). -/
theorem exec_of_failed_check {a : Alg} {dir : Bool} {d : Trb} {s : State} (hcur : s.cur = a.engine) :
    (¬Claims.KeyszValid s.params a d.keysz → Reach s (s.engine s.cur).dq.toNat 1 →
      exec (algInstr a dir d) s = .next (Claims.completed s.cur d 2 s)) ∧
    (Claims.KeyszValid s.params a d.keysz → (d.size = 0 ∨ d.size.toNat % a.blockSize ≠ 0) →
      exec (algInstr a dir d) s = .refused .badSize) ∧
    (Claims.KeyszValid s.params a d.keysz → d.size ≠ 0 → d.size.toNat % a.blockSize = 0 →
      a.usesIV = true → d.iptr = 0 → s.chainValid = false → exec (algInstr a dir d) s = .fault .chainUnset) := by
  rw [exec_algInstr, runCommand, if_neg (not_not_intro hcur)]
  refine ⟨fun hk hdq => ?key, fun hk hs => ?size, fun hk h0 hm hu hi hv => ?chain⟩
  case key =>
    have hc := complete_eq_ok.2 ⟨hdq, (completedState_badKey d s).symm⟩
    rw [if_pos (Bool.eq_false_iff.2 (mt (validKeysz_iff _ _ _).1 hk)), hc, engineOutcome_ok]
  case size =>
    have hsize : sizeOk a d = false := Bool.eq_false_iff.2 fun h => by
      obtain ⟨h0, hm⟩ := sizeOk_iff.1 h
      exact hs.elim h0 fun hn => hn hm
    rw [if_neg (by simp [(validKeysz_iff _ _ _).2 hk]), if_pos hsize]
  case chain =>
    rw [if_neg (by simp [(validKeysz_iff _ _ _).2 hk]), if_neg (by simp [sizeOk_of_multiple h0 hm]),
      if_pos (chainUnset_iff.2 ⟨hu, hi, hv⟩)]

/-! ### The step that executes a normal command -/

section
variable (s : State) (e : EngineId)

@[simp] theorem params_latched : (Claims.latched s e).params = s.params := by cases e <;> rfl

@[simp] theorem chainValid_latched : (Claims.latched s e).chainValid = s.chainValid := by cases e <;> rfl

@[simp] theorem cur_latched : (Claims.latched s e).cur = e := rfl

@[simp] theorem engine_latched :
    (Claims.latched s e).engine e = { s.engine e with latch := Claims.rawAtDq s e } := by cases e <;> rfl

end

/-- Settles O10: the step is the command in the state in which its descriptor is latched; there the first failed check
decides, or the command runs, or an access is turned away. -/
theorem commandCheckOrder : Obligations.CommandCheckOrder := by
  intro s e a hf d ht ha
  have hcode : a.code = d.alg := ofCode_eq_some.1 ha
  have hstep : step s = exec (algInstr a d.dir d.trb) (Claims.latched s e) :=
    (step_of_decode hf).1 _ (decodeDescriptor_normal ht hcode)
  rw [hstep]
  refine ⟨fun hr => exec_algInstr_wrongRing (Ne.symm hr), ?_⟩
  have hfail (hr : a.engine = e) := exec_of_failed_check (dir := d.dir) (d := d.trb) (s := Claims.latched s e) hr.symm
  simp only [params_latched, chainValid_latched, cur_latched, engine_latched] at hfail
  obtain ⟨⟨-, -, -, -, hreach⟩, -⟩ := hf
  have hdq : Reach s (s.engine e).dq.toNat 1 := hreach.sub (by decide) (Nat.le_refl _) (by omega)
  refine ⟨fun hr hk => (hfail hr).1 hk ?_, fun hr => (hfail hr).2.1, fun hr => (hfail hr).2.2,
    fun hr hk h0 hm hv => ⟨exec_of_runs d.dir, fun hn => ?_⟩⟩
  · rwa [Reach, params_latched]
  · have hc : Checked a d.trb (Claims.latched s e) :=
      ⟨hr.symm, by rwa [params_latched], h0, hm, by rwa [chainValid_latched]⟩
    have hout := exec_of_not_runs (dir := d.dir) hc hn
    rwa [State.stickEngine, cur_latched, engine_latched] at hout

end Sys2Proof.Proofs.CheckOrder

/-! The proofs of the family 41_descriptor_commands, the frames: what a cipher and a hash command leave unchanged. -/

namespace Sys2Proof.Proofs.CommandFrame

open Sys2Proof Sys2Proof.Machine Sys2Proof.Laws

/-! ### The flags and the memory (40_ring.md R173, 20_memory.md R84) -/

/-- Of INT_FLAG at most the engine's DONE flag is set, and of memory only the range of `n` bytes from `lo` and byte 0
of the descriptor change. -/
def FlagsAndMemoryKept (e : EngineId) (lo n : Nat) (s t : State) : Prop :=
  (t.intFlag = s.intFlag ∨ t.intFlag = s.intFlag ||| doneBit e) ∧
    ∀ c, ¬Claims.In c lo n → c ≠ (s.engine e).dq.toNat → Memory.byte t.mem c = Memory.byte s.mem c

/-- Completion sets the DONE flag or none. -/
theorem intFlag_completed (e : EngineId) (d : Trb) (cc : Nat) (s : State) :
    (Claims.completed e d cc s).intFlag = s.intFlag ∨
      (Claims.completed e d cc s).intFlag = s.intFlag ||| doneBit e := by
  unfold Claims.completed
  rw [State.intFlag_setEngine]
  cases d.ioc with
  | true => exact .inr (by cases e <;> rfl)
  | false => exact .inl rfl

theorem mem_completed (e : EngineId) (d : Trb) (cc : Nat) (s : State) :
    (Claims.completed e d cc s).mem =
      Memory.writeBytes s.mem (s.engine e).dq.toNat [BitVec.ofNat 8 (2 * cc + d.c.toNat)] := by
  cases e <;> rfl

/-- The completion of a data operation that changes the range only. -/
theorem completed_kept {e : EngineId} {d : Trb} {cc lo n : Nat} {s u : State} (heng : u.engine e = s.engine e)
    (hflag : u.intFlag = s.intFlag) (hm : Memory.wf u.mem = true) (hdq : (s.engine e).dq.toNat + 1 ≤ Config.dmaEnd)
    (hu : ∀ c, ¬Claims.In c lo n → Memory.byte u.mem c = Memory.byte s.mem c) :
    FlagsAndMemoryKept e lo n s (Claims.completed e d cc u) := by
  refine ⟨hflag ▸ intFlag_completed e d cc u, fun c hc hne => ?_⟩
  rw [mem_completed, heng, Memory.byte_writeBytes_outside hm hdq (by rw [List.length_singleton]; omega), hu c hc]

/-- An engine that gets stuck leaves flags and memory. -/
theorem stickEngine_kept (e : EngineId) (lo n : Nat) (s : State) : FlagsAndMemoryKept e lo n s (s.stickEngine e) :=
  ⟨.inl (State.intFlag_setEngine ..), fun c _ _ => by rw [State.stickEngine, State.mem_setEngine]⟩

/-! ### The cipher commands (41_descriptor_commands.md R201, R210 to R215) -/

/-- Every cipher command is the command of its algorithm. -/
theorem eq_cipherInstr_of_cipherOf {i : Instr} {a : CipherAlg} {d : Trb} (h : Claims.cipherOf i = some (a, d)) :
    ∃ decrypt, i = Claims.cipherInstr a decrypt d :=
  RingEngine.eq_algInstr_of_normalOf (a := .cipher a) (by rw [Claims.normalOf, h]; rfl)

theorem blockOf_length (a : CipherAlg) (decrypt : Bool) (d : Trb) (s : State) (ch : Block) (x : List Byte) :
    (Claims.blockOf a decrypt d s ch x).1.length = a.blockSize := by
  cases a with
  | cbc => cases decrypt <;> exact leBytes_length _ _
  | _ => exact leBytes_length _ _

/-- A cipher command that runs writes its payload's length from DPTR on. -/
theorem cipherNext_kept {a : CipherAlg} {decrypt : Bool} {d : Trb} {s : State} (hm : Memory.wf s.mem = true)
    (hr : Claims.CipherRuns a d s) :
    FlagsAndMemoryKept .aes d.dptr.toNat d.size.toNat s
      (Claims.cipherNext a (Claims.blockOf a decrypt d s) d s) := by
  obtain ⟨-, -, -, hmul, -, -, -, hblocks, hdq, -⟩ := hr
  obtain ⟨hwf, hout⟩ := Chain.cipherFold_memory (blockOf_length a decrypt d s) (Claims.chainIn a d s) hblocks hm
  rw [Nat.div_mul_cancel (Nat.dvd_of_mod_eq_zero hmul)] at hout
  rw [Chain.cipherNext_eq]
  exact completed_kept rfl rfl hwf hdq fun c hc => hout c (by omega)

/-- ECB passes CHAIN on and loads no IV (41_descriptor_commands.md R205, R210, R211). -/
theorem chain_ecb (decrypt : Bool) (d : Trb) (s : State) :
    (Claims.cipherNext .ecb (Claims.blockOf .ecb decrypt d s) d s).chain = s.chain ∧
      (Claims.cipherNext .ecb (Claims.blockOf .ecb decrypt d s) d s).chainValid = s.chainValid :=
  ⟨Chain.cipherFold_chain_const (fun _ _ => rfl) .., Bool.or_false _⟩

/-- Settles O17: in each of the three endings of a cipher command (`CheckOrder.exec_algInstr_next`). -/
theorem cipherCommandFrame : Obligations.CipherCommandFrame := by
  intro i a d s t hi hm h
  obtain ⟨decrypt, rfl⟩ := eq_cipherInstr_of_cipherOf hi
  obtain ⟨hcur, hend⟩ := CheckOrder.exec_algInstr_next (a := .cipher a) h
  rw [show s.cur = .aes from hcur] at hend
  obtain ⟨⟨hdq, -⟩, rfl⟩ | ⟨hr, rfl⟩ | rfl := hend
  · exact ⟨rfl, fun _ => ⟨rfl, rfl⟩, completed_kept rfl rfl hm hdq fun _ _ => rfl⟩
  · exact ⟨rfl, fun ha => ha ▸ chain_ecb decrypt d s, cipherNext_kept hm hr⟩
  · exact ⟨rfl, fun _ => ⟨rfl, rfl⟩, stickEngine_kept .aes _ _ s⟩

/-! ### The hash commands (41_descriptor_commands.md R220, R223 to R228) -/

/-- Every hash command is the command of its algorithm. -/
theorem eq_hashInstr_of_hashOf {i : Instr} {a : HashAlg} {d : Trb} (h : Claims.hashOf i = some (a, d)) :
    ∃ dir, i = Claims.hashInstr a dir d := by
  cases i with
  | md5 dir d | sha3_224 dir d | sha3_256 dir d | sha3_384 dir d | sha3_512 dir d | ghash dir d =>
    cases h
    exact ⟨dir, rfl⟩
  | _ => cases h

/-- A hash command that runs writes its state at DPTR. -/
theorem hashNext_kept {a : HashAlg} {d : Trb} {s : State} (hm : Memory.wf s.mem = true) (hr : Claims.HashRuns a d s) :
    FlagsAndMemoryKept .hash d.dptr.toNat a.stateLen s (Claims.hashNext a (Claims.compressOf a d s) d s) := by
  obtain ⟨-, -, -, -, -, -, -, ⟨hd, -⟩, hdq, -⟩ := hr
  have hlen := Commands.hashFold_length a d s
  rw [← hlen] at hd ⊢
  rw [Commands.hashNext_eq]
  exact completed_kept rfl rfl (Memory.writeBytes_wf hm hd) hdq fun c hc => Memory.byte_writeBytes_outside hm hd hc

/-- Settles O18: in each of the three endings of a hash command (`CheckOrder.exec_algInstr_next`). -/
theorem hashCommandFrame : Obligations.HashCommandFrame := by
  intro i a d s t hi hm h
  obtain ⟨dir, rfl⟩ := eq_hashInstr_of_hashOf hi
  obtain ⟨hcur, hend⟩ := CheckOrder.exec_algInstr_next (a := .hash a) h
  rw [show s.cur = .hash from hcur] at hend
  obtain ⟨⟨hdq, -⟩, rfl⟩ | ⟨hr, rfl⟩ | rfl := hend
  · exact ⟨rfl, completed_kept rfl rfl hm hdq fun _ _ => rfl⟩
  · exact ⟨rfl, hashNext_kept hm hr⟩
  · exact ⟨rfl, stickEngine_kept .hash _ _ s⟩

end Sys2Proof.Proofs.CommandFrame

/-! The proofs of the family 41_descriptor_commands, the counter: its arithmetic in both byte orders. -/

namespace Sys2Proof.Proofs.Counter

open Sys2Proof Sys2Proof.Machine Sys2Proof.Laws

/-! ### The counter (41_descriptor_commands.md R207) -/

/-- A block is the number of its 16 bytes. -/
theorem leNat_toBytes (x : Block) : leNat (Claims.toBytes 16 x) = x.toNat :=
  (leNat_leBytes 16 x.toNat).trans (Nat.mod_eq_of_lt x.isLt)

/-- A block in the other byte order has its bytes reversed. -/
theorem toBytes_swap128 (x : Block) : Claims.toBytes 16 (swap128 x) = (Claims.toBytes 16 x).reverse :=
  bytesOf_bitsOf rfl (by rw [List.length_reverse, bytesOf_length])

/-- An advance is an addition modulo 2^128 on the little-endian number. -/
theorem toBytes_add (x : Block) (n : Nat) :
    Claims.toBytes 16 (x + BitVec.ofNat 128 n) = leBytes 16 ((leNat (Claims.toBytes 16 x) + n) % 2 ^ 128) := by
  rw [leNat_toBytes, Claims.toBytes, BitVec.toNat_add, BitVec.toNat_ofNat, Nat.add_mod_mod]

/-- Settles O19: the big-endian clause is the little-endian one between two reversals of the bytes. -/
theorem counterArithmetic : Obligations.CounterArithmetic := by
  intro e x n k
  refine ⟨rfl, toBytes_add x n, ?_, Chain.add128_add e x n k⟩
  rw [add128, toBytes_swap128, List.reverse_reverse, ← toBytes_swap128]
  exact toBytes_add (swap128 x) n

end Sys2Proof.Proofs.Counter

/-! The proofs of the family 41_descriptor_commands, split payloads: two hash descriptors that share a state. -/

namespace Sys2Proof.Proofs.HashSplit

open Sys2Proof Sys2Proof.Machine Sys2Proof.Laws Sys2Proof.Proofs.Commands

/-! ### What a hash command leaves in memory (41_descriptor_commands.md R220) -/

section
variable {a : HashAlg} {d : Trb} {s : State}

theorem hashRan_wf (hm : Memory.wf s.mem = true) (hr : Claims.HashRuns a d s) :
    Memory.wf (hashRan a d s).mem = true := by
  obtain ⟨-, -, -, -, -, -, -, ⟨hd, -⟩, -⟩ := hr
  exact Memory.writeBytes_wf hm (by rwa [hashFold_length])

/-- The completion leaves every range apart from its byte. -/
theorem readBytes_hashNext (hm : Memory.wf s.mem = true) (hr : Claims.HashRuns a d s) {c n : Nat}
    (hc : Claims.Apart s.hash.dq.toNat 1 c n) :
    Memory.readBytes (Claims.hashNext a (Claims.compressOf a d s) d s).mem c n =
      Memory.readBytes (hashRan a d s).mem c n := by
  have hwf := hashRan_wf hm hr
  obtain ⟨-, -, -, -, -, -, -, -, hdq, -⟩ := hr
  exact Memory.readBytes_writeBytes_apart hwf hdq hc.symm

theorem hashNext_wf (hm : Memory.wf s.mem = true) (hr : Claims.HashRuns a d s) :
    Memory.wf (Claims.hashNext a (Claims.compressOf a d s) d s).mem = true := by
  have hwf := hashRan_wf hm hr
  obtain ⟨-, -, -, -, -, -, -, -, hdq, -⟩ := hr
  exact Memory.writeBytes_wf hwf hdq

/-- The state a hash command computes is at DPTR, when the completion byte is apart from it. -/
theorem readBytes_hashNext_state (hm : Memory.wf s.mem = true) (hr : Claims.HashRuns a d s)
    (hc : Claims.Apart s.hash.dq.toNat 1 d.dptr.toNat a.stateLen) :
    Memory.readBytes (Claims.hashNext a (Claims.compressOf a d s) d s).mem d.dptr.toNat a.stateLen =
      Claims.hashFold a (Claims.compressOf a d s) d s := by
  rw [readBytes_hashNext hm hr hc]
  obtain ⟨-, -, -, -, -, -, -, ⟨hd, -⟩, -⟩ := hr
  rw [← hashFold_length a d s] at hd ⊢
  exact Memory.readBytes_writeBytes_same hm hd

/-- A range apart from the state and the completion byte is left as it was. -/
theorem readBytes_hashNext_apart (hm : Memory.wf s.mem = true) (hr : Claims.HashRuns a d s) {c n : Nat}
    (hc : Claims.Apart s.hash.dq.toNat 1 c n) (hd : Claims.Apart c n d.dptr.toNat a.stateLen) :
    Memory.readBytes (Claims.hashNext a (Claims.compressOf a d s) d s).mem c n = Memory.readBytes s.mem c n := by
  rw [readBytes_hashNext hm hr hc]
  obtain ⟨-, -, -, -, -, -, -, ⟨hend, -⟩, -⟩ := hr
  rw [← hashFold_length a d s] at hend hd
  exact Memory.readBytes_writeBytes_apart hm hend hd

end

/-! ### Two descriptors over one payload (41_descriptor_commands.md R222) -/

/-- The compression depends on the state of the machine by the sub-key alone. -/
theorem compressOf_congr (a : HashAlg) {d d' : Trb} {s u : State}
    (h : Memory.readBytes u.mem d'.kptr.toNat 16 = Memory.readBytes s.mem d.kptr.toNat 16) :
    Claims.compressOf a d' u = Claims.compressOf a d s := by
  cases a with
  | ghash => funext st x; rw [Claims.compressOf, Claims.compressOf, h]
  | _ => rfl

/-- The descriptor of the first `n` bytes of the payload. -/
def firstPart (d : Trb) (n : BitVec 16) : Trb := { d with size := n }

/-- The descriptor of the payload after its first `n` bytes. -/
def secondPart (d : Trb) (n : BitVec 16) : Trb := { d with size := d.size - n, sptr := d.sptr + n.setWidth 32 }

section
variable {d : Trb} {n : BitVec 16}

theorem size_secondPart (h : n.toNat ≤ d.size.toNat) : (secondPart d n).size.toNat = d.size.toNat - n.toNat :=
  BitVec.toNat_sub_of_le h

/-- A second part that is not empty starts inside the DMA space. -/
theorem sptr_secondPart (h : d.sptr.toNat + n.toNat < Config.dmaEnd) :
    (secondPart d n).sptr.toNat = d.sptr.toNat + n.toNat := by
  rw [secondPart, BitVec.toNat_add, BitVec.toNat_setWidth, Nat.add_mod_mod]
  exact Nat.mod_eq_of_lt h

/-- The second part, started from the state the first part computes, computes the state of the whole payload. -/
theorem hashFold_secondPart {a : HashAlg} {f : List Byte → List Byte → List Byte} {s u : State}
    (hend : d.sptr.toNat + n.toNat < Config.dmaEnd) (hn : n.toNat ≤ d.size.toNat)
    (hfirst : n.toNat % a.blockSize = 0) (hsecond : (secondPart d n).size.toNat % a.blockSize = 0)
    (hpay : Memory.readBytes u.mem (d.sptr.toNat + n.toNat) (d.size.toNat - n.toNat) =
      Memory.readBytes s.mem (d.sptr.toNat + n.toNat) (d.size.toNat - n.toNat))
    (hstate : Memory.readBytes u.mem d.iptr.toNat a.stateLen = Claims.hashFold a f (firstPart d n) s) :
    Claims.hashFold a f (secondPart d n) u = Claims.hashFold a f d s := by
  rw [size_secondPart hn] at hsecond
  have hblocks : d.size.toNat / a.blockSize = n.toNat / a.blockSize + (d.size.toNat - n.toNat) / a.blockSize := by
    rw [← Nat.add_div_of_dvd_right (Nat.dvd_of_mod_eq_zero hfirst), Nat.add_sub_cancel' hn]
  have hpay' : Memory.readBytes u.mem (d.sptr.toNat + n.toNat)
      ((d.size.toNat - n.toNat) / a.blockSize * a.blockSize) = Memory.readBytes s.mem (d.sptr.toNat + n.toNat)
      ((d.size.toNat - n.toNat) / a.blockSize * a.blockSize) := by
    rwa [Nat.div_mul_cancel (Nat.dvd_of_mod_eq_zero hsecond)]
  calc Claims.hashFold a f (secondPart d n) u
      = absorbBlocks u.mem a.blockSize f (d.sptr.toNat + n.toNat) ((d.size.toNat - n.toNat) / a.blockSize)
          (Claims.hashFold a f (firstPart d n) s) := by
        rw [hashFold_eq, sptr_secondPart hend, size_secondPart hn, ← hstate]
        rfl
    _ = absorbBlocks s.mem a.blockSize f (d.sptr.toNat + n.toNat) ((d.size.toNat - n.toNat) / a.blockSize)
          (Claims.hashFold a f (firstPart d n) s) := absorbBlocks_congr hpay' _
    _ = Claims.hashFold a f d s := by
        rw [hashFold_eq a f d s, hblocks, absorbBlocks_add, Nat.div_mul_cancel (Nat.dvd_of_mod_eq_zero hfirst)]
        rfl

end

/-- Settles O21: the first command leaves the state of its part at the pointer they share, and the payload, the sub-key
and the second part's own completion apart from it; `hashFold_secondPart` joins the two parts. -/
theorem hashDescriptorsSplit : Obligations.HashDescriptorsSplit := by
  intro a dir d n s t u v hm hptr hn L dq d1 d2 hend hpay hkey hdq hdqPay hdqKey hdq' hr ht hr1 hu hr2 hv
  rw [exec_hashInstr_of_runs dir hr] at ht
  rw [exec_hashInstr_of_runs dir hr1] at hu
  rw [exec_hashInstr_of_runs dir hr2] at hv
  cases ht
  cases hv
  have hu' : Claims.hashNext a (Claims.compressOf a d s) d1 s = u := Host.Outcome.next.inj hu
  have hmu : Memory.wf u.mem = true := hu' ▸ hashNext_wf hm hr1
  have hdqu : u.hash.dq = s.hash.dq + 32 := hu' ▸ rfl
  have hst : Memory.readBytes u.mem d.dptr.toNat L = Claims.hashFold a (Claims.compressOf a d s) d1 s :=
    hu' ▸ readBytes_hashNext_state hm hr1 hdq
  have hkept {c k : Nat} (hc : Claims.Apart dq 1 c k) (hd : Claims.Apart c k d.dptr.toNat L) :
      Memory.readBytes u.mem c k = Memory.readBytes s.mem c k :=
    hu' ▸ readBytes_hashNext_apart hm hr1 hc hd
  have hcompress : Claims.compressOf a d2 u = Claims.compressOf a d s := compressOf_congr a (hkept hdqKey hkey)
  have hdq2 : Claims.Apart u.hash.dq.toNat 1 d2.dptr.toNat L := hdqu ▸ hdq'
  rw [readBytes_hashNext_state hm hr hdq, show d.dptr = d2.dptr from rfl, readBytes_hashNext_state hmu hr2 hdq2,
    hcompress]
  obtain ⟨-, -, -, hfirst, -⟩ := hr1
  obtain ⟨-, -, hsize2, hsecond, -⟩ := hr2
  have hpos : d.size.toNat - n.toNat ≠ 0 := fun h =>
    hsize2 (BitVec.eq_of_toNat_eq ((size_secondPart hn).trans h))
  have hinside : d.sptr.toNat + n.toNat < Config.dmaEnd := by
    rw [Config.dmaEnd]
    omega
  refine hashFold_secondPart hinside hn hfirst hsecond (hkept (by omega) (by omega)) ?_
  rwa [hptr]

end Sys2Proof.Proofs.HashSplit

/-! The proofs of the family 42_hash_fsm, the runs of an update: how `split` cuts a length. -/

namespace Sys2Proof.Proofs.HashRuns

open Sys2Proof Sys2Proof.Machine

/-! ### The lists of runs `split` makes (42_hash_fsm.md R256)

With fuel for the whole length: nothing, a last run, or a full run before the runs of what it leaves. -/

theorem splitRuns_induction {m : Nat} {P : Nat → Nat → List Run → Prop} (nil : ∀ a, P a 0 [])
    (last : ∀ a len, 0 < len → len ≤ m → P a len [⟨a, len⟩])
    (cons : ∀ a len l, m < len → P (a + m) (len - m) l → P a len (⟨a, m⟩ :: l)) {k a len : Nat}
    (hlen : len ≤ k * m) : P a len (splitRuns m k a len) := by
  induction k generalizing a len with
  | zero =>
    obtain rfl : len = 0 := by omega
    exact nil a
  | succ k ih =>
    rw [Nat.succ_mul] at hlen
    rw [splitRuns]
    split
    case isTrue hz => exact hz ▸ nil a
    case isFalse hz =>
      split
      case isTrue hle => exact last a len (Nat.pos_of_ne_zero hz) hle
      case isFalse hle => exact cons a len _ (Nat.lt_of_not_le hle) (ih (by omega))

section
variable {m k a len : Nat} (hlen : len ≤ k * m)
include hlen

theorem flatMap_splitRuns :
    (splitRuns m k a len).flatMap (fun r => List.range' r.addr r.len) = List.range' a len := by
  refine splitRuns_induction (P := fun a len l => l.flatMap (fun r => List.range' r.addr r.len) = List.range' a len)
    (fun a => rfl) (fun a len _ _ => ?_) (fun a len l hlt ih => ?_) hlen
  · simp
  · rw [List.flatMap_cons, ih, List.range'_append_1, Nat.add_sub_cancel' (Nat.le_of_lt hlt)]

theorem splitRuns_len_pos_le (hm : 0 < m) : ∀ r ∈ splitRuns m k a len, 0 < r.len ∧ r.len ≤ m :=
  splitRuns_induction (P := fun _ _ l => ∀ r ∈ l, 0 < r.len ∧ r.len ≤ m) (fun _ => List.forall_mem_nil _)
    (fun _ _ hpos hle => List.forall_mem_singleton.2 ⟨hpos, hle⟩)
    (fun _ _ _ _ ih => List.forall_mem_cons.2 ⟨⟨hm, Nat.le_refl m⟩, ih⟩) hlen

/-- Every run but the last is full. -/
theorem splitRuns_len_dropLast : ∀ r ∈ (splitRuns m k a len).dropLast, r.len = m := by
  refine splitRuns_induction (P := fun _ _ l => ∀ r ∈ l.dropLast, r.len = m) (fun _ => List.forall_mem_nil _)
    (fun _ _ _ _ => List.forall_mem_nil _) (fun a len l _ ih => ?_) hlen
  cases l with
  | nil => exact List.forall_mem_nil _
  | cons y l => exact List.forall_mem_cons.2 ⟨rfl, ih⟩

/-- Block multiples are cut into block multiples. -/
theorem dvd_splitRuns_len {bs : Nat} (hbs : bs ∣ len) (hm : bs ∣ m) : ∀ r ∈ splitRuns m k a len, bs ∣ r.len :=
  splitRuns_induction (P := fun _ len l => bs ∣ len → ∀ r ∈ l, bs ∣ r.len) (fun _ _ => List.forall_mem_nil _)
    (fun _ _ _ _ h => List.forall_mem_singleton.2 h)
    (fun _ _ _ _ ih h => List.forall_mem_cons.2 ⟨hm, ih (Nat.dvd_sub h hm)⟩) hlen hbs

end

/-- Settles O49: each clause is one induction along the list `split` makes. -/
theorem splitRunsCover : Obligations.SplitRunsCover := by
  intro m k a len bs hm hlen
  exact ⟨flatMap_splitRuns hlen, splitRuns_len_pos_le hlen hm, splitRuns_len_dropLast hlen, fun h0 hm0 r hr =>
    Nat.mod_eq_zero_of_dvd (dvd_splitRuns_len hlen (Nat.dvd_of_mod_eq_zero h0) (Nat.dvd_of_mod_eq_zero hm0) r hr)⟩

end Sys2Proof.Proofs.HashRuns
/-! The proofs of the family 42_hash_fsm, the padding of a message. -/

namespace Sys2Proof.Proofs.HashPadding

open Sys2Proof Sys2Proof.Machine Sys2Proof.Laws

/-! ### Bytes, a marker, zeros and a tail -/

section
variable {b tail : List Byte} {x : Byte} {n i : Nat}

theorem getElem?_marker : (b ++ x :: tail)[b.length]? = some x := by simp

theorem getElem?_zeros (hlo : b.length ≤ i) (hhi : i < b.length + n) :
    (b ++ List.replicate n 0)[i]? = some (0 : Byte) := by
  rw [List.getElem?_append_right hlo]
  exact List.getElem?_replicate_of_lt (by omega)

theorem getElem?_zeros_of_marker (hlo : b.length < i) (hhi : i < b.length + 1 + n) :
    (b ++ x :: (List.replicate n 0 ++ tail))[i]? = some (0 : Byte) := by
  rw [List.append_cons, ← List.append_assoc, List.getElem?_append_left (by simp; omega)]
  exact getElem?_zeros (by simp; omega) (by simp; omega)

theorem drop_tail (h : i = b.length + 1 + n) : (b ++ x :: (List.replicate n 0 ++ tail)).drop i = tail := by
  rw [List.append_cons, ← List.append_assoc]
  exact List.drop_left' (by simp; omega)

end

/-! ### What PAD writes for each kind of algorithm (42_hash_fsm.md R258 to R260) -/

section
variable {a : HashAlg} {left : Nat} {total : BitVec 64}

theorem padBytes_md5 : padBytes .md5 left total =
    0x80 :: (List.replicate (md5LengthAt left - left - 1) 0 ++ leBytes 8 (8 * total).toNat) := rfl

theorem padLen_md5 : padLen .md5 left = md5LengthAt left + 8 := rfl

/-- The length field lies behind the marker. -/
theorem lt_md5LengthAt (h : left < HashAlg.md5.blockSize) : left < md5LengthAt left := by
  have hb : left < 64 := h
  unfold md5LengthAt
  split <;> omega

theorem padLen_md5_eq_ite : padLen .md5 left = if left ≤ 55 then 64 else 128 := by
  rw [padLen_md5, md5LengthAt]
  split <;> rfl

theorem padBytes_ghash : padBytes .ghash left total = if left = 0 then [] else List.replicate (16 - left) 0 := rfl

theorem padLen_ghash : padLen .ghash left = if left = 0 then 0 else 16 := rfl

/-- The zeros that fill the last block of a GHASH message, none when it is full already. -/
theorem padBytes_ghash_eq_replicate :
    padBytes .ghash left total = List.replicate (padLen .ghash left - left) 0 := by
  rw [padBytes_ghash, padLen_ghash]
  split
  case isTrue hz => rw [hz]; rfl
  case isFalse => rfl

theorem padLen_ghash_ge (h : left < HashAlg.ghash.blockSize) : left ≤ padLen .ghash left := by
  have hb : left < 16 := h
  rw [padLen_ghash]
  split <;> omega

variable (hm : a ≠ .md5) (hg : a ≠ .ghash)
include hm hg

theorem padLen_sha3 : padLen a left = a.blockSize := by
  cases a with
  | md5 => contradiction
  | ghash => contradiction
  | _ => rfl

/-- With one byte free the two markers of SHA3 share it. -/
theorem padBytes_sha3_full (h : left = a.blockSize - 1) : padBytes a left total = [0x86] := by
  cases a with
  | md5 => contradiction
  | ghash => contradiction
  | _ => exact if_pos h

theorem padBytes_sha3 (h : left < a.blockSize - 1) :
    padBytes a left total = 0x06 :: (List.replicate (a.blockSize - left - 2) 0 ++ [0x80]) := by
  cases a with
  | md5 => contradiction
  | ghash => contradiction
  | _ => exact if_neg (Nat.ne_of_lt h)

end

/-! ### The padded buffer -/

section
variable {a : HashAlg} {left : Nat} {total : BitVec 64}

/-- The padding fills the final descriptor. -/
theorem left_add_padBytes_length (h : left < a.blockSize) : left + (padBytes a left total).length = padLen a left := by
  by_cases hm : a = .md5
  · subst hm
    have := lt_md5LengthAt h
    simp only [padBytes_md5, padLen_md5, List.length_cons, List.length_append, List.length_replicate, leBytes_length]
    omega
  by_cases hg : a = .ghash
  · subst hg
    have := padLen_ghash_ge h
    rw [padBytes_ghash_eq_replicate, List.length_replicate]
    omega
  rw [padLen_sha3 hm hg]
  by_cases hl : left = a.blockSize - 1
  · rw [padBytes_sha3_full hm hg hl, List.length_singleton]
    omega
  · rw [padBytes_sha3 hm hg (by omega)]
    simp only [List.length_cons, List.length_append, List.length_replicate, List.length_nil]
    omega

/-- The final descriptor is a whole number of blocks. -/
theorem padLen_mod_blockSize : padLen a left % a.blockSize = 0 := by
  by_cases hm : a = .md5
  · subst hm
    rw [padLen_md5_eq_ite]
    split <;> rfl
  by_cases hg : a = .ghash
  · subst hg
    rw [padLen_ghash]
    split <;> rfl
  rw [padLen_sha3 hm hg, Nat.mod_self]

end

/-- Settles O50: the length is one count over all algorithms; the bytes are read off the algorithm's padding. -/
theorem paddingFillsBlocks : Obligations.PaddingFillsBlocks := by
  rintro a left total b hleft rfl padded
  have hlen : padded.length = padLen a b.length := List.length_append.trans (left_add_padBytes_length hleft)
  refine ⟨hlen, padLen_mod_blockSize, fun ha => ?md5, fun ha => ?ghash, fun hm hg => ?sha3⟩
  case md5 =>
    subst ha
    have hat := lt_md5LengthAt hleft
    refine ⟨padLen_md5_eq_ite, getElem?_marker, fun i hlo hhi => ?_, ?_⟩
    · rw [padLen_md5] at hhi
      exact getElem?_zeros_of_marker hlo (by omega)
    · rw [← show (8 * total).toNat = 8 * total.toNat % 2 ^ 64 from BitVec.toNat_mul 8 total]
      exact drop_tail (by rw [padLen_md5]; omega)
  case ghash =>
    subst ha
    refine ⟨padLen_ghash, fun i hlo hhi => ?_⟩
    rw [show padded = b ++ List.replicate (padLen .ghash b.length - b.length) 0 from
      congrArg (b ++ ·) padBytes_ghash_eq_replicate]
    exact getElem?_zeros hlo (by omega)
  case sha3 =>
    refine ⟨padLen_sha3 hm hg, fun hfull => ?_, fun hroom => ?_⟩
    · rw [show padded = b ++ [0x86] from congrArg (b ++ ·) (padBytes_sha3_full hm hg hfull)]
      exact getElem?_marker
    · rw [show padded = b ++ 0x06 :: (List.replicate (a.blockSize - b.length - 2) 0 ++ [0x80]) from
        congrArg (b ++ ·) (padBytes_sha3 hm hg hroom)]
      refine ⟨getElem?_marker, ?_, fun i hlo hhi => getElem?_zeros_of_marker hlo (by omega)⟩
      rw [← List.head?_drop, drop_tail (by omega)]
      rfl

end Sys2Proof.Proofs.HashPadding

/-! The proofs of the family 42_hash_fsm, the operations that are done in one step under the session lock: how a thread
takes such a step, HASH_INIT, the checks and the lock, and HASH_SETKEY. -/

namespace Sys2Proof.Proofs.HashOperations

open Sys2Proof Sys2Proof.Machine Sys2Proof.Laws

/-! ### A step of a thread in an operation on a session -/

section
variable {s : State} {t : ThreadId} {k : Task} {h : Handle} {x : HashSession}

theorem step_of_job (ha : Claims.HostAt s t k) (hk : k.sub = none) : step s = jobStep t k (Claims.rest s) := by
  rw [Registers.step_of_hostAt ha]
  cases k
  cases hk
  rfl

theorem step_of_job_eq {j : Job} (ha : Claims.HostAt s t k) (hk : k.sub = none) (hj : k.job = j) :
    step s = jobStep t ⟨j, none, k.ret⟩ (Claims.rest s) := by
  rw [step_of_job ha hk]
  cases k
  cases hk
  cases hj
  rfl

/-- An operation on a session that exists is the session's. -/
theorem onHash_rest (hx : s.hashSession h = some x) (f : HashSession → Step) : onHash (Claims.rest s) h f = f x := by
  have hx' : (Claims.rest s).hashSession h = some x := hx
  rw [onHash, hx']

theorem onCipher_rest {x : CipherSession} (hx : s.cipherSession h = some x) (f : CipherSession → Step) :
    onCipher (Claims.rest s) h f = f x := by
  have hx' : (Claims.rest s).cipherSession h = some x := hx
  rw [onCipher, hx']

section
variable (ha : Claims.HostAt s t k) (hk : k.sub = none)
include ha hk

theorem step_hashCreate {a : HashAlg} {p : Word} (hj : k.job = .hashCreate h a p) :
    step s = hashCreate t h a p (Claims.rest s) :=
  step_of_job_eq ha hk hj

theorem step_cipherCreate {a : CipherAlg} {p : Word} (hj : k.job = .cipherCreate h a p) :
    step s = cipherCreate t h a p (Claims.rest s) :=
  step_of_job_eq ha hk hj

theorem step_cipherDestroy {x : CipherSession} (hx : s.cipherSession h = some x) (hj : k.job = .cipherDestroy h) :
    step s = cipherDestroy t x (Claims.rest s) :=
  (step_of_job_eq ha hk hj).trans (onCipher_rest hx _)

variable (hx : s.hashSession h = some x)
include hx

theorem step_hashDestroy (hj : k.job = .hashDestroy h) : step s = hashDestroy t x (Claims.rest s) :=
  (step_of_job_eq ha hk hj).trans (onHash_rest hx _)

theorem step_hashInit_body {dl : Option Nat} (hj : k.job = .hashInit h dl .body) :
    step s = hashInitBody t dl x (Claims.rest s) :=
  (step_of_job_eq ha hk hj).trans (onHash_rest hx _)

theorem step_hashUpdate {p : Word} {n : Nat} {pc : UpdatePc} (hj : k.job = .hashUpdate h p n pc) :
    step s = hashUpdateStep t k x p n (Claims.rest s) pc := by
  cases k
  cases hj
  exact (step_of_job ha hk).trans (onHash_rest hx _)

theorem step_hashFinal {pc : FinalPc} (hj : k.job = .hashFinal h pc) :
    step s = hashFinalStep t k x (Claims.rest s) pc := by
  cases k
  cases hj
  exact (step_of_job ha hk).trans (onHash_rest hx _)

theorem step_hashSetkey_body {p : Word} {len : Nat} (hj : k.job = .hashSetkey h p len .body) :
    step s = hashSetkeyBody t p len x (Claims.rest s) :=
  (step_of_job_eq ha hk hj).trans (onHash_rest hx _)

theorem step_hashSave_body (hj : k.job = .hashSave h .body) : step s = hashSaveBody t x (Claims.rest s) :=
  (step_of_job_eq ha hk hj).trans (onHash_rest hx _)

theorem step_hashRestore_body {p : Snapshot} (hj : k.job = .hashRestore h p .body) :
    step s = hashRestoreBody t p x (Claims.rest s) :=
  (step_of_job_eq ha hk hj).trans (onHash_rest hx _)

/-- An operation that waits for the session lock goes for it (42_hash_fsm.md R269). -/
theorem step_hashLocked {j : Job} (hj : Claims.hashLocked h k.job = some j) :
    step s = lockHash t x { k with job := j } (Claims.rest s) := by
  obtain rfl : x.handle = h := hashSession_handle hx
  obtain ⟨job, sub, ret⟩ := k
  unfold Claims.hashLocked at hj
  split at hj
  case h_7 => cases hj
  all_goals
    rename_i hjob
    obtain ⟨rfl, hj'⟩ := Option.ite_none_right_eq_some.1 hj
    cases hjob
    cases hj'
    exact (step_of_job ha hk).trans (onHash_rest hx _)

end

end

/-! ### The accesses of an operation -/

/-- A range read and written elsewhere, both inside the backed space. -/
theorem memRead_bind_memWrite {s : State} {a c n : Nat} (hr : Reach s a n) (hw : Reach s c n) :
    ((memRead s.params s.mem a n).bind fun b => memWrite s.params s.mem c b) =
      .ok (Memory.writeBytes s.mem c (Memory.readBytes s.mem a n)) := by
  have hlen : (Memory.readBytes s.mem a n).length = n := Memory.readBytes_length ..
  rw [memRead_ok hr.1 hr.2, Acc.ok_bind, memWrite_ok (by rw [hlen]; exact hw.1) (by rw [hlen]; exact hw.2)]

/-- An operation goes on with what its access gave. -/
theorem hostAccess_of_ok {α : Type} {s : State} {t : ThreadId} {y : Acc α} {a : α} (h : y = .ok a) (f : α → Step) :
    hostAccess s t y f = f a := by
  rw [h, hostAccess_ok]

/-! ### Initialisation (42_hash_fsm.md R251) -/

section
variable {s : State} {t : ThreadId} {x : HashSession}

theorem hashSeed_md5 : hashSeed .md5 =
    [0x01, 0x23, 0x45, 0x67, 0x89, 0xab, 0xcd, 0xef, 0xfe, 0xdc, 0xba, 0x98, 0x76, 0x54, 0x32, 0x10] := by decide

theorem hashInitBody_query : hashInitBody t none x s = .next (leaveHash t x.handle (.okLen x.digestLen) s) := rfl

theorem hashInitBody_of_ne {n : Nat} (hn : n ≠ x.digestLen) :
    hashInitBody t (some n) x s = .next (leaveHash t x.handle (.err .invalidParameter) s) := if_pos hn

theorem hashInitBody_stale (ho : 0 < x.ctx.outstanding) :
    hashInitBody t (some x.digestLen) x s = .refused .staleDescriptors :=
  (if_neg (not_not_intro rfl)).trans (if_pos ho)

theorem hashInitBody_start (ho : x.ctx.outstanding = 0) (hr : Reach s x.stateAddr (hashSeed x.alg).length) :
    hashInitBody t (some x.digestLen) x s = .next (leaveHash t x.handle .ok
      ((s.setMem (Memory.writeBytes s.mem x.stateAddr (hashSeed x.alg))).updHash x.handle fun y =>
        { y with left := 0, total := 0, fsm := .ready, ctx := y.ctx.cleared })) := by
  refine (if_neg (not_not_intro rfl)).trans ((if_neg (Nat.not_lt.2 (Nat.le_of_eq ho))).trans ?_)
  exact hostAccess_of_ok (memWrite_ok hr.1 hr.2) _

end

/-- Settles O47: the body's checks in their order, then the seed. -/
theorem hashInitStartsMessage : Obligations.HashInitStartsMessage := by
  intro s t k h x dl ha hj hk hx left seed
  obtain rfl : x.handle = h := hashSession_handle hx
  have hseed : hashSeed x.alg = seed := by
    simp only [seed]
    generalize x.alg = a
    cases a with
    | md5 => exact hashSeed_md5
    | _ => rfl
  rw [step_hashInit_body ha hk hx hj]
  refine ⟨fun hd => ?query, fun n hd hn => ?other, fun hd ho => ?stale, fun hd ho hr => ?start⟩
  case query => rw [hd, hashInitBody_query]; rfl
  case other => rw [hd, hashInitBody_of_ne hn]; rfl
  case stale => rw [hd, hashInitBody_stale ho]
  case start => rw [hd, hashInitBody_start (s := Claims.rest s) ho (hseed ▸ hr), hseed]; rfl

/-! ### The checks and the session lock (42_hash_fsm.md R253, R257, R263, R269) -/

section
variable {s : State} {t : ThreadId} {k : Task} {x : HashSession}

theorem hashReadyCheck_notReady (hr : x.fsm ≠ .ready) (hu : x.fsm ≠ .updating) (needKey : Bool) :
    hashReadyCheck x needKey = some .hashNotReady := if_pos ⟨hr, hu⟩

/-- In the two states only the key of GHASH is looked at. -/
theorem hashReadyCheck_of_ready (hf : x.fsm = .ready ∨ x.fsm = .updating) (needKey : Bool) :
    hashReadyCheck x needKey = if needKey && x.alg == .ghash && !x.keySet then some .ghashKeyUnset else none :=
  if_neg fun ⟨hr, hu⟩ => hf.elim hr hu

theorem hashReadyCheck_keyUnset (hf : x.fsm = .ready ∨ x.fsm = .updating) (hg : x.alg = .ghash)
    (hkey : x.keySet = false) : hashReadyCheck x true = some .ghashKeyUnset := by
  rw [hashReadyCheck_of_ready hf, if_pos (by simp [hg, hkey])]

theorem hashReadyCheck_key (hf : x.fsm = .ready ∨ x.fsm = .updating) (hkey : x.alg ≠ .ghash ∨ x.keySet = true) :
    hashReadyCheck x true = none := by
  rw [hashReadyCheck_of_ready hf, if_neg (by rcases hkey with hg | hkey <;> simp [*])]

theorem hashReadyCheck_noKey (hf : x.fsm = .ready ∨ x.fsm = .updating) : hashReadyCheck x false = none :=
  hashReadyCheck_of_ready hf false

theorem lockHash_free (h : x.lock = none) :
    lockHash t x k s = .next ((s.updHash x.handle fun y => { y with lock := some t }).setTask t k) := by
  cases x
  cases h
  rfl

theorem lockHash_hold {o : ThreadId} (h : x.lock = some o) : lockHash t x k s = .next s := by
  cases x
  cases h
  rfl

/-- The outcome of the checks decides between the lock and the refusal. -/
theorem hashUpdateStep_check {p : Word} {n : Nat} : hashUpdateStep t k x p n s .check =
    (hashReadyCheck x true).elim (.next (s.setTask t { k with job := .hashUpdate x.handle p n .lock })) .refused := by
  unfold hashUpdateStep
  cases hashReadyCheck x true <;> rfl

theorem hashFinalStep_check : hashFinalStep t k x s .check =
    (hashReadyCheck x true).elim (.next (s.setTask t { k with job := .hashFinal x.handle .lock })) .refused := by
  unfold hashFinalStep
  cases hashReadyCheck x true <;> rfl

theorem step_hashSave_check {h : Handle} (ha : Claims.HostAt s t k) (hk : k.sub = none)
    (hx : s.hashSession h = some x) (hj : k.job = .hashSave h .check) : step s =
      (hashReadyCheck x false).elim (.next ((Claims.rest s).setTask t { k with job := .hashSave h .lock }))
        .refused := by
  cases k
  cases hj
  refine ((step_of_job ha hk).trans (onHash_rest hx _)).trans ?_
  cases hashReadyCheck x false <;> rfl

/-- The inner operation of an update came back with an error (42_hash_fsm.md R267). -/
theorem hashUpdateStep_failed {p : Word} {n : Nat} {e : Err} {runs : List Run} {pc : UpdatePc}
    (hr : k.ret = some (.failed e)) (hpc : pc = .sent runs ∨ pc = .waited runs) :
    hashUpdateStep t k x p n s pc = .next (failHash t x.handle e s) := by
  cases k
  cases hr
  rcases hpc with rfl | rfl <;> rfl

/-- The inner operation of a final came back with an error (42_hash_fsm.md R267). -/
theorem hashFinalStep_failed {e : Err} {pc : FinalPc} (hr : k.ret = some (.failed e))
    (hpc : pc = .queued ∨ pc = .waited) : hashFinalStep t k x s pc = .next (failHash t x.handle e s) := by
  cases k
  cases hr
  rcases hpc with rfl | rfl <;> rfl

end

/-- Settles O51: the outcome of the checks in each state, then the lock, then the error exit. -/
theorem hashStateGuards : Obligations.HashStateGuards := by
  intro s t k h x p n ha hk hx
  obtain rfl : x.handle = h := hashSession_handle hx
  refine ⟨fun hr hu hj => ?notReady,
    fun hf => ⟨fun hg hkey hj => ?noKey, fun hkey => ⟨fun hj => ?update, fun hj => ?final⟩, fun hj => ?save⟩,
    fun j hj => ⟨fun hl => ?free, fun o hl => ?hold⟩, fun e runs hr hj => ?failed⟩
  case notReady =>
    have hc (needKey : Bool) := hashReadyCheck_notReady hr hu needKey
    rcases hj with hj | hj | hj
    · rw [step_hashUpdate ha hk hx hj, hashUpdateStep_check, hc, Option.elim_some]
    · rw [step_hashFinal ha hk hx hj, hashFinalStep_check, hc, Option.elim_some]
    · rw [step_hashSave_check ha hk hx hj, hc, Option.elim_some]
  case noKey =>
    have hc := hashReadyCheck_keyUnset hf hg hkey
    rcases hj with hj | hj
    · rw [step_hashUpdate ha hk hx hj, hashUpdateStep_check, hc, Option.elim_some]
    · rw [step_hashFinal ha hk hx hj, hashFinalStep_check, hc, Option.elim_some]
  case update =>
    rw [step_hashUpdate ha hk hx hj, hashUpdateStep_check, hashReadyCheck_key hf hkey, Option.elim_none]
  case final =>
    rw [step_hashFinal ha hk hx hj, hashFinalStep_check, hashReadyCheck_key hf hkey, Option.elim_none]
  case save => rw [step_hashSave_check ha hk hx hj, hashReadyCheck_noKey hf, Option.elim_none]
  case free => rw [step_hashLocked ha hk hx hj, lockHash_free hl]
  case hold => rw [step_hashLocked ha hk hx hj, lockHash_hold hl]
  case failed =>
    rcases hj with hj | hj | hj | hj
    · exact (step_hashUpdate ha hk hx hj).trans (hashUpdateStep_failed hr (.inl rfl))
    · exact (step_hashUpdate ha hk hx hj).trans (hashUpdateStep_failed hr (.inr rfl))
    · exact (step_hashFinal ha hk hx hj).trans (hashFinalStep_failed hr (.inl rfl))
    · exact (step_hashFinal ha hk hx hj).trans (hashFinalStep_failed hr (.inr rfl))

/-! ### The sub-key (42_hash_fsm.md R262) -/

section
variable {s : State} {t : ThreadId} {k : Task} {h : Handle} {x : HashSession} {p : Word} {len : Nat}

theorem step_hashSetkey_check (ha : Claims.HostAt s t k) (hk : k.sub = none) (hx : s.hashSession h = some x)
    (hj : k.job = .hashSetkey h p len .check) :
    step s = if x.alg ≠ .ghash then .refused .noSetkey
      else .next ((Claims.rest s).setTask t { k with job := .hashSetkey h p len .lock }) := by
  cases k
  cases hj
  exact (step_of_job ha hk).trans (onHash_rest hx _)

theorem hashSetkeyBody_badLength (h16 : len ≠ 16) (h17 : len ≠ 17) :
    hashSetkeyBody t p len x s = .next (leaveHash t x.handle (.err .invalidParameter) s) :=
  if_pos (by omega)

theorem hashSetkeyBody_ok (hlen : len = 16 ∨ len = 17) (hr : Reach s p.toNat 16) (hw : Reach s x.hkeyAddr 16) :
    hashSetkeyBody t p len x s = .next (leaveHash t x.handle .ok
      ((s.setMem (Memory.writeBytes s.mem x.hkeyAddr (Memory.readBytes s.mem p.toNat 16))).updHash x.handle fun y =>
        { y with keySet := true, digestLen := if len = 17 then 16 else y.digestLen })) := by
  rw [hashSetkeyBody, if_neg (by omega), memRead_bind_memWrite hr hw, hostAccess_ok]
  rcases hlen with rfl | rfl <;> rfl

end

/-- Settles O52: the check is one test of the algorithm, the body one of the length. -/
theorem hashSetkeyRules : Obligations.HashSetkeyRules := by
  intro s t k h x p len ha hk hx left
  obtain rfl : x.handle = h := hashSession_handle hx
  refine ⟨fun hj hg => ?notGhash, fun hj hg => ?check, fun hj h16 h17 => ?badLength, fun hj hlen hr hw => ?install⟩
  case notGhash => rw [step_hashSetkey_check ha hk hx hj, if_pos hg]
  case check => rw [step_hashSetkey_check ha hk hx hj, if_neg (not_not_intro hg)]
  case badLength => rw [step_hashSetkey_body ha hk hx hj, hashSetkeyBody_badLength h16 h17]; rfl
  case install => rw [step_hashSetkey_body ha hk hx hj, hashSetkeyBody_ok (s := Claims.rest s) hlen hr hw]; rfl

end Sys2Proof.Proofs.HashOperations

/-! The proofs of the family 42_hash_fsm, HASH_EXPORT and HASH_IMPORT. -/

namespace Sys2Proof.Proofs.HashSnapshot

open Sys2Proof Sys2Proof.Machine Sys2Proof.Laws Sys2Proof.Proofs.HashOperations

/-! ### The snapshots HASH_EXPORT can produce (42_hash_fsm.md R263, R264) -/

/-- A count below `m` and one below `2 ^ w` come from one number exactly when they agree modulo the greatest common
divisor: the Chinese remainder theorem. -/
theorem exists_count_iff {m w left : Nat} {total : BitVec w} (hleft : left < m) :
    (∃ n : Nat, left = n % m ∧ total = BitVec.ofNat w n) ↔
      left % Nat.gcd m (2 ^ w) = total.toNat % Nat.gcd m (2 ^ w) := by
  constructor
  · rintro ⟨n, rfl, rfl⟩
    rw [BitVec.toNat_ofNat, Nat.mod_mod_of_dvd n (Nat.gcd_dvd_left _ _), Nat.mod_mod_of_dvd n (Nat.gcd_dvd_right _ _)]
  · intro h
    obtain ⟨n, hm, hw⟩ := Nat.chineseRemainder' (n := m) (m := 2 ^ w) (a := left) (b := total.toNat) h
    refine ⟨n, (Eq.trans hm (Nat.mod_eq_of_lt hleft)).symm, BitVec.eq_of_toNat_eq ?_⟩
    rw [BitVec.toNat_ofNat]
    exact (Eq.trans hw (Nat.mod_eq_of_lt total.isLt)).symm

section
variable {p : Snapshot}

theorem countsAgree_iff : p.countsAgree = true ↔ (p.fsm = .ready → p.left = 0 ∧ p.total = 0) ∧
    p.left % Nat.gcd p.alg.blockSize (2 ^ 64) = p.total.toNat % Nat.gcd p.alg.blockSize (2 ^ 64) := by
  simp [Snapshot.countsAgree, Classical.or_iff_not_imp_left]

theorem producible_eq_true : p.producible = true ↔ p.left < p.alg.blockSize ∧ (p.fsm = .ready ∨ p.fsm = .updating) ∧
    p.countsAgree = true ∧ p.state.length = p.alg.stateLen ∧ p.buf.length = p.left := by
  simp [Snapshot.producible, and_assoc]

/-- The test of HASH_IMPORT passes exactly the snapshots HASH_EXPORT can produce. -/
theorem producible_iff : p.producible = true ↔ Claims.Exportable p := by
  rw [producible_eq_true, countsAgree_iff]
  constructor
  · rintro ⟨hleft, hfsm, ⟨hready, hcounts⟩, hstate, hbuf⟩
    refine ⟨hleft, hstate, hbuf, hfsm.imp (fun hr => ⟨hr, hready hr⟩) fun hu => ⟨hu, ?_⟩⟩
    exact (exists_count_iff hleft).2 hcounts
  · rintro ⟨hleft, hstate, hbuf, ⟨hr, hz, ht⟩ | ⟨hu, hn⟩⟩
    · exact ⟨hleft, .inl hr, ⟨fun _ => ⟨hz, ht⟩, by rw [hz, ht]; rfl⟩, hstate, hbuf⟩
    · have hnot : p.fsm ≠ .ready := fun hr => absurd (hr.symm.trans hu) (by decide)
      exact ⟨hleft, .inr hu, ⟨fun hr => absurd hr hnot, (exists_count_iff hleft).1 hn⟩, hstate, hbuf⟩

end

/-! ### The bodies of HASH_EXPORT and HASH_IMPORT -/

section
variable {s : State} {t : ThreadId} {x : HashSession} {p : Snapshot}

theorem hashSaveBody_ok (hs : Reach s x.stateAddr x.alg.stateLen) (hb : Reach s x.bufAddr x.left) :
    hashSaveBody t x s = .next (leaveHash t x.handle (.okSnapshot ⟨x.alg, x.fsm, x.left, x.total,
      Memory.readBytes s.mem x.stateAddr x.alg.stateLen, Memory.readBytes s.mem x.bufAddr x.left⟩) s) := by
  rw [hashSaveBody, memRead_ok hs.1 hs.2, hostAccess_ok, memRead_ok hb.1 hb.2, hostAccess_ok]

theorem hashRestoreBody_mismatch (ha : p.alg ≠ x.alg) :
    hashRestoreBody t p x s = .next (leaveHash t x.handle (.err .invalidParameter) s) := if_pos ha

theorem hashRestoreBody_bad (ha : p.alg = x.alg) (hp : p.producible = false) :
    hashRestoreBody t p x s = .refused .badSnapshot :=
  (if_neg (not_not_intro ha)).trans (if_pos hp)

theorem hashRestoreBody_stale (ha : p.alg = x.alg) (hp : p.producible = true) (ho : 0 < x.ctx.outstanding) :
    hashRestoreBody t p x s = .refused .staleDescriptors := by
  rw [hashRestoreBody, if_neg (not_not_intro ha), if_neg (by simp [hp]), if_pos ho]

/-- Memory after HASH_IMPORT: the state and behind it the pending bytes. -/
def restoredMemory (x : HashSession) (p : Snapshot) (m : Memory) : Memory :=
  Memory.writeBytes (Memory.writeBytes m x.stateAddr p.state) x.bufAddr p.buf

theorem restoredMemory_eq (m : Memory) : restoredMemory x p m =
    Memory.writeBytes (Memory.writeBytes m x.stateAddr p.state) x.bufAddr p.buf := rfl

/-- The session after HASH_IMPORT, but for its lock. -/
def restored (p : Snapshot) (y : HashSession) : HashSession :=
  { y with left := p.left, total := p.total, fsm := p.fsm, ctx := y.ctx.cleared }

theorem hashRestoreBody_ok (ha : p.alg = x.alg) (hp : p.producible = true) (ho : x.ctx.outstanding = 0)
    (hs : Reach s x.stateAddr p.state.length) (hb : Reach s x.bufAddr p.buf.length) :
    hashRestoreBody t p x s = .next (leaveHash t x.handle .ok
      ((s.setMem (restoredMemory x p s.mem)).updHash x.handle (restored p))) := by
  rw [hashRestoreBody, if_neg (not_not_intro ha), if_neg (by simp [hp]), if_neg (by omega), memWrite_ok hs.1 hs.2,
    Acc.ok_bind, memWrite_ok hb.1 hb.2, hostAccess_ok]
  rfl

/-- The state of every algorithm ends before the buffer (10_state.md R57). -/
theorem stateLen_le_bufOffset (a : HashAlg) : a.stateLen ≤ 224 := by
  cases a <;> decide

theorem readBytes_restoredMemory_buf {m : Memory} (hm : Memory.wf m = true)
    (hs : x.stateAddr + p.state.length ≤ Config.dmaEnd) (hb : x.bufAddr + p.buf.length ≤ Config.dmaEnd) :
    Memory.readBytes (restoredMemory x p m) x.bufAddr p.buf.length = p.buf :=
  Memory.readBytes_writeBytes_same (Memory.writeBytes_wf hm hs) hb

theorem readBytes_restoredMemory_state {m : Memory} (hm : Memory.wf m = true) (hlen : p.state.length ≤ 224)
    (hs : x.stateAddr + p.state.length ≤ Config.dmaEnd) (hb : x.bufAddr + p.buf.length ≤ Config.dmaEnd) :
    Memory.readBytes (restoredMemory x p m) x.stateAddr p.state.length = p.state := by
  have hapart : x.stateAddr + p.state.length ≤ x.bufAddr := Nat.add_le_add_left hlen x.stateAddr
  rw [restoredMemory_eq, Memory.readBytes_writeBytes_apart (Memory.writeBytes_wf hm hs) hb (.inl hapart)]
  exact Memory.readBytes_writeBytes_same hm hs

end

/-- The session an update of its own leaves. -/
theorem hashSession_updHash_same {s : State} {h : Handle} {x : HashSession} {f : HashSession → HashSession}
    (hx : s.hashSession h = some x) (hf : ∀ y, (f y).handle = y.handle) :
    (s.updHash h f).hashSession h = some (f x) := by
  rw [hashSession_updHash s h h f hf, hx, Option.map_some, if_pos (hashSession_handle hx)]

theorem hashSession_leaveHash {s : State} {t : ThreadId} {h : Handle} {r : Result} {x : HashSession}
    (hx : s.hashSession h = some x) : (leaveHash t h r s).hashSession h = some { x with lock := none } :=
  hashSession_updHash_same (f := fun y => { y with lock := none }) hx fun _ => rfl

/-- Settles O53: `producible_iff` decides the refusal; the restored bytes are read back from `restoredMemory`. -/
theorem exportThenImport : Obligations.ExportThenImport := by
  intro s t k h x ha hk hx left
  obtain rfl : x.handle = h := hashSession_handle hx
  refine ⟨fun hj hs hb => ?save, fun snap hj => ?_⟩
  case save =>
    rw [step_hashSave_body ha hk hx hj]
    exact hashSaveBody_ok (s := Claims.rest s) hs hb
  rw [step_hashRestore_body ha hk hx hj]
  refine ⟨fun halg => hashRestoreBody_mismatch halg, fun halg => ⟨fun hbad => ?bad, fun hexp => ?_⟩⟩
  case bad => exact hashRestoreBody_bad halg (Bool.eq_false_iff.2 fun hp => hbad (producible_iff.1 hp))
  have hp : snap.producible = true := producible_iff.2 hexp
  obtain ⟨-, hstate, hbuf, -⟩ := hexp
  refine ⟨fun ho => hashRestoreBody_stale halg hp ho, fun ho hm hs hb => ?_⟩
  rw [← halg, ← hstate] at hs ⊢
  rw [← hbuf] at hb
  refine ⟨_, hashRestoreBody_ok (s := Claims.rest s) halg hp ho hs hb, ?_, ?_, ?_⟩
  · exact readBytes_restoredMemory_state hm (hstate ▸ stateLen_le_bufOffset _) hs.1 hb.1
  · exact hbuf ▸ readBytes_restoredMemory_buf hm hs.1 hb.1
  · rw [halg]
    refine hashSession_leaveHash (x := restored snap x) ?_
    exact hashSession_updHash_same (f := restored snap) hx fun _ => rfl

end Sys2Proof.Proofs.HashSnapshot

/-! The proofs of the families 42_hash_fsm and 43_sg_walker, the life of a session: creation and destruction. -/

namespace Sys2Proof.Proofs.SessionLife

open Sys2Proof Sys2Proof.Machine Sys2Proof.Laws Sys2Proof.Proofs.HashOperations

/-! ### What other threads are in (42_hash_fsm.md R268, 43_sg_walker.md R325) -/

section
variable {s : State} {t : ThreadId} {h : Handle}

theorem otherTask_eq_false {f : Task → Bool} : s.otherTask t f = false ↔
    ∀ x ∈ s.threads, x.id ≠ t → ∀ j, x.task = some j → f j = false := by
  rw [State.otherTask, List.any_eq_false]
  refine forall₂_congr fun x _ => ?_
  cases x.task <;> simp

theorem sessionBusy_eq_false : s.sessionBusy t h = false ↔
    ∀ x ∈ s.threads, x.id ≠ t → ∀ j, x.task = some j → j.job.session ≠ some h := by
  rw [State.sessionBusy, otherTask_eq_false]
  simp only [beq_eq_false_iff_ne]

theorem crypts_eq_false {k : Task} : k.crypts h = false ↔ ∀ req pc, k.job ≠ .crypt h req pc := by
  unfold Task.crypts
  split
  case h_1 g req pc hj => simp [hj]
  case h_2 hj => exact ⟨fun _ => hj h, fun _ => rfl⟩

theorem otherCrypt_eq_false : s.otherTask t (Task.crypts h) = false ↔
    ∀ x ∈ s.threads, x.id ≠ t → ∀ j, x.task = some j → ∀ req pc, j.job ≠ .crypt h req pc := by
  simp only [otherTask_eq_false, crypts_eq_false]

end

/-! ### Creation and destruction -/

section
variable {s : State} {t : ThreadId} {h : Handle} {p : Word}

theorem handleUsed_eq_false (hc : s.ctx h = none) : s.handleUsed h = false := by
  rw [State.handleUsed, hc, Option.isSome_none]

theorem hashCreate_ok {a : HashAlg} (hc : s.ctx h = none) (hp : p &&& 0x1F = 0) : hashCreate t h a p s =
    .next ({ s with hashSessions := s.hashSessions ++ [freshHash h a p] }.finish t .ok) := by
  rw [hashCreate, if_neg (by simp [handleUsed_eq_false hc]), if_neg (not_not_intro hp)]

theorem cipherCreate_ok {a : CipherAlg} (hc : s.ctx h = none) (hp : p &&& 0x1F = 0) : cipherCreate t h a p s =
    .next ({ s with cipherSessions := s.cipherSessions ++ [freshCipher h a p] }.finish t .ok) := by
  rw [cipherCreate, if_neg (by simp [handleUsed_eq_false hc]), if_neg (not_not_intro hp)]

theorem bne_eq_decide_ne (g h : Handle) : (g != h) = decide (g ≠ h) := by
  rw [Bool.eq_iff_iff, bne_iff_ne, decide_eq_true_iff]

theorem hashDestroy_refused {x : HashSession}
    (hr : 0 < x.ctx.outstanding ∨ x.lock ≠ none ∨ s.sessionBusy t x.handle = true) :
    hashDestroy t x s = .refused .staleDescriptors :=
  if_pos (hr.imp_right (Or.imp_left Option.isSome_iff_ne_none.2))

theorem hashDestroy_ok {x : HashSession} (ho : x.ctx.outstanding = 0) (hl : x.lock = none)
    (hb : s.sessionBusy t x.handle = false) : hashDestroy t x s =
      .next ({ s with hashSessions := s.hashSessions.filter fun y => decide (y.handle ≠ x.handle) }.finish t .ok) := by
  rw [hashDestroy, if_neg (by simp [ho, hl, hb])]
  simp only [bne_eq_decide_ne]

theorem cipherDestroy_refused {x : CipherSession}
    (hr : 0 < x.ctx.outstanding ∨ s.otherTask t (Task.crypts x.handle) = true) :
    cipherDestroy t x s = .refused .staleDescriptors :=
  if_pos hr

theorem cipherDestroy_ok {x : CipherSession} (ho : x.ctx.outstanding = 0)
    (hb : s.otherTask t (Task.crypts x.handle) = false) :
    cipherDestroy t x s = .next
      ({ s with cipherSessions := s.cipherSessions.filter fun y => decide (y.handle ≠ x.handle) }.finish t .ok) := by
  rw [cipherDestroy, if_neg (by simp [ho, hb])]
  simp only [bne_eq_decide_ne]

end

/-- Settles O59: a destroy is refused exactly when the test of what other threads are in, the lock and the count
say so. -/
theorem sessionLifecycle : Obligations.SessionLifecycle := by
  intro s t k h ha hk ctx unused noCrypt
  have hunused : (Claims.rest s).sessionBusy t h = false ↔ unused := sessionBusy_eq_false
  have hcrypt : (Claims.rest s).otherTask t (Task.crypts h) = false ↔ noCrypt := otherCrypt_eq_false
  refine ⟨fun a p hj hc hp => ?hashCreate, fun a p hj hc hp => ?cipherCreate, fun x hj hx => ?hashDestroy,
    fun x hj hx => ?cipherDestroy⟩
  case hashCreate => exact (step_hashCreate ha hk hj).trans (hashCreate_ok hc hp)
  case cipherCreate => exact (step_cipherCreate ha hk hj).trans (cipherCreate_ok hc hp)
  case hashDestroy =>
    obtain rfl : x.handle = h := hashSession_handle hx
    rw [step_hashDestroy ha hk hx hj]
    refine ⟨fun hr => hashDestroy_refused ?_, fun ho hl hu => ?_⟩
    · exact hr.imp_right (Or.imp_right fun hu => Bool.eq_true_of_not_eq_false (mt hunused.1 hu))
    · exact hashDestroy_ok ho hl (hunused.2 hu)
  case cipherDestroy =>
    obtain rfl : x.handle = h := cipherSession_handle hx
    rw [step_cipherDestroy ha hk hx hj]
    refine ⟨fun hr => cipherDestroy_refused ?_, fun ho hu => ?_⟩
    · exact hr.imp_right fun hu => Bool.eq_true_of_not_eq_false (mt hcrypt.1 hu)
    · exact cipherDestroy_ok ho (hcrypt.2 hu)

end Sys2Proof.Proofs.SessionLife

/-! The proofs of the family 42_hash_fsm, a message: the steps of HASH_UPDATE and the stages of HASH_FINAL. -/

namespace Sys2Proof.Proofs.HashMessage

open Sys2Proof Sys2Proof.Machine Sys2Proof.Laws Sys2Proof.Proofs.HashOperations Sys2Proof.Proofs.HashRuns

/-! ### The QUEUE of a hash session (42_hash_fsm.md R252) -/

section
variable {x : HashSession}

/-- The operands of the QUEUE a hash session makes. -/
def hashCall (x : HashSession) (src len : Nat) (final ioc : Bool) : QueueCall where
  ctx := x.handle
  src := BitVec.ofNat 32 src
  dst := x.scratch
  iv := x.scratch
  key := if x.alg = .ghash then BitVec.ofNat 32 x.hkeyAddr else 0
  len := len
  mode := hashMode x.alg final
  ioc := ioc

theorem hashQueue_eq_some {src len : Nat} {final ioc : Bool} (hsrc : src < Config.dmaEnd)
    (hkey : x.alg = .ghash → x.hkeyAddr < Config.dmaEnd) :
    hashQueue x src len final ioc = some (hashCall x src len final ioc) :=
  if_neg (not_or_intro (Nat.not_le.2 hsrc) fun ⟨hg, hle⟩ => absurd (hkey hg) (Nat.not_lt.2 hle))

end

/-! ### The runs of an update (42_hash_fsm.md R253, R256) -/

theorem blockSize_le_maxRun (a : HashAlg) : a.blockSize ≤ Config.maxRun a.blockSize := by
  cases a <;> decide

theorem dvd_maxRun (bs : Nat) : bs ∣ Config.maxRun bs := Nat.dvd_sub_mod _

theorem dvd_directLen (bs left n : Nat) : bs ∣ directLen bs left n := Nat.dvd_sub_mod _

/-- The fuel of `updateRuns` is enough for the whole blocks. -/
theorem le_div_succ_mul {m : Nat} (hm : 0 < m) (len : Nat) : len ≤ (len / m + 1) * m := by
  rw [Nat.mul_comm]
  exact Nat.le_of_lt (Nat.lt_mul_div_succ len hm)

section
variable (x : HashSession) (p n : Nat)

theorem updateRuns_eq : updateRuns x p n = ⟨x.bufAddr, x.alg.blockSize⟩ ::
    splitRuns (Config.maxRun x.alg.blockSize) (directLen x.alg.blockSize x.left n / Config.maxRun x.alg.blockSize + 1)
      (p + (x.alg.blockSize - x.left)) (directLen x.alg.blockSize x.left n) := rfl

theorem maxRun_pos : 0 < Config.maxRun x.alg.blockSize :=
  Nat.lt_of_lt_of_le (HashAlg.blockSize_pos _) (blockSize_le_maxRun _)

/-- Every run of an update is some whole blocks that one descriptor can carry. -/
theorem updateRuns_len : ∀ r ∈ updateRuns x p n,
    0 < r.len ∧ r.len % x.alg.blockSize = 0 ∧ r.len ≤ Config.maxRun x.alg.blockSize := by
  have hfuel := le_div_succ_mul (maxRun_pos x) (directLen x.alg.blockSize x.left n)
  rw [updateRuns_eq]
  refine List.forall_mem_cons.2 ⟨⟨HashAlg.blockSize_pos _, Nat.mod_self _, blockSize_le_maxRun _⟩, fun r hr => ?_⟩
  obtain ⟨hpos, hle⟩ := splitRuns_len_pos_le hfuel (maxRun_pos x) r hr
  exact ⟨hpos, Nat.mod_eq_zero_of_dvd (dvd_splitRuns_len hfuel (dvd_directLen _ _ _) (dvd_maxRun _) r hr), hle⟩

/-- Behind the buffer block the runs cover the whole blocks in place. -/
theorem flatMap_tail_updateRuns : (updateRuns x p n).tail.flatMap (fun r => List.range' r.addr r.len) =
    List.range' (p + (x.alg.blockSize - x.left)) (directLen x.alg.blockSize x.left n) :=
  flatMap_splitRuns (le_div_succ_mul (maxRun_pos x) _)

end

theorem nextRun_eq (rest : List Run) : nextRun rest = if rest = [] then .remainder else .send rest := by
  cases rest <;> rfl

theorem isEmpty_eq_decide (rest : List Run) : rest.isEmpty = decide (rest = []) := by
  cases rest <;> rfl

/-! ### What a step that goes on with another task leaves -/

theorem mem_setMem_setTask (s : State) (t : ThreadId) (k : Task) (m : Memory) :
    ((s.setMem m).setTask t k).mem = m := rfl

theorem task_setTask (s : State) (t : ThreadId) (k : Task) : ((s.setTask t k).thread t).task = some k := by
  rw [State.thread_setTask]

/-! ### The steps of HASH_UPDATE under the lock -/

section
variable {s : State} {t : ThreadId} {k : Task} {x : HashSession} {p : Word} {n : Nat}

theorem hashUpdateStep_body_short (hn : n < x.alg.blockSize - x.left) (hr : Reach s p.toNat n)
    (hw : Reach s (x.bufAddr + x.left) n) : hashUpdateStep t k x p n s .body =
      .next (leaveHash t x.handle .ok ((s.setMem (Memory.writeBytes s.mem (x.bufAddr + x.left)
        (Memory.readBytes s.mem p.toNat n))).updHash x.handle fun y =>
          { y with left := y.left + n, total := y.total + BitVec.ofNat 64 n, fsm := .updating })) :=
  (if_pos hn).trans (hostAccess_of_ok (memRead_bind_memWrite hr hw) _)

theorem hashUpdateStep_body_long (hn : x.alg.blockSize - x.left ≤ n)
    (hr : Reach s p.toNat (x.alg.blockSize - x.left)) (hw : Reach s (x.bufAddr + x.left) (x.alg.blockSize - x.left)) :
    hashUpdateStep t k x p n s .body =
      .next ((s.setMem (Memory.writeBytes s.mem (x.bufAddr + x.left)
        (Memory.readBytes s.mem p.toNat (x.alg.blockSize - x.left)))).setTask t
          { k with job := .hashUpdate x.handle p n (.send (updateRuns x p.toNat n)) }) :=
  (if_neg (Nat.not_lt.2 hn)).trans (hostAccess_of_ok (memRead_bind_memWrite hr hw) _)

theorem hashUpdateStep_send {run : Run} {rest : List Run} (haddr : run.addr < Config.dmaEnd)
    (hkey : x.alg = .ghash → x.hkeyAddr < Config.dmaEnd) : hashUpdateStep t k x p n s (.send (run :: rest)) =
      .next (s.setTask t ⟨.hashUpdate x.handle p n (.sent rest),
        some (.queue (hashCall x run.addr run.len false (decide (rest = []))) .enter), none⟩) := by
  simp only [hashUpdateStep, hashQueue_eq_some haddr hkey, isEmpty_eq_decide]

theorem hashUpdateStep_sent_ioc {rest : List Run} {slot : Nat} (hr : k.ret = some (.queued slot true)) :
    hashUpdateStep t k x p n s (.sent rest) = .next (s.setTask t
      ⟨.hashUpdate x.handle p n (.waited rest), some (.exec x.handle .trigger), none⟩) := by
  cases k
  cases hr
  rfl

/-- After a QUEUE that does not interrupt and after an EXECUTE comes the next run. -/
theorem hashUpdateStep_next {rest : List Run} {pc : UpdatePc} (hk : k.sub = none)
    (h : (pc = .sent rest ∧ ∃ slot, k.ret = some (.queued slot false)) ∨ (pc = .waited rest ∧ k.ret = some .executed)) :
    hashUpdateStep t k x p n s pc = .next (s.setTask t
      ⟨.hashUpdate x.handle p n (if rest = [] then .remainder else .send rest), none, none⟩) := by
  rw [← nextRun_eq]
  cases k
  cases hk
  rcases h with ⟨rfl, slot, hr⟩ | ⟨rfl, hr⟩
  · cases hr
    rfl
  · cases hr
    rfl

theorem hashUpdateStep_remainder
    (hr : Reach s (p.toNat + (x.alg.blockSize - x.left) + directLen x.alg.blockSize x.left n)
      ((n - (x.alg.blockSize - x.left)) % x.alg.blockSize))
    (hw : Reach s x.bufAddr ((n - (x.alg.blockSize - x.left)) % x.alg.blockSize)) :
    hashUpdateStep t k x p n s .remainder =
      .next (leaveHash t x.handle .ok ((s.setMem (Memory.writeBytes s.mem x.bufAddr
        (Memory.readBytes s.mem (p.toNat + (x.alg.blockSize - x.left) + directLen x.alg.blockSize x.left n)
          ((n - (x.alg.blockSize - x.left)) % x.alg.blockSize)))).updHash x.handle fun y =>
            { y with left := (n - (x.alg.blockSize - x.left)) % x.alg.blockSize
                     total := y.total + BitVec.ofNat 64 n
                     fsm := .updating })) :=
  hostAccess_of_ok (memRead_bind_memWrite hr hw) _

end

/-- Settles O48: one lemma a step; the plan of a long input is `updateRuns`. -/
theorem hashUpdateBuffers : Obligations.HashUpdateBuffers := by
  intro s t k h x p n ha hk hx bs avail direct rem buf hkey next
  obtain rfl : x.handle = h := hashSession_handle hx
  refine ⟨fun hj hn hr hw => ?short, fun hj hn hr hw => ?long, fun run rest hj haddr hg => ?send,
    fun rest slot hj => ⟨fun hret => ?ioc, fun hret => ?more⟩, fun rest hj hret => ?waited, fun hj hr hw => ?remainder⟩
  case short =>
    rw [step_hashUpdate ha hk hx hj]
    exact hashUpdateStep_body_short (s := Claims.rest s) hn hr hw
  case long =>
    rw [step_hashUpdate ha hk hx hj]
    exact ⟨_, updateRuns x p.toNat n, hashUpdateStep_body_long (s := Claims.rest s) hn hr hw,
      mem_setMem_setTask _ _ _ _, task_setTask _ _ _, rfl, updateRuns_len x _ n, flatMap_tail_updateRuns x _ n⟩
  case send =>
    rw [step_hashUpdate ha hk hx hj]
    exact hashUpdateStep_send haddr hg
  case ioc => rw [step_hashUpdate ha hk hx hj, hashUpdateStep_sent_ioc hret]
  case more => rw [step_hashUpdate ha hk hx hj, hashUpdateStep_next hk (.inl ⟨rfl, slot, hret⟩)]
  case waited => rw [step_hashUpdate ha hk hx hj, hashUpdateStep_next hk (.inr ⟨rfl, hret⟩)]
  case remainder =>
    rw [step_hashUpdate ha hk hx hj]
    exact hashUpdateStep_remainder (s := Claims.rest s) hr hw

/-! ### The stages of HASH_FINAL (42_hash_fsm.md R257) -/

/-- Only GHASH may have nothing to pad. -/
theorem padBytes_length_pos {a : HashAlg} (hg : a ≠ .ghash) (left : Nat) (total : BitVec 64) :
    0 < (padBytes a left total).length := by
  cases a with
  | ghash => contradiction
  | md5 => exact Nat.succ_pos _
  | _ =>
    simp only [padBytes]
    split <;> exact Nat.succ_pos _

section
variable {s : State} {t : ThreadId} {k : Task} {x : HashSession}

/-- The final descriptor's source is a DMA address: the padding behind it is written, or GHASH's sub-key lies above. -/
theorem bufAddr_lt_dmaEnd (hkey : x.alg = .ghash → x.hkeyAddr < Config.dmaEnd)
    (hr : Reach s (x.bufAddr + x.left) (padBytes x.alg x.left x.total).length) : x.bufAddr < Config.dmaEnd := by
  by_cases hg : x.alg = .ghash
  · have hbuf : x.bufAddr ≤ x.hkeyAddr := Nat.add_le_add_left (by decide) _
    exact Nat.lt_of_le_of_lt hbuf (hkey hg)
  · have hpos := padBytes_length_pos hg x.left x.total
    have hend := hr.1
    omega

theorem hashFinalStep_pad_zero (hr : Reach s (x.bufAddr + x.left) (padBytes x.alg x.left x.total).length)
    (hn : padLen x.alg x.left = 0) : hashFinalStep t k x s .pad =
      .next ((s.setMem (Memory.writeBytes s.mem (x.bufAddr + x.left) (padBytes x.alg x.left x.total))).setTask t
        ⟨.hashFinal x.handle .queued, some (.queue (hashZeroQueue x) .enter), none⟩) :=
  (hostAccess_of_ok (memWrite_ok hr.1 hr.2) _).trans (if_pos hn)

theorem hashFinalStep_pad (hr : Reach s (x.bufAddr + x.left) (padBytes x.alg x.left x.total).length)
    (hn : 0 < padLen x.alg x.left) (hkey : x.alg = .ghash → x.hkeyAddr < Config.dmaEnd) :
    hashFinalStep t k x s .pad =
      .next ((s.setMem (Memory.writeBytes s.mem (x.bufAddr + x.left) (padBytes x.alg x.left x.total))).setTask t
        ⟨.hashFinal x.handle .queued,
          some (.queue (hashCall x x.bufAddr (padLen x.alg x.left) true true) .enter), none⟩) := by
  refine (hostAccess_of_ok (memWrite_ok hr.1 hr.2) _).trans ((if_neg (Nat.ne_of_gt hn)).trans ?_)
  simp only [hashQueue_eq_some (bufAddr_lt_dmaEnd hkey hr) hkey]

theorem hashFinalStep_queued {slot : Nat} {ioc : Bool}
    (hr : k.ret = some (.queued slot ioc) ∨ k.ret = some .updated) : hashFinalStep t k x s .queued =
      .next (s.setTask t ⟨.hashFinal x.handle .waited, some (.exec x.handle .trigger), none⟩) := by
  cases k
  rcases hr with hr | hr
  · cases hr
    rfl
  · cases hr
    rfl

theorem hashFinalStep_waited (hr : k.ret = some .executed) (hd : Reach s x.stateAddr x.digestLen) :
    hashFinalStep t k x s .waited = .next (leaveHash t x.handle
      (.okBytes (Memory.readBytes s.mem x.stateAddr x.digestLen))
      (s.updHash x.handle fun y => { y with fsm := .done })) := by
  cases k
  cases hr
  exact hostAccess_of_ok (memRead_ok hd.1 hd.2) _

end

/-- Settles O60: the padding stage by whether there is a final descriptor, then the two later stages. -/
theorem hashFinalStages : Obligations.HashFinalStages := by
  intro s t k h x ha hk hx buf n final queue
  obtain rfl : x.handle = h := hashSession_handle hx
  refine ⟨fun hj hkey hr => ?pad, fun slot ioc hj hret => ?queued, fun hj hret hd => ?waited⟩
  case pad =>
    rw [step_hashFinal ha hk hx hj]
    rcases Nat.eq_zero_or_pos n with hn | hn
    · exact ⟨_, hashFinalStep_pad_zero (s := Claims.rest s) hr hn, mem_setMem_setTask _ _ _ _,
        fun _ => task_setTask _ _ _, fun h => absurd hn (Nat.ne_of_gt h)⟩
    · exact ⟨_, hashFinalStep_pad (s := Claims.rest s) hr hn (fun hg => hkey hg hn), mem_setMem_setTask _ _ _ _,
        fun h => absurd h (Nat.ne_of_gt hn), fun _ => task_setTask _ _ _⟩
  case queued => rw [step_hashFinal ha hk hx hj, hashFinalStep_queued hret]
  case waited =>
    rw [step_hashFinal ha hk hx hj]
    exact hashFinalStep_waited (s := Claims.rest s) hret hd

end Sys2Proof.Proofs.HashMessage

/-! The proofs of the family 43_sg_walker, segment lists: the addresses of a window of a list, what reading and writing
it does, and how a cursor advances over the list. -/

namespace Sys2Proof.Proofs.SegmentLists

open Sys2Proof Sys2Proof.Machine Sys2Proof.Laws

/-! ### The addresses of a list (43_sg_walker.md R302) -/

/-- The addresses of the logical offsets `o` to `o + n - 1` of a list. -/
def window (l : List Seg) (o n : Nat) : List Nat := ((Claims.sgAddresses l).drop o).take n

theorem window_eq (l : List Seg) (o n : Nat) : window l o n = ((Claims.sgAddresses l).drop o).take n := rfl

theorem sgAddresses_cons (x : Seg) (l : List Seg) :
    Claims.sgAddresses (x :: l) = List.range' x.addr.toNat x.len ++ Claims.sgAddresses l := by
  rw [Claims.sgAddresses, List.range'_eq_map_range]

theorem length_sgAddresses_cons (x : Seg) (l : List Seg) :
    (Claims.sgAddresses (x :: l)).length = x.len + (Claims.sgAddresses l).length := by
  rw [sgAddresses_cons, List.length_append, List.length_range']

theorem sgAddresses_append (l k : List Seg) :
    Claims.sgAddresses (l ++ k) = Claims.sgAddresses l ++ Claims.sgAddresses k := by
  induction l with
  | nil => rfl
  | cons x l ih => rw [List.cons_append, sgAddresses_cons, sgAddresses_cons, ih, List.append_assoc]

theorem sgLen_eq_length (l : List Seg) : sgLen l = (Claims.sgAddresses l).length := by
  induction l with
  | nil => rfl
  | cons x l ih => rw [sgLen, length_sgAddresses_cons, ih]

theorem take_range' (a n k : Nat) : (List.range' a n).take k = List.range' a (min k n) := by
  refine List.ext_getElem (by simp) fun i h h' => ?_
  rw [List.getElem_take, List.getElem_range', List.getElem_range']

theorem readBytes_eq_map_range' (m : Memory) (a n : Nat) :
    Memory.readBytes m a n = (List.range' a n).map (Memory.byte m) := by
  rw [Dma.readBytes_eq_map, List.range'_eq_map_range, List.map_map]
  rfl

section
variable {x : Seg} {l : List Seg} {o n : Nat}

@[simp] theorem window_nil : window [] o n = [] := by
  rw [window_eq, Claims.sgAddresses, List.drop_nil, List.take_nil]

@[simp] theorem window_zero : window l o 0 = [] := List.take_zero

/-- A window behind the first segment is one of the rest of the list. -/
theorem window_cons_of_le (h : x.len ≤ o) : window (x :: l) o n = window l (o - x.len) n := by
  rw [window_eq, window_eq, sgAddresses_cons, List.drop_append, List.length_range',
    List.drop_eq_nil_of_le (by rwa [List.length_range']), List.nil_append]

/-- A window that starts in the first segment is a run of that segment and what is left at the start of the rest. -/
theorem window_cons_of_lt (h : o < x.len) : window (x :: l) o n =
    List.range' (x.addr.toNat + o) (min n (x.len - o)) ++ window l 0 (n - (x.len - o)) := by
  rw [window_eq, window_eq, sgAddresses_cons, List.drop_append_of_le_length (by rw [List.length_range']; omega),
    List.drop_range', List.take_append, take_range', List.length_range', Nat.mul_one, List.drop_zero]

theorem nodup_window (h : (Claims.sgAddresses l).Nodup) : (window l o n).Nodup :=
  h.sublist ((List.take_sublist _ _).trans (List.drop_sublist _ _))

/-! ### Reading and writing a list (43_sg_walker.md R303) -/

/-- A read that is done gives the bytes of its window. -/
theorem sgRead_eq_ok {p : Params} {m : Memory} {b : List Byte} (h : sgRead p m l o n = .ok b) :
    b = (window l o n).map (Memory.byte m) := by
  induction l generalizing o n b with
  | nil =>
    rw [sgRead, Acc.ok.injEq] at h
    rw [← h, window_nil, List.map_nil]
  | cons x l ih =>
    rw [sgRead] at h
    split at h
    case isTrue hn => rw [← Acc.ok.inj h, hn, window_zero, List.map_nil]
    split at h
    case isTrue ho => rw [ih h, window_cons_of_le ho]
    case isFalse ho =>
      obtain ⟨c, hc, h⟩ := Acc.bind_eq_ok.1 h
      obtain ⟨r, hr, h⟩ := Acc.bind_eq_ok.1 h
      obtain ⟨-, -, rfl⟩ := memRead_eq_ok.1 hc
      rw [← Acc.ok.inj h, ih hr, window_cons_of_lt (by omega), List.map_append, readBytes_eq_map_range',
        show n - min n (x.len - o) = n - (x.len - o) by omega]

section
variable {p : Params} {v : List Byte} {m m' : Memory}

theorem sgWrite_nil_bytes (h : sgWrite p l o [] m = .ok m') : m' = m := by
  induction l generalizing o with
  | nil => exact (Acc.ok.inj h).symm
  | cons x l ih => exact (Acc.ok.inj h).symm

/-- All a write does that is done at a segment: nothing to write, nothing in this segment, or its part here and the
rest from the start of the next segment on. -/
theorem sgWrite_cons_eq_ok (h : sgWrite p (x :: l) o v m = .ok m') :
    (v = [] ∧ m' = m) ∨ (x.len ≤ o ∧ sgWrite p l (o - x.len) v m = .ok m') ∨
      (o < x.len ∧ ∃ m₁, memWrite p m (x.addr.toNat + o) (v.take (x.len - o)) = .ok m₁ ∧
        sgWrite p l 0 (v.drop (x.len - o)) m₁ = .ok m') := by
  rw [sgWrite] at h
  split at h
  case isTrue hv => exact .inl ⟨List.isEmpty_iff.1 hv, (Acc.ok.inj h).symm⟩
  split at h
  case isTrue ho => exact .inr (.inl ⟨ho, h⟩)
  case isFalse ho => exact .inr (.inr ⟨by omega, Acc.bind_eq_ok.1 h⟩)

/-- A write changes no byte outside its window. -/
theorem byte_sgWrite_of_notMem (h : sgWrite p l o v m = .ok m') (hm : Memory.wf m = true) {c : Nat}
    (hc : c ∉ window l o v.length) : Memory.byte m' c = Memory.byte m c := by
  induction l generalizing o v m with
  | nil => rw [← Acc.ok.inj h]
  | cons x l ih =>
    rcases sgWrite_cons_eq_ok h with ⟨-, rfl⟩ | ⟨ho, h⟩ | ⟨ho, m₁, hw, h⟩
    · rfl
    · exact ih h hm (window_cons_of_le ho ▸ hc)
    · rw [window_cons_of_lt ho, List.mem_append, not_or, List.mem_range'_1] at hc
      obtain ⟨hhere, hrest⟩ := hc
      rw [ih h (memWrite_wf hw hm) (by rwa [List.length_drop]),
        memWrite_outside hw hm (by rw [List.length_take]; omega)]

/-- A write of bytes that all have a place in the list puts them there, when no address is named twice. -/
theorem map_byte_sgWrite (h : sgWrite p l o v m = .ok m') (hm : Memory.wf m = true)
    (hl : (Claims.sgAddresses l).Nodup) (hle : o + v.length ≤ (Claims.sgAddresses l).length) :
    (window l o v.length).map (Memory.byte m') = v := by
  induction l generalizing o v m with
  | nil =>
    rw [Claims.sgAddresses, List.length_nil] at hle
    rw [window_nil, List.map_nil, List.eq_nil_of_length_eq_zero (l := v) (by omega)]
  | cons x l ih =>
    have hrest : (Claims.sgAddresses l).Nodup := (sgAddresses_cons x l ▸ hl).of_append_right
    rw [length_sgAddresses_cons] at hle
    rcases sgWrite_cons_eq_ok h with ⟨rfl, -⟩ | ⟨ho, h⟩ | ⟨ho, m₁, hw, h⟩
    · rw [List.length_nil, window_zero, List.map_nil]
    · rw [window_cons_of_le ho, ih h hm hrest (by omega)]
    · have hwin := nodup_window (o := o) (n := v.length) hl
      rw [window_cons_of_lt ho] at hwin ⊢
      have hapart := List.disjoint_of_nodup_append hwin
      have hm₁ := memWrite_wf hw hm
      have hthere := ih h hm₁ hrest (by rw [List.length_drop]; omega)
      have hhere : (List.range' (x.addr.toNat + o) (min v.length (x.len - o))).map (Memory.byte m') =
          v.take (x.len - o) := by
        obtain ⟨hend, -, rfl⟩ := memWrite_eq_ok.1 hw
        calc _ = (List.range' (x.addr.toNat + o) (min v.length (x.len - o))).map (Memory.byte _) :=
              List.map_congr_left fun c hc =>
                byte_sgWrite_of_notMem h hm₁ (by rw [List.length_drop]; exact fun hc' => hapart hc hc')
          _ = Memory.readBytes _ (x.addr.toNat + o) (v.take (x.len - o)).length := by
              rw [readBytes_eq_map_range', List.length_take, Nat.min_comm]
          _ = _ := Memory.readBytes_writeBytes_same hm hend
      rw [List.length_drop] at hthere
      rw [List.map_append, hhere, hthere, List.take_append_drop]

end

end

/-- Settles O56: a read and a write both go by the window, segment by segment. -/
theorem segmentListAccess : Obligations.SegmentListAccess := by
  intro p m l o n hm
  exact ⟨fun b h => sgRead_eq_ok h, fun v m' h hl hle =>
    ⟨map_byte_sgWrite h hm hl hle, fun c hc => byte_sgWrite_of_notMem h hm hc⟩⟩

/-! ### A cursor of a list (43_sg_walker.md R310, R313) -/

section
variable {l : List Seg} {i off g : Nat} {x : Seg}

/-- The end of a segment and the start of the next are one logical offset. -/
theorem sgPos_succ (hx : l[i]? = some x) : Claims.sgPos l (i + 1) 0 = Claims.sgPos l i x.len := by
  rw [Claims.sgPos, Claims.sgPos, List.take_add_one, hx, sgAddresses_append, List.length_append, Option.toList_some,
    length_sgAddresses_cons, Claims.sgAddresses, List.length_nil, Nat.add_zero, Nat.add_zero]

/-- The logical offset after the last segment is the length of the list. -/
theorem sgPos_of_drop_eq_nil (h : l.drop i = []) : Claims.sgPos l i 0 = (Claims.sgAddresses l).length := by
  rw [Claims.sgPos, List.take_of_length_le (List.drop_eq_nil_iff.1 h), Nat.add_zero]

/-- A cursor that advances within the list moves its logical offset by as much and stays in a segment. -/
theorem advanceSegs_inSeg (hin : Claims.InSeg l i off)
    (hle : Claims.sgPos l i off + g ≤ (Claims.sgAddresses l).length) :
    Claims.InSeg l (advanceSegs (l.drop i) i off g).1 (advanceSegs (l.drop i) i off g).2 ∧
      Claims.sgPos l (advanceSegs (l.drop i) i off g).1 (advanceSegs (l.drop i) i off g).2 =
        Claims.sgPos l i off + g := by
  obtain ⟨x, hx, hoff⟩ := hin
  generalize hd : l.drop i = d
  induction d generalizing i off g x with
  | nil => rw [List.getElem?_eq_none (List.drop_eq_nil_iff.1 hd)] at hx; cases hx
  | cons y d ih =>
    obtain ⟨rfl, rfl⟩ : y = x ∧ l.drop (i + 1) = d := by
      rw [← List.head?_drop, hd] at hx
      exact ⟨Option.some.inj hx, by rw [← List.tail_drop, hd, List.tail_cons]⟩
    rw [advanceSegs]
    split
    case isTrue hg => exact ⟨⟨y, hx, by omega⟩, Nat.add_assoc .. |>.symm⟩
    case isFalse hg =>
      have hsucc := sgPos_succ hx
      have hend : Claims.sgPos l i y.len + (g - (y.len - off)) = Claims.sgPos l i off + g := by
        simp only [Claims.sgPos]; omega
      obtain ⟨z, hz⟩ : ∃ z, l[i + 1]? = some z := by
        refine Option.ne_none_iff_exists'.1 fun hnone => ?_
        have := sgPos_of_drop_eq_nil (List.drop_eq_nil_iff.2 (List.getElem?_eq_none_iff.1 hnone))
        omega
      rw [← hend, ← hsucc]
      exact ih (by omega) z hz (Nat.zero_le _) rfl

end

end Sys2Proof.Proofs.SegmentLists

/-! The proofs of the family 43_sg_walker, a request before and after its walk: CIPHER_SETKEY, the checks of CRYPT and
what it reads before the walk, and the IV it returns. -/

namespace Sys2Proof.Proofs.CipherRequests

open Sys2Proof Sys2Proof.Machine Sys2Proof.Laws Sys2Proof.Proofs.HashOperations Sys2Proof.Proofs.SegmentLists

/-! ### A step of a thread in an operation on a cipher session, and the session lock (20_memory.md R97) -/

section
variable {s : State} {t : ThreadId} {k : Task} {h : Handle} {x : CipherSession}

section
variable (ha : Claims.HostAt s t k) (hk : k.sub = none) (hx : s.cipherSession h = some x)
include ha hk hx

theorem step_cipherSetkey_lock {p : Word} {len : Nat} (hj : k.job = .cipherSetkey h p len .lock) :
    step s = lockCipher t x { k with job := .cipherSetkey h p len .body } (Claims.rest s) := by
  cases k
  cases hj
  exact (step_of_job ha hk).trans (onCipher_rest hx _)

theorem step_cipherSetkey_body {p : Word} {len : Nat} (hj : k.job = .cipherSetkey h p len .body) :
    step s = cipherSetkeyBody t p len x (Claims.rest s) :=
  (step_of_job_eq ha hk hj).trans (onCipher_rest hx _)

theorem step_crypt {req : Request} {pc : CryptPc} (hj : k.job = .crypt h req pc) :
    step s = cryptStep t k x req (Claims.rest s) pc := by
  cases k
  cases hj
  exact (step_of_job ha hk).trans (onCipher_rest hx _)

end

theorem lockCipher_free (hl : x.lock = none) :
    lockCipher t x k s = .next ((s.updCipher x.handle fun y => { y with lock := some t }).setTask t k) := by
  cases x
  cases hl
  rfl

theorem lockCipher_hold {o : ThreadId} (hl : x.lock = some o) : lockCipher t x k s = .next s := by
  cases x
  cases hl
  rfl

/-- The session an update of its own leaves. -/
theorem cipherSession_updCipher_same {f : CipherSession → CipherSession} (hx : s.cipherSession h = some x)
    (hf : ∀ y, (f y).handle = y.handle) : (s.updCipher h f).cipherSession h = some (f x) := by
  rw [cipherSession_updCipher s h h f hf, hx, Option.map_some, if_pos (cipherSession_handle hx)]

end

/-! ### CIPHER_SETKEY (43_sg_walker.md R301) -/

theorem keyLenOk_iff (a : CipherAlg) (len : Nat) :
    keyLenOk a len = true ↔ len = 32 ∨ (a ≠ .chacha20 ∧ (len = 16 ∨ len = 24)) := by
  cases a with
  | chacha20 => simp [keyLenOk]
  | _ => simp [keyLenOk]; omega

section
variable {s : State} {t : ThreadId} {x : CipherSession} {p : Word} {len : Nat}

theorem cipherSetkeyBody_badLength (hlen : keyLenOk x.alg len = false) :
    cipherSetkeyBody t p len x s = .next (leaveCipher t x.handle (.err .invalidParameter) s) :=
  if_pos hlen

theorem cipherSetkeyBody_ok (hlen : keyLenOk x.alg len = true) (hr : Reach s p.toNat len)
    (hw : Reach s x.keyAddr len) : cipherSetkeyBody t p len x s = .next (leaveCipher t x.handle .ok
      ((s.setMem (Memory.writeBytes s.mem x.keyAddr (Memory.readBytes s.mem p.toNat len))).updCipher x.handle
        fun y => { y with keyLen := some len })) :=
  (if_neg (by simp [hlen])).trans (hostAccess_of_ok (memRead_bind_memWrite hr hw) _)

end

/-- Settles O54: the lock, then the body's one test of the length. -/
theorem cipherSetkeyRules : Obligations.CipherSetkeyRules := by
  intro s t k h x p len ha hk hx left accepted
  obtain rfl : x.handle = h := cipherSession_handle hx
  have hacc : keyLenOk x.alg len = true ↔ accepted := keyLenOk_iff x.alg len
  refine ⟨fun hj hl => ?free, fun hj o hl => ?hold, fun hj hlen => ?badLength, fun hj hlen hr hw => ?install⟩
  case free => rw [step_cipherSetkey_lock ha hk hx hj, lockCipher_free hl]
  case hold => rw [step_cipherSetkey_lock ha hk hx hj, lockCipher_hold hl]
  case badLength =>
    rw [step_cipherSetkey_body ha hk hx hj]
    exact cipherSetkeyBody_badLength (Bool.eq_false_iff.2 (mt hacc.1 hlen))
  case install =>
    rw [step_cipherSetkey_body ha hk hx hj]
    exact cipherSetkeyBody_ok (s := Claims.rest s) (hacc.2 hlen) hr hw

/-! ### The checks of CRYPT in their order (43_sg_walker.md R305 to R307, R317) -/

theorem usesIV_iff (a : CipherAlg) : a.usesIV = true ↔ a ≠ .ecb := by
  cases a with
  | ecb => exact ⟨nofun, fun h => absurd rfl h⟩
  | _ => exact ⟨fun _ => nofun, fun _ => rfl⟩

/-- A request CRYPT answers with an error: a length AES cannot take in whole blocks, or a list too short for it. -/
def Invalid (x : CipherSession) (req : Request) : Prop :=
  ((x.alg = .ecb ∨ x.alg = .cbc) ∧ req.nbytes % 16 ≠ 0) ∨
    (Claims.sgAddresses req.src).length < req.nbytes ∨ (Claims.sgAddresses req.dst).length < req.nbytes

/-- The two tests of the pseudocode are the two ways a request is invalid. -/
theorem invalid_iff (x : CipherSession) (req : Request) : Invalid x req ↔
    ((x.alg = .ecb ∨ x.alg = .cbc) ∧ req.nbytes % x.alg.blockSize ≠ 0) ∨
      sgLen req.src < req.nbytes ∨ sgLen req.dst < req.nbytes := by
  rw [sgLen_eq_length, sgLen_eq_length]
  refine or_congr_left (and_congr_right fun ha => ?_)
  rw [show x.alg.blockSize = 16 by rcases ha with ha | ha <;> rw [ha] <;> rfl]

/-- The state once the checks for keys and stale descriptors are passed: the status of the last request cleared. -/
def statusCleared (h : Handle) (s : State) : State :=
  s.updCipher h fun y => { y with ctx := { y.ctx with status := ccSuccess } }

/-- The state a request leaves that goes on to the walk. -/
def walkStarts (t : ThreadId) (k : Task) (x : CipherSession) (req : Request) (m : Memory) (c0 nextIv : Block)
    (s : State) : State :=
  (((statusCleared x.handle s).setMem m).updCipher x.handle fun y =>
    { y with ivLoaded := y.ivLoaded || x.alg.usesIV }).setTask t
      { k with job := .crypt x.handle req (.walkLock (freshWalk x req c0 nextIv)) }

section
variable {s : State} {t : ThreadId} {k : Task} {x : CipherSession} {req : Request}

theorem cryptBody_keyUnset (hkey : x.keyLen = none) : cryptBody t k req x s = .refused .keyUnset := if_pos hkey

section
variable (hkey : x.keyLen ≠ none)
include hkey

theorem cryptBody_stale (ho : 0 < x.ctx.outstanding) : cryptBody t k req x s = .refused .staleDescriptors :=
  (if_neg hkey).trans (if_pos ho)

variable (ho : x.ctx.outstanding = 0)
include ho

theorem cryptBody_invalid (hi : Invalid x req) : cryptBody t k req x s =
    .next (leaveCipher t x.handle (.err .invalidParameter) (statusCleared x.handle s)) := by
  refine (if_neg hkey).trans ((if_neg (by omega)).trans ?_)
  by_cases hlen : (x.alg = .ecb ∨ x.alg = .cbc) ∧ req.nbytes % x.alg.blockSize ≠ 0
  · exact if_pos hlen
  · exact (if_neg hlen).trans (if_pos (((invalid_iff x req).1 hi).resolve_left hlen))

/-- What is left of a request that is valid. -/
theorem cryptBody_valid (hi : ¬Invalid x req) : cryptBody t k req x s =
    if req.nbytes = 0 then .next (leaveCipher t x.handle .ok (statusCleared x.handle s))
    else hostAccess s t (cryptPrologue x req s) fun r => .next (walkStarts t k x req r.1 r.2.1 r.2.2 s) := by
  obtain ⟨hlen, hshort⟩ := not_or.1 (mt (invalid_iff x req).2 hi)
  exact (if_neg hkey).trans ((if_neg (by omega)).trans ((if_neg hlen).trans (if_neg hshort)))

theorem cryptBody_walk (hi : ¬Invalid x req) (hn : 0 < req.nbytes) {m : Memory} {c0 nextIv : Block}
    (hp : cryptPrologue x req s = .ok (m, c0, nextIv)) :
    cryptBody t k req x s = .next (walkStarts t k x req m c0 nextIv s) := by
  rw [cryptBody_valid hkey ho hi, if_neg (by omega), hp, hostAccess_ok]

end

theorem freshWalk_eq (c0 nextIv : Block) : freshWalk x req c0 nextIv = ⟨0, 0, 0, 0, req.nbytes,
    if x.alg.usesIV then BitVec.ofNat 32 x.ivAddr else 0, .noneExhausted, c0, nextIv⟩ := rfl

theorem cipherSession_walkStarts {m : Memory} {c0 nextIv : Block} (hx : s.cipherSession x.handle = some x) :
    (walkStarts t k x req m c0 nextIv s).cipherSession x.handle =
      some { x with ivLoaded := x.ivLoaded || x.alg.usesIV, ctx := { x.ctx with status := ccSuccess } } := by
  refine cipherSession_updCipher_same (s := (statusCleared x.handle s).setMem m)
    (x := { x with ctx := { x.ctx with status := ccSuccess } })
    (f := fun y => { y with ivLoaded := y.ivLoaded || x.alg.usesIV }) ?_ fun _ => rfl
  exact cipherSession_updCipher_same (f := fun y => { y with ctx := { y.ctx with status := ccSuccess } }) hx
    fun _ => rfl

theorem mem_walkStarts {m : Memory} {c0 nextIv : Block} : (walkStarts t k x req m c0 nextIv s).mem = m := rfl

theorem task_walkStarts {m : Memory} {c0 nextIv : Block} : ((walkStarts t k x req m c0 nextIv s).thread t).task =
    some { k with job := .crypt x.handle req (.walkLock (freshWalk x req c0 nextIv)) } :=
  HashMessage.task_setTask _ _ _

/-! ### What CRYPT reads before the walk (43_sg_walker.md R304, R321) -/

theorem cryptPrologue_ecb (ha : x.alg = .ecb) : cryptPrologue x req s = .ok (s.mem, 0, 0) :=
  if_neg (mt (usesIV_iff _).1 (not_not_intro ha))

/-- The first call of a session copies the request's IV, a later one leaves the stored one. -/
theorem loadIv_ok (hw : Reach s x.ivAddr 16) (hr : x.ivLoaded = false → Reach s req.iv.toNat 16) :
    loadIv x req s = .ok (if x.ivLoaded then s.mem
      else Memory.writeBytes s.mem x.ivAddr (Memory.readBytes s.mem req.iv.toNat 16)) := by
  rw [loadIv]
  cases hl : x.ivLoaded with
  | true => rw [if_pos rfl, if_pos rfl]
  | false => rw [if_neg Bool.false_ne_true, if_neg Bool.false_ne_true, memRead_bind_memWrite (hr hl) hw]

/-- The IV a CBC decryption returns; no other request has one before its walk. -/
def blockAhead (x : CipherSession) (req : Request) (last : Block) : Block :=
  if x.alg = .cbc ∧ req.decrypt then last else 0

theorem blockAhead_of_cbc {last : Block} (hc : x.alg = .cbc ∧ req.decrypt = true) : blockAhead x req last = last :=
  if_pos hc

theorem blockAhead_of_not {last : Block} (hc : ¬(x.alg = .cbc ∧ req.decrypt = true)) : blockAhead x req last = 0 :=
  if_neg hc

theorem cryptPrologue_ok (ha : x.alg ≠ .ecb) {m : Memory} {last : Block} (hl : loadIv x req s = .ok m)
    (hr : Reach s x.ivAddr 16)
    (hlast : x.alg = .cbc → req.decrypt = true →
      ∃ b, sgRead s.params m req.src (req.nbytes - 16) 16 = .ok b ∧ last = Claims.ofBytes 128 b) :
    cryptPrologue x req s =
      .ok (m, Claims.ofBytes 128 (Memory.readBytes m x.ivAddr 16), blockAhead x req last) := by
  rw [cryptPrologue, if_pos ((usesIV_iff _).2 ha), hl, Acc.ok_bind, memRead_ok hr.1 hr.2]
  by_cases hc : x.alg = .cbc ∧ req.decrypt = true
  · obtain ⟨b, hb, rfl⟩ := hlast hc.1 hc.2
    rw [if_pos hc, hb, blockAhead_of_cbc hc]
    rfl
  · rw [if_neg hc, blockAhead_of_not hc]
    rfl

end

/-- Settles O55: `cryptBody` by its checks, and the walk of a valid request starts from what `cryptPrologue` read. -/
theorem cryptChecks : Obligations.CryptChecks := by
  intro s t k h x req ha hk hx
  obtain rfl : x.handle = h := cipherSession_handle hx
  refine ⟨fun hj => ⟨fun hl => ?free, fun o hl => ?hold⟩, fun hj => ?_⟩
  case free => exact (step_crypt ha hk hx hj).trans (lockCipher_free hl)
  case hold => exact (step_crypt ha hk hx hj).trans (lockCipher_hold hl)
  intro cleared left badLength short startsAt passes ivb m
  have hbody : step s = cryptBody t k req x (Claims.rest s) := step_crypt ha hk hx hj
  have hx' : (Claims.rest s).cipherSession x.handle = some x := hx
  have hvalid (hp : passes) : x.keyLen ≠ none ∧ x.ctx.outstanding = 0 ∧ ¬Invalid x req :=
    ⟨hp.1, hp.2.1, not_or.2 hp.2.2⟩
  rw [hbody]
  refine ⟨fun hkey => cryptBody_keyUnset hkey, fun hkey ho => cryptBody_stale hkey ho,
    fun hkey ho hi => cryptBody_invalid hkey ho hi, fun hp hn => ?empty, fun hp hn hecb => ?ecb,
    fun hp hn hiv hw hr last hlast => ?iv⟩
  all_goals obtain ⟨hkey, ho, hi⟩ := hvalid hp
  case empty => exact (cryptBody_valid hkey ho hi).trans (if_pos hn)
  case ecb =>
    have huses : x.alg.usesIV = false := by rw [hecb]; rfl
    refine ⟨_, 0, 0, cryptBody_walk hkey ho hi hn (cryptPrologue_ecb hecb), mem_walkStarts, ?_, ?_⟩
    · rw [cipherSession_walkStarts hx', huses, Bool.or_false]
      rfl
    · rw [task_walkStarts, freshWalk_eq, huses]
      rfl
  case iv =>
    have huses : x.alg.usesIV = true := (usesIV_iff _).2 hiv
    have hprologue := cryptPrologue_ok (s := Claims.rest s) hiv (loadIv_ok (s := Claims.rest s) hw hr) hw hlast
    refine ⟨_, blockAhead x req last, cryptBody_walk hkey ho hi hn hprologue, mem_walkStarts, ?_,
      fun hc hd => blockAhead_of_cbc ⟨hc, hd⟩, ?_⟩
    · rw [cipherSession_walkStarts hx', huses, Bool.or_true]
      rfl
    · rw [task_walkStarts, freshWalk_eq, huses]
      rfl

/-! ### The ring mutex and the end of a request (43_sg_walker.md R311, R320, R322 to R324) -/

section
variable {s : State} {t : ThreadId} {k : Task} {x : CipherSession} {req : Request} {w : Walk}

theorem cryptStep_walkLock_free (hm : s.aesRing.mutex = none) : cryptStep t k x req s (.walkLock w) =
    .next ({ s with aesRing := { s.aesRing with mutex := some t } }.setTask t
      { k with job := .crypt x.handle req (.loop w) }) := by
  unfold cryptStep
  simp only [hm]

theorem cryptStep_walkLock_hold {o : ThreadId} (hm : s.aesRing.mutex = some o) :
    cryptStep t k x req s (.walkLock w) = .next s := by
  unfold cryptStep
  simp only [hm]

/-- The IV to return, once the last destination block of a CBC encryption can be read. -/
theorem returnedIv_ok {tail : Block}
    (htail : x.alg = .cbc → req.decrypt = false →
      ∃ d, sgRead s.params s.mem req.dst (req.nbytes - 16) 16 = .ok d ∧ tail = Claims.ofBytes 128 d) :
    returnedIv x req w s =
      .ok (Claims.ivOf x.alg req.decrypt s.params.ctrEndian req.nbytes w.c0 w.nextIv tail) := by
  unfold returnedIv
  generalize x.alg = a at htail ⊢
  cases a with
  | cbc =>
    cases hd : req.decrypt with
    | true => rfl
    | false =>
      obtain ⟨d, hread, rfl⟩ := htail rfl hd
      show (sgRead ..).bind _ = _
      rw [hread]
      rfl
  | _ => rfl

/-- Memory with an IV of a request both stored and returned. -/
def ivWritten (x : CipherSession) (req : Request) (b : List Byte) (m : Memory) : Memory :=
  Memory.writeBytes (Memory.writeBytes m x.ivAddr b) req.iv.toNat b

theorem writeIv_ecb (ha : x.alg = .ecb) : writeIv x req w s = .ok s.mem :=
  if_neg (mt (usesIV_iff _).1 (not_not_intro ha))

theorem writeIv_ok (ha : x.alg ≠ .ecb) {v : Block} (hv : returnedIv x req w s = .ok v) (hs : Reach s x.ivAddr 16)
    (hr : Reach s req.iv.toNat 16) : writeIv x req w s = .ok (ivWritten x req (Claims.toBytes 16 v) s.mem) := by
  have hlen : (bytesOf 16 v).length = 16 := bytesOf_length 16 v
  rw [writeIv, if_pos ((usesIV_iff _).2 ha), hv, Acc.ok_bind, memWrite_ok (hlen.symm ▸ hs.1) (hlen.symm ▸ hs.2),
    Acc.ok_bind, memWrite_ok (hlen.symm ▸ hr.1) (hlen.symm ▸ hr.2)]
  rfl

section
variable {b : List Byte} {m : Memory} (hb : b.length = 16) (hm : Memory.wf m = true)
  (hs : x.ivAddr + 16 ≤ Config.dmaEnd) (hr : req.iv.toNat + 16 ≤ Config.dmaEnd)
include hb hm hs hr

theorem readBytes_ivWritten_returned : Memory.readBytes (ivWritten x req b m) req.iv.toNat 16 = b := by
  rw [← hb] at hs hr ⊢
  exact Memory.readBytes_writeBytes_same (Memory.writeBytes_wf hm hs) hr

theorem readBytes_ivWritten_stored (hapart : Claims.Apart req.iv.toNat 16 x.ivAddr 16) :
    Memory.readBytes (ivWritten x req b m) x.ivAddr 16 = b := by
  rw [← hb] at hs hr hapart ⊢
  exact (Memory.readBytes_writeBytes_apart (Memory.writeBytes_wf hm hs) hr hapart.symm).trans
    (Memory.readBytes_writeBytes_same hm hs)

theorem byte_ivWritten_outside {c : Nat} (hc : ¬Claims.In c req.iv.toNat 16) (hc' : ¬Claims.In c x.ivAddr 16) :
    Memory.byte (ivWritten x req b m) c = Memory.byte m c := by
  rw [← hb] at hs hr hc hc'
  exact (Memory.byte_writeBytes_outside (Memory.writeBytes_wf hm hs) hr hc).trans
    (Memory.byte_writeBytes_outside hm hs hc')

end

theorem cryptStep_finish_ok {m : Memory} (h : writeIv x req w s = .ok m) : cryptStep t k x req s (.finish w none) =
    .next (leaveCipher t x.handle .ok (s.setMem m)) :=
  hostAccess_of_ok h _

theorem mem_leaveCipher_setMem (h : Handle) (r : Result) (m : Memory) :
    (leaveCipher t h r (s.setMem m)).mem = m := rfl

theorem cipherSession_leaveCipher_setMem {h : Handle} (r : Result) (m : Memory) (hx : s.cipherSession h = some x) :
    (leaveCipher t h r (s.setMem m)).cipherSession h = some { x with lock := none } :=
  cipherSession_updCipher_same (f := fun y => { y with lock := none }) hx fun _ => rfl

end

/-- Settles O58: the mutex, then the end of the request by its error and algorithm; the IV is that of `ivWritten`. -/
theorem cryptReturnsIv : Obligations.CryptReturnsIv := by
  intro s t k h x req w e ha hk hx left mutex
  obtain rfl : x.handle = h := cipherSession_handle hx
  refine ⟨fun hj => ⟨fun hm => ?take, fun o hm => ?hold⟩, fun hj => ?leave, fun hj r he => ?err,
    fun hj he hecb => ?ecb, fun hj he hiv hm hs hr tail htail => ?iv⟩
  all_goals rw [step_crypt ha hk hx hj]
  case take => exact cryptStep_walkLock_free (s := Claims.rest s) hm
  case hold => exact cryptStep_walkLock_hold (s := Claims.rest s) hm
  case leave => rfl
  case err => rw [he]; rfl
  case ecb => rw [he, cryptStep_finish_ok (writeIv_ecb hecb)]; rfl
  case iv =>
    intro iv
    have hlen : iv.length = 16 := bytesOf_length 16 _
    have hwrite := writeIv_ok (s := Claims.rest s) hiv (returnedIv_ok (w := w) htail) hs hr
    have hx' : (Claims.rest s).cipherSession x.handle = some x := hx
    rw [he, cryptStep_finish_ok hwrite]
    refine ⟨_, rfl, ?_, fun hapart => ?_, fun c hc hc' => ?_, ?_, ?_, cipherSession_leaveCipher_setMem .ok _ hx'⟩
    · rw [mem_leaveCipher_setMem]
      exact readBytes_ivWritten_returned hlen hm hs.1 hr.1
    · rw [mem_leaveCipher_setMem]
      exact readBytes_ivWritten_stored hlen hm hs.1 hr.1 hapart
    · rw [mem_leaveCipher_setMem]
      exact byte_ivWritten_outside hlen hm hs.1 hr.1 hc hc'
    · rw [State.leaveCipher_eq, State.thread_finish]
    · rw [State.leaveCipher_eq, State.thread_finish]

end Sys2Proof.Proofs.CipherRequests

/-! The proofs of the family 43_sg_walker, the walk: one pass up to its QUEUE, and what follows the QUEUE and the wait.
-/

namespace Sys2Proof.Proofs.Walker

open Sys2Proof Sys2Proof.Machine Sys2Proof.Laws Sys2Proof.Proofs.HashOperations Sys2Proof.Proofs.HashMessage
open Sys2Proof.Proofs.SegmentLists Sys2Proof.Proofs.CipherRequests

/-! ### The length of a direct run (43_sg_walker.md R314, R315) -/

theorem cipher_blockSize_pos (a : CipherAlg) : 0 < a.blockSize := by
  cases a <;> exact Nat.succ_pos _

theorem cipher_blockSize_le_maxRun (a : CipherAlg) : a.blockSize ≤ Config.maxRun a.blockSize := by
  cases a <;> exact Nat.le_of_ble_eq_true rfl

section
variable {bs run : Nat}

theorem maxRun_le (bs : Nat) : Config.maxRun bs ≤ 65535 := Nat.sub_le ..

theorem lt_maxRun_add (hbs : 0 < bs) : 65535 < Config.maxRun bs + bs := by
  have hmod : Config.sizeMax % bs < bs := Nat.mod_lt _ hbs
  have hsize : Config.sizeMax = 65535 := rfl
  rw [Config.maxRun]
  omega

theorem directRun_eq (bs run : Nat) : directRun bs run = min (run - run % bs) (Config.maxRun bs) := rfl

theorem directRun_mod : directRun bs run % bs = 0 := by
  refine Nat.mod_eq_zero_of_dvd ?_
  rw [directRun_eq, Nat.min_def]
  split
  · exact Nat.dvd_sub_mod run
  · exact dvd_maxRun bs

theorem directRun_le : directRun bs run ≤ run := (Nat.min_le_left ..).trans (Nat.sub_le ..)

theorem directRun_le_sizeMax : directRun bs run ≤ 65535 := (Nat.min_le_right ..).trans (maxRun_le bs)

theorem directRun_pos (hbs : 0 < bs) (hrun : bs ≤ run) (hmax : bs ≤ Config.maxRun bs) : 0 < directRun bs run := by
  have hmod := Nat.mod_lt run hbs
  rw [directRun_eq]
  omega

/-- No block more fits in the run or in one descriptor. -/
theorem directRun_greatest (hbs : 0 < bs) : run < directRun bs run + bs ∨ 65535 < directRun bs run + bs := by
  have hmod := Nat.mod_lt run hbs
  have hmax := lt_maxRun_add hbs
  rw [directRun_eq]
  omega

end

/-! ### One pass of the loop up to its QUEUE (43_sg_walker.md R310, R312 to R316) -/

/-- The operands of the QUEUE the walker makes. -/
def walkCall (x : CipherSession) (req : Request) (w : Walk) (src dst len : Nat) (ioc : Bool) : QueueCall where
  ctx := x.handle
  src := BitVec.ofNat 32 src
  dst := BitVec.ofNat 32 dst
  iv := w.ip
  key := BitVec.ofNat 32 x.keyAddr
  len := len
  mode := cipherMode x req
  ioc := ioc

/-- The bytes both segments at the cursors and the request still hold. -/
def runAt (w : Walk) (a b : Seg) : Nat := min (a.len - w.sOff) (min (b.len - w.dOff) w.left)

theorem runAt_le_left (w : Walk) (a b : Seg) : runAt w a b ≤ w.left :=
  (Nat.min_le_right ..).trans (Nat.min_le_right ..)

/-- The task inside the QUEUE of a piece. -/
def queueing (x : CipherSession) (req : Request) (w : Walk) (p : Piece) (q : QueueCall) : Task :=
  ⟨.crypt x.handle req (.queued w p), some (.queue q .enter), none⟩

section
variable {s : State} {t : ThreadId} {k : Task} {x : CipherSession} {req : Request} {w : Walk}

theorem walkQueue_eq_some {src dst len : Nat} {ioc : Bool} (hsrc : src < Config.dmaEnd) (hdst : dst < Config.dmaEnd)
    (hkey : x.keyAddr < Config.dmaEnd) :
    walkQueue x req w src dst len ioc = some (walkCall x req w src dst len ioc) :=
  if_neg (not_or_intro (Nat.not_le.2 hsrc) (not_or_intro (Nat.not_le.2 hdst) (Nat.not_le.2 hkey)))

section
variable {a b : Seg} (ha : req.src[w.si]? = some a) (hb : req.dst[w.di]? = some b) (hkey : x.keyAddr < Config.dmaEnd)
include ha hb hkey

/-- A run below a block goes through SCRATCH. -/
theorem walkPass_staged {data : List Byte} (hrun : runAt w a b < x.alg.blockSize)
    (hr : sgRead s.params s.mem req.src (req.nbytes - w.left) (min x.alg.blockSize w.left) = .ok data)
    (hw : Reach s x.scrAddr data.length) : walkPass t x req w s =
      .next ((s.setMem (Memory.writeBytes s.mem x.scrAddr data)).setTask t
        (queueing x req w (.staged (min x.alg.blockSize w.left))
          (walkCall x req w x.scrAddr x.scrAddr x.alg.blockSize true))) := by
  have hscr : x.scrAddr < Config.dmaEnd := Nat.lt_of_le_of_lt (Nat.le_add_right ..) hkey
  have hstage : ((sgRead s.params s.mem req.src (req.nbytes - w.left) (min x.alg.blockSize w.left)).bind fun v =>
      memWrite s.params s.mem x.scrAddr v) = .ok (Memory.writeBytes s.mem x.scrAddr data) := by
    rw [hr, Acc.ok_bind, memWrite_ok hw.1 hw.2]
  rw [walkPass, ha, hb]
  refine (if_pos hrun).trans ((hostAccess_of_ok hstage _).trans ?_)
  rw [walkQueue_eq_some hscr hscr hkey]
  rfl

/-- A run of a block or more goes in place, as much as one descriptor carries. -/
theorem walkPass_direct (hrun : x.alg.blockSize ≤ runAt w a b) (hsrc : a.addr.toNat + w.sOff < Config.dmaEnd)
    (hdst : b.addr.toNat + w.dOff < Config.dmaEnd) : walkPass t x req w s =
      .next (s.setTask t (queueing x req
        { w with cursor := cursorOf (directRun x.alg.blockSize (runAt w a b)) (a.len - w.sOff) (b.len - w.dOff) }
        (.direct (directRun x.alg.blockSize (runAt w a b)))
        (walkCall x req w (a.addr.toNat + w.sOff) (b.addr.toNat + w.dOff) (directRun x.alg.blockSize (runAt w a b))
          (decide (directRun x.alg.blockSize (runAt w a b) = w.left))))) := by
  have hle : directRun x.alg.blockSize (runAt w a b) ≤ w.left := directRun_le.trans (runAt_le_left w a b)
  have hlast : (w.left - directRun x.alg.blockSize (runAt w a b) == 0) =
      decide (directRun x.alg.blockSize (runAt w a b) = w.left) := by
    rw [Bool.eq_iff_iff, beq_iff_eq, decide_eq_true_iff]
    omega
  rw [← hlast, walkPass, ha, hb]
  refine (if_neg (Nat.not_lt.2 hrun)).trans ?_
  exact congrArg (startWalkQueue t x req _ _ · s) (walkQueue_eq_some hsrc hdst hkey)

end

/-! ### The other steps of the walk (43_sg_walker.md R310, R311, R319, R324) -/

theorem cryptStep_loop_end (hl : w.left = 0) : cryptStep t k x req s (.loop w) =
    .next (s.setTask t { k with job := .crypt x.handle req (.leave w none) }) :=
  if_pos hl

theorem cryptStep_loop_pass (hl : 0 < w.left) :
    cryptStep t k x req s (.loop w) = walkPass t x req (w.skip req) s :=
  if_neg (Nat.ne_of_gt hl)

/-- The walker's variables once a piece is queued: a direct run advances the cursors, a staged block not yet. -/
def afterQueued (w : Walk) : Piece → Walk
  | .staged _ => w
  | .direct n => w.afterDirect n

theorem cryptStep_queued_ioc {p : Piece} {slot : Nat} (hr : k.ret = some (.queued slot true)) :
    cryptStep t k x req s (.queued w p) = .next (s.setTask t
      ⟨.crypt x.handle req (.waited (afterQueued w p) p), some (.exec x.handle .trigger), none⟩) := by
  cases k
  cases hr
  cases p <;> rfl

theorem cryptStep_queued_more {p : Piece} {slot : Nat} (hk : k.sub = none) (hr : k.ret = some (.queued slot false)) :
    cryptStep t k x req s (.queued w p) = .next (s.setTask t
      ⟨.crypt x.handle req (.loop { afterQueued w p with ip := 0 }), none, none⟩) := by
  cases k
  cases hk
  cases hr
  cases p <;> rfl

theorem cryptStep_waited_direct {n : Nat} (hk : k.sub = none) (hr : k.ret = some .executed) :
    cryptStep t k x req s (.waited w (.direct n)) = .next (s.setTask t
      ⟨.crypt x.handle req (.loop { w with ip := 0 }), none, none⟩) := by
  cases k
  cases hk
  cases hr
  rfl

theorem cryptStep_waited_staged {g : Nat} {m : Memory} (hk : k.sub = none) (hr : k.ret = some .executed)
    (hread : Reach s x.scrAddr g)
    (hwrite : sgWrite s.params req.dst (req.nbytes - w.left) (Memory.readBytes s.mem x.scrAddr g) s.mem = .ok m) :
    cryptStep t k x req s (.waited w (.staged g)) = .next ((s.setMem m).setTask t
      ⟨.crypt x.handle req (.loop (w.afterStaged req g)), none, none⟩) := by
  cases k
  cases hk
  cases hr
  refine hostAccess_of_ok ?_ _
  rw [memRead_ok hread.1 hread.2, Acc.ok_bind, hwrite]

/-- The inner operation came back with an error. -/
theorem cryptStep_failed {p : Piece} {e : Err} {pc : CryptPc} (hk : k.sub = none) (hr : k.ret = some (.failed e))
    (hpc : pc = .queued w p ∨ pc = .waited w p) : cryptStep t k x req s pc = .next (s.setTask t
      ⟨.crypt x.handle req (.leave w (some e)), none, none⟩) := by
  cases k
  cases hk
  cases hr
  rcases hpc with rfl | rfl <;> rfl

end

/-- Settles O57: one lemma a step; a direct run is `directRun`, the cursors advance by `advanceSegs_inSeg`. -/
theorem walkPassQueues : Obligations.WalkPassQueues := by
  intro s t k h x req w ha hk hx goes
  obtain rfl : x.handle = h := cipherSession_handle hx
  refine ⟨fun a b hj hl => ?pass, fun hj hret hl => ?done, fun slot n hj => ⟨fun hret => ?ioc, fun hret => ?more⟩,
    fun slot g hj hret => ?iocStaged, fun n hj hret => ?waited, fun g m hj hret hr hw => ?scatter,
    fun p e hj hret => ?failed⟩
  case pass =>
    intro v hsrc hdst hsOff hdOff bs run call
    have hstep : step s = walkPass t x req v (Claims.rest s) :=
      (step_crypt ha hk hx hj).trans (cryptStep_loop_pass hl)
    have hbs : 0 < bs := cipher_blockSize_pos x.alg
    rw [hstep]
    refine ⟨fun hkey hrun data hr hw => ?_, fun hkey hrun hs hd => ?_⟩
    · exact ⟨_, walkPass_staged (s := Claims.rest s) hsrc hdst hkey hrun hr hw, mem_setMem_setTask _ _ _ _,
        task_setTask _ _ _⟩
    · exact ⟨_, _, walkPass_direct (s := Claims.rest s) hsrc hdst hkey hrun hs hd, rfl,
        directRun_pos hbs hrun (cipher_blockSize_le_maxRun _), directRun_mod, directRun_le, directRun_le_sizeMax,
        directRun_greatest hbs, task_setTask _ _ _⟩
  case scatter =>
    rw [step_crypt ha hk hx hj]
    exact ⟨_, w.afterStaged req g, cryptStep_waited_staged (s := Claims.rest s) hk hret hr hw,
      mem_setMem_setTask _ _ _ _, task_setTask _ _ _, rfl, rfl, rfl, rfl, advanceSegs_inSeg, advanceSegs_inSeg⟩
  case failed =>
    rcases hj with hj | hj
    · exact (step_crypt ha hk hx hj).trans (cryptStep_failed hk hret (.inl rfl))
    · exact (step_crypt ha hk hx hj).trans (cryptStep_failed hk hret (.inr rfl))
  all_goals rw [step_crypt ha hk hx hj]
  case done =>
    cases k
    cases hk
    cases hret
    exact cryptStep_loop_end hl
  case ioc => exact cryptStep_queued_ioc hret
  case more => exact cryptStep_queued_more hk hret
  case iocStaged => exact cryptStep_queued_ioc hret
  case waited => exact cryptStep_waited_direct hk hret

end Sys2Proof.Proofs.Walker

/-! The proofs of the family 70_reset_and_hazards: what a hardware reset leaves, and what a ring refuses before its ring
reset. -/

namespace Sys2Proof.Proofs.Reset

open Sys2Proof Sys2Proof.Machine Sys2Proof.Laws

/-! ### The state after a hardware reset (70_reset_and_hazards.md R400) -/

/-- A listed hardware reset is taken whatever the machine was doing. -/
theorem step_of_hardwareReset {s : State} (h : Claims.Listed s .hardwareReset) :
    step s = .next (hardwareReset (Claims.rest s)) := step_of_listed h

/-- Each engine has the values of 10_state.md R64 but for the latch, which it keeps. -/
@[simp] theorem engine_hardwareReset (s : State) (e : EngineId) :
    (hardwareReset s).engine e = (s.engine e).afterReset := by cases e <;> rfl

/-- RING_CTRL reads as RCS alone after a hardware reset (10_state.md R33, R64). -/
theorem ringCtrlValue_afterReset (x : Engine) : ringCtrlValue x.afterReset = 4 :=
  (by decide : ringCtrlValue Engine.reset = 4)

/-- Each ring keeps its cursors and its counts, and asks for a new ring reset (R402). -/
@[simp] theorem ring_hardwareReset (s : State) (r : EngineId) :
    (hardwareReset s).ring r = { s.ring r with live := false } := by cases r <;> rfl

/-- No interrupt is pending after a hardware reset: no flag is left set. -/
@[simp] theorem irq_hardwareReset (s : State) : (hardwareReset s).irq = false :=
  (by decide : Machine.irq 0 0 = false)

/-- After a hardware reset no engine takes a step before software writes RUN: BUSY is 0. -/
theorem engineStep_hardwareReset (s : State) (e : EngineId) :
    engineStep e (hardwareReset s) = .next (hardwareReset s) :=
  RingEngine.engineStep_disabled (.inl (by rw [engine_hardwareReset]; rfl))

/-- After a hardware reset the dispatcher is outside a dispatch with nothing to enter one for. -/
theorem dispatcherStep_hardwareReset (s : State) :
    dispatcherStep (hardwareReset s) = .next (hardwareReset s) :=
  Registers.dispatcherStep_idle rfl (irq_hardwareReset s)

/-- Settles O29: the state is `hardwareReset` without the event; the values are those of `Engine.afterReset`, and
neither kind of agent is enabled in it. -/
theorem hardwareResetValues : Obligations.HardwareResetValues := by
  intro s hl
  refine ⟨hardwareReset (Claims.rest s), step_of_hardwareReset hl, rfl, rfl, fun e => ?engine, rfl, rfl, rfl,
    irq_hardwareReset _, dispatcherStep_hardwareReset _⟩
  have hidle := engineStep_hardwareReset (Claims.rest s) e
  rw [engine_hardwareReset]
  exact ⟨rfl, ringCtrlValue_afterReset _, rfl, rfl, rfl, rfl, rfl, hidle⟩

/-! ### A ring before its ring reset (70_reset_and_hazards.md R402) -/

section
variable {s : State} {t : ThreadId} {k : Task} {c : Ctx}

/-- A QUEUE is refused at its first step, before its length is looked at. -/
theorem queuePhase_enter_of_not_live {q : QueueCall} {r : EngineId} (hl : (s.ring r).live = false) :
    queuePhase t k q c r s .enter = .refused .ringNotReset := if_pos hl

/-- An EXECUTE is refused at its trigger, whether or not the context is done. -/
theorem execStep_trigger_of_not_live {h : Handle} (hc : s.ctx h = some c) (hl : (s.ring c.ring).live = false) :
    execStep t k h .trigger s = .refused .ringNotReset := by
  rw [(RingEnqueue.execStep_eq hc).1, if_pos hl]

end

/-- No ring of the reset state has had its ring reset. -/
theorem ring_reset_not_live (r : EngineId) : (State.reset.ring r).live = false := by cases r <;> rfl

/-- Settles O43: the first steps of QUEUE and EXECUTE test the ring of the context, a RUN write is the first clause of
`Registers.ringCtrlWrite`, and a hardware reset leaves the ring as `ring_hardwareReset` says. -/
theorem ringNotResetRefuses : Obligations.RingNotResetRefuses := by
  refine ⟨fun s t k c ha hl => ⟨fun q hc hk => ?queue, fun h hc hk => ?execute⟩,
    fun s t e addr v ha hl hv ho => (Registers.ringCtrlWrite s t e addr v ha ho).1 hv hl,
    ring_reset_not_live, fun s u hr hstep r => ?reset⟩
  case queue =>
    have hl' : ((Claims.rest s).ring c.ring).live = false := TurnedAway.ring_rest s c.ring ▸ hl
    rw [RingEnqueue.step_of_queue ha hk hc, queuePhase_enter_of_not_live hl']
  case execute =>
    have hl' : ((Claims.rest s).ring c.ring).live = false := TurnedAway.ring_rest s c.ring ▸ hl
    rw [RingEnqueue.step_of_execute ha hk, execStep_trigger_of_not_live (s := Claims.rest s) hc hl']
  case reset =>
    cases (step_of_hardwareReset hr).symm.trans hstep
    rw [ring_hardwareReset]

end Sys2Proof.Proofs.Reset
